-- ==== Sys2Proof/Word.lean ====
section
/-! DEFINITION. The word types of HUFFCORE (spec 00_scope.md R2, R6, R7) and the alphabet in ascending order. -/

namespace Sys2Proof

/-- A command word, CMD_W = 64 bits (R6, R90). -/
abbrev Word := BitVec 64

/-- One byte of a stream. -/
abbrev Byte := BitVec 8

/-- A symbol is "one byte value, domain 0–255" (R2). -/
abbrev Symbol := BitVec 8

/-- An index into the node memory, IDX_W = 14 bits (R6, R44). -/
abbrev NodeIdx := BitVec 14

/-- The 256 symbols in ascending order: the order of every `for s in 0 .. 255` of the spec. -/
def symbols : List Symbol := (List.range 256).map (BitVec.ofNat 8)

end Sys2Proof
end

