-- ==== Sys2Proof/Syntax.lean ====
section
/-! DEFINITION. The 31 commands of spec/opcode_table.json, one constructor per row, in the table's order. The
operands are the whole fields of the command word (30_encoding.md R90): `sym` 8 bits, `len` 8 bits, `val` 32 bits. -/

namespace Sys2Proof

/-- A command of HUFFCORE with the fields it uses (30_encoding.md R92). -/
inductive Instr where
  | nop
  | sreset
  | rdOpen
  | rdClose
  | rdBit
  | rdByte
  | rdExact (len : BitVec 8)
  | wrOpen
  | wrClose
  | wrBit (val : BitVec 32)
  | wrByte (val : BitVec 32)
  | wrExact (len : BitVec 8) (val : BitVec 32)
  | wrSym (sym : Symbol)
  | fqClear
  | fqSet (sym : Symbol) (val : BitVec 32)
  | fqInc (sym : Symbol)
  | fqScan
  | trClear
  | trInsert (sym : Symbol) (len : BitVec 8) (val : BitVec 32)
  | trBuild
  | trLen
  | tbClear
  | tbSet (sym : Symbol) (len : BitVec 8) (val : BitVec 32)
  | tbBuild
  | encHeader
  | encPayload
  | encode
  | decHeader
  | decStep
  | decPayload
  | decode
  deriving DecidableEq, Repr

end Sys2Proof
end

