-- ==== Sys2Proof/WellFormed.lean ====
section
/-! DEFINITION. The operand constraints of the command word: the fourth column of the opcode map
(30_encoding.md R91, R92). -/

namespace Sys2Proof

/-- The constraints R92 puts on a command's operands. A command outside them is not a legal word: it takes the
fault `ILLEGAL_CMD, BAD_FIELD` (R93). `TR_INSERT` has none at decode. -/
def Instr.wellFormed : Instr → Bool
  | .rdExact len => len.toNat ≤ 4
  | .wrBit val => val.toNat ≤ 1
  | .wrByte val => val.toNat ≤ 255
  | .wrExact len val => len.toNat ≤ 4 && val.toNat < 2 ^ (8 * len.toNat)
  | .tbSet _ len val => len.toNat ≤ 32 && val.toNat < 2 ^ len.toNat
  | .nop | .sreset | .rdOpen | .rdClose | .rdBit | .rdByte | .wrOpen | .wrClose => true
  | .wrSym _ | .fqClear | .fqSet _ _ | .fqInc _ | .fqScan => true
  | .trClear | .trInsert _ _ _ | .trBuild | .trLen | .tbClear | .tbBuild => true
  | .encHeader | .encPayload | .encode | .decHeader | .decStep | .decPayload | .decode => true

end Sys2Proof
end

