-- ==== Sys2Proof/Decode.lean ====
section
/-! DEFINITION. The command decoder, total on all 2^64 words (30_encoding.md R90 to R94), the host's view of it
(`decodeTableWord`), and the encoder written from the same table. -/

namespace Sys2Proof

/-- The five fields of a command word (R90). -/
structure Fields where
  op : BitVec 8
  sym : BitVec 8
  len : BitVec 8
  rsv : BitVec 8
  val : BitVec 32
  deriving DecidableEq, Repr

/-- What a word decodes to: a legal command, or one of the two verdicts on an illegal word (R93, R94). -/
inductive Decoded where
  | command (i : Instr)
  /-- `op` is not one of the 31 opcodes: `ILLEGAL_CMD, BAD_OPCODE`. -/
  | badOpcode
  /-- A reserved or unused field is non-zero or an operand is out of range: `ILLEGAL_CMD, BAD_FIELD`. -/
  | badField
  deriving DecidableEq, Repr

/-- The `op` field, bits 63:56 (R90). -/
def opField (w : Word) : BitVec 8 := w.extractLsb' 56 8

/-- Every operand is its field as an unsigned number, no sign extension, scaling or shifting (R91). -/
def fieldsOf (w : Word) : Fields :=
  { op := opField w
    sym := w.extractLsb' 48 8
    len := w.extractLsb' 40 8
    rsv := w.extractLsb' 32 8
    val := w.extractLsb' 0 32 }

/-- Step (2) of R93 for the row of command `i`, which uses the fields marked true: the reserved field and every
unused field must be 0 and the operands in range. -/
def checkFields (f : Fields) (usesSym usesLen usesVal : Bool) (i : Instr) : Decoded :=
  if f.rsv = 0 ∧ (usesSym ∨ f.sym = 0) ∧ (usesLen ∨ f.len = 0) ∧ (usesVal ∨ f.val = 0) ∧ i.wellFormed then
    .command i
  else
    .badField

/-- The opcode map (R92), read from the fields. -/
def decodeFields (f : Fields) : Decoded :=
  match f.op.toNat with
  | 0x00 => checkFields f false false false .nop
  | 0x01 => checkFields f false false false .sreset
  | 0x10 => checkFields f false false false .rdOpen
  | 0x11 => checkFields f false false false .rdClose
  | 0x12 => checkFields f false false false .rdBit
  | 0x13 => checkFields f false false false .rdByte
  | 0x14 => checkFields f false true false (.rdExact f.len)
  | 0x20 => checkFields f false false false .wrOpen
  | 0x21 => checkFields f false false false .wrClose
  | 0x22 => checkFields f false false true (.wrBit f.val)
  | 0x23 => checkFields f false false true (.wrByte f.val)
  | 0x24 => checkFields f false true true (.wrExact f.len f.val)
  | 0x25 => checkFields f true false false (.wrSym f.sym)
  | 0x30 => checkFields f false false false .fqClear
  | 0x31 => checkFields f true false true (.fqSet f.sym f.val)
  | 0x32 => checkFields f true false false (.fqInc f.sym)
  | 0x33 => checkFields f false false false .fqScan
  | 0x38 => checkFields f false false false .trClear
  | 0x39 => checkFields f true true true (.trInsert f.sym f.len f.val)
  | 0x3A => checkFields f false false false .trBuild
  | 0x3B => checkFields f false false false .trLen
  | 0x40 => checkFields f false false false .tbClear
  | 0x41 => checkFields f true true true (.tbSet f.sym f.len f.val)
  | 0x42 => checkFields f false false false .tbBuild
  | 0x50 => checkFields f false false false .encHeader
  | 0x51 => checkFields f false false false .encPayload
  | 0x52 => checkFields f false false false .encode
  | 0x58 => checkFields f false false false .decHeader
  | 0x59 => checkFields f false false false .decStep
  | 0x5A => checkFields f false false false .decPayload
  | 0x5B => checkFields f false false false .decode
  | _ => .badOpcode

/-- Steps (1) and (2) of decoding a word (R93). -/
def decodeWord (w : Word) : Decoded := decodeFields (fieldsOf w)

/-- The decoder on a row's bits as spec/opcode_table.json numbers them. A row is one 64-bit word, presented in
parallel on the command port, so there is no byte order to lay out (R96). -/
def decodeTableWord (nbits w : Nat) : Option Instr :=
  match decodeWord (BitVec.ofNat 64 (w % 2 ^ nbits)) with
  | .command i => some i
  | .badOpcode | .badField => none

/-- The opcode of a command (R92). -/
def opcode : Instr → BitVec 8
  | .nop => 0x00
  | .sreset => 0x01
  | .rdOpen => 0x10
  | .rdClose => 0x11
  | .rdBit => 0x12
  | .rdByte => 0x13
  | .rdExact _ => 0x14
  | .wrOpen => 0x20
  | .wrClose => 0x21
  | .wrBit _ => 0x22
  | .wrByte _ => 0x23
  | .wrExact _ _ => 0x24
  | .wrSym _ => 0x25
  | .fqClear => 0x30
  | .fqSet _ _ => 0x31
  | .fqInc _ => 0x32
  | .fqScan => 0x33
  | .trClear => 0x38
  | .trInsert _ _ _ => 0x39
  | .trBuild => 0x3A
  | .trLen => 0x3B
  | .tbClear => 0x40
  | .tbSet _ _ _ => 0x41
  | .tbBuild => 0x42
  | .encHeader => 0x50
  | .encPayload => 0x51
  | .encode => 0x52
  | .decHeader => 0x58
  | .decStep => 0x59
  | .decPayload => 0x5A
  | .decode => 0x5B

/-- The word with the given fields and a zero reserved field (R90). -/
def assemble (op sym len : BitVec 8) (val : BitVec 32) : Word := op ++ sym ++ len ++ 0#8 ++ val

/-- The command word of a well-formed command; a field the command does not use is 0 (R91, R92). -/
def encodeWord (i : Instr) : Word :=
  match i with
  | .rdExact len => assemble (opcode i) 0 len 0
  | .wrBit val => assemble (opcode i) 0 0 val
  | .wrByte val => assemble (opcode i) 0 0 val
  | .wrExact len val => assemble (opcode i) 0 len val
  | .wrSym sym => assemble (opcode i) sym 0 0
  | .fqSet sym val => assemble (opcode i) sym 0 val
  | .fqInc sym => assemble (opcode i) sym 0 0
  | .trInsert sym len val => assemble (opcode i) sym len val
  | .tbSet sym len val => assemble (opcode i) sym len val
  | .nop | .sreset | .rdOpen | .rdClose | .rdBit | .rdByte | .wrOpen | .wrClose => assemble (opcode i) 0 0 0
  | .fqClear | .fqScan | .trClear | .trBuild | .trLen | .tbClear | .tbBuild => assemble (opcode i) 0 0 0
  | .encHeader | .encPayload | .encode | .decHeader | .decStep | .decPayload | .decode => assemble (opcode i) 0 0 0

/-- The one well-formed `SRESET` word (R93, R248). -/
def sresetWord : Word := 0x0100000000000000

end Sys2Proof
end

