-- ==== Sys2Proof/Config.lean ====
section
/-! DEFINITION. The parameters the spec fixes for this hardware (00_scope.md R6) and the one value it leaves to
the environment, whether a stream access fails (20_memory.md R78). -/

namespace Sys2Proof.Config

/-- The hard-wired value of the register `ID`: "HUF" and the version byte 7 (R1, R22). -/
def idValue : BitVec 32 := 0x48554607

/-- NODE_CAP, the number of entries of the node memory: 1 + 256 x 32 (R6). -/
def nodeCap : Nat := 8193

/-- MAX_CODE_LEN, the longest legal code (R6). -/
def maxCodeLen : Nat := 32

/-- The largest legal `table_size` (R6, R101). -/
def maxTableSize : Nat := 256

/-- Streams and stream positions stay below this bound: `SRC_LEN` is "any value below 2^32", POS_W is 32 bits (R6, R79). -/
def streamBound : Nat := 2 ^ 32

/-- FREE VALUE (log entry 4): whether the n-th access that the state's own list of environment answers does not
cover draws an I/O failure. "Each single-byte access ... draws, independently and freely" (R78); no body, so
nothing can be proved of it. -/
opaque ioFail : Nat → Bool

end Sys2Proof.Config
end

