-- ==== Sys2Proof/Machine/State.lean ====
section
/-! DEFINITION. The state of HUFFCORE as plain data (10_state.md R20 to R48), its reset value (R52), and the
reasons for which a step of the model can stop. -/

namespace Sys2Proof.Machine

/-- A record of the node memory (10_state.md R44). The kind is the constructor: a LEAF has the two links NONE and
an INNER node the symbol 0 in every node the block makes, so neither is stored. A link that is `none` is NONE,
which the register read port shows as 0x3FFF. -/
inductive Node where
  | leaf (sym : Symbol) (freq : BitVec 40)
  | inner (left right : Option NodeIdx) (freq : BitVec 40)
  deriving DecidableEq, Repr

/-- The empty root: INNER, no children, frequency 0 (R44, R52). -/
def Node.emptyInner : Node := .inner none none 0

/-- The two byte streams of the environment (R48, R60): SRC, whose length is `SRC_LEN`, and SNK with its open flag.
A stream is dense and starts at position 0, so it is the list of its bytes (log entry 8). -/
structure Memory where
  src : List Byte
  snk : List Byte
  snkOpen : Bool
  deriving DecidableEq, Repr

/-- The form every memory has: both streams are shorter than 2^32 bytes (R6, R35, R79). -/
abbrev Memory.wf (m : Memory) : Prop :=
  m.src.length < Config.streamBound ∧ m.snk.length < Config.streamBound

/-- What the environment does with one single-byte stream access (R78, R270). -/
inductive EnvAnswer where
  /-- The medium works: the access is performed. -/
  | served
  /-- The medium fails: `IOERR`. -/
  | ioErr
  /-- The reset input is asserted at this access: the command is abandoned without answer. -/
  | hwReset
  deriving DecidableEq, Repr

/-- The answer of the command port (00_scope.md R10). -/
inductive Answer where
  | done
  | fault
  | rejected
  deriving DecidableEq, Repr

/-- One act of the host (00_scope.md R3, R12): the environment's input of one step. -/
inductive HostAct where
  /-- Present a command word; the environment answers the command's stream accesses by the list, and those beyond
  it freely (R78). -/
  | issue (word : Word) (answers : List EnvAnswer)
  /-- Pulse the reset input while no command executes (70_reset_and_hazards.md R270). -/
  | hwReset
  /-- Put another input stream behind SRC (20_memory.md R79). -/
  | supply (bytes : List Byte)
  deriving DecidableEq, Repr

/-- The state of the block (R20) and of its environment (R48). -/
structure State where
  /-- STATUS bit 0, R23. -/
  ropen : Bool
  /-- STATUS bit 1, R23. -/
  wopen : Bool
  /-- STATUS bit 2, R23. -/
  eos : Bool
  /-- ERR, R24. -/
  err : BitVec 8
  /-- ERRINFO, R25. -/
  errinfo : BitVec 8
  /-- ERRCMD, R26. -/
  errcmd : BitVec 8
  /-- RES, R27. -/
  res : BitVec 32
  /-- CODE_LEN, R28. -/
  codeLen : BitVec 32
  /-- TABLE_SIZE, R29. -/
  tableSize : BitVec 32
  /-- TLEN, R30. -/
  tlen : BitVec 48
  /-- ORIG_BYTES, R31. -/
  origBytes : BitVec 32
  /-- PAYLOAD_BYTES, R32. -/
  payloadBytes : BitVec 32
  /-- HDR_BYTES, R33. -/
  hdrBytes : BitVec 32
  /-- IPOS, R34. -/
  ipos : BitVec 32
  /-- OPOS, R35. -/
  opos : BitVec 32
  /-- ROOT, R36. -/
  root : NodeIdx
  /-- CUR, R38. -/
  cur : NodeIdx
  /-- BITS_DONE, R39. -/
  bitsDone : BitVec 32
  /-- OUTCNT, R40. -/
  outcnt : BitVec 32
  /-- FREQ[0..255], R41. -/
  freq : Vector (BitVec 32) 256
  /-- CODE[0..255], R42. -/
  code : Vector (BitVec 32) 256
  /-- LEN[0..255], R43. -/
  len : Vector (BitVec 8) 256
  /-- NODE[0 .. NNODE - 1], R44; NNODE (R37) is its length, and no other entry is state (log entry 5). -/
  nodes : List Node
  /-- RBUF, R45. -/
  rbuf : BitVec 8
  /-- RCNT, R45. -/
  rcnt : BitVec 4
  /-- WACC, R46. -/
  wacc : BitVec 8
  /-- WCNT, R46. -/
  wcnt : BitVec 4
  /-- SRC and SNK, R48. -/
  mem : Memory
  /-- Environment: the answer to the last command, R10 (log entry 3). -/
  answer : Option Answer
  /-- Environment: the acts of the host still to come, R12 (log entry 1). -/
  host : List HostAct
  /-- Environment: the answers to the coming accesses of the command, R78 (log entry 4). -/
  draws : List EnvAnswer
  /-- The MODEL's own counter: how many accesses took the free draw `Config.ioFail` (log entry 4). -/
  freeDraws : Nat
  deriving DecidableEq, Repr

/-- The state right after hardware reset (R52, R270), with an environment that has supplied nothing yet (log
entries 1 to 4). -/
def State.reset : State :=
  { ropen := false
    wopen := false
    eos := false
    err := 0
    errinfo := 0
    errcmd := 0
    res := 0
    codeLen := 0
    tableSize := 0
    tlen := 0
    origBytes := 0
    payloadBytes := 0
    hdrBytes := 0
    ipos := 0
    opos := 0
    root := 0
    cur := 0
    bitsDone := 0
    outcnt := 0
    freq := Vector.replicate 256 0
    code := Vector.replicate 256 0
    len := Vector.replicate 256 0
    nodes := [Node.emptyInner]
    rbuf := 0
    rcnt := 0
    wacc := 0
    wcnt := 0
    mem := { src := [], snk := [], snkOpen := false }
    answer := none
    host := []
    draws := []
    freeDraws := 0 }

/-- The causes of a hardware fault: the rows of 60_exceptions.md R242 that are raised. A hardware fault is a NEXT
state (fault entry, R246), never a `Fault` of the model. -/
inductive Cause where
  | ioSrc
  | ioSnk
  | missingChild
  | shortRead
  | truncatedPayload
  | badLength
  | badTableSize
  | tableConflict
  | freqOverflow
  | codeTooLong
  | codeLenOverflow
  | posOverflow
  | nodeOverflow
  | badOpcode
  | badField
  | streamState
  deriving DecidableEq, Repr

/-- Where the MODEL stops although the hardware would not: only in states the spec says are never reached. -/
inductive Fault where
  /-- Raised by a command that follows a link (TR_LEN, TB_BUILD, TR_INSERT, DEC_HEADER, DEC_STEP, DEC_PAYLOAD, and
  ENCODE and DECODE through them) to an index at or above NNODE. R50 (1) and (3) exclude it from every reachable
  state; "no command reads them" (D32). Safe. -/
  | absentNode
  /-- Raised by a walk of TR_LEN, TB_BUILD (and ENCODE through it) that goes deeper than NNODE levels, so that the
  links have a cycle. R50 (5) excludes it from every reachable state. Safe. -/
  | cyclicTree
  /-- Raised by FQ_SCAN, ENC_PAYLOAD (and ENCODE) when SRC_LEN - IPOS + 1 source reads met no end-of-stream. Only
  with an SRC of 2^32 bytes or more, which R79 excludes. Safe. -/
  | endlessSource
  deriving DecidableEq, Repr

/-- What the model declines to give a meaning. -/
inductive Refusal where
  /-- An instruction whose meaning is not written yet, rejected by name in Dispatch.lean's arm; raised by no
  meaning. Safe. -/
  | notModelled (mnemonic : String)
  /-- Raised by a step whose host act replaces SRC while the reader is open: "a host that breaks them is not
  modelled" (20_memory.md R79, U11). No command raises it. Safe. -/
  | srcReplacedWhileOpen
  /-- Raised by a step whose host act supplies an SRC of 2^32 bytes or more: "SRC_LEN must be below 2^32" (R79). No
  command raises it. Safe. -/
  | srcTooLong
  deriving DecidableEq, Repr

/-- Why a command's pseudocode ends early. -/
inductive Stop where
  /-- `raise Fault(code, info)` (00_scope.md R8). -/
  | raise (c : Cause)
  /-- The reset input was asserted at a stream access (R270). -/
  | hwReset
  /-- The model itself cannot go on. -/
  | stuck (f : Fault)
  deriving DecidableEq, Repr

/-- The result of a piece of pseudocode: it ran to its end with a value, or stopped. Either way the state is the one
the pseudocode had produced (60_exceptions.md R251). -/
inductive Res (α : Type) where
  | ok (a : α) (s : State)
  | stop (why : Stop) (s : State)
  deriving DecidableEq, Repr

end Sys2Proof.Machine
end

