-- ==== Sys2Proof/Machine/Ops.lean ====
section
/-! DEFINITION. The shared operations: sequencing of pseudocode, the stream access primitives (20_memory.md R62 to
R65), the register files, fault entry (60_exceptions.md R246), hardware reset (R270), and the frame every command
runs in (30_encoding.md R93, 60_exceptions.md R248, R249). -/

namespace Sys2Proof.Machine

/-! ### Sequencing -/

/-- Run `f` on the result, unless the pseudocode has already stopped: "nothing after it in the pseudocode
executes" (00_scope.md R8). -/
def Res.bind {α β : Type} (r : Res α) (f : α → State → Res β) : Res β :=
  match r with
  | .ok a s => f a s
  | .stop why s => .stop why s

/-- `raise Fault(code, info)` at the state reached so far (00_scope.md R8). -/
def raise {α : Type} (c : Cause) (s : State) : Res α := .stop (.raise c) s

/-! ### Memory -/

/-- SRC's byte at a position, if the position is inside the stream (R62). -/
def Memory.srcByte? (m : Memory) (a : Nat) : Option Byte := m.src[a]?

/-- The sink event `open`: SNK becomes empty and open (R65). -/
def Memory.openSink (m : Memory) : Memory := { m with snk := [], snkOpen := true }

/-- The sink event `close`: the flag becomes closed, the bytes stay (R65). -/
def Memory.closeSink (m : Memory) : Memory := { m with snkOpen := false }

/-- A sink access that answers `OK` appends the byte (R64). -/
def Memory.append (m : Memory) (v : Byte) : Memory := { m with snk := m.snk ++ [v] }

/-- The host puts another stream behind SRC (R79). -/
def Memory.supply (m : Memory) (bytes : List Byte) : Memory := { m with src := bytes }

/-- The environment's answer to the next stream access: the next one supplied with the command, and past those a
free draw (R78; log entry 4). -/
def State.draw (s : State) : EnvAnswer × State :=
  match s.draws with
  | a :: rest => (a, { s with draws := rest })
  | [] => (if Config.ioFail s.freeDraws then .ioErr else .served, { s with freeDraws := s.freeDraws + 1 })

/-- `MemRead(SRC, IPOS, 1)` (R62): `IOERR` when the draw says so, otherwise EOS (`none`) at or past `SRC_LEN`,
otherwise the byte. An `IOERR` raises `IO_ERROR, SRC` at once, as its one caller does (40_bitstream_reader.md R120). -/
def memRead (s : State) : Res (Option Byte) :=
  match s.draw with
  | (.served, s') => .ok (s'.mem.srcByte? s'.ipos.toNat) s'
  | (.ioErr, s') => raise .ioSrc s'
  | (.hwReset, s') => .stop .hwReset s'

/-- `MemWrite(SNK, OPOS, 1, v)` (R64): the environment's answer, and the byte appended when it is `OK`. -/
def memWrite (v : Byte) (s : State) : EnvAnswer × State :=
  match s.draw with
  | (.served, s') => (.served, { s' with mem := s'.mem.append v })
  | (.ioErr, s') => (.ioErr, s')
  | (.hwReset, s') => (.hwReset, s')

/-- The position at which an append faults instead of wrapping, 2^32 - 1 (R35, 41_bitstream_writer.md R140). -/
def lastPos : BitVec 32 := 0xFFFFFFFF

/-! ### Register files -/

/-- `FREQ[c]` (R41). -/
def State.getFreq (s : State) (c : Symbol) : BitVec 32 := s.freq[c.toNat]'c.isLt

/-- `CODE[c]` (R42). -/
def State.getCode (s : State) (c : Symbol) : BitVec 32 := s.code[c.toNat]'c.isLt

/-- `LEN[c]` (R43). -/
def State.getLen (s : State) (c : Symbol) : BitVec 8 := s.len[c.toNat]'c.isLt

/-- `FREQ[c] <- v` (R41). -/
def State.setFreq (s : State) (c : Symbol) (v : BitVec 32) : State :=
  { s with freq := s.freq.set c.toNat v c.isLt }

/-- `CODE[c] <- v; LEN[c] <- n` (R42, R43). -/
def State.setEntry (s : State) (c : Symbol) (v : BitVec 32) (n : BitVec 8) : State :=
  { s with code := s.code.set c.toNat v c.isLt, len := s.len.set c.toNat n c.isLt }

/-- `NNODE` as a register (R37): the number of nodes in use. -/
def State.nnode (s : State) : NodeIdx := BitVec.ofNat 14 s.nodes.length

/-- The link a node has on side `b` (false left, true right); a LEAF has none (R44). -/
def Node.child : Node → Bool → Option NodeIdx
  | .leaf _ _, _ => none
  | .inner l _ _, false => l
  | .inner _ r _, true => r

/-- A node's aggregate frequency (R44). -/
def Node.freq : Node → BitVec 40
  | .leaf _ f => f
  | .inner _ _ f => f

/-- The node with its link on side `b` made to point at `q` (42_code_tree.md R168). -/
def Node.setChild : Node → Bool → NodeIdx → Node
  | .leaf c f, _, _ => .leaf c f
  | .inner _ r f, false, q => .inner (some q) r f
  | .inner l _ f, true, q => .inner l (some q) f

/-! ### Reset and fault entry -/

/-- Hardware reset (70_reset_and_hazards.md R270, R272; 10_state.md R52): every register takes its reset value,
SNK's flag is closed and its bytes stay, nothing is appended; the environment's other inputs are untouched and there
is no answer. -/
def hardwareReset (s : State) : State :=
  { State.reset with
    mem := s.mem.closeSink
    host := s.host
    draws := s.draws
    freeDraws := s.freeDraws }

/-- The command port answers (00_scope.md R10). -/
def State.answered (s : State) (a : Answer) : State := { s with answer := some a }

/-- The final flush of the pending bits as one byte, common to fault entry and `SRESET` (R246, 45_system.md R231):
made when the writer is open, holds bits, the sink is not full and `allowed`; a failure of it is ignored. -/
def finalFlush (allowed : Bool) (s : State) : EnvAnswer × State :=
  if allowed ∧ s.wopen = true ∧ s.wcnt ≠ 0 ∧ s.opos ≠ lastPos then
    match memWrite s.wacc s with
    | (.served, s') => (.served, { s' with opos := s'.opos + 1 })
    | (.ioErr, s') => (.ioErr, s')
    | (.hwReset, s') => (.hwReset, s')
  else
    (.served, s)

/-- Fault entry closes an open writer: `WACC <- 0; WCNT <- 0; STATUS.WOPEN <- 0; SNK <- closed` (R246). -/
def releaseWriter (s : State) : State :=
  if s.wopen then { s with wacc := 0, wcnt := 0, wopen := false, mem := s.mem.closeSink } else s

/-- Fault entry closes an open reader: `STATUS.ROPEN <- 0; RBUF <- 0; RCNT <- 0` (R246). -/
def releaseReader (s : State) : State :=
  if s.ropen then { s with ropen := false, rbuf := 0, rcnt := 0 } else s

/-- The value of `ERR` for a cause: its class (60_exceptions.md R241, R242). -/
def Cause.err : Cause → BitVec 8
  | .ioSrc | .ioSnk => 1
  | .missingChild | .shortRead | .truncatedPayload | .badLength | .badTableSize | .tableConflict => 2
  | .freqOverflow | .codeTooLong | .codeLenOverflow | .posOverflow | .nodeOverflow => 3
  | .badOpcode | .badField | .streamState => 4

/-- The value of `ERRINFO` for a cause (60_exceptions.md R242). -/
def Cause.info : Cause → BitVec 8
  | .ioSrc => 0x01
  | .ioSnk => 0x02
  | .missingChild => 0x10
  | .shortRead => 0x11
  | .truncatedPayload => 0x12
  | .badLength => 0x13
  | .badTableSize => 0x14
  | .tableConflict => 0x15
  | .freqOverflow => 0x20
  | .codeTooLong => 0x21
  | .codeLenOverflow => 0x22
  | .posOverflow => 0x23
  | .nodeOverflow => 0x24
  | .badOpcode => 0x30
  | .badField => 0x31
  | .streamState => 0x32

/-- The latching of `ERR`, `ERRINFO`, `ERRCMD` (R246, R247). -/
def latch (op : BitVec 8) (c : Cause) (s : State) : State :=
  { s with err := c.err, errinfo := c.info, errcmd := op }

/-- FAULT ENTRY, the one exception sequence of the block (R246): latch the cause, flush pending bits unless the sink
itself just failed or is full, release both streams, answer `fault`. A reset input asserted during the flush resets
the block instead. -/
def faultEntry (op : BitVec 8) (c : Cause) (s : State) : State :=
  match finalFlush (c ≠ .ioSnk) (latch op c s) with
  | (.served, s') => (releaseReader (releaseWriter s')).answered .fault
  | (.ioErr, s') => (releaseReader (releaseWriter s')).answered .fault
  | (.hwReset, s') => hardwareReset s'

/-- THE WAY BACK from a fault: there is no return (R250); only `SRESET` and hardware reset leave the faulted state,
and `SRESET` gives the registers of R52 with the answer `done` (45_system.md R231). -/
def leaveBySreset (s : State) : State := (hardwareReset s).answered .done

/-! ### The frame of a command -/

/-- The block is faulted: STATUS.FAULT reads 1 "exactly when ERR != 0" (R23, R252). -/
def State.faulted (s : State) : Bool := s.err != 0

/-- A word that arrives while the block is faulted is `rejected` and "changes no state at all" (R248). -/
def rejected (s : State) : State := s.answered .rejected

/-- How a command's pseudocode ends (00_scope.md R10): `done`; fault entry with the command's own opcode
(R26, R246); abandonment by the reset input (R270); or the model's own stop. -/
def finish (op : BitVec 8) : Res Unit → Host.Outcome State Fault Refusal
  | .ok _ s => .next (s.answered .done)
  | .stop (.raise c) s => .next (faultEntry op c s)
  | .stop .hwReset s => .next (hardwareReset s)
  | .stop (.stuck f) _ => .fault f

/-- A command executes, with the checks in the order of R93 and R249: faulted block, BAD_FIELD, STREAM_STATE
(`ready` is the command's line "Requires"), then its pseudocode `body`. -/
def command (i : Instr) (ready : State → Bool) (body : State → Res Unit) (s : State) :
    Host.Outcome State Fault Refusal :=
  if s.faulted then .next (rejected s)
  else if ¬ i.wellFormed then finish (opcode i) (raise .badField s)
  else if ¬ ready s then finish (opcode i) (raise .streamState s)
  else finish (opcode i) (body s)

/-- The line "Requires: nothing". -/
def always (_ : State) : Bool := true

/-- "Requires: STATUS.ROPEN = 1". -/
def readerOpen (s : State) : Bool := s.ropen

/-- "Requires: STATUS.ROPEN = 0". -/
def readerClosed (s : State) : Bool := !s.ropen

/-- "Requires: STATUS.WOPEN = 1". -/
def writerOpen (s : State) : Bool := s.wopen

/-- "Requires: STATUS.WOPEN = 0". -/
def writerClosed (s : State) : Bool := !s.wopen

/-- "Requires: STATUS.ROPEN = 1 and STATUS.WOPEN = 1". -/
def bothOpen (s : State) : Bool := s.ropen && s.wopen

/-- "Requires: STATUS.ROPEN = 0 and STATUS.WOPEN = 0". -/
def bothClosed (s : State) : Bool := !s.ropen && !s.wopen

/-- An illegal word (R93, R94): rejected by a faulted block, otherwise `ILLEGAL_CMD` with the word's bits 63:56 in
`ERRCMD` (R26), "before the command changes anything" (R245). -/
def illegalWord (w : Word) (c : Cause) (s : State) : State :=
  if s.faulted then rejected s else faultEntry (opField w) c s

/-! ### The host's side -/

/-- The host's next act, taken off the list. -/
def nextAct (s : State) : Option (HostAct × State) :=
  match s.host with
  | [] => none
  | a :: rest => some (a, { s with host := rest })

/-- The environment's answers that come with a command word replace what was left over. -/
def withAnswers (answers : List EnvAnswer) (s : State) : State := { s with draws := answers }

/-- The host replaces SRC: only while the reader is closed and by fewer than 2^32 bytes (R79). -/
def supplySource (bytes : List Byte) (s : State) : Host.Outcome State Fault Refusal :=
  if s.ropen then .refused .srcReplacedWhileOpen
  else if Config.streamBound ≤ bytes.length then .refused .srcTooLong
  else .next { s with mem := s.mem.supply bytes }

end Sys2Proof.Machine
end

