-- ==== Sys2Proof/Machine/Operands.lean ====
section
/-! DEFINITION. Taking values apart and putting them together: byte order (20_memory.md R66), bit order (R67), code
bits (30_encoding.md R104), and the exact sums of the block's arithmetic (00_scope.md R9). -/

namespace Sys2Proof.Machine

/-- Byte `k` of a 32-bit value, `v[8k+7 : 8k]` (R66, 41_bitstream_writer.md R146). -/
def byteOf (v : BitVec 32) (k : Nat) : Byte := v.extractLsb' (8 * k) 8

/-- A value with byte `v` put at byte position `k`: `acc | (zext_32(v) << (8 x k))` (40_bitstream_reader.md R126). -/
def putByte (acc : BitVec 32) (v : Byte) (k : Nat) : BitVec 32 := acc ||| (v.setWidth 32 <<< (8 * k))

/-- The low byte of a value read by a raw read. -/
def lowByte (v : BitVec 32) : Byte := v.setWidth 8

/-- Bit `i` of a code: the direction of the edge at depth `i`, false left, true right (R104). -/
def codeBit (c : BitVec 32) (i : Nat) : Bool := c.getLsbD i

/-- The first bit of a buffered byte, its bit 0 (R67). -/
def firstBit (v : Byte) : Bool := v.getLsbD 0

/-- `WACC | (b << WCNT)` (41_bitstream_writer.md R141). -/
def putBit (acc : Byte) (b : Bool) (k : BitVec 4) : Byte :=
  acc ||| ((BitVec.ofBool b).setWidth 8 <<< k.toNat)

/-- A bit as the 32-bit result of a bit read (40_bitstream_reader.md R124). -/
def bitValue (b : Bool) : BitVec 32 := (BitVec.ofBool b).setWidth 32

/-- The sum of the frequency table, exact (R9, 10_state.md R31). -/
def totalFreq (s : State) : Nat := (symbols.map fun c => (s.getFreq c).toNat).sum

/-- The payload bit count, the exact sum of `FREQ[s] x LEN[s]` (R9 (4), 44_archiver.md R200). -/
def payloadBits (s : State) : Nat := (symbols.map fun c => (s.getFreq c).toNat * (s.getLen c).toNat).sum

/-- The symbols with a non-zero code length, ascending: the entries of the file's table (R102, R200). -/
def presentSymbols (s : State) : List Symbol := symbols.filter fun c => s.getLen c != 0

/-- `(code_len + 7) div 8` (R9 (5)). -/
def payloadByteCount (codeLen : BitVec 32) : BitVec 32 := BitVec.ofNat 32 ((codeLen.toNat + 7) / 8)

/-- `8 + 6 x table_size` (R9 (6)). -/
def headerByteCount (tableSize : BitVec 32) : BitVec 32 := BitVec.ofNat 32 (8 + 6 * tableSize.toNat)

end Sys2Proof.Machine
end

