-- ==== Sys2Proof/Machine/Reader.lean ====
section
/-! DEFINITION. The bit-stream reader (40_bitstream_reader.md R120 to R127). -/

namespace Sys2Proof.Machine

/-- `src_byte()` (R120): the next byte of SRC, or end-of-stream (`none`). The only place the block accesses SRC. -/
def srcByte (s : State) : Res (Option Byte) :=
  (memRead s).bind fun r s =>
    match r with
    | none => .ok none { s with eos := true }
    | some v => .ok (some v) { s with ipos := s.ipos + 1, eos := false }

/-- Deliver the lowest buffered bit: the second half of `read_bit()` (R121). -/
def takeBit (s : State) : Res (Option Bool) :=
  .ok (some (firstBit s.rbuf)) { s with rbuf := s.rbuf >>> 1, rcnt := s.rcnt - 1, eos := false }

/-- `read_bit()` (R121): the next bit, or end-of-stream; a byte is fetched only when the buffer is empty. -/
def readBit (s : State) : Res (Option Bool) :=
  if s.rcnt = 0 then
    (srcByte s).bind fun r s =>
      match r with
      | none => .ok none s
      | some v => takeBit { s with rbuf := v, rcnt := 8 }
  else
    takeBit s

/-- The loop of `read_exact(n)` (R126): `n` more bytes, the first of them at byte position `k` of `acc`. -/
def readBytes : (n k : Nat) → (acc : BitVec 32) → State → Res (BitVec 32)
  | 0, _, acc, s => .ok acc s
  | n + 1, k, acc, s =>
    (srcByte s).bind fun r s =>
      match r with
      | none => raise .shortRead s
      | some v => readBytes n (k + 1) (putByte acc v k) s

/-- `read_exact(n)` (R126): `n` raw bytes as a little-endian value; a short read raises `CORRUPT_DATA, SHORT_READ`. -/
def readExact (n : Nat) (s : State) : Res (BitVec 32) := readBytes n 0 0 s

/-- The effect of `RD_OPEN` (R122). -/
def openReader (s : State) : Res Unit :=
  .ok () { s with ipos := 0, rbuf := 0, rcnt := 0, eos := false, ropen := true }

/-- The effect of `RD_CLOSE` (R123). -/
def closeReader (s : State) : Res Unit :=
  .ok () { s with ropen := false, rbuf := 0, rcnt := 0 }

/-- `RD_OPEN` (R122). -/
def execRdOpen (s : State) : Host.Outcome State Fault Refusal :=
  command .rdOpen readerClosed openReader s

/-- `RD_CLOSE` (R123). -/
def execRdClose (s : State) : Host.Outcome State Fault Refusal :=
  command .rdClose readerOpen closeReader s

/-- The effect of `RD_BIT` (R124). -/
def rdBit (s : State) : Res Unit :=
  (readBit s).bind fun r s =>
    match r with
    | none => .ok () { s with res := 0 }
    | some b => .ok () { s with res := bitValue b }

/-- `RD_BIT` (R124). -/
def execRdBit (s : State) : Host.Outcome State Fault Refusal :=
  command .rdBit readerOpen rdBit s

/-- The effect of `RD_BYTE` (R125). -/
def rdByte (s : State) : Res Unit :=
  (srcByte s).bind fun r s =>
    match r with
    | none => .ok () { s with res := 0 }
    | some v => .ok () { s with res := v.setWidth 32 }

/-- `RD_BYTE` (R125). -/
def execRdByte (s : State) : Host.Outcome State Fault Refusal :=
  command .rdByte readerOpen rdByte s

/-- The effect of `RD_EXACT n` (R126): `RES` is 0 until all bytes are there. -/
def rdExact (n : Nat) (s : State) : Res Unit :=
  (readExact n { s with res := 0 }).bind fun v s => .ok () { s with res := v }

/-- `RD_EXACT n` (R126). -/
def execRdExact (len : BitVec 8) (s : State) : Host.Outcome State Fault Refusal :=
  command (.rdExact len) readerOpen (rdExact len.toNat) s

end Sys2Proof.Machine
end

