-- ==== Sys2Proof/Machine/Frequency.lean ====
section
/-! DEFINITION. The frequency table commands (42_code_tree.md R160 to R163). -/

namespace Sys2Proof.Machine

/-- The effect of `FQ_CLEAR` (R160). -/
def clearFreq (s : State) : Res Unit := .ok () { s with freq := Vector.replicate 256 0 }

/-- `freq_inc(c)` (R162): at 2^32 - 1 the counter faults instead of wrapping. -/
def freqInc (c : Symbol) (s : State) : Res Unit :=
  if s.getFreq c = 0xFFFFFFFF then raise .freqOverflow s
  else .ok () (s.setFreq c (s.getFreq c + 1))

/-- A pass over SRC to its end by raw byte reads, the loop of `FQ_SCAN` (R163) and `ENC_PAYLOAD` (44_archiver.md
R201): `perByte` for every byte, `RES <- 0` at end-of-stream. `fuel` bounds the number of reads (R286). -/
def scanSource (perByte : Byte → State → Res Unit) : (fuel : Nat) → State → Res Unit
  | 0, s => .stop (.stuck .endlessSource) s
  | fuel + 1, s =>
    (srcByte s).bind fun r s =>
      match r with
      | none => .ok () { s with res := 0 }
      | some v => (perByte v s).bind fun _ s => scanSource perByte fuel s

/-- The bound on the reads of one pass, `SRC_LEN - IPOS + 1` (R163, R286). -/
def scanBound (s : State) : Nat := s.mem.src.length - s.ipos.toNat + 1

/-- The effect of `FQ_SCAN` (R163): counts accumulate onto what `FREQ` held. -/
def scanFreq (s : State) : Res Unit := scanSource freqInc (scanBound s) s

/-- `FQ_CLEAR` (R160). -/
def execFqClear (s : State) : Host.Outcome State Fault Refusal :=
  command .fqClear always clearFreq s

/-- `FQ_SET c, v` (R161). -/
def execFqSet (sym : Symbol) (val : BitVec 32) (s : State) : Host.Outcome State Fault Refusal :=
  command (.fqSet sym val) always (fun s => .ok () (s.setFreq sym val)) s

/-- `FQ_INC c` (R162). -/
def execFqInc (sym : Symbol) (s : State) : Host.Outcome State Fault Refusal :=
  command (.fqInc sym) always (freqInc sym) s

/-- `FQ_SCAN` (R163). -/
def execFqScan (s : State) : Host.Outcome State Fault Refusal :=
  command .fqScan readerOpen scanFreq s

end Sys2Proof.Machine
end

