-- ==== Sys2Proof/Machine/Tree.lean ====
section
/-! DEFINITION. The code tree: construction by the priority merge (42_code_tree.md R164, R165), reconstruction from
table entries (R167 to R169), and the walk over the leaves behind TR_LEN (R170) and TB_BUILD (43_table_builder.md
R192). -/

namespace Sys2Proof.Machine

/-! ### Construction -/

/-- The frequency of the node at an index, 0 past the end. -/
def freqAt (ns : List Node) (i : Nat) : Nat :=
  match ns[i]? with
  | some n => n.freq.toNat
  | none => 0

/-- The priority order (R164): node `i` before node `j` when `(freq i, i) < (freq j, j)` lexicographically. -/
def comesBefore (ns : List Node) (i j : Nat) : Bool :=
  freqAt ns i < freqAt ns j || (freqAt ns i == freqAt ns j && i < j)

/-- Put a candidate into the priority structure, kept in the order of R164 (R47 leaves its form to the model). -/
def enqueue (ns : List Node) (i : Nat) : List Nat → List Nat
  | [] => [i]
  | j :: q => if comesBefore ns i j then i :: j :: q else j :: enqueue ns i q

/-- An index as a link or as ROOT. -/
def idx (i : Nat) : NodeIdx := BitVec.ofNat 14 i

/-- The node that merges candidates `a` and `b`: the first extracted is the left child, the frequency the sum, which
is exact in 40 bits (R165, R9 (2)). -/
def merged (ns : List Node) (a b : Nat) : Node :=
  .inner (some (idx a)) (some (idx b)) (BitVec.ofNat 40 (freqAt ns a + freqAt ns b))

/-- The merge loop (R165): while two candidates remain, extract the two least, merge them into the next node and
reinsert it. `fuel` is the number of merges still possible; the result is the nodes and the remaining candidates. -/
def mergeAll : (fuel : Nat) → List Node → List Nat → List Node × List Nat
  | fuel + 1, ns, a :: b :: q =>
    let ns' := ns ++ [merged ns a b]
    mergeAll fuel ns' (enqueue ns' ns.length q)
  | _, ns, q => (ns, q)

/-- The priority structure over all given nodes. -/
def candidates (ns : List Node) : List Nat := (List.range ns.length).foldr (enqueue ns) []

/-- The tree over the given leaves, as its nodes and its root (R165, with the cases of zero and one symbol). -/
def buildTree : List Node → List Node × Nat
  | [] => ([Node.emptyInner], 0)
  | [l] => ([l, .inner (some 0) none l.freq], 1)
  | ls =>
    let (ns, q) := mergeAll ls.length ls (candidates ls)
    (ns, q.headD 0)

/-- One leaf per symbol with non-zero frequency, in symbol order (R165). -/
def freqLeaves (s : State) : List Node :=
  (symbols.filter fun c => s.getFreq c != 0).map fun c => .leaf c ((s.getFreq c).setWidth 40)

/-- The effect of `TR_BUILD` (R165). -/
def treeBuild (s : State) : Res Unit :=
  let (ns, r) := buildTree (freqLeaves s)
  .ok () { s with nodes := ns, root := idx r, cur := idx r }

/-! ### Reconstruction -/

/-- `tree_clear()` (R167). -/
def treeClear (s : State) : Res Unit :=
  .ok () { s with nodes := [Node.emptyInner], root := 0, cur := 0 }

/-- Make a new empty INNER node, at index NNODE, the child of node `p` (which is `n`) on side `b` (R168). -/
def addChild (p : NodeIdx) (n : Node) (b : Bool) (s : State) : State :=
  { s with nodes := s.nodes.set p.toNat (n.setChild b (idx s.nodes.length)) ++ [Node.emptyInner] }

/-- The walk of `tree_insert` (R168) from node `p` along the given bits, creating internal nodes on demand; a LEAF on
the way is check (a). The result is the final node's index. -/
def insertWalk : List Bool → NodeIdx → State → Res NodeIdx
  | [], p, s => .ok p s
  | b :: bs, p, s =>
    match s.nodes[p.toNat]? with
    | none => .stop (.stuck .absentNode) s
    | some (.leaf _ _) => raise .tableConflict s
    | some n =>
      match n.child b with
      | some q => insertWalk bs q s
      | none => insertWalk bs (idx s.nodes.length) (addChild p n b s)

/-- The end of `tree_insert` (R168): check (b), then the symbol is stored at the final node. -/
def storeSymbol (c : Symbol) (p : NodeIdx) (s : State) : Res Unit :=
  match s.nodes[p.toNat]? with
  | none => .stop (.stuck .absentNode) s
  | some (.inner none none f) => .ok () { s with nodes := s.nodes.set p.toNat (.leaf c f) }
  | some _ => raise .tableConflict s

/-- `tree_insert(c, code, n)` (R168). -/
def treeInsert (c : Symbol) (code : BitVec 32) (n : Nat) (s : State) : Res Unit :=
  if n < 1 ∨ Config.maxCodeLen < n then raise .badLength s
  else (insertWalk ((List.range n).map (codeBit code)) s.root s).bind fun p s => storeSymbol c p s

/-- The effect of `TR_INSERT c, n, code` (R169): fewer than 32 free entries fault before anything is written. -/
def trInsert (c : Symbol) (n : Nat) (code : BitVec 32) (s : State) : Res Unit :=
  if Config.nodeCap < s.nodes.length + 32 then raise .nodeOverflow s
  else treeInsert c code n s

/-! ### The walk over the leaves -/

/-- A leaf met on the walk from the root: its symbol and frequency, the code of its path and its depth. -/
structure LeafAt where
  sym : Symbol
  freq : BitVec 40
  code : Nat
  depth : Nat
  deriving DecidableEq, Repr

/-- The leaves behind a link: none behind NONE. -/
def behindLink (link : Option NodeIdx) (walk : NodeIdx → Except Fault (List LeafAt)) : Except Fault (List LeafAt) :=
  match link with
  | none => .ok []
  | some q => walk q

/-- The leaves of the left subtree, then those of the right. -/
def joinLeaves (left right : Except Fault (List LeafAt)) : Except Fault (List LeafAt) :=
  match left with
  | .error e => .error e
  | .ok ls =>
    match right with
    | .error e => .error e
    | .ok rs => .ok (ls ++ rs)

/-- The leaves under node `p` of depth `d` and code so far `c`, left before right; a right step sets the bit of the
current depth (43_table_builder.md R192). `fuel` bounds the depth. -/
def leavesUnder (ns : List Node) : (fuel : Nat) → (p : NodeIdx) → (c d : Nat) → Except Fault (List LeafAt)
  | 0, _, _, _ => .error .cyclicTree
  | fuel + 1, p, c, d =>
    match ns[p.toNat]? with
    | none => .error .absentNode
    | some (.leaf sym f) => .ok [{ sym := sym, freq := f, code := c, depth := d }]
    | some (.inner l r _) =>
      joinLeaves (behindLink l fun q => leavesUnder ns fuel q c (d + 1))
        (behindLink r fun q => leavesUnder ns fuel q (c ||| (1 <<< d)) (d + 1))

/-- The leaves of the current tree in the order of the depth-first walk. A path from the root has at most NNODE
nodes (10_state.md R50). -/
def treeLeaves (s : State) : Except Fault (List LeafAt) :=
  leavesUnder s.nodes s.nodes.length s.root 0 0

/-- `tlen(ROOT, 0)`: the exact sum over the leaves of depth x frequency (R170). -/
def weightedLength (ls : List LeafAt) : Nat := (ls.map fun l => l.depth * l.freq.toNat).sum

/-- The effect of `TR_LEN` (R170). -/
def treeLen (s : State) : Res Unit :=
  match treeLeaves s with
  | .error f => .stop (.stuck f) s
  | .ok ls => .ok () { s with tlen := BitVec.ofNat 48 (weightedLength ls) }

/-! ### The commands -/

/-- `TR_CLEAR` (R167). -/
def execTrClear (s : State) : Host.Outcome State Fault Refusal :=
  command .trClear always treeClear s

/-- `TR_INSERT c, n, code` (R169). -/
def execTrInsert (sym : Symbol) (len : BitVec 8) (val : BitVec 32) (s : State) :
    Host.Outcome State Fault Refusal :=
  command (.trInsert sym len val) always (trInsert sym len.toNat val) s

/-- `TR_BUILD` (R165). -/
def execTrBuild (s : State) : Host.Outcome State Fault Refusal :=
  command .trBuild always treeBuild s

/-- `TR_LEN` (R170). -/
def execTrLen (s : State) : Host.Outcome State Fault Refusal :=
  command .trLen always treeLen s

end Sys2Proof.Machine
end

