-- ==== Sys2Proof/Machine/Table.lean ====
section
/-! DEFINITION. The code-table commands (43_table_builder.md R190 to R194). -/

namespace Sys2Proof.Machine

/-- `table_clear()` (R190). -/
def clearTable (s : State) : State :=
  { s with code := Vector.replicate 256 0, len := Vector.replicate 256 0 }

/-- `maxdepth(ROOT, 0)`: the depth of the deepest leaf, 0 if there is none (R192). -/
def maxDepth (ls : List LeafAt) : Nat := (ls.map LeafAt.depth).foldr max 0

/-- Record the leaves in the order the walk meets them; a later one wins (R192, D33). -/
def recordLeaves : List LeafAt → State → State
  | [], s => s
  | l :: ls, s => recordLeaves ls (s.setEntry l.sym (BitVec.ofNat 32 l.code) (BitVec.ofNat 8 l.depth))

/-- The effect of `TB_BUILD` (R192): the table is cleared, the depth checked, then every leaf recorded. -/
def tableBuild (s : State) : Res Unit :=
  match treeLeaves s with
  | .error f => .stop (.stuck f) s
  | .ok ls =>
    if Config.maxCodeLen < maxDepth ls then raise .codeTooLong (clearTable s)
    else .ok () (recordLeaves ls (clearTable s))

/-- `TB_CLEAR` (R190). -/
def execTbClear (s : State) : Host.Outcome State Fault Refusal :=
  command .tbClear always (fun s => .ok () (clearTable s)) s

/-- `TB_SET c, n, code` (R191). -/
def execTbSet (sym : Symbol) (len : BitVec 8) (val : BitVec 32) (s : State) :
    Host.Outcome State Fault Refusal :=
  command (.tbSet sym len val) always (fun s => .ok () (s.setEntry sym val len)) s

/-- `TB_BUILD` (R192). -/
def execTbBuild (s : State) : Host.Outcome State Fault Refusal :=
  command .tbBuild always tableBuild s

end Sys2Proof.Machine
end

