-- ==== Sys2Proof/Machine/Writer.lean ====
section
/-! DEFINITION. The bit-stream writer (41_bitstream_writer.md R140 to R149). -/

namespace Sys2Proof.Machine

/-- `snk_byte(v)` (R140): append one byte to SNK; the position limit is tested before the access is made. -/
def snkByte (v : Byte) (s : State) : Res Unit :=
  if s.opos = lastPos then raise .posOverflow s
  else
    match memWrite v s with
    | (.served, s') => .ok () { s' with opos := s'.opos + 1 }
    | (.ioErr, s') => raise .ioSnk s'
    | (.hwReset, s') => .stop .hwReset s'

/-- `write_bit(b)` (R141): the bit goes to position `WCNT`; the eighth empties the buffer and then writes the byte. -/
def writeBit (b : Bool) (s : State) : Res Unit :=
  let acc := putBit s.wacc b s.wcnt
  if s.wcnt + 1 = 8 then snkByte acc { s with wacc := 0, wcnt := 0 }
  else .ok () { s with wacc := acc, wcnt := s.wcnt + 1 }

/-- Write the bits of a list, the first first. -/
def writeBits : List Bool → State → Res Unit
  | [], s => .ok () s
  | b :: bs, s => (writeBit b s).bind fun _ s => writeBits bs s

/-- The bits of a code in emission order, `c[0] .. c[n-1]` (30_encoding.md R104). -/
def codeBits (c : BitVec 32) (n : Nat) : List Bool := (List.range n).map (codeBit c)

/-- `emit_code(c, n)` (R142). -/
def emitCode (c : BitVec 32) (n : Nat) (s : State) : Res Unit := writeBits (codeBits c n) s

/-- Write raw bytes, the first first: a sequence of `snk_byte` (R146). -/
def writeBytes : List Byte → State → Res Unit
  | [], s => .ok () s
  | v :: vs, s => (snkByte v s).bind fun _ s => writeBytes vs s

/-- The `n` low bytes of a value in stream order (20_memory.md R66). -/
def bytesOf (n : Nat) (v : BitVec 32) : List Byte := (List.range n).map (byteOf v)

/-- `write_exact(n, v)` (R146). -/
def writeExact (n : Nat) (v : BitVec 32) (s : State) : Res Unit := writeBytes (bytesOf n v) s

/-- The effect of `WR_OPEN` (R143). -/
def openWriter (s : State) : Res Unit :=
  .ok () { s with mem := s.mem.openSink, opos := 0, wacc := 0, wcnt := 0, wopen := true }

/-- The end of `WR_CLOSE`: the flag and the sink closed (R147). -/
def shutWriter (s : State) : Res Unit :=
  .ok () { s with wopen := false, mem := s.mem.closeSink }

/-- The effect of `WR_CLOSE` (R147): 1 to 7 pending bits go out as a final byte, its unused high bits zero. -/
def closeWriter (s : State) : Res Unit :=
  if s.wcnt ≠ 0 then (snkByte s.wacc { s with wacc := 0, wcnt := 0 }).bind fun _ s => shutWriter s
  else shutWriter s

/-- `WR_OPEN` (R143). -/
def execWrOpen (s : State) : Host.Outcome State Fault Refusal :=
  command .wrOpen writerClosed openWriter s

/-- `WR_CLOSE` (R147). -/
def execWrClose (s : State) : Host.Outcome State Fault Refusal :=
  command .wrClose writerOpen closeWriter s

/-- `WR_BIT b`, `b = val[0]` (R144). -/
def execWrBit (val : BitVec 32) (s : State) : Host.Outcome State Fault Refusal :=
  command (.wrBit val) writerOpen (writeBit (codeBit val 0)) s

/-- `WR_BYTE v`, `v = val[7:0]` (R145). -/
def execWrByte (val : BitVec 32) (s : State) : Host.Outcome State Fault Refusal :=
  command (.wrByte val) writerOpen (snkByte (lowByte val)) s

/-- `WR_EXACT n, v` (R146). -/
def execWrExact (len : BitVec 8) (val : BitVec 32) (s : State) : Host.Outcome State Fault Refusal :=
  command (.wrExact len val) writerOpen (writeExact len.toNat val) s

/-- The effect of `WR_SYM c` (R148): the code of a symbol from the table; nothing for an absent symbol. -/
def writeSymbol (c : Symbol) (s : State) : Res Unit := emitCode (s.getCode c) (s.getLen c).toNat s

/-- `WR_SYM c` (R148). -/
def execWrSym (sym : Symbol) (s : State) : Host.Outcome State Fault Refusal :=
  command (.wrSym sym) writerOpen (writeSymbol sym) s

end Sys2Proof.Machine
end

