-- ==== Sys2Proof/Machine/Archiver.lean ====
section
/-! DEFINITION. The archiver: the encode and decode pipelines as single steps and as macros (44_archiver.md R200 to
R212). -/

namespace Sys2Proof.Machine

/-! ### Encode -/

/-- One table entry of the file: code, length, symbol (30_encoding.md R102). -/
def entryBytes (s : State) (c : Symbol) : List Byte := bytesOf 4 (s.getCode c) ++ [s.getLen c, c]

/-- The bytes `ENC_HEADER` writes: the two length fields, then the entries in increasing order of symbol (R200). -/
def headerBytes (s : State) : List Byte :=
  bytesOf 4 s.codeLen ++ bytesOf 4 s.tableSize ++ (presentSymbols s).flatMap (entryBytes s)

/-- The effect of `ENC_HEADER` (R200): the count that does not fit 32 bits faults before any register or byte. -/
def encHeader (s : State) : Res Unit :=
  if Config.streamBound ≤ payloadBits s then raise .codeLenOverflow s
  else
    let size := BitVec.ofNat 32 (presentSymbols s).length
    let s' := { s with
      codeLen := BitVec.ofNat 32 (payloadBits s)
      tableSize := size
      hdrBytes := headerByteCount size }
    writeBytes (headerBytes s') s'

/-- The effect of `ENC_PAYLOAD` (R201): the code of every remaining byte of SRC. -/
def encPayload (s : State) : Res Unit := scanSource writeSymbol (scanBound s) s

/-- The report registers at the successful end of a macro (R202, R207, R208). -/
def report (orig : BitVec 32) (s : State) : Res Unit :=
  .ok () { s with
    origBytes := orig
    payloadBytes := payloadByteCount s.codeLen
    hdrBytes := headerByteCount s.tableSize }

/-- The effect of `ENCODE`: the twelve steps of R202 in order, then the report. -/
def encodeFile (s : State) : Res Unit :=
  (openReader s).bind fun _ s =>
  (clearFreq s).bind fun _ s =>
  (scanFreq s).bind fun _ s =>
  (closeReader s).bind fun _ s =>
  (treeBuild s).bind fun _ s =>
  (tableBuild s).bind fun _ s =>
  (openWriter s).bind fun _ s =>
  (encHeader s).bind fun _ s =>
  (openReader s).bind fun _ s =>
  (encPayload s).bind fun _ s =>
  (closeReader s).bind fun _ s =>
  (closeWriter s).bind fun _ s =>
  report (BitVec.ofNat 32 (totalFreq s)) s

/-! ### Decode -/

/-- The table loop of `DEC_HEADER` (R203): `k` entries, each code, length, symbol. -/
def readEntries : (k : Nat) → State → Res Unit
  | 0, s => .ok () s
  | k + 1, s =>
    (readExact 4 s).bind fun c s =>
    (readExact 1 s).bind fun n s =>
    (readExact 1 s).bind fun sym s =>
    (treeInsert (lowByte sym) c n.toNat s).bind fun _ s =>
    readEntries k s

/-- The effect of `DEC_HEADER` (R203). -/
def decHeader (s : State) : Res Unit :=
  (treeClear s).bind fun _ s =>
  (readExact 4 { s with bitsDone := 0, outcnt := 0 }).bind fun v s =>
  (readExact 4 { s with codeLen := v }).bind fun v s =>
    let s' := { s with tableSize := v }
    if Config.maxTableSize < v.toNat then raise .badTableSize s'
    else readEntries v.toNat s'

/-- `walk_bit(b)` (R204): one step of the decode walk; a leaf emits its symbol as a raw byte. -/
def walkBit (b : Bool) (s : State) : Res Unit :=
  match s.nodes[s.cur.toNat]? with
  | none => .stop (.stuck .absentNode) s
  | some n =>
    match n.child b with
    | none => raise .missingChild s
    | some q =>
      match s.nodes[q.toNat]? with
      | none => .stop (.stuck .absentNode) s
      | some (.leaf c _) =>
        (snkByte c s).bind fun _ s => .ok () { s with outcnt := s.outcnt + 1, cur := s.root }
      | some (.inner _ _ _) => .ok () { s with cur := q }

/-- `dec_step()` (R205): consume one payload bit, or nothing when `CODE_LEN` bits have been consumed. -/
def decStep (s : State) : Res Unit :=
  if s.codeLen.toNat ≤ s.bitsDone.toNat then .ok () s
  else
    (readBit s).bind fun r s =>
      match r with
      | none => raise .truncatedPayload s
      | some b => walkBit b { s with bitsDone := s.bitsDone + 1 }

/-- `k` times `dec_step()`. -/
def decSteps : (k : Nat) → State → Res Unit
  | 0, s => .ok () s
  | k + 1, s => (decStep s).bind fun _ s => decSteps k s

/-- The effect of `DEC_PAYLOAD` (R206): each `dec_step()` raises `BITS_DONE` by one, so the loop "while BITS_DONE <
CODE_LEN" makes `CODE_LEN - BITS_DONE` of them (R211). -/
def decPayload (s : State) : Res Unit := decSteps (s.codeLen.toNat - s.bitsDone.toNat) s

/-- The effect of `DECODE`: the six steps of R207 in order, then the report. -/
def decodeFile (s : State) : Res Unit :=
  (openReader s).bind fun _ s =>
  (openWriter s).bind fun _ s =>
  (decHeader s).bind fun _ s =>
  (decPayload s).bind fun _ s =>
  (closeReader s).bind fun _ s =>
  (closeWriter s).bind fun _ s =>
  report s.outcnt s

/-! ### The commands -/

/-- `ENC_HEADER` (R200). -/
def execEncHeader (s : State) : Host.Outcome State Fault Refusal :=
  command .encHeader writerOpen encHeader s

/-- `ENC_PAYLOAD` (R201). -/
def execEncPayload (s : State) : Host.Outcome State Fault Refusal :=
  command .encPayload bothOpen encPayload s

/-- `ENCODE` (R202). -/
def execEncode (s : State) : Host.Outcome State Fault Refusal :=
  command .encode bothClosed encodeFile s

/-- `DEC_HEADER` (R203). -/
def execDecHeader (s : State) : Host.Outcome State Fault Refusal :=
  command .decHeader readerOpen decHeader s

/-- `DEC_STEP` (R205). -/
def execDecStep (s : State) : Host.Outcome State Fault Refusal :=
  command .decStep bothOpen decStep s

/-- `DEC_PAYLOAD` (R206). -/
def execDecPayload (s : State) : Host.Outcome State Fault Refusal :=
  command .decPayload bothOpen decPayload s

/-- `DECODE` (R207). -/
def execDecode (s : State) : Host.Outcome State Fault Refusal :=
  command .decode bothClosed decodeFile s

end Sys2Proof.Machine
end

