-- ==== Sys2Proof/Machine/System.lean ====
section
/-! DEFINITION. The system commands NOP and SRESET (45_system.md R230, R231). -/

namespace Sys2Proof.Machine

/-- `NOP`: no state change (R230). -/
def execNop (s : State) : Host.Outcome State Fault Refusal :=
  command .nop always (fun s => .ok () s) s

/-- `SRESET` (R231): accepted faulted or not; the final flush of an open writer, whose failure is ignored, then every
register at its reset value and the sink closed. It never faults. -/
def execSreset (s : State) : Host.Outcome State Fault Refusal :=
  match finalFlush true s with
  | (.served, s') => .next (leaveBySreset s')
  | (.ioErr, s') => .next (leaveBySreset s')
  | (.hwReset, s') => .next (hardwareReset s')

end Sys2Proof.Machine
end

