-- ==== Sys2Proof/Machine/Dispatch.lean ====
section
/-! DEFINITION. exec: one arm per command of spec/opcode_table.json, each one direct call of its meaning. -/

namespace Sys2Proof.Machine

/-- The effect of a command (00_scope.md R10). -/
def exec (i : Instr) (s : State) : Host.Outcome State Fault Refusal :=
  match i with
  | .nop => Sys2Proof.Machine.execNop s
  | .sreset => Sys2Proof.Machine.execSreset s
  | .rdOpen => Sys2Proof.Machine.execRdOpen s
  | .rdClose => Sys2Proof.Machine.execRdClose s
  | .rdBit => Sys2Proof.Machine.execRdBit s
  | .rdByte => Sys2Proof.Machine.execRdByte s
  | .rdExact len => Sys2Proof.Machine.execRdExact len s
  | .wrOpen => Sys2Proof.Machine.execWrOpen s
  | .wrClose => Sys2Proof.Machine.execWrClose s
  | .wrBit val => Sys2Proof.Machine.execWrBit val s
  | .wrByte val => Sys2Proof.Machine.execWrByte val s
  | .wrExact len val => Sys2Proof.Machine.execWrExact len val s
  | .wrSym sym => Sys2Proof.Machine.execWrSym sym s
  | .fqClear => Sys2Proof.Machine.execFqClear s
  | .fqSet sym val => Sys2Proof.Machine.execFqSet sym val s
  | .fqInc sym => Sys2Proof.Machine.execFqInc sym s
  | .fqScan => Sys2Proof.Machine.execFqScan s
  | .trClear => Sys2Proof.Machine.execTrClear s
  | .trInsert sym len val => Sys2Proof.Machine.execTrInsert sym len val s
  | .trBuild => Sys2Proof.Machine.execTrBuild s
  | .trLen => Sys2Proof.Machine.execTrLen s
  | .tbClear => Sys2Proof.Machine.execTbClear s
  | .tbSet sym len val => Sys2Proof.Machine.execTbSet sym len val s
  | .tbBuild => Sys2Proof.Machine.execTbBuild s
  | .encHeader => Sys2Proof.Machine.execEncHeader s
  | .encPayload => Sys2Proof.Machine.execEncPayload s
  | .encode => Sys2Proof.Machine.execEncode s
  | .decHeader => Sys2Proof.Machine.execDecHeader s
  | .decStep => Sys2Proof.Machine.execDecStep s
  | .decPayload => Sys2Proof.Machine.execDecPayload s
  | .decode => Sys2Proof.Machine.execDecode s

end Sys2Proof.Machine
end

