-- ==== Sys2Proof/Machine/Flags.lean ====
section
/-! DEFINITION. The flags: the STATUS word (10_state.md R23). -/

namespace Sys2Proof.Machine

/-- STATUS.WALK_MID reads 1 "exactly when CUR != ROOT" (R23). -/
def State.walkMid (s : State) : Bool := s.cur != s.root

/-- The STATUS word: ROPEN, WOPEN, EOS, FAULT, WALK_MID in bits 0 to 4, bits 31:5 read as 0 (R23). -/
def State.status (s : State) : BitVec 32 :=
  (0 : BitVec 27) ++ BitVec.ofBool s.walkMid ++ BitVec.ofBool s.faulted ++ BitVec.ofBool s.eos ++
    BitVec.ofBool s.wopen ++ BitVec.ofBool s.ropen

end Sys2Proof.Machine
end

