-- ==== Sys2Proof/Machine/ReadPort.lean ====
section
/-! DEFINITION. The register read port (10_state.md R49): what the host sees of every register. -/

namespace Sys2Proof.Machine

/-- A link as the read port shows it: NONE is 0x3FFF (R44). -/
def linkWord : Option NodeIdx → BitVec 64
  | none => 0x3FFF
  | some q => q.setWidth 64

/-- Word `k` of a node (R44): k = 0 `kind` in bit 0 and `sym` in bits 15:8, k = 1 `left`, k = 2 `right`, k = 3 `freq`. -/
def nodeWord (n : Node) (k : Nat) : BitVec 64 :=
  match n, k with
  | .leaf c _, 0 => (c.setWidth 64 <<< 8) ||| 1
  | .inner _ _ _, 0 => 0
  | n, 1 => linkWord (n.child false)
  | n, 2 => linkWord (n.child true)
  | n, _ => n.freq.setWidth 64

/-- The scalar registers by read address (R22 to R40). -/
def scalarWord (s : State) (ra : Nat) : BitVec 64 :=
  match ra with
  | 0x00 => Config.idValue.setWidth 64
  | 0x01 => s.status.setWidth 64
  | 0x02 => s.err.setWidth 64
  | 0x03 => s.errinfo.setWidth 64
  | 0x04 => s.errcmd.setWidth 64
  | 0x05 => s.res.setWidth 64
  | 0x06 => s.codeLen.setWidth 64
  | 0x07 => s.tableSize.setWidth 64
  | 0x08 => s.origBytes.setWidth 64
  | 0x09 => s.payloadBytes.setWidth 64
  | 0x0A => s.hdrBytes.setWidth 64
  | 0x0B => s.tlen.setWidth 64
  | 0x0C => s.ipos.setWidth 64
  | 0x0D => s.opos.setWidth 64
  | 0x0E => s.root.setWidth 64
  | 0x0F => s.nnode.setWidth 64
  | 0x10 => s.cur.setWidth 64
  | 0x11 => s.bitsDone.setWidth 64
  | 0x12 => s.outcnt.setWidth 64
  | _ => 0

/-- The register read port (R49): the addressed register zero-extended to 64 bits; every other address, and every
NODE word of an entry at or above NNODE, reads as 0. A read is a function of the state and changes nothing. -/
def readPort (s : State) (ra : BitVec 32) : BitVec 64 :=
  let a := ra.toNat
  if a < 0x100 then scalarWord s a
  else if a < 0x200 then (s.getFreq (BitVec.ofNat 8 (a - 0x100))).setWidth 64
  else if a < 0x300 then (s.getCode (BitVec.ofNat 8 (a - 0x200))).setWidth 64
  else if a < 0x400 then (s.getLen (BitVec.ofNat 8 (a - 0x300))).setWidth 64
  else if a < 0x10000 then 0
  else if a ≤ 0x18003 then
    match s.nodes[(a - 0x10000) / 4]? with
    | some n => nodeWord n ((a - 0x10000) % 4)
    | none => 0
  else 0

end Sys2Proof.Machine
end

