-- ==== Sys2Proof/Machine/Step.lean ====
section
/-! DEFINITION. One step: the next act of the host (00_scope.md R3, R12), a command executed from acceptance to its
answer, the reset input pulsed, or another SRC put in place; with no act the block is idle. -/

namespace Sys2Proof.Machine

/-- One command word on the command port (30_encoding.md R93): a legal command runs, which a faulted block rejects
unless it is SRESET (R248), and an illegal word takes its fault. -/
def issue (w : Word) (s : State) : Host.Outcome State Fault Refusal :=
  match decodeWord w with
  | .command i => exec i s
  | .badOpcode => .next (illegalWord w .badOpcode s)
  | .badField => .next (illegalWord w .badField s)

/-- One step of the machine. "The block is either executing a command or idle, and idle keeps all state"
(60_exceptions.md R255). -/
def step (s : State) : Host.Outcome State Fault Refusal :=
  match nextAct s with
  | none => .next s
  | some (.issue w answers, s') => issue w (withAnswers answers s')
  | some (.hwReset, s') => .next (hardwareReset s')
  | some (.supply bytes, s') => supplySource bytes s'

/-- The state with a command word as the host's next act: what the very next step executes (log entry 1). The host
issues it together with sixteen served accesses, so that a first command meets a working medium (log entry 4). -/
def State.withFetchWord (s : State) (nbits w : Nat) : State :=
  { s with host := .issue (BitVec.ofNat 64 (w % 2 ^ nbits)) (List.replicate 16 .served) :: s.host }

end Sys2Proof.Machine
end

