-- ==== Sys2Proof/Safety.lean ====
section
/-! DEFINITION. What a good state and a good run are: the invariants the spec states of every reachable state
(10_state.md R50, R51; 41_bitstream_writer.md R149; and the ranges of R23 to R40), the end of a good run (00_scope.md
R12), and the words in which claims speak of streams, bits and paths in the code tree. -/

namespace Sys2Proof.Machine

/-! ### Streams and bits -/

/-- The premise "no access of this run drew a failure" (20_memory.md R78) for the next `k` accesses. -/
abbrev Served (k : Nat) (s : State) : Prop := s.draws.take k = List.replicate k .served

/-- The eight bits of a byte in stream order, bit 0 first (20_memory.md R67). -/
def byteBits (v : Byte) : List Bool := (List.range 8).map v.getLsbD

/-- The bits of a byte sequence in stream order (R67, 30_encoding.md R103). -/
def streamBits (vs : List Byte) : List Bool := vs.flatMap byteBits

/-- The bits written but not yet in SNK: the first `WCNT` bits of `WACC` (10_state.md R46, R74). -/
def pendingBits (s : State) : List Bool := (List.range s.wcnt.toNat).map s.wacc.getLsbD

/-- All the bits given to the writer since SNK was emptied, when no raw byte came between (R67, R74). -/
def writtenBits (s : State) : List Bool := streamBits s.mem.snk ++ pendingBits s

/-- The bits the reader has still to deliver: those buffered, then those of the bytes not yet fetched (40 R121). -/
def unreadBits (s : State) : List Bool :=
  (List.range s.rcnt.toNat).map s.rbuf.getLsbD ++ streamBits (s.mem.src.drop s.ipos.toNat)

/-- The bytes as one little-endian number, the first byte lowest (20_memory.md R66). -/
def littleEndian : List Byte → Nat
  | [] => 0
  | v :: vs => v.toNat + 256 * littleEndian vs

/-- Bytes that hold exactly the given bits, the unused high bits of the last byte zero (R68 (2), R103). -/
def Packs (vs : List Byte) (bits : List Bool) : Prop :=
  ∃ pad < 8, streamBits vs = bits ++ List.replicate pad false

/-- `read_bit()` delivers bit `b` and leaves `t` (40_bitstream_reader.md R121): from the buffer, or, when that is empty,
from the next byte of SRC by one access that the medium serves. -/
def BitRead (s : State) (b : Bool) (t : State) : Prop :=
  (s.rcnt ≠ 0 ∧ b = s.rbuf.getLsbD 0 ∧ t = { s with rbuf := s.rbuf >>> 1, rcnt := s.rcnt - 1, eos := false }) ∨
    (s.rcnt = 0 ∧ Served 1 s ∧ ∃ v, s.mem.src[s.ipos.toNat]? = some v ∧ b = v.getLsbD 0 ∧
      t = { s with draws := s.draws.drop 1, ipos := s.ipos + 1, rbuf := v >>> 1, rcnt := 7, eos := false })

/-- The code of a symbol in the code table, as the bits it emits (30_encoding.md R104, 41 R142). -/
def symbolBits (s : State) (c : Symbol) : List Bool :=
  (List.range (s.getLen c).toNat).map (s.getCode c).getLsbD

/-! ### Paths in the code tree -/

/-- The node reached from node `p` by following the given edges, false left and true right (30_encoding.md R104). -/
def follow (ns : List Node) : NodeIdx → List Bool → Option NodeIdx
  | p, [] => some p
  | p, b :: bs =>
    match ns[p.toNat]? with
    | none => none
    | some n =>
      match n.child b with
      | none => none
      | some q => follow ns q bs

/-- The symbol of the LEAF that a path from the root leads to, if it leads to one. -/
def leafSymbol (s : State) (bits : List Bool) : Option Symbol :=
  match follow s.nodes s.root bits with
  | none => none
  | some p =>
    match s.nodes[p.toNat]? with
    | some (.leaf c _) => some c
    | _ => none

/-- The frequency of the LEAF that a path from the root leads to, 0 if it leads to none. -/
def leafFreq (s : State) (bits : List Bool) : Nat :=
  match follow s.nodes s.root bits with
  | none => 0
  | some p =>
    match s.nodes[p.toNat]? with
    | some (.leaf _ f) => f.toNat
    | _ => 0

/-- The path `p` lies to the left of the path `q`: where they part, `p` goes left and `q` right. -/
def leftOf : List Bool → List Bool → Bool
  | false :: _, true :: _ => true
  | b :: p, c :: q => b == c && leftOf p q
  | _, _ => false

/-- "No pattern is a prefix of another" (00_scope.md, glossary), for a list of patterns. -/
def PrefixFree (ps : List (List Bool)) : Prop := ps.Pairwise fun p q => ¬ p <+: q ∧ ¬ q <+: p

/-- No path to a LEAF begins with the given path or is the beginning of it. -/
def PathFree (s : State) (bits : List Bool) : Prop :=
  ∀ p c, leafSymbol s p = some c → ¬ p <+: bits ∧ ¬ bits <+: p

/-- An index holds an INNER node. -/
def IsInner (ns : List Node) (p : NodeIdx) : Prop := ∃ l r f, ns[p.toNat]? = some (.inner l r f)

/-- A link from node `p` on side `b` to node `q`. -/
def Link (ns : List Node) (p : Nat) (b : Bool) (q : NodeIdx) : Prop :=
  ∃ n, ns[p]? = some n ∧ n.child b = some q

/-! ### The merge of TR_BUILD -/

/-- The symbols with non-zero frequency, ascending (42_code_tree.md R165). -/
def countedSymbols (s : State) : List Symbol := symbols.filter fun c => s.getFreq c != 0

/-- Node `i` comes before node `j` in the priority order of 42_code_tree.md R164. -/
def Before (ns : List Node) (i j : Nat) : Prop :=
  freqAt ns i < freqAt ns j ∨ (freqAt ns i = freqAt ns j ∧ i < j)

/-- Node `j` was still a candidate when node `i` was made: no earlier node had it as a child (R165: a merge takes its two
nodes out of the priority structure). -/
def CandidateAt (ns : List Node) (i j : Nat) : Prop := j < i ∧ ∀ p < i, ∀ side, ¬ Link ns p side (idx j)

/-- Node `i`, made by a merge, joined the two least candidates (R165): `a`, the left child, came before `b`, the right
one, and `b` before every other candidate. -/
def MergedLeast (ns : List Node) (i : Nat) : Prop :=
  ∃ a b f, ns[i]? = some (.inner (some (idx a)) (some (idx b)) f) ∧ CandidateAt ns i a ∧ CandidateAt ns i b ∧
    f.toNat = freqAt ns a + freqAt ns b ∧ Before ns a b ∧
    ∀ j, CandidateAt ns i j → j ≠ a → j ≠ b → Before ns b j

/-! ### The encoded file -/

/-- A 32-bit value as the four bytes of 20_memory.md R66. -/
def word32 (v : BitVec 32) : List Byte :=
  [v.extractLsb' 0 8, v.extractLsb' 8 8, v.extractLsb' 16 8, v.extractLsb' 24 8]

/-- A table entry of the encoded file (30_encoding.md R102). -/
structure Entry where
  sym : Symbol
  code : BitVec 32
  len : BitVec 8
  deriving DecidableEq, Repr

/-- The six bytes of an entry (R100, R102). -/
def Entry.bytes (e : Entry) : List Byte := word32 e.code ++ [e.len, e.sym]

/-- The code of an entry as the bits of a path (R104). -/
def Entry.bits (e : Entry) : List Bool := (List.range e.len.toNat).map e.code.getLsbD

/-- The header and the table of an encoded file (R100). -/
def fileHeader (codeLen : BitVec 32) (es : List Entry) : List Byte :=
  word32 codeLen ++ word32 (BitVec.ofNat 32 es.length) ++ es.flatMap Entry.bytes

/-- A table that a decoder accepts: at most 256 entries, lengths 1 to 32, no code the beginning of another
(70_reset_and_hazards.md R283). -/
structure GoodTable (es : List Entry) : Prop where
  size : es.length ≤ 256
  lengths : ∀ e ∈ es, 1 ≤ e.len.toNat ∧ e.len.toNat ≤ 32
  prefixFree : PrefixFree (es.map Entry.bits)

/-- The entries of the code table, in increasing order of symbol (R102). -/
def tableEntries (s : State) : List Entry :=
  (symbols.filter fun c => s.getLen c != 0).map fun c => ⟨c, s.getCode c, s.getLen c⟩

/-! ### Commands and faults -/

/-- The 31 opcodes of the map (30_encoding.md R92). -/
def commandOpcodes : List Nat :=
  [0x00, 0x01, 0x10, 0x11, 0x12, 0x13, 0x14, 0x20, 0x21, 0x22, 0x23, 0x24, 0x25, 0x30, 0x31, 0x32, 0x33] ++
    [0x38, 0x39, 0x3A, 0x3B, 0x40, 0x41, 0x42, 0x50, 0x51, 0x52, 0x58, 0x59, 0x5A, 0x5B]

/-- The table of causes (60_exceptions.md R242): the cause, its class in ERR, its value in ERRINFO. -/
def causeTable : List (Cause × Nat × Nat) :=
  [(.ioSrc, 1, 0x01), (.ioSnk, 1, 0x02), (.missingChild, 2, 0x10), (.shortRead, 2, 0x11)] ++
    [(.truncatedPayload, 2, 0x12), (.badLength, 2, 0x13), (.badTableSize, 2, 0x14), (.tableConflict, 2, 0x15)] ++
    [(.freqOverflow, 3, 0x20), (.codeTooLong, 3, 0x21), (.codeLenOverflow, 3, 0x22), (.posOverflow, 3, 0x23)] ++
    [(.nodeOverflow, 3, 0x24), (.badOpcode, 4, 0x30), (.badField, 4, 0x31), (.streamState, 4, 0x32)]

/-- Fault entry without its flush (60_exceptions.md R246): the fault registers, both streams released, the answer. -/
def faultLatched (op : BitVec 8) (c : Cause) (s : State) : State :=
  { s with
    err := c.err
    errinfo := c.info
    errcmd := op
    wacc := if s.wopen then 0 else s.wacc
    wcnt := if s.wopen then 0 else s.wcnt
    wopen := false
    mem := if s.wopen then { s.mem with snkOpen := false } else s.mem
    rbuf := if s.ropen then 0 else s.rbuf
    rcnt := if s.ropen then 0 else s.rcnt
    ropen := false
    answer := some .fault }

/-- Every register at its reset value, SNK closed with the given bytes (10_state.md R52), and the given answer. -/
def resetWith (s : State) (snk : List Byte) (draws : List EnvAnswer) (freeDraws : Nat) (a : Option Answer) : State :=
  { State.reset with
    mem := { s.mem with snk := snk, snkOpen := false }
    host := s.host
    draws := draws
    freeDraws := freeDraws
    answer := a }

/-- Two states that differ in the answer and in ERRCMD at most, ERRCMD of the first being `op` when it is faulted: what
a macro leaves beside what its steps leave (44_archiver.md R211). -/
def SameBut (op : BitVec 8) (t u : State) : Prop :=
  t = { u with answer := t.answer, errcmd := t.errcmd } ∧ (t.faulted = true → t.errcmd = op)

/-! ### Commands in a row -/

/-- The line "Requires" of each command's rule: the stream state in which it may be issued. -/
def requires : Instr → State → Bool
  | .rdOpen, s => !s.ropen
  | .rdClose, s | .rdBit, s | .rdByte, s | .rdExact _, s | .fqScan, s | .decHeader, s => s.ropen
  | .wrOpen, s => !s.wopen
  | .wrClose, s | .wrBit _, s | .wrByte _, s | .wrExact _ _, s | .wrSym _, s | .encHeader, s => s.wopen
  | .encPayload, s | .decStep, s | .decPayload, s => s.ropen && s.wopen
  | .encode, s | .decode, s => !s.ropen && !s.wopen
  | .nop, _ | .sreset, _ | .fqClear, _ | .fqSet _ _, _ | .fqInc _, _ => true
  | .trClear, _ | .trInsert _ _ _, _ | .trBuild, _ | .trLen, _ | .tbClear, _ | .tbSet _ _ _, _ | .tbBuild, _ => true

/-- Commands issued one by one, each after a `done` of the one before (00_scope.md R12); the first other answer ends
the run. -/
def runCommands : List Instr → State → Host.Outcome State Fault Refusal
  | [], s => .next s
  | i :: is, s =>
    match exec i s with
    | .next t => if t.answer = some .done then runCommands is t else .next t
    | .fault f => .fault f
    | .refused r => .refused r

/-! ### The invariants -/

/-- The tree invariants of 10_state.md R50, of the nodes, ROOT and CUR; (4), a LEAF has no children, holds by the
form of `Node`. The last field is the model's own addition: it is what makes R50 (2) survive a `TR_INSERT` in the
middle of a walk. -/
structure TreeShape (ns : List Node) (root cur : NodeIdx) : Prop where
  /-- R50 (1), with R37: NNODE is in range. -/
  size : ns.length ≤ Config.nodeCap
  /-- R50 (1), (2): ROOT names an INNER node. -/
  rootInner : IsInner ns root
  /-- R50 (1), (2): CUR names an INNER node. -/
  curInner : IsInner ns cur
  /-- R50 (3): every link is NONE or an index below NNODE. -/
  links : ∀ p b q, Link ns p b q → q.toNat < ns.length
  /-- R50 (5): a node is the child of at most one node, through one link. -/
  oneParent : ∀ p p' b b' q, Link ns p b q → Link ns p' b' q → p = p' ∧ b = b'
  /-- R50 (5): the root is no node's child, so the walk never repeats a node. -/
  rootFree : ∀ p b, ¬ Link ns p b root
  /-- R50 (5): following child links from ROOT reaches every node below NNODE. -/
  reach : ∀ q : NodeIdx, q.toNat < ns.length → ∃ bits, follow ns root bits = some q
  /-- Only the root is an INNER node without children. -/
  grown : ∀ p f, ns[p]? = some (.inner none none f) → p = root.toNat

/-- The tree invariants (10_state.md R50) of a state. -/
def TreeInv (s : State) : Prop := TreeShape s.nodes s.root s.cur

/-- The table invariants (10_state.md R51). -/
def TableInv (s : State) : Prop :=
  ∀ c : Symbol, (s.getLen c).toNat ≤ 32 ∧ (s.getCode c).toNat < 2 ^ (s.getLen c).toNat

/-- The padding invariant of the writer (41_bitstream_writer.md R149). -/
def WriterInv (s : State) : Prop :=
  s.wcnt.toNat ≤ 7 ∧ s.wacc.toNat < 2 ^ s.wcnt.toNat

/-- The stream registers agree with the streams: IPOS does not pass SRC_LEN while the reader is open (10_state.md
R34), OPOS is SNK's length while the writer is open (R35), the flag of SNK is WOPEN (R65), a closed writer has no
pending bits (R147, R246), RCNT is at most 8 (R45), and both streams are shorter than 2^32 bytes. -/
structure StreamInv (s : State) : Prop where
  wf : s.mem.wf
  ipos : s.ropen = true → s.ipos.toNat ≤ s.mem.src.length
  opos : s.wopen = true → s.opos.toNat = s.mem.snk.length
  flag : s.mem.snkOpen = s.wopen
  closed : s.wopen = false → s.wcnt = 0
  rcnt : s.rcnt.toNat ≤ 8

/-- The fault registers: all zero when `ERR = 0`, and otherwise a class and cause of 60_exceptions.md R242, with both
streams released (R24, R25, R26, R246). -/
def FaultInv (s : State) : Prop :=
  (s.err = 0 ∧ s.errinfo = 0 ∧ s.errcmd = 0) ∨
    ((∃ c : Cause, s.err = c.err ∧ s.errinfo = c.info) ∧ s.ropen = false ∧ s.wopen = false)

/-- The counts of the decode walk and of the table: OUTCNT never exceeds BITS_DONE (10_state.md R40), and TABLE_SIZE
exceeds 256 only in a faulted block (R29). -/
def CountInv (s : State) : Prop :=
  s.outcnt.toNat ≤ s.bitsDone.toNat ∧ (s.err = 0 → s.tableSize.toNat ≤ 256)

/-- The invariant of the machine: it holds at reset and every step keeps it. -/
structure Inv (s : State) : Prop where
  tree : TreeInv s
  table : TableInv s
  writer : WriterInv s
  stream : StreamInv s
  fault : FaultInv s
  count : CountInv s

/-- What `DEC_HEADER` has made of state `s` when it has read `n` bytes: the two length fields `a` and `b`, and the
entries `es`, each of which is in the tree (44_archiver.md R203, 42_code_tree.md R168). -/
def HeaderRead (s : State) (a b : BitVec 32) (es : List Entry) (n : Nat) (u : State) : Prop :=
  TreeInv u ∧ (∀ p c, leafSymbol u p = some c ↔ ∃ e ∈ es, e.bits = p ∧ e.sym = c) ∧
    u = { s with
      nodes := u.nodes, root := 0, cur := 0, bitsDone := 0, outcnt := 0, codeLen := a, tableSize := b, eos := false
      ipos := s.ipos + BitVec.ofNat 32 n, draws := s.draws.drop n }

/-- "A run ended well when no command faulted or was rejected, ERR = 0, and both streams are closed" (R12): the part
of it that the last state shows. -/
def EndedWell (s : State) : Prop := s.err = 0 ∧ s.ropen = false ∧ s.wopen = false

end Sys2Proof.Machine
end

