-- ==== Sys2Proof/Certificates/Slice0/Obligations.lean ====
section
/-! DEFINITION. The statements for the provers: what the numbered rules of the spec say the commands and the machine do.
Where a state is written out as `{ s with ... }`, every field not named is unchanged: that is the command's frame. -/

open Sys2Proof Sys2Proof.Machine

/-! ### The command word -/

/-- 30_encoding.md R90 to R92: every well-formed command is read back from its word, with every operand. -/
def Obligations.DecodeOfEncode : Prop :=
  ∀ i : Instr, i.wellFormed = true → decodeWord (encodeWord i) = .command i

/-- 30_encoding.md R92, R94: a word that decodes to a command is that command's only word, and the command is
well-formed. -/
def Obligations.EncodeOfDecode : Prop :=
  ∀ (w : Word) (i : Instr), decodeWord w = .command i → i.wellFormed = true ∧ encodeWord i = w

/-- 30_encoding.md R94: 31 opcodes; any other is BAD_OPCODE, and a word with a defined opcode that is no command's word
is BAD_FIELD. Either way the word changes no state other than by fault entry. -/
def Obligations.IllegalWordsAreRejectedByName : Prop :=
  commandOpcodes.length = 31 ∧
    ∀ w : Word,
      (decodeWord w = .badOpcode ↔ (w >>> 56).toNat ∉ commandOpcodes) ∧
      (decodeWord w = .badField ↔
        (w >>> 56).toNat ∈ commandOpcodes ∧ ∀ i : Instr, i.wellFormed = true → encodeWord i ≠ w) ∧
      ∀ s : State, s.faulted = false →
        (decodeWord w = .badOpcode → issue w s = .next (faultEntry (w.extractLsb' 56 8) .badOpcode s)) ∧
        (decodeWord w = .badField → issue w s = .next (faultEntry (w.extractLsb' 56 8) .badField s))

/-- Words written in the spec's examples and one of every family (30_encoding.md R92, R96): a sanity statement. -/
def Obligations.SampleWordsDecode : Prop :=
  decodeWord 0x0000000000000000 = .command .nop ∧
  decodeWord 0x0100000000000000 = .command .sreset ∧
  decodeWord 0x1400040000000000 = .command (.rdExact 4) ∧
  decodeWord 0x240004000000002A = .command (.wrExact 4 0x2A) ∧
  decodeWord 0x2561000000000000 = .command (.wrSym 0x61) ∧
  decodeWord 0x3101000000000006 = .command (.fqSet 1 6) ∧
  decodeWord 0x3961030000000005 = .command (.trInsert 0x61 3 5) ∧
  decodeWord 0x4162030000000003 = .command (.tbSet 0x62 3 3) ∧
  decodeWord 0x5200000000000000 = .command .encode ∧
  decodeWord 0x5B00000000000000 = .command .decode ∧
  decodeWord 0x0000000000000001 = .badField ∧
  decodeWord 0x3400000000000000 = .badOpcode

/-! ### A step -/

/-- 30_encoding.md R93 (4): when the host's next act is a word that decodes to a command, the step is that command's
execution, on the state without that act and with the environment's answers that come with it (log entries 1, 4). -/
def Obligations.StepRunsTheDecodedCommand : Prop :=
  (∀ (s : State) (w : Word) (ds : List EnvAnswer) (rest : List HostAct) (i : Instr),
    s.host = .issue w ds :: rest → decodeWord w = .command i →
      step s = exec i { s with host := rest, draws := ds }) ∧
  ∀ (s : State) (w : Nat) (i : Instr), decodeTableWord 64 w = some i →
    step (s.withFetchWord 64 w) = exec i { s with draws := List.replicate 16 .served }

/-- The host's other acts (log entries 1, 7): none leaves the block idle with all state kept (60_exceptions.md R255); the
reset input gives the reset state with SNK's bytes kept and SNK closed (70_reset_and_hazards.md R270, R272); a new SRC is
put in place while the reader is closed and refused otherwise (20_memory.md R79). -/
def Obligations.StepOfTheOtherHostActs : Prop :=
  ∀ (s : State) (rest : List HostAct),
    (s.host = [] → step s = .next s) ∧
    (s.host = .hwReset :: rest →
      step s = .next (resetWith { s with host := rest } s.mem.snk s.draws s.freeDraws none)) ∧
    ∀ bytes : List Byte, s.host = .supply bytes :: rest →
      (s.ropen = false → bytes.length < 2 ^ 32 →
        step s = .next { s with host := rest, mem := { s.mem with src := bytes } }) ∧
      (s.ropen = true → step s = .refused .srcReplacedWhileOpen) ∧
      (s.ropen = false → 2 ^ 32 ≤ bytes.length → step s = .refused .srcTooLong)

/-! ### Faults -/

/-- 60_exceptions.md R246: fault entry. The final flush is made when the writer is open, holds bits, is not full and did
not itself just fail; then its byte is appended when the access is served, and a failure is ignored. A reset input
asserted at that access resets the block (70 R270, log entry 6); an access with no answer supplied is a free draw (R78, log
entry 4). -/
def Obligations.FaultEntrySequence : Prop :=
  ∀ (op : BitVec 8) (c : Cause) (s : State),
    ((s.wopen = false ∨ s.wcnt = 0 ∨ c = .ioSnk ∨ s.opos.toNat = 2 ^ 32 - 1) →
      faultEntry op c s = faultLatched op c s) ∧
    (s.wopen = true → s.wcnt ≠ 0 → c ≠ .ioSnk → s.opos.toNat ≠ 2 ^ 32 - 1 →
      (∀ ds, s.draws = .served :: ds → faultEntry op c s = faultLatched op c
        { s with draws := ds, mem := { s.mem with snk := s.mem.snk ++ [s.wacc] }, opos := s.opos + 1 }) ∧
      (∀ ds, s.draws = .ioErr :: ds → faultEntry op c s = faultLatched op c { s with draws := ds }) ∧
      (∀ ds, s.draws = .hwReset :: ds →
        faultEntry op c s = resetWith s s.mem.snk ds s.freeDraws none) ∧
      (s.draws = [] →
        faultEntry op c s = faultLatched op c { s with
          freeDraws := s.freeDraws + 1, mem := { s.mem with snk := s.mem.snk ++ [s.wacc] }, opos := s.opos + 1 } ∨
        faultEntry op c s = faultLatched op c { s with freeDraws := s.freeDraws + 1 }))

/-- 60_exceptions.md R241, R242, R247: what a fault records, for every row of the table of causes. -/
def Obligations.FaultRecordsItsCause : Prop :=
  ∀ (op : BitVec 8) (c : Cause) (s : State),
    (faultEntry op c s).answer = some .fault →
      (∃ e n, (c, e, n) ∈ causeTable ∧ (faultEntry op c s).err.toNat = e ∧ (faultEntry op c s).errinfo.toNat = n) ∧
      (faultEntry op c s).errcmd = op ∧ (faultEntry op c s).faulted = true ∧
      (faultEntry op c s).ropen = false ∧ (faultEntry op c s).wopen = false

/-- 30_encoding.md R93 (3): a command in a stream state that its line "Requires" excludes. -/
def Obligations.WrongStreamStateFaults : Prop :=
  ∀ (i : Instr) (s : State), s.faulted = false → i.wellFormed = true → requires i s = false →
    exec i s = .next (faultEntry (opcode i) .streamState s)

/-- 30_encoding.md R93 (2), 60_exceptions.md R249: an operand out of range faults, before the stream state is looked
at. -/
def Obligations.OperandOutOfRangeFaults : Prop :=
  ∀ (i : Instr) (s : State), s.faulted = false → i.wellFormed = false →
    exec i s = .next (faultEntry (opcode i) .badField s)

/-- 60_exceptions.md R248: the faulted state accepts exactly the word of SRESET; every other word, whatever its bits,
changes no state at all (the answer of the command port apart), and register reads work as always. -/
def Obligations.FaultedBlockRejectsEveryOtherWord : Prop :=
  ∀ (s : State) (w : Word), s.err ≠ 0 →
    (w ≠ 0x0100000000000000 → issue w s = .next { s with answer := some .rejected }) ∧
    (w = 0x0100000000000000 → ∃ t, issue w s = .next t ∧ exec .sreset s = .next t) ∧
    ∀ ra, readPort { s with answer := some .rejected } ra = readPort s ra

/-- 10_state.md R24: once ERR is non-zero, a step keeps ERR, ERRINFO and ERRCMD unless it is SRESET or reset. -/
def Obligations.FaultIsSticky : Prop :=
  ∀ s t : State, s.err ≠ 0 → step s = .next t →
    (t.err = s.err ∧ t.errinfo = s.errinfo ∧ t.errcmd = s.errcmd) ∨
    (t.err = 0 ∧ ∃ rest, s.host = .hwReset :: rest ∨ ∃ ds, s.host = .issue 0x0100000000000000 ds :: rest)

/-! ### System commands, reset and the read port -/

/-- 45_system.md R230: NOP changes nothing; any other non-zero field is BAD_FIELD; a faulted block rejects it. -/
def Obligations.NopChangesNothing : Prop :=
  ∀ s : State,
    (s.faulted = false → issue 0x0000000000000000 s = .next { s with answer := some .done } ∧
      exec .nop s = .next { s with answer := some .done }) ∧
    (s.faulted = false → ∀ w : Word, w >>> 56 = 0 → w ≠ 0 → issue w s = .next (faultEntry 0x00 .badField s)) ∧
    (s.faulted = true → issue 0x0000000000000000 s = .next { s with answer := some .rejected })

/-- 45_system.md R231: SRESET, faulted or not: the final flush of an open writer, whose failure is ignored, then every
register at its reset value; a malformed SRESET word faults, and a faulted block rejects every other word. An access with
no answer supplied is a free draw (log entry 4), and the reset input may be asserted at it (log entry 6). -/
def Obligations.SresetResetsEveryRegister : Prop :=
  ∀ s : State,
    issue 0x0100000000000000 s = exec .sreset s ∧
    ((s.wopen = false ∨ s.wcnt = 0 ∨ s.opos.toNat = 2 ^ 32 - 1) →
      exec .sreset s = .next (resetWith s s.mem.snk s.draws s.freeDraws (some .done))) ∧
    (s.wopen = true → s.wcnt ≠ 0 → s.opos.toNat ≠ 2 ^ 32 - 1 →
      (∀ ds, s.draws = .served :: ds →
        exec .sreset s = .next (resetWith s (s.mem.snk ++ [s.wacc]) ds s.freeDraws (some .done))) ∧
      (∀ ds, s.draws = .ioErr :: ds →
        exec .sreset s = .next (resetWith s s.mem.snk ds s.freeDraws (some .done))) ∧
      (∀ ds, s.draws = .hwReset :: ds → exec .sreset s = .next (resetWith s s.mem.snk ds s.freeDraws none)) ∧
      (s.draws = [] →
        exec .sreset s = .next (resetWith s (s.mem.snk ++ [s.wacc]) [] (s.freeDraws + 1) (some .done)) ∨
        exec .sreset s = .next (resetWith s s.mem.snk [] (s.freeDraws + 1) (some .done)))) ∧
    ∀ w : Word, w ≠ 0x0100000000000000 →
      (s.faulted = false → w >>> 56 = 1 → issue w s = .next (faultEntry 0x01 .badField s)) ∧
      (s.faulted = true → issue w s = .next { s with answer := some .rejected })

/-- 10_state.md R52: the state after reset and after SRESET, read through the register read port and in the hidden
buffers; SNK's bytes are kept, after the pending-bits byte that SRESET may append. `State.reset` is such a state with the
bytes of SNK, answers, counter and answer that it has: what those are is no rule of the spec (log entries 2, 3, 4), and
nothing is said of them. -/
def Obligations.ResetStateHasTheListedValues : Prop :=
  ∀ (s : State) (snk : List Byte) (ds : List EnvAnswer) (n : Nat) (a : Option Answer),
    (∀ ra : BitVec 32, readPort (resetWith s snk ds n a) ra =
      if ra = 0 then 0x48554607 else if ra = 0x0F then 1
      else if ra = 0x10001 ∨ ra = 0x10002 then 0x3FFF else 0) ∧
    (resetWith s snk ds n a).rbuf = 0 ∧ (resetWith s snk ds n a).rcnt = 0 ∧
    (resetWith s snk ds n a).wacc = 0 ∧ (resetWith s snk ds n a).wcnt = 0 ∧
    (resetWith s snk ds n a).mem = { s.mem with snk := snk, snkOpen := false } ∧
    (State.reset = resetWith State.reset State.reset.mem.snk State.reset.draws State.reset.freeDraws State.reset.answer ∧
      hardwareReset s = resetWith s s.mem.snk s.draws s.freeDraws none ∧
      ∃ t, exec .sreset s = .next t ∧
        (t = resetWith s s.mem.snk t.draws t.freeDraws t.answer ∨
          s.wopen = true ∧ s.wcnt ≠ 0 ∧ t = resetWith s (s.mem.snk ++ [s.wacc]) t.draws t.freeDraws t.answer) ∧
        (s.wopen = true → s.wcnt ≠ 0 → s.opos.toNat ≠ 2 ^ 32 - 1 → Served 1 s →
          t = resetWith s (s.mem.snk ++ [s.wacc]) t.draws t.freeDraws t.answer))

/-- 10_state.md R49, with the addresses of R22 to R44: what the register read port shows. -/
def Obligations.RegisterReadPortMap : Prop :=
  ∀ s : State,
    (readPort s 0x00 = 0x48554607 ∧
      (readPort s 0x01).toNat = s.ropen.toNat + 2 * s.wopen.toNat + 4 * s.eos.toNat + 8 * (s.err != 0).toNat +
        16 * (s.cur != s.root).toNat ∧
      readPort s 0x02 = s.err.setWidth 64 ∧ readPort s 0x03 = s.errinfo.setWidth 64 ∧
      readPort s 0x04 = s.errcmd.setWidth 64 ∧ readPort s 0x05 = s.res.setWidth 64 ∧
      readPort s 0x06 = s.codeLen.setWidth 64 ∧ readPort s 0x07 = s.tableSize.setWidth 64 ∧
      readPort s 0x08 = s.origBytes.setWidth 64 ∧ readPort s 0x09 = s.payloadBytes.setWidth 64 ∧
      readPort s 0x0A = s.hdrBytes.setWidth 64 ∧ readPort s 0x0B = s.tlen.setWidth 64 ∧
      readPort s 0x0C = s.ipos.setWidth 64 ∧ readPort s 0x0D = s.opos.setWidth 64 ∧
      readPort s 0x0E = s.root.setWidth 64 ∧ (readPort s 0x0F).toNat = s.nodes.length % 2 ^ 14 ∧
      readPort s 0x10 = s.cur.setWidth 64 ∧ readPort s 0x11 = s.bitsDone.setWidth 64 ∧
      readPort s 0x12 = s.outcnt.setWidth 64) ∧
    (∀ c : Symbol,
      readPort s (BitVec.ofNat 32 (0x100 + c.toNat)) = (s.getFreq c).setWidth 64 ∧
      readPort s (BitVec.ofNat 32 (0x200 + c.toNat)) = (s.getCode c).setWidth 64 ∧
      readPort s (BitVec.ofNat 32 (0x300 + c.toNat)) = (s.getLen c).setWidth 64) ∧
    (∀ i ≤ 8192, ∀ k < 4, readPort s (BitVec.ofNat 32 (0x10000 + 4 * i + k)) =
      match s.nodes[i]?, k with
      | none, _ => 0
      | some (.leaf c _), 0 => BitVec.ofNat 64 (256 * c.toNat + 1)
      | some (.leaf _ _), 1 => 0x3FFF
      | some (.leaf _ _), 2 => 0x3FFF
      | some (.leaf _ f), _ => f.setWidth 64
      | some (.inner _ _ _), 0 => 0
      | some (.inner l _ _), 1 => (l.getD 0x3FFF).setWidth 64
      | some (.inner _ r _), 2 => (r.getD 0x3FFF).setWidth 64
      | some (.inner _ _ f), _ => f.setWidth 64) ∧
    ∀ ra : BitVec 32, (0x12 < ra.toNat ∧ ra.toNat < 0x100) ∨ (0x400 ≤ ra.toNat ∧ ra.toNat < 0x10000) ∨
      0x18003 < ra.toNat → readPort s ra = 0

/-! ### The reader -/

/-- 40_bitstream_reader.md R122, R123: RD_OPEN and RD_CLOSE. -/
def Obligations.ReaderOpensAndCloses : Prop :=
  encodeWord .rdOpen = 0x1000000000000000 ∧ encodeWord .rdClose = 0x1100000000000000 ∧
  ∀ s : State, s.faulted = false →
    (s.ropen = false → exec .rdOpen s = .next { s with
      ipos := 0, rbuf := 0, rcnt := 0, eos := false, ropen := true, answer := some .done }) ∧
    (s.ropen = true → exec .rdOpen s = .next (faultEntry 0x10 .streamState s)) ∧
    (s.ropen = true → exec .rdClose s = .next { s with
      ropen := false, rbuf := 0, rcnt := 0, answer := some .done }) ∧
    (s.ropen = false → exec .rdClose s = .next (faultEntry 0x11 .streamState s))

/-- 40_bitstream_reader.md R121, R124: RD_BIT delivers a bit from the buffer or from the next byte of SRC, finds
end-of-stream, or meets a failing medium; with the reader closed it faults. -/
def Obligations.ReadBitResult : Prop :=
  encodeWord .rdBit = 0x1200000000000000 ∧
  ∀ s : State, s.faulted = false →
    (s.ropen = false → exec .rdBit s = .next (faultEntry 0x12 .streamState s)) ∧
    (s.ropen = true →
      (∀ b t, BitRead s b t →
        exec .rdBit s = .next { t with res := if b then 1 else 0, answer := some .done }) ∧
      (s.rcnt = 0 → s.mem.src.length ≤ s.ipos.toNat → Served 1 s → exec .rdBit s = .next { s with
        draws := s.draws.drop 1, eos := true, res := 0, answer := some .done }) ∧
      ∀ ds, s.rcnt = 0 → s.draws = .ioErr :: ds →
        exec .rdBit s = .next (faultEntry 0x12 .ioSrc { s with draws := ds }))

/-- 20_memory.md R67, 40_bitstream_reader.md R121: RD_BIT after RD_BIT delivers the unread bits of the stream in order,
bit 0 of each byte first. -/
def Obligations.ReadBitDeliversTheStreamInOrder : Prop :=
  ∀ (s : State) (b : Bool) (rest : List Bool), s.faulted = false → s.ropen = true → s.mem.src.length < 2 ^ 32 →
    Served 1 s → unreadBits s = b :: rest →
    ∃ t, exec .rdBit s = .next t ∧ t.answer = some .done ∧ t.res = (if b then 1 else 0) ∧ t.eos = false ∧
      unreadBits t = rest ∧ t = { s with
        res := t.res, eos := t.eos, ipos := t.ipos, rbuf := t.rbuf, rcnt := t.rcnt, draws := t.draws,
        answer := t.answer }

/-- 40_bitstream_reader.md R120, R125, 20_memory.md R62, R78: RD_BYTE takes the byte at IPOS whatever bits are buffered,
finds end-of-stream, fails, or is abandoned by the reset input (log entry 6); with no answer supplied the access is a free
draw (log entry 4). -/
def Obligations.ReadByteResult : Prop :=
  encodeWord .rdByte = 0x1300000000000000 ∧
  ∀ s : State, s.faulted = false →
    (s.ropen = false → exec .rdByte s = .next (faultEntry 0x13 .streamState s)) ∧
    (s.ropen = true →
      (∀ v, s.mem.src[s.ipos.toNat]? = some v → Served 1 s → exec .rdByte s = .next { s with
        draws := s.draws.drop 1, ipos := s.ipos + 1, eos := false, res := v.setWidth 32, answer := some .done }) ∧
      (s.mem.src.length ≤ s.ipos.toNat → Served 1 s → exec .rdByte s = .next { s with
        draws := s.draws.drop 1, eos := true, res := 0, answer := some .done }) ∧
      (∀ ds, s.draws = .ioErr :: ds → exec .rdByte s = .next (faultEntry 0x13 .ioSrc { s with draws := ds })) ∧
      (∀ ds, s.draws = .hwReset :: ds → exec .rdByte s = .next (resetWith s s.mem.snk ds s.freeDraws none)) ∧
      ∀ v, s.mem.src[s.ipos.toNat]? = some v → s.draws = [] →
        exec .rdByte s = .next { s with
          freeDraws := s.freeDraws + 1, ipos := s.ipos + 1, eos := false, res := v.setWidth 32, answer := some .done } ∨
        exec .rdByte s = .next (faultEntry 0x13 .ioSrc { s with freeDraws := s.freeDraws + 1 }))

/-- 40_bitstream_reader.md R126: RD_EXACT n gives the next n bytes of SRC, least significant first. -/
def Obligations.ReadExactResult : Prop :=
  ∀ (s : State) (n : BitVec 8) (vs ws : List Byte), s.faulted = false → s.ropen = true → n.toNat ≤ 4 →
    s.mem.src.length < 2 ^ 32 → s.mem.src.drop s.ipos.toNat = vs ++ ws → vs.length = n.toNat →
    Served n.toNat s →
    exec (.rdExact n) s = .next { s with
      draws := s.draws.drop n.toNat
      ipos := s.ipos + BitVec.ofNat 32 n.toNat
      eos := if n = 0 then s.eos else false
      res := BitVec.ofNat 32 (littleEndian vs)
      answer := some .done }

/-- 40_bitstream_reader.md R126: with fewer than n bytes left, those are consumed, RES is 0, EOS is set, and the command
faults with SHORT_READ; with n above 4 it faults with BAD_FIELD. -/
def Obligations.ReadExactComesUpShort : Prop :=
  ∀ (s : State) (n : BitVec 8) (vs : List Byte), s.faulted = false →
    (s.ropen = true → n.toNat ≤ 4 → s.mem.src.length < 2 ^ 32 → s.mem.src.drop s.ipos.toNat = vs →
      vs.length < n.toNat → Served (vs.length + 1) s →
      exec (.rdExact n) s = .next (faultEntry 0x14 .shortRead { s with
        draws := s.draws.drop (vs.length + 1)
        ipos := s.ipos + BitVec.ofNat 32 vs.length
        eos := true
        res := 0 })) ∧
    (4 < n.toNat → exec (.rdExact n) s = .next (faultEntry 0x14 .badField s))

/-- 40_bitstream_reader.md R127: no reader command that ends `done` writes SNK, the tree, the tables or any counter other
than IPOS; and end-of-stream is a fault of RD_EXACT alone. -/
def Obligations.ReaderCommandsFrame : Prop :=
  ∀ (i : Instr) (s t : State), s.faulted = false →
    (i = .rdOpen ∨ i = .rdClose ∨ i = .rdBit ∨ i = .rdByte ∨ ∃ n, i = .rdExact n) → exec i s = .next t →
    (t.answer = some .done → t = { s with
      ropen := t.ropen, eos := t.eos, res := t.res, ipos := t.ipos, rbuf := t.rbuf, rcnt := t.rcnt,
      draws := t.draws, freeDraws := t.freeDraws, answer := t.answer }) ∧
    (t.faulted = true → t.errinfo = 0x11 → ∃ n, i = .rdExact n)

/-! ### The writer -/

/-- 41_bitstream_writer.md R143, R147: WR_OPEN empties and opens SNK; WR_CLOSE puts out 1 to 7 pending bits as a final
byte, and faults where that byte cannot be appended. -/
def Obligations.WriterOpensAndCloses : Prop :=
  encodeWord .wrOpen = 0x2000000000000000 ∧ encodeWord .wrClose = 0x2100000000000000 ∧
  ∀ s : State, s.faulted = false →
    (s.wopen = false → exec .wrOpen s = .next { s with
      mem := { s.mem with snk := [], snkOpen := true }, opos := 0, wacc := 0, wcnt := 0, wopen := true,
      answer := some .done }) ∧
    (s.wopen = true → exec .wrOpen s = .next (faultEntry 0x20 .streamState s)) ∧
    (s.wopen = false → exec .wrClose s = .next (faultEntry 0x21 .streamState s)) ∧
    (s.wopen = true → s.wcnt = 0 → exec .wrClose s = .next { s with
      wopen := false, mem := { s.mem with snkOpen := false }, answer := some .done }) ∧
    (s.wopen = true → s.wcnt ≠ 0 → s.opos.toNat ≠ 2 ^ 32 - 1 → Served 1 s → exec .wrClose s = .next { s with
      draws := s.draws.drop 1, wacc := 0, wcnt := 0, opos := s.opos + 1, wopen := false,
      mem := { s.mem with snk := s.mem.snk ++ [s.wacc], snkOpen := false }, answer := some .done }) ∧
    (s.wopen = true → s.wcnt ≠ 0 → s.opos.toNat = 2 ^ 32 - 1 →
      exec .wrClose s = .next (faultEntry 0x21 .posOverflow { s with wacc := 0, wcnt := 0 })) ∧
    ∀ ds, s.wopen = true → s.wcnt ≠ 0 → s.opos.toNat ≠ 2 ^ 32 - 1 → s.draws = .ioErr :: ds →
      exec .wrClose s = .next (faultEntry 0x21 .ioSnk { s with wacc := 0, wcnt := 0, draws := ds })

/-- 41_bitstream_writer.md R141, R144: WR_BIT puts the bit at position WCNT; the eighth empties the buffer and then
appends the byte, or faults with the byte lost; an operand above 1 or a closed writer faults. -/
def Obligations.WriteBitResult : Prop :=
  (encodeWord (.wrBit 0) = 0x2200000000000000 ∧ encodeWord (.wrBit 1) = 0x2200000000000001) ∧
  (∀ (s : State) (v : BitVec 32), s.faulted = false →
    (1 < v.toNat → exec (.wrBit v) s = .next (faultEntry 0x22 .badField s)) ∧
    (v.toNat ≤ 1 → s.wopen = false → exec (.wrBit v) s = .next (faultEntry 0x22 .streamState s))) ∧
  ∀ (s : State) (b : Bool), s.faulted = false → s.wopen = true →
    (s.wcnt ≠ 7 → exec (.wrBit (if b then 1 else 0)) s = .next { s with
      wacc := s.wacc ||| ((if b then 1 else 0) <<< s.wcnt.toNat), wcnt := s.wcnt + 1, answer := some .done }) ∧
    (s.wcnt = 7 → s.opos.toNat ≠ 2 ^ 32 - 1 → Served 1 s → exec (.wrBit (if b then 1 else 0)) s = .next { s with
      draws := s.draws.drop 1, wacc := 0, wcnt := 0, opos := s.opos + 1,
      mem := { s.mem with snk := s.mem.snk ++ [s.wacc ||| ((if b then 1 else 0) <<< 7)] },
      answer := some .done }) ∧
    (s.wcnt = 7 → s.opos.toNat = 2 ^ 32 - 1 → exec (.wrBit (if b then 1 else 0)) s =
      .next (faultEntry 0x22 .posOverflow { s with wacc := 0, wcnt := 0 })) ∧
    ∀ ds, s.wcnt = 7 → s.opos.toNat ≠ 2 ^ 32 - 1 → s.draws = .ioErr :: ds →
      exec (.wrBit (if b then 1 else 0)) s = .next (faultEntry 0x22 .ioSnk { s with wacc := 0, wcnt := 0, draws := ds })

/-- 41_bitstream_writer.md R140, R145, R146, 60_exceptions.md R251: WR_BYTE and WR_EXACT append raw bytes at once, the
least significant first, whatever bits are pending; a failure at byte k leaves the k earlier bytes appended, and so does
the last position, reached at byte k, which faults before the access is made. -/
def Obligations.WriteBytesResult : Prop :=
  ∀ s : State, s.faulted = false → s.wopen = true →
    (∀ v : Byte, s.opos.toNat ≠ 2 ^ 32 - 1 → Served 1 s → exec (.wrByte (v.setWidth 32)) s = .next { s with
      draws := s.draws.drop 1, opos := s.opos + 1, mem := { s.mem with snk := s.mem.snk ++ [v] },
      answer := some .done }) ∧
    (∀ v : Byte, s.opos.toNat = 2 ^ 32 - 1 →
      exec (.wrByte (v.setWidth 32)) s = .next (faultEntry 0x23 .posOverflow s)) ∧
    (∀ (v : Byte) (ds : List EnvAnswer), s.opos.toNat ≠ 2 ^ 32 - 1 → s.draws = .ioErr :: ds →
      exec (.wrByte (v.setWidth 32)) s = .next (faultEntry 0x23 .ioSnk { s with draws := ds })) ∧
    ∀ (n : BitVec 8) (v : BitVec 32), n.toNat ≤ 4 → v.toNat < 2 ^ (8 * n.toNat) →
      (s.opos.toNat + n.toNat ≤ 2 ^ 32 - 1 → Served n.toNat s → exec (.wrExact n v) s = .next { s with
        draws := s.draws.drop n.toNat
        opos := s.opos + BitVec.ofNat 32 n.toNat
        mem := { s.mem with snk := s.mem.snk ++ (word32 v).take n.toNat }
        answer := some .done }) ∧
      (∀ k < n.toNat, s.opos.toNat + k = 2 ^ 32 - 1 → Served k s →
        exec (.wrExact n v) s = .next (faultEntry 0x24 .posOverflow { s with
          draws := s.draws.drop k
          opos := s.opos + BitVec.ofNat 32 k
          mem := { s.mem with snk := s.mem.snk ++ (word32 v).take k } })) ∧
      ∀ (k : Nat) (ds : List EnvAnswer), k < n.toNat → s.opos.toNat + k < 2 ^ 32 - 1 →
        s.draws = List.replicate k .served ++ .ioErr :: ds →
        exec (.wrExact n v) s = .next (faultEntry 0x24 .ioSnk { s with
          draws := ds
          opos := s.opos + BitVec.ofNat 32 k
          mem := { s.mem with snk := s.mem.snk ++ (word32 v).take k } })

/-- 41_bitstream_writer.md R142, R148, 20_memory.md R67: WR_SYM appends the code of the symbol to the bits written,
`c[0]` first; every eighth bit makes a byte of SNK. Nothing for an absent symbol. -/
def Obligations.WriteSymbolAppendsItsCode : Prop :=
  ∀ (s : State) (c : Symbol), s.faulted = false → s.wopen = true → WriterInv s →
    Served ((s.wcnt.toNat + (s.getLen c).toNat) / 8) s →
    s.opos.toNat + (s.wcnt.toNat + (s.getLen c).toNat) / 8 ≤ 2 ^ 32 - 1 →
    ∃ t, exec (.wrSym c) s = .next t ∧ t.answer = some .done ∧
      writtenBits t = writtenBits s ++ symbolBits s c ∧ WriterInv t ∧
      t.wcnt.toNat = (s.wcnt.toNat + (s.getLen c).toNat) % 8 ∧ s.mem.snk <+: t.mem.snk ∧
      t.mem.snk.length = s.mem.snk.length + (s.wcnt.toNat + (s.getLen c).toNat) / 8 ∧
      t = { s with
        mem := { s.mem with snk := t.mem.snk }, wacc := t.wacc, wcnt := t.wcnt, answer := t.answer
        opos := s.opos + BitVec.ofNat 32 ((s.wcnt.toNat + (s.getLen c).toNat) / 8)
        draws := s.draws.drop ((s.wcnt.toNat + (s.getLen c).toNat) / 8) }

/-- 20_memory.md R68 (2), 41_bitstream_writer.md R147, R149: after WR_CLOSE, SNK is exactly the bits written, with zero
bits up to the byte boundary. -/
def Obligations.CloseCompletesTheWrittenBits : Prop :=
  ∀ s : State, s.faulted = false → s.wopen = true → WriterInv s → s.opos.toNat ≠ 2 ^ 32 - 1 → Served 1 s →
    ∃ t, exec .wrClose s = .next t ∧ t.answer = some .done ∧ t.wopen = false ∧ t.mem.snkOpen = false ∧
      Packs t.mem.snk (writtenBits s)

/-! ### Frequencies -/

/-- 42_code_tree.md R160, R161, R162: FQ_CLEAR, FQ_SET, FQ_INC, and the increment that would overflow. -/
def Obligations.FrequencyTableCommands : Prop :=
  (encodeWord .fqClear = 0x3000000000000000 ∧
    ∀ (c : Symbol) (v : BitVec 32), fieldsOf (encodeWord (.fqSet c v)) = ⟨0x31, c, 0, 0, v⟩ ∧
      fieldsOf (encodeWord (.fqInc c)) = ⟨0x32, c, 0, 0, 0⟩) ∧
  ∀ s : State, s.faulted = false →
    (∃ t, exec .fqClear s = .next t ∧ t = { s with freq := t.freq, answer := some .done } ∧ ∀ d, t.getFreq d = 0) ∧
    (∀ (c : Symbol) (v : BitVec 32), ∃ t, exec (.fqSet c v) s = .next t ∧
      t = { s with freq := t.freq, answer := some .done } ∧ ∀ d, t.getFreq d = if d = c then v else s.getFreq d) ∧
    ∀ c : Symbol,
      ((s.getFreq c).toNat ≠ 2 ^ 32 - 1 → ∃ t, exec (.fqInc c) s = .next t ∧
        t = { s with freq := t.freq, answer := some .done } ∧
        ∀ d, (t.getFreq d).toNat = (s.getFreq d).toNat + if d = c then 1 else 0) ∧
      ((s.getFreq c).toNat = 2 ^ 32 - 1 → exec (.fqInc c) s = .next (faultEntry 0x32 .freqOverflow s))

/-- 42_code_tree.md R163: FQ_SCAN adds to every counter the occurrences in the rest of SRC; where a counter is full it
faults with the counts so far in place. -/
def Obligations.ScanCountsTheRestOfTheSource : Prop :=
  ∀ (s : State) (vs : List Byte), s.faulted = false → s.ropen = true → s.mem.src.length < 2 ^ 32 →
    Served (vs.length + 1) s → (∀ c, (s.getFreq c).toNat + vs.count c ≤ 2 ^ 32 - 1) →
    (s.mem.src.drop s.ipos.toNat = vs →
      ∃ t, exec .fqScan s = .next t ∧ (∀ c, (t.getFreq c).toNat = (s.getFreq c).toNat + vs.count c) ∧
        t = { s with
          freq := t.freq, res := 0, eos := true, ipos := s.ipos + BitVec.ofNat 32 vs.length
          draws := s.draws.drop (vs.length + 1), answer := some .done }) ∧
    ∀ (v : Byte) (ws : List Byte), s.mem.src.drop s.ipos.toNat = vs ++ v :: ws →
      (s.getFreq v).toNat + vs.count v = 2 ^ 32 - 1 →
      ∃ u : State, exec .fqScan s = .next (faultEntry 0x33 .freqOverflow u) ∧
        (∀ c, (u.getFreq c).toNat = (s.getFreq c).toNat + vs.count c) ∧
        u = { s with
          freq := u.freq, eos := false, ipos := s.ipos + BitVec.ofNat 32 (vs.length + 1)
          draws := s.draws.drop (vs.length + 1) }

/-! ### The code tree -/

/-- 42_code_tree.md R167: TR_CLEAR leaves the empty root. -/
def Obligations.TreeClearLeavesTheEmptyRoot : Prop :=
  encodeWord .trClear = 0x3800000000000000 ∧
  ∀ s : State, s.faulted = false → exec .trClear s = .next { s with
    nodes := [.inner none none 0], root := 0, cur := 0, answer := some .done }

/-- 42_code_tree.md R168, R169: TR_INSERT stores the symbol at the end of a path that is free, creating nodes on demand
with frequency 0; it faults on a length outside 1 to 32, on a path that is not free of the codes already there ("Together
(a) and (b) hold exactly when the codes inserted so far plus this one are prefix-free"), and without room for 32 nodes,
each with nothing changed. -/
def Obligations.TreeInsertResult : Prop :=
  (∀ (c : Symbol) (n : BitVec 8) (v : BitVec 32), fieldsOf (encodeWord (.trInsert c n v)) = ⟨0x39, c, n, 0, v⟩) ∧
  ∀ (s : State) (c : Symbol) (n : BitVec 8) (code : BitVec 32), s.faulted = false → TreeInv s →
    (8193 < s.nodes.length + 32 → exec (.trInsert c n code) s = .next (faultEntry 0x39 .nodeOverflow s)) ∧
    (s.nodes.length + 32 ≤ 8193 →
      ((n.toNat < 1 ∨ 32 < n.toNat) → exec (.trInsert c n code) s = .next (faultEntry 0x39 .badLength s)) ∧
      (1 ≤ n.toNat → n.toNat ≤ 32 →
        (¬ PathFree s ((List.range n.toNat).map code.getLsbD) →
          exec (.trInsert c n code) s = .next (faultEntry 0x39 .tableConflict s)) ∧
        (PathFree s ((List.range n.toNat).map code.getLsbD) →
          ∃ t, exec (.trInsert c n code) s = .next t ∧ t = { s with nodes := t.nodes, answer := some .done } ∧
            TreeInv t ∧ t.nodes.length ≤ s.nodes.length + n.toNat ∧
            ∀ p, leafSymbol t p =
                (if p = (List.range n.toNat).map code.getLsbD then some c else leafSymbol s p) ∧
              leafFreq t p = if p = (List.range n.toNat).map code.getLsbD then 0 else leafFreq s p)))

/-- 42_code_tree.md R164, R165, R166 (1): TR_BUILD. The leaves in symbol order; with two or more, each further node
merges the two least of the nodes that until then had no parent, the lesser as the left child, and the last is the
root. -/
def Obligations.TreeBuildMergesTheTwoLeast : Prop :=
  ∀ s : State, s.faulted = false →
    ∃ t, exec .trBuild s = .next t ∧
      t = { s with nodes := t.nodes, root := t.root, cur := t.root, answer := some .done } ∧
      (countedSymbols s = [] → t.nodes = [.inner none none 0] ∧ t.root = 0) ∧
      (∀ c, countedSymbols s = [c] → t.root = 1 ∧
        t.nodes = [.leaf c ((s.getFreq c).setWidth 40), .inner (some 0) none ((s.getFreq c).setWidth 40)]) ∧
      (2 ≤ (countedSymbols s).length →
        t.nodes.length = 2 * (countedSymbols s).length - 1 ∧ t.root.toNat = 2 * (countedSymbols s).length - 2 ∧
        (∀ (i : Nat) (c : Symbol), (countedSymbols s)[i]? = some c →
          t.nodes[i]? = some (Node.leaf c ((s.getFreq c).setWidth 40))) ∧
        ∀ i, (countedSymbols s).length ≤ i → i < t.nodes.length → MergedLeast t.nodes i)

/-- 42_code_tree.md R166 (2), R172 and R165: in the tree TR_BUILD makes, every symbol with non-zero frequency is at
exactly one leaf, with that frequency, no other symbol is at any, no leaf is deeper than the number of symbols less one
(1 for one symbol), and the root's frequency is the sum of all. -/
def Obligations.TreeBuildLeaves : Prop :=
  ∀ s t : State, s.faulted = false → exec .trBuild s = .next t →
    (∀ p c, leafSymbol t p = some c → s.getFreq c ≠ 0 ∧ leafFreq t p = (s.getFreq c).toNat ∧
      p.length ≤ max 1 ((countedSymbols s).length - 1)) ∧
    (∀ c, s.getFreq c ≠ 0 → ∃ p, leafSymbol t p = some c ∧ ∀ q, leafSymbol t q = some c → q = p) ∧
    freqAt t.nodes t.root.toNat = (symbols.map fun c => (s.getFreq c).toNat).sum

/-- 42_code_tree.md R170: TR_LEN gives the sum over the leaves of depth times frequency, in the 48 bits of TLEN, and
changes nothing else. -/
def Obligations.TreeLengthIsTheWeightedDepthSum : Prop :=
  encodeWord .trLen = 0x3B00000000000000 ∧
  ∀ s : State, s.faulted = false → TreeInv s →
    ∃ ps : List (List Bool), ps.Nodup ∧ (∀ p, p ∈ ps ↔ (leafSymbol s p).isSome = true) ∧
      exec .trLen s = .next { s with
        tlen := BitVec.ofNat 48 (ps.map fun p => p.length * leafFreq s p).sum, answer := some .done }

/-- 42_code_tree.md R171: the tree rebuilt from the table, its entries in any order, has the same symbol at every leaf as
the tree the table was made from. -/
def Obligations.TheTwoTreeConstructionsAgree : Prop :=
  ∀ (s t : State) (es : List Entry), s.faulted = false → runCommands [.trBuild, .tbBuild] s = .next t →
    t.answer = some .done → es.Perm (tableEntries t) →
    ∃ u, runCommands (.trClear :: es.map fun e => .trInsert e.sym e.len e.code) t = .next u ∧
      u.answer = some .done ∧ ∀ p, leafSymbol u p = leafSymbol t p

/-! ### The code table -/

/-- 43_table_builder.md R190, R191: TB_CLEAR and TB_SET. -/
def Obligations.CodeTableCommands : Prop :=
  (encodeWord .tbClear = 0x4000000000000000 ∧
    ∀ (c : Symbol) (n : BitVec 8) (v : BitVec 32), fieldsOf (encodeWord (.tbSet c n v)) = ⟨0x41, c, n, 0, v⟩) ∧
  ∀ s : State, s.faulted = false →
    (∃ t, exec .tbClear s = .next t ∧ t = { s with code := t.code, len := t.len, answer := some .done } ∧
      ∀ d, t.getCode d = 0 ∧ t.getLen d = 0) ∧
    ∀ (c : Symbol) (n : BitVec 8) (v : BitVec 32),
      (n.toNat ≤ 32 → v.toNat < 2 ^ n.toNat → ∃ t, exec (.tbSet c n v) s = .next t ∧
        t = { s with code := t.code, len := t.len, answer := some .done } ∧
        ∀ d, t.getCode d = (if d = c then v else s.getCode d) ∧ t.getLen d = if d = c then n else s.getLen d) ∧
      ((32 < n.toNat ∨ 2 ^ n.toNat ≤ v.toNat) →
        exec (.tbSet c n v) s = .next (faultEntry 0x41 .badField s))

/-- 43_table_builder.md R192, R193 (1) to (3): TB_BUILD gives every symbol at a leaf the path to that leaf, the rightmost
where it is at several, and clears every other. -/
def Obligations.TableBuildRecordsThePaths : Prop :=
  ∀ s : State, s.faulted = false → TreeInv s → (∀ p c, leafSymbol s p = some c → p.length ≤ 32) →
    ∃ t, exec .tbBuild s = .next t ∧ t = { s with code := t.code, len := t.len, answer := some .done } ∧
      ∀ c, ((∀ p, leafSymbol s p ≠ some c) ∧ t.getLen c = 0 ∧ t.getCode c = 0) ∨
        ∃ p, leafSymbol s p = some c ∧ (t.getLen c).toNat = p.length ∧ symbolBits t c = p ∧
          (t.getCode c).toNat < 2 ^ p.length ∧ ∀ q, leafSymbol s q = some c → q = p ∨ leftOf q p = true

/-- 43_table_builder.md R192: with a leaf deeper than 32, TB_BUILD leaves the table all-absent and faults. -/
def Obligations.TableBuildRejectsDeepTrees : Prop :=
  ∀ (s : State) (p : List Bool) (c : Symbol), s.faulted = false → TreeInv s → leafSymbol s p = some c →
    32 < p.length →
    ∃ u : State, exec .tbBuild s = .next (faultEntry 0x42 .codeTooLong u) ∧
      u = { s with code := u.code, len := u.len } ∧ ∀ d, u.getCode d = 0 ∧ u.getLen d = 0

/-- 43_table_builder.md R193 (4): after a TB_BUILD that did not fault the codes are prefix-free. -/
def Obligations.BuiltTableIsPrefixFree : Prop :=
  ∀ s t : State, s.faulted = false → TreeInv s → exec .tbBuild s = .next t → t.answer = some .done →
    GoodTable (tableEntries t)

/-- 43_table_builder.md R193 (6), 42_code_tree.md R170 corner case 4: after TR_BUILD and TB_BUILD, TR_LEN gives the
payload bit count that ENC_HEADER computes. -/
def Obligations.TreeLengthIsThePayloadLength : Prop :=
  ∀ s t : State, s.faulted = false → runCommands [.trBuild, .tbBuild, .trLen] s = .next t →
    t.answer = some .done →
    t.tlen.toNat = (symbols.map fun c => (t.getFreq c).toNat * (t.getLen c).toNat).sum ∧
    ∀ c, t.getFreq c = s.getFreq c

/-! ### The archiver -/

/-- 44_archiver.md R200, 30_encoding.md R100 to R102: ENC_HEADER. -/
def Obligations.EncodeHeaderWritesTheTable : Prop :=
  ∀ s : State, s.faulted = false → s.wopen = true →
    ((symbols.map fun c => (s.getFreq c).toNat * (s.getLen c).toNat).sum < 2 ^ 32 →
      Served (8 + 6 * (tableEntries s).length) s →
      s.opos.toNat + (8 + 6 * (tableEntries s).length) ≤ 2 ^ 32 - 1 →
      ∃ t, exec .encHeader s = .next t ∧
        t.codeLen.toNat = (symbols.map fun c => (s.getFreq c).toNat * (s.getLen c).toNat).sum ∧
        t = { s with
          codeLen := t.codeLen
          tableSize := BitVec.ofNat 32 (tableEntries s).length
          hdrBytes := BitVec.ofNat 32 (8 + 6 * (tableEntries s).length)
          mem := { s.mem with snk := s.mem.snk ++ fileHeader t.codeLen (tableEntries s) }
          opos := s.opos + BitVec.ofNat 32 (8 + 6 * (tableEntries s).length)
          draws := s.draws.drop (8 + 6 * (tableEntries s).length)
          answer := some .done }) ∧
    (2 ^ 32 ≤ (symbols.map fun c => (s.getFreq c).toNat * (s.getLen c).toNat).sum →
      exec .encHeader s = .next (faultEntry 0x50 .codeLenOverflow s))

/-- 44_archiver.md R201, 30_encoding.md R103: ENC_PAYLOAD appends the code of every remaining byte of SRC to the bits
written. -/
def Obligations.EncodePayloadAppendsTheCodes : Prop :=
  ∀ (s : State) (vs : List Byte) (m : Nat), s.faulted = false → s.ropen = true → s.wopen = true → WriterInv s →
    s.mem.src.length < 2 ^ 32 → s.mem.src.drop s.ipos.toNat = vs →
    m = (s.wcnt.toNat + (vs.flatMap (symbolBits s)).length) / 8 → Served (vs.length + 1 + m) s →
    s.opos.toNat + m ≤ 2 ^ 32 - 1 →
    ∃ t, exec .encPayload s = .next t ∧ writtenBits t = writtenBits s ++ vs.flatMap (symbolBits s) ∧ WriterInv t ∧
      s.mem.snk <+: t.mem.snk ∧ t.mem.snk.length = s.mem.snk.length + m ∧
      t = { s with
        res := 0, eos := true, ipos := s.ipos + BitVec.ofNat 32 vs.length, wacc := t.wacc, wcnt := t.wcnt
        opos := s.opos + BitVec.ofNat 32 m, mem := { s.mem with snk := t.mem.snk }
        draws := s.draws.drop (vs.length + 1 + m), answer := some .done }

/-- 44_archiver.md R203, 30_encoding.md R100 to R102, 70_reset_and_hazards.md R283: DEC_HEADER on a file whose table is
good rebuilds the tree with exactly the table's codes. -/
def Obligations.DecodeHeaderRebuildsTheTree : Prop :=
  ∀ (s : State) (codeLen : BitVec 32) (es : List Entry) (ws : List Byte), s.faulted = false → s.ropen = true →
    GoodTable es → s.mem.src.length < 2 ^ 32 → s.mem.src.drop s.ipos.toNat = fileHeader codeLen es ++ ws →
    Served (8 + 6 * es.length) s →
    ∃ t, exec .decHeader s = .next t ∧ TreeInv t ∧
      (∀ p c, leafSymbol t p = some c ↔ ∃ e ∈ es, e.bits = p ∧ e.sym = c) ∧
      t = { s with
        nodes := t.nodes, root := 0, cur := 0, bitsDone := 0, outcnt := 0, codeLen := codeLen
        tableSize := BitVec.ofNat 32 es.length, eos := false
        ipos := s.ipos + BitVec.ofNat 32 (8 + 6 * es.length)
        draws := s.draws.drop (8 + 6 * es.length), answer := some .done }

/-- 44_archiver.md R203, 42_code_tree.md R168, 60_exceptions.md R247, R251: DEC_HEADER where the table size is above 256
or SRC ends inside the two length fields: the tree is the empty root, and what has been read stays. Where an entry behind
the good entries `es` has a length outside 1 to 32 or a code that is not free of theirs, or SRC ends inside it: `es` are in
the tree, and IPOS is just past the entry, or at the end of SRC. -/
def Obligations.DecodeHeaderFaults : Prop :=
  ∀ (s : State) (vs ws : List Byte), s.faulted = false → s.ropen = true → s.mem.src.length < 2 ^ 32 →
    (∀ a b : BitVec 32, 256 < b.toNat → s.mem.src.drop s.ipos.toNat = word32 a ++ word32 b ++ ws → Served 8 s →
      exec .decHeader s = .next (faultEntry 0x58 .badTableSize { s with
        nodes := [.inner none none 0], root := 0, cur := 0, bitsDone := 0, outcnt := 0, codeLen := a, tableSize := b
        eos := false, ipos := s.ipos + 8, draws := s.draws.drop 8 })) ∧
    (s.mem.src.drop s.ipos.toNat = vs → vs.length < 4 → Served (vs.length + 1) s →
      exec .decHeader s = .next (faultEntry 0x58 .shortRead { s with
        nodes := [.inner none none 0], root := 0, cur := 0, bitsDone := 0, outcnt := 0
        eos := true, ipos := s.ipos + BitVec.ofNat 32 vs.length, draws := s.draws.drop (vs.length + 1) })) ∧
    (∀ a : BitVec 32, s.mem.src.drop s.ipos.toNat = word32 a ++ vs → vs.length < 4 → Served (vs.length + 5) s →
      exec .decHeader s = .next (faultEntry 0x58 .shortRead { s with
        nodes := [.inner none none 0], root := 0, cur := 0, bitsDone := 0, outcnt := 0, codeLen := a
        eos := true, ipos := s.ipos + BitVec.ofNat 32 (vs.length + 4), draws := s.draws.drop (vs.length + 5) })) ∧
    ∀ (a b : BitVec 32) (es : List Entry), GoodTable es → es.length < b.toNat → b.toNat ≤ 256 →
      (∀ e : Entry,
        s.mem.src.drop s.ipos.toNat = word32 a ++ word32 b ++ es.flatMap Entry.bytes ++ e.bytes ++ ws →
        Served (8 + 6 * (es.length + 1)) s →
        ((e.len.toNat < 1 ∨ 32 < e.len.toNat) → ∃ u, HeaderRead s a b es (8 + 6 * (es.length + 1)) u ∧
          exec .decHeader s = .next (faultEntry 0x58 .badLength u)) ∧
        (1 ≤ e.len.toNat → e.len.toNat ≤ 32 → ¬ PrefixFree ((es ++ [e]).map Entry.bits) →
          ∃ u, HeaderRead s a b es (8 + 6 * (es.length + 1)) u ∧
            exec .decHeader s = .next (faultEntry 0x58 .tableConflict u))) ∧
      (s.mem.src.drop s.ipos.toNat = word32 a ++ word32 b ++ es.flatMap Entry.bytes ++ vs → vs.length < 6 →
        Served (8 + 6 * es.length + vs.length + 1) s →
        ∃ u, HeaderRead s a b es (8 + 6 * es.length + vs.length) u ∧
          exec .decHeader s =
            .next (faultEntry 0x58 .shortRead { u with eos := true, draws := u.draws.drop 1 }))

/-- 44_archiver.md R204, R205: DEC_STEP. Nothing when CODE_LEN bits have been consumed; TRUNCATED_PAYLOAD when SRC ends;
otherwise one bit is counted and the walk moves to the child, emits the symbol of a leaf as a raw byte and goes back to
the root, or faults where there is no child. -/
def Obligations.DecodeStepWalksOneEdge : Prop :=
  ∀ s : State, s.faulted = false → s.ropen = true → s.wopen = true →
    (s.codeLen.toNat ≤ s.bitsDone.toNat → exec .decStep s = .next { s with answer := some .done }) ∧
    (s.bitsDone.toNat < s.codeLen.toNat →
      (s.rcnt = 0 → s.mem.src.length ≤ s.ipos.toNat → Served 1 s → exec .decStep s =
        .next (faultEntry 0x59 .truncatedPayload { s with draws := s.draws.drop 1, eos := true })) ∧
      ∀ b t, BitRead s b t →
        (∀ n, s.nodes[s.cur.toNat]? = some n → n.child b = none → exec .decStep s =
          .next (faultEntry 0x59 .missingChild { t with bitsDone := s.bitsDone + 1 })) ∧
        ∀ q, Link s.nodes s.cur.toNat b q →
          (IsInner s.nodes q → exec .decStep s =
            .next { t with bitsDone := s.bitsDone + 1, cur := q, answer := some .done }) ∧
          ∀ c f, s.nodes[q.toNat]? = some (Node.leaf c f) →
            (s.opos.toNat ≠ 2 ^ 32 - 1 → Served 1 t → exec .decStep s = .next { t with
              bitsDone := s.bitsDone + 1, cur := s.root, outcnt := s.outcnt + 1, opos := s.opos + 1
              mem := { s.mem with snk := s.mem.snk ++ [c] }, draws := t.draws.drop 1, answer := some .done }) ∧
            (s.opos.toNat = 2 ^ 32 - 1 → exec .decStep s =
              .next (faultEntry 0x59 .posOverflow { t with bitsDone := s.bitsDone + 1 })))

/-- 44_archiver.md R206, 30_encoding.md R104: DEC_PAYLOAD over the codes of a message, from the root, emits the message
and stops after exactly CODE_LEN bits. -/
def Obligations.DecodePayloadEmitsTheMessage : Prop :=
  ∀ (s : State) (ms : List (List Bool × Symbol)) (rest : List Bool), s.faulted = false → s.ropen = true →
    s.wopen = true → TreeInv s → s.cur = s.root → s.mem.src.length < 2 ^ 32 →
    (∀ m ∈ ms, leafSymbol s m.1 = some m.2) → unreadBits s = ms.flatMap Prod.fst ++ rest →
    s.codeLen.toNat = s.bitsDone.toNat + (ms.flatMap Prod.fst).length →
    Served ((ms.flatMap Prod.fst).length + ms.length) s → s.opos.toNat + ms.length ≤ 2 ^ 32 - 1 →
    ∃ t, exec .decPayload s = .next t ∧ unreadBits t = rest ∧
      t = { s with
        mem := { s.mem with snk := s.mem.snk ++ ms.map Prod.snd }
        opos := s.opos + BitVec.ofNat 32 ms.length, outcnt := s.outcnt + BitVec.ofNat 32 ms.length
        bitsDone := s.codeLen, rbuf := t.rbuf, rcnt := t.rcnt, ipos := t.ipos, eos := t.eos, draws := t.draws
        answer := some .done }

/-- 44_archiver.md R206, R211: DEC_PAYLOAD has the effect of CODE_LEN - BITS_DONE successive DEC_STEPs, but for the
opcode in ERRCMD. -/
def Obligations.DecodePayloadIsDecodeSteps : Prop :=
  ∀ s : State, s.faulted = false → s.ropen = true → s.wopen = true →
    match exec .decPayload s, runCommands (List.replicate (s.codeLen.toNat - s.bitsDone.toNat) .decStep) s with
    | .next t, .next u => SameBut 0x5A t u ∧ (s.bitsDone.toNat < s.codeLen.toNat → t.answer = u.answer)
    | .fault f, .fault g => f = g
    | _, _ => False

/-- 44_archiver.md R202, R211: ENCODE is its twelve commands one by one, but for the report and the opcode in ERRCMD. -/
def Obligations.EncodeIsItsTwelveCommands : Prop :=
  ∀ s : State, s.faulted = false → s.ropen = false → s.wopen = false →
    match exec .encode s, runCommands [.rdOpen, .fqClear, .fqScan, .rdClose, .trBuild, .tbBuild, .wrOpen, .encHeader,
      .rdOpen, .encPayload, .rdClose, .wrClose] s with
    | .next t, .next u =>
      (u.answer = some .done → t = { u with
        origBytes := BitVec.ofNat 32 (symbols.map fun c => (u.getFreq c).toNat).sum
        payloadBytes := BitVec.ofNat 32 ((u.codeLen.toNat + 7) / 8)
        hdrBytes := BitVec.ofNat 32 (8 + 6 * u.tableSize.toNat) }) ∧
      (u.answer ≠ some .done → SameBut 0x52 t u ∧ t.answer = u.answer)
    | .fault f, .fault g => f = g
    | _, _ => False

/-- 44_archiver.md R207, R211: DECODE is its six commands one by one, but for the report and the opcode in ERRCMD. -/
def Obligations.DecodeIsItsSixCommands : Prop :=
  ∀ s : State, s.faulted = false → s.ropen = false → s.wopen = false →
    match exec .decode s, runCommands [.rdOpen, .wrOpen, .decHeader, .decPayload, .rdClose, .wrClose] s with
    | .next t, .next u =>
      (u.answer = some .done → t = { u with
        origBytes := u.outcnt
        payloadBytes := BitVec.ofNat 32 ((u.codeLen.toNat + 7) / 8)
        hdrBytes := BitVec.ofNat 32 (8 + 6 * u.tableSize.toNat) }) ∧
      (u.answer ≠ some .done → SameBut 0x5B t u ∧ t.answer = u.answer)
    | .fault f, .fault g => f = g
    | _, _ => False

/-- 44_archiver.md R202, R208, 30_encoding.md R100 to R105: an ENCODE of a SRC of less than 2^32 bytes that ends `done`
has written the encoded file; and it does so on a working medium for any input of at most 2^26 bytes with at most 33
distinct values, where no code is longer than 32 bits (42_code_tree.md R172). -/
def Obligations.EncodeWritesTheFile : Prop :=
  ∀ s : State, s.faulted = false → s.ropen = false → s.wopen = false → s.mem.src.length < 2 ^ 32 →
    (∀ t, exec .encode s = .next t → t.answer = some .done → ∃ payload,
      EndedWell t ∧
      (∀ c, (t.getFreq c).toNat = s.mem.src.count c) ∧ GoodTable (tableEntries t) ∧
      (∀ c, t.getLen c ≠ 0 ↔ c ∈ s.mem.src) ∧
      t.mem = { s.mem with snk := fileHeader t.codeLen (tableEntries t) ++ payload, snkOpen := false } ∧
      Packs payload (s.mem.src.flatMap (symbolBits t)) ∧
      t.codeLen.toNat = (s.mem.src.flatMap (symbolBits t)).length ∧
      t.tableSize.toNat = (tableEntries t).length ∧ t.origBytes.toNat = s.mem.src.length ∧
      t.payloadBytes.toNat = (t.codeLen.toNat + 7) / 8 ∧ t.hdrBytes.toNat = 8 + 6 * t.tableSize.toNat ∧
      t.mem.snk.length = t.hdrBytes.toNat + t.payloadBytes.toNat) ∧
    (s.mem.src.length ≤ 2 ^ 26 → (symbols.filter fun c => s.mem.src.contains c).length ≤ 33 →
      Served (6 * s.mem.src.length + 300) s → ∃ t, exec .encode s = .next t ∧ t.answer = some .done)

/-- 44_archiver.md R209, 43_table_builder.md R192, 44_archiver.md R200: on a working medium ENCODE ends `done` exactly when
no code is longer than 32 bits and the payload is shorter than 2^32 bits; otherwise it faults. `v` is a state in which
TR_BUILD and TR_LEN have measured the tree of SRC's counts. -/
def Obligations.EncodeEndsDoneExactlyWhen : Prop :=
  ∀ s u v : State, s.faulted = false → s.ropen = false → s.wopen = false → s.mem.src.length < 2 ^ 32 →
    u.faulted = false → (∀ c, (u.getFreq c).toNat = s.mem.src.count c) → runCommands [.trBuild, .trLen] u = .next v →
    Served (2 * s.mem.src.length + 1600 + min v.tlen.toNat (2 ^ 32) / 8) s →
    ∃ t, exec .encode s = .next t ∧
      ((∀ p c, leafSymbol v p = some c → p.length ≤ 32) → v.tlen.toNat < 2 ^ 32 → t.answer = some .done) ∧
      ((∀ p c, leafSymbol v p = some c → p.length ≤ 32) → 2 ^ 32 ≤ v.tlen.toNat →
        t.answer = some .fault ∧ t.err = 3 ∧ t.errinfo = 0x22 ∧ t.errcmd = 0x52) ∧
      ∀ p c, leafSymbol v p = some c → 32 < p.length →
        t.answer = some .fault ∧ t.err = 3 ∧ t.errinfo = 0x21 ∧ t.errcmd = 0x52 ∧ t.mem.snk = s.mem.snk

/-- 44_archiver.md R203 to R208, 70_reset_and_hazards.md R278, R283: on a working medium DECODE of any file whose table is
good and whose payload is a sequence of its codes ends well and writes the message; the padding and the bytes after the
payload are never read as data. -/
def Obligations.DecodeReadsTheFile : Prop :=
  ∀ (s : State) (es ms : List Entry) (payload trail : List Byte), s.faulted = false → s.ropen = false →
    s.wopen = false → GoodTable es → (∀ e ∈ ms, e ∈ es) → (ms.flatMap Entry.bits).length < 2 ^ 32 →
    Packs payload (ms.flatMap Entry.bits) →
    s.mem.src = fileHeader (BitVec.ofNat 32 (ms.flatMap Entry.bits).length) es ++ payload ++ trail →
    s.mem.src.length < 2 ^ 32 →
    Served (8 + 6 * es.length + ((ms.flatMap Entry.bits).length + ms.length)) s →
    ∃ t, exec .decode s = .next t ∧ t.answer = some .done ∧ EndedWell t ∧
      t.mem = { s.mem with snk := ms.map Entry.sym, snkOpen := false } ∧
      t.codeLen.toNat = (ms.flatMap Entry.bits).length ∧ t.tableSize.toNat = es.length ∧
      t.bitsDone = t.codeLen ∧ t.cur = t.root ∧ t.ipos.toNat = 8 + 6 * es.length + payload.length ∧
      t.origBytes.toNat = ms.length ∧ t.payloadBytes.toNat = (t.codeLen.toNat + 7) / 8 ∧
      t.hdrBytes.toNat = 8 + 6 * t.tableSize.toNat ∧
      t.freq = s.freq ∧ t.code = s.code ∧ t.len = s.len ∧ t.tlen = s.tlen

/-- 44_archiver.md R209: "decode(encode(S)) == S", with the same three report values (R208). -/
def Obligations.RoundTrip : Prop :=
  ∀ s t u : State, s.faulted = false → s.ropen = false → s.wopen = false → s.mem.src.length < 2 ^ 32 →
    exec .encode s = .next t → t.answer = some .done →
    u.faulted = false → u.ropen = false → u.wopen = false → u.mem.src = t.mem.snk →
    Served (8 + 6 * t.tableSize.toNat + (t.codeLen.toNat + s.mem.src.length)) u →
    ∃ v, exec .decode u = .next v ∧ v.answer = some .done ∧ EndedWell v ∧ v.mem.snk = s.mem.src ∧
      v.origBytes = t.origBytes ∧ v.payloadBytes = t.payloadBytes ∧ v.hdrBytes = t.hdrBytes

/-- 44_archiver.md R210: the empty input. -/
def Obligations.EmptyInputGivesEightZeroBytes : Prop :=
  ∀ s : State, s.faulted = false → s.ropen = false → s.wopen = false →
    (s.mem.src = [] → Served 10 s → ∃ t, exec .encode s = .next t ∧ t.answer = some .done ∧
      t.mem.snk = List.replicate 8 0 ∧ t.codeLen = 0 ∧ t.tableSize = 0 ∧
      t.origBytes = 0 ∧ t.payloadBytes = 0 ∧ t.hdrBytes = 8) ∧
    (s.mem.src = List.replicate 8 0 → Served 8 s → ∃ t, exec .decode s = .next t ∧ t.answer = some .done ∧
      t.mem.snk = [] ∧ t.codeLen = 0 ∧ t.tableSize = 0 ∧
      t.origBytes = 0 ∧ t.payloadBytes = 0 ∧ t.hdrBytes = 8)

/-- 44_archiver.md R212: `f` copies of one byte. -/
def Obligations.SingleSymbolInput : Prop :=
  ∀ (s : State) (x : Byte) (f : Nat), s.faulted = false → s.ropen = false → s.wopen = false → 1 ≤ f →
    f < 2 ^ 32 → s.mem.src = List.replicate f x → Served (3 * f + 20) s →
    ∃ t, exec .encode s = .next t ∧ t.answer = some .done ∧ t.codeLen.toNat = f ∧ t.tableSize = 1 ∧
      tableEntries t = [⟨x, 0, 1⟩] ∧
      t.mem.snk = fileHeader t.codeLen [⟨x, 0, 1⟩] ++ List.replicate ((f + 7) / 8) 0

/-! ### The whole machine -/

/-- 10_state.md R50, R51, 41_bitstream_writer.md R149, and the ranges of 10_state.md: every step keeps the invariant, from
every state that meets it. -/
def Obligations.StepKeepsTheInvariants : Prop :=
  ∀ s t : State, Inv s → step s = .next t → Inv t

/-- The state after reset meets the invariant (10_state.md R50, R51, R52). -/
def Obligations.ResetMeetsTheInvariants : Prop := Inv State.reset

/-- 00_scope.md R12, 70_reset_and_hazards.md R286: every command terminates with an answer: the model's own stops are
never met, and a step is refused only where the host breaks its side of 20_memory.md R79 (log entries 7, 9). -/
def Obligations.EveryStepCompletes : Prop :=
  ∀ s : State, Inv s →
    (∃ t, step s = .next t) ∨
    ∃ bytes rest, s.host = .supply bytes :: rest ∧
      ((s.ropen = true ∧ step s = .refused .srcReplacedWhileOpen) ∨
        (2 ^ 32 ≤ bytes.length ∧ step s = .refused .srcTooLong))

/-! ### TR_BUILD always ends -/

/-- 42_code_tree.md R165, R166 (5), 10_state.md R50: TR_BUILD completes from every state that is not faulted, whatever the
frequencies and the tree before: it makes a tree of at most 511 nodes, with CUR at the root, in which no INNER node has a
frequency below that of a child, and changes nothing else. -/
def Obligations.TreeBuildCompletes : Prop :=
  encodeWord .trBuild = 0x3A00000000000000 ∧
  ∀ s : State, s.faulted = false →
    ∃ t, exec .trBuild s = .next t ∧
      t = { s with nodes := t.nodes, root := t.root, cur := t.root, answer := some .done } ∧ TreeInv t ∧
      t.nodes.length ≤ 511 ∧ t.walkMid = false ∧
      ∀ p b q, Link t.nodes p b q → freqAt t.nodes q.toNat ≤ freqAt t.nodes p
end

