-- ==== Sys2Proof/Laws/State.lean ====
section
/-! SUPPORT. One lemma per field per named update of the state, each true by unfolding the update once, so that no
later proof unfolds a record update; and the canonical form of memory under every memory operation. A literal update
`{ s with f := v }` needs none: its projections reduce by themselves. -/

namespace Sys2Proof.Machine

/-! ### State.setFreq -/

@[simp] theorem State.setFreq_ropen (s : State) (c : Symbol) (v : BitVec 32) : (s.setFreq c v).ropen = s.ropen := rfl
@[simp] theorem State.setFreq_wopen (s : State) (c : Symbol) (v : BitVec 32) : (s.setFreq c v).wopen = s.wopen := rfl
@[simp] theorem State.setFreq_eos (s : State) (c : Symbol) (v : BitVec 32) : (s.setFreq c v).eos = s.eos := rfl
@[simp] theorem State.setFreq_err (s : State) (c : Symbol) (v : BitVec 32) : (s.setFreq c v).err = s.err := rfl
@[simp] theorem State.setFreq_errinfo (s : State) (c : Symbol) (v : BitVec 32) :
    (s.setFreq c v).errinfo = s.errinfo := rfl
@[simp] theorem State.setFreq_errcmd (s : State) (c : Symbol) (v : BitVec 32) :
    (s.setFreq c v).errcmd = s.errcmd := rfl
@[simp] theorem State.setFreq_res (s : State) (c : Symbol) (v : BitVec 32) : (s.setFreq c v).res = s.res := rfl
@[simp] theorem State.setFreq_codeLen (s : State) (c : Symbol) (v : BitVec 32) :
    (s.setFreq c v).codeLen = s.codeLen := rfl
@[simp] theorem State.setFreq_tableSize (s : State) (c : Symbol) (v : BitVec 32) :
    (s.setFreq c v).tableSize = s.tableSize := rfl
@[simp] theorem State.setFreq_tlen (s : State) (c : Symbol) (v : BitVec 32) : (s.setFreq c v).tlen = s.tlen := rfl
@[simp] theorem State.setFreq_origBytes (s : State) (c : Symbol) (v : BitVec 32) :
    (s.setFreq c v).origBytes = s.origBytes := rfl
@[simp] theorem State.setFreq_payloadBytes (s : State) (c : Symbol) (v : BitVec 32) :
    (s.setFreq c v).payloadBytes = s.payloadBytes := rfl
@[simp] theorem State.setFreq_hdrBytes (s : State) (c : Symbol) (v : BitVec 32) :
    (s.setFreq c v).hdrBytes = s.hdrBytes := rfl
@[simp] theorem State.setFreq_ipos (s : State) (c : Symbol) (v : BitVec 32) : (s.setFreq c v).ipos = s.ipos := rfl
@[simp] theorem State.setFreq_opos (s : State) (c : Symbol) (v : BitVec 32) : (s.setFreq c v).opos = s.opos := rfl
@[simp] theorem State.setFreq_root (s : State) (c : Symbol) (v : BitVec 32) : (s.setFreq c v).root = s.root := rfl
@[simp] theorem State.setFreq_cur (s : State) (c : Symbol) (v : BitVec 32) : (s.setFreq c v).cur = s.cur := rfl
@[simp] theorem State.setFreq_bitsDone (s : State) (c : Symbol) (v : BitVec 32) :
    (s.setFreq c v).bitsDone = s.bitsDone := rfl
@[simp] theorem State.setFreq_outcnt (s : State) (c : Symbol) (v : BitVec 32) :
    (s.setFreq c v).outcnt = s.outcnt := rfl
@[simp] theorem State.setFreq_freq (s : State) (c : Symbol) (v : BitVec 32) :
    (s.setFreq c v).freq = s.freq.set c.toNat v c.isLt := rfl
@[simp] theorem State.setFreq_code (s : State) (c : Symbol) (v : BitVec 32) : (s.setFreq c v).code = s.code := rfl
@[simp] theorem State.setFreq_len (s : State) (c : Symbol) (v : BitVec 32) : (s.setFreq c v).len = s.len := rfl
@[simp] theorem State.setFreq_nodes (s : State) (c : Symbol) (v : BitVec 32) : (s.setFreq c v).nodes = s.nodes := rfl
@[simp] theorem State.setFreq_rbuf (s : State) (c : Symbol) (v : BitVec 32) : (s.setFreq c v).rbuf = s.rbuf := rfl
@[simp] theorem State.setFreq_rcnt (s : State) (c : Symbol) (v : BitVec 32) : (s.setFreq c v).rcnt = s.rcnt := rfl
@[simp] theorem State.setFreq_wacc (s : State) (c : Symbol) (v : BitVec 32) : (s.setFreq c v).wacc = s.wacc := rfl
@[simp] theorem State.setFreq_wcnt (s : State) (c : Symbol) (v : BitVec 32) : (s.setFreq c v).wcnt = s.wcnt := rfl
@[simp] theorem State.setFreq_mem (s : State) (c : Symbol) (v : BitVec 32) : (s.setFreq c v).mem = s.mem := rfl
@[simp] theorem State.setFreq_answer (s : State) (c : Symbol) (v : BitVec 32) :
    (s.setFreq c v).answer = s.answer := rfl
@[simp] theorem State.setFreq_host (s : State) (c : Symbol) (v : BitVec 32) : (s.setFreq c v).host = s.host := rfl
@[simp] theorem State.setFreq_draws (s : State) (c : Symbol) (v : BitVec 32) : (s.setFreq c v).draws = s.draws := rfl
@[simp] theorem State.setFreq_freeDraws (s : State) (c : Symbol) (v : BitVec 32) :
    (s.setFreq c v).freeDraws = s.freeDraws := rfl

/-! ### State.setEntry -/

@[simp] theorem State.setEntry_ropen (s : State) (c : Symbol) (v : BitVec 32) (n : BitVec 8) :
    (s.setEntry c v n).ropen = s.ropen := rfl
@[simp] theorem State.setEntry_wopen (s : State) (c : Symbol) (v : BitVec 32) (n : BitVec 8) :
    (s.setEntry c v n).wopen = s.wopen := rfl
@[simp] theorem State.setEntry_eos (s : State) (c : Symbol) (v : BitVec 32) (n : BitVec 8) :
    (s.setEntry c v n).eos = s.eos := rfl
@[simp] theorem State.setEntry_err (s : State) (c : Symbol) (v : BitVec 32) (n : BitVec 8) :
    (s.setEntry c v n).err = s.err := rfl
@[simp] theorem State.setEntry_errinfo (s : State) (c : Symbol) (v : BitVec 32) (n : BitVec 8) :
    (s.setEntry c v n).errinfo = s.errinfo := rfl
@[simp] theorem State.setEntry_errcmd (s : State) (c : Symbol) (v : BitVec 32) (n : BitVec 8) :
    (s.setEntry c v n).errcmd = s.errcmd := rfl
@[simp] theorem State.setEntry_res (s : State) (c : Symbol) (v : BitVec 32) (n : BitVec 8) :
    (s.setEntry c v n).res = s.res := rfl
@[simp] theorem State.setEntry_codeLen (s : State) (c : Symbol) (v : BitVec 32) (n : BitVec 8) :
    (s.setEntry c v n).codeLen = s.codeLen := rfl
@[simp] theorem State.setEntry_tableSize (s : State) (c : Symbol) (v : BitVec 32) (n : BitVec 8) :
    (s.setEntry c v n).tableSize = s.tableSize := rfl
@[simp] theorem State.setEntry_tlen (s : State) (c : Symbol) (v : BitVec 32) (n : BitVec 8) :
    (s.setEntry c v n).tlen = s.tlen := rfl
@[simp] theorem State.setEntry_origBytes (s : State) (c : Symbol) (v : BitVec 32) (n : BitVec 8) :
    (s.setEntry c v n).origBytes = s.origBytes := rfl
@[simp] theorem State.setEntry_payloadBytes (s : State) (c : Symbol) (v : BitVec 32) (n : BitVec 8) :
    (s.setEntry c v n).payloadBytes = s.payloadBytes := rfl
@[simp] theorem State.setEntry_hdrBytes (s : State) (c : Symbol) (v : BitVec 32) (n : BitVec 8) :
    (s.setEntry c v n).hdrBytes = s.hdrBytes := rfl
@[simp] theorem State.setEntry_ipos (s : State) (c : Symbol) (v : BitVec 32) (n : BitVec 8) :
    (s.setEntry c v n).ipos = s.ipos := rfl
@[simp] theorem State.setEntry_opos (s : State) (c : Symbol) (v : BitVec 32) (n : BitVec 8) :
    (s.setEntry c v n).opos = s.opos := rfl
@[simp] theorem State.setEntry_root (s : State) (c : Symbol) (v : BitVec 32) (n : BitVec 8) :
    (s.setEntry c v n).root = s.root := rfl
@[simp] theorem State.setEntry_cur (s : State) (c : Symbol) (v : BitVec 32) (n : BitVec 8) :
    (s.setEntry c v n).cur = s.cur := rfl
@[simp] theorem State.setEntry_bitsDone (s : State) (c : Symbol) (v : BitVec 32) (n : BitVec 8) :
    (s.setEntry c v n).bitsDone = s.bitsDone := rfl
@[simp] theorem State.setEntry_outcnt (s : State) (c : Symbol) (v : BitVec 32) (n : BitVec 8) :
    (s.setEntry c v n).outcnt = s.outcnt := rfl
@[simp] theorem State.setEntry_freq (s : State) (c : Symbol) (v : BitVec 32) (n : BitVec 8) :
    (s.setEntry c v n).freq = s.freq := rfl
@[simp] theorem State.setEntry_code (s : State) (c : Symbol) (v : BitVec 32) (n : BitVec 8) :
    (s.setEntry c v n).code = s.code.set c.toNat v c.isLt := rfl
@[simp] theorem State.setEntry_len (s : State) (c : Symbol) (v : BitVec 32) (n : BitVec 8) :
    (s.setEntry c v n).len = s.len.set c.toNat n c.isLt := rfl
@[simp] theorem State.setEntry_nodes (s : State) (c : Symbol) (v : BitVec 32) (n : BitVec 8) :
    (s.setEntry c v n).nodes = s.nodes := rfl
@[simp] theorem State.setEntry_rbuf (s : State) (c : Symbol) (v : BitVec 32) (n : BitVec 8) :
    (s.setEntry c v n).rbuf = s.rbuf := rfl
@[simp] theorem State.setEntry_rcnt (s : State) (c : Symbol) (v : BitVec 32) (n : BitVec 8) :
    (s.setEntry c v n).rcnt = s.rcnt := rfl
@[simp] theorem State.setEntry_wacc (s : State) (c : Symbol) (v : BitVec 32) (n : BitVec 8) :
    (s.setEntry c v n).wacc = s.wacc := rfl
@[simp] theorem State.setEntry_wcnt (s : State) (c : Symbol) (v : BitVec 32) (n : BitVec 8) :
    (s.setEntry c v n).wcnt = s.wcnt := rfl
@[simp] theorem State.setEntry_mem (s : State) (c : Symbol) (v : BitVec 32) (n : BitVec 8) :
    (s.setEntry c v n).mem = s.mem := rfl
@[simp] theorem State.setEntry_answer (s : State) (c : Symbol) (v : BitVec 32) (n : BitVec 8) :
    (s.setEntry c v n).answer = s.answer := rfl
@[simp] theorem State.setEntry_host (s : State) (c : Symbol) (v : BitVec 32) (n : BitVec 8) :
    (s.setEntry c v n).host = s.host := rfl
@[simp] theorem State.setEntry_draws (s : State) (c : Symbol) (v : BitVec 32) (n : BitVec 8) :
    (s.setEntry c v n).draws = s.draws := rfl
@[simp] theorem State.setEntry_freeDraws (s : State) (c : Symbol) (v : BitVec 32) (n : BitVec 8) :
    (s.setEntry c v n).freeDraws = s.freeDraws := rfl

/-! ### State.answered -/

@[simp] theorem State.answered_ropen (s : State) (a : Answer) : (s.answered a).ropen = s.ropen := rfl
@[simp] theorem State.answered_wopen (s : State) (a : Answer) : (s.answered a).wopen = s.wopen := rfl
@[simp] theorem State.answered_eos (s : State) (a : Answer) : (s.answered a).eos = s.eos := rfl
@[simp] theorem State.answered_err (s : State) (a : Answer) : (s.answered a).err = s.err := rfl
@[simp] theorem State.answered_errinfo (s : State) (a : Answer) : (s.answered a).errinfo = s.errinfo := rfl
@[simp] theorem State.answered_errcmd (s : State) (a : Answer) : (s.answered a).errcmd = s.errcmd := rfl
@[simp] theorem State.answered_res (s : State) (a : Answer) : (s.answered a).res = s.res := rfl
@[simp] theorem State.answered_codeLen (s : State) (a : Answer) : (s.answered a).codeLen = s.codeLen := rfl
@[simp] theorem State.answered_tableSize (s : State) (a : Answer) : (s.answered a).tableSize = s.tableSize := rfl
@[simp] theorem State.answered_tlen (s : State) (a : Answer) : (s.answered a).tlen = s.tlen := rfl
@[simp] theorem State.answered_origBytes (s : State) (a : Answer) : (s.answered a).origBytes = s.origBytes := rfl
@[simp] theorem State.answered_payloadBytes (s : State) (a : Answer) :
    (s.answered a).payloadBytes = s.payloadBytes := rfl
@[simp] theorem State.answered_hdrBytes (s : State) (a : Answer) : (s.answered a).hdrBytes = s.hdrBytes := rfl
@[simp] theorem State.answered_ipos (s : State) (a : Answer) : (s.answered a).ipos = s.ipos := rfl
@[simp] theorem State.answered_opos (s : State) (a : Answer) : (s.answered a).opos = s.opos := rfl
@[simp] theorem State.answered_root (s : State) (a : Answer) : (s.answered a).root = s.root := rfl
@[simp] theorem State.answered_cur (s : State) (a : Answer) : (s.answered a).cur = s.cur := rfl
@[simp] theorem State.answered_bitsDone (s : State) (a : Answer) : (s.answered a).bitsDone = s.bitsDone := rfl
@[simp] theorem State.answered_outcnt (s : State) (a : Answer) : (s.answered a).outcnt = s.outcnt := rfl
@[simp] theorem State.answered_freq (s : State) (a : Answer) : (s.answered a).freq = s.freq := rfl
@[simp] theorem State.answered_code (s : State) (a : Answer) : (s.answered a).code = s.code := rfl
@[simp] theorem State.answered_len (s : State) (a : Answer) : (s.answered a).len = s.len := rfl
@[simp] theorem State.answered_nodes (s : State) (a : Answer) : (s.answered a).nodes = s.nodes := rfl
@[simp] theorem State.answered_rbuf (s : State) (a : Answer) : (s.answered a).rbuf = s.rbuf := rfl
@[simp] theorem State.answered_rcnt (s : State) (a : Answer) : (s.answered a).rcnt = s.rcnt := rfl
@[simp] theorem State.answered_wacc (s : State) (a : Answer) : (s.answered a).wacc = s.wacc := rfl
@[simp] theorem State.answered_wcnt (s : State) (a : Answer) : (s.answered a).wcnt = s.wcnt := rfl
@[simp] theorem State.answered_mem (s : State) (a : Answer) : (s.answered a).mem = s.mem := rfl
@[simp] theorem State.answered_answer (s : State) (a : Answer) : (s.answered a).answer = some a := rfl
@[simp] theorem State.answered_host (s : State) (a : Answer) : (s.answered a).host = s.host := rfl
@[simp] theorem State.answered_draws (s : State) (a : Answer) : (s.answered a).draws = s.draws := rfl
@[simp] theorem State.answered_freeDraws (s : State) (a : Answer) : (s.answered a).freeDraws = s.freeDraws := rfl

/-! ### withAnswers -/

@[simp] theorem withAnswers_ropen (s : State) (l : List EnvAnswer) : (withAnswers l s).ropen = s.ropen := rfl
@[simp] theorem withAnswers_wopen (s : State) (l : List EnvAnswer) : (withAnswers l s).wopen = s.wopen := rfl
@[simp] theorem withAnswers_eos (s : State) (l : List EnvAnswer) : (withAnswers l s).eos = s.eos := rfl
@[simp] theorem withAnswers_err (s : State) (l : List EnvAnswer) : (withAnswers l s).err = s.err := rfl
@[simp] theorem withAnswers_errinfo (s : State) (l : List EnvAnswer) : (withAnswers l s).errinfo = s.errinfo := rfl
@[simp] theorem withAnswers_errcmd (s : State) (l : List EnvAnswer) : (withAnswers l s).errcmd = s.errcmd := rfl
@[simp] theorem withAnswers_res (s : State) (l : List EnvAnswer) : (withAnswers l s).res = s.res := rfl
@[simp] theorem withAnswers_codeLen (s : State) (l : List EnvAnswer) : (withAnswers l s).codeLen = s.codeLen := rfl
@[simp] theorem withAnswers_tableSize (s : State) (l : List EnvAnswer) :
    (withAnswers l s).tableSize = s.tableSize := rfl
@[simp] theorem withAnswers_tlen (s : State) (l : List EnvAnswer) : (withAnswers l s).tlen = s.tlen := rfl
@[simp] theorem withAnswers_origBytes (s : State) (l : List EnvAnswer) :
    (withAnswers l s).origBytes = s.origBytes := rfl
@[simp] theorem withAnswers_payloadBytes (s : State) (l : List EnvAnswer) :
    (withAnswers l s).payloadBytes = s.payloadBytes := rfl
@[simp] theorem withAnswers_hdrBytes (s : State) (l : List EnvAnswer) : (withAnswers l s).hdrBytes = s.hdrBytes := rfl
@[simp] theorem withAnswers_ipos (s : State) (l : List EnvAnswer) : (withAnswers l s).ipos = s.ipos := rfl
@[simp] theorem withAnswers_opos (s : State) (l : List EnvAnswer) : (withAnswers l s).opos = s.opos := rfl
@[simp] theorem withAnswers_root (s : State) (l : List EnvAnswer) : (withAnswers l s).root = s.root := rfl
@[simp] theorem withAnswers_cur (s : State) (l : List EnvAnswer) : (withAnswers l s).cur = s.cur := rfl
@[simp] theorem withAnswers_bitsDone (s : State) (l : List EnvAnswer) : (withAnswers l s).bitsDone = s.bitsDone := rfl
@[simp] theorem withAnswers_outcnt (s : State) (l : List EnvAnswer) : (withAnswers l s).outcnt = s.outcnt := rfl
@[simp] theorem withAnswers_freq (s : State) (l : List EnvAnswer) : (withAnswers l s).freq = s.freq := rfl
@[simp] theorem withAnswers_code (s : State) (l : List EnvAnswer) : (withAnswers l s).code = s.code := rfl
@[simp] theorem withAnswers_len (s : State) (l : List EnvAnswer) : (withAnswers l s).len = s.len := rfl
@[simp] theorem withAnswers_nodes (s : State) (l : List EnvAnswer) : (withAnswers l s).nodes = s.nodes := rfl
@[simp] theorem withAnswers_rbuf (s : State) (l : List EnvAnswer) : (withAnswers l s).rbuf = s.rbuf := rfl
@[simp] theorem withAnswers_rcnt (s : State) (l : List EnvAnswer) : (withAnswers l s).rcnt = s.rcnt := rfl
@[simp] theorem withAnswers_wacc (s : State) (l : List EnvAnswer) : (withAnswers l s).wacc = s.wacc := rfl
@[simp] theorem withAnswers_wcnt (s : State) (l : List EnvAnswer) : (withAnswers l s).wcnt = s.wcnt := rfl
@[simp] theorem withAnswers_mem (s : State) (l : List EnvAnswer) : (withAnswers l s).mem = s.mem := rfl
@[simp] theorem withAnswers_answer (s : State) (l : List EnvAnswer) : (withAnswers l s).answer = s.answer := rfl
@[simp] theorem withAnswers_host (s : State) (l : List EnvAnswer) : (withAnswers l s).host = s.host := rfl
@[simp] theorem withAnswers_draws (s : State) (l : List EnvAnswer) : (withAnswers l s).draws = l := rfl
@[simp] theorem withAnswers_freeDraws (s : State) (l : List EnvAnswer) :
    (withAnswers l s).freeDraws = s.freeDraws := rfl

/-! ### latch -/

@[simp] theorem latch_ropen (s : State) (op : BitVec 8) (c : Cause) : (latch op c s).ropen = s.ropen := rfl
@[simp] theorem latch_wopen (s : State) (op : BitVec 8) (c : Cause) : (latch op c s).wopen = s.wopen := rfl
@[simp] theorem latch_eos (s : State) (op : BitVec 8) (c : Cause) : (latch op c s).eos = s.eos := rfl
@[simp] theorem latch_err (s : State) (op : BitVec 8) (c : Cause) : (latch op c s).err = c.err := rfl
@[simp] theorem latch_errinfo (s : State) (op : BitVec 8) (c : Cause) : (latch op c s).errinfo = c.info := rfl
@[simp] theorem latch_errcmd (s : State) (op : BitVec 8) (c : Cause) : (latch op c s).errcmd = op := rfl
@[simp] theorem latch_res (s : State) (op : BitVec 8) (c : Cause) : (latch op c s).res = s.res := rfl
@[simp] theorem latch_codeLen (s : State) (op : BitVec 8) (c : Cause) : (latch op c s).codeLen = s.codeLen := rfl
@[simp] theorem latch_tableSize (s : State) (op : BitVec 8) (c : Cause) :
    (latch op c s).tableSize = s.tableSize := rfl
@[simp] theorem latch_tlen (s : State) (op : BitVec 8) (c : Cause) : (latch op c s).tlen = s.tlen := rfl
@[simp] theorem latch_origBytes (s : State) (op : BitVec 8) (c : Cause) :
    (latch op c s).origBytes = s.origBytes := rfl
@[simp] theorem latch_payloadBytes (s : State) (op : BitVec 8) (c : Cause) :
    (latch op c s).payloadBytes = s.payloadBytes := rfl
@[simp] theorem latch_hdrBytes (s : State) (op : BitVec 8) (c : Cause) : (latch op c s).hdrBytes = s.hdrBytes := rfl
@[simp] theorem latch_ipos (s : State) (op : BitVec 8) (c : Cause) : (latch op c s).ipos = s.ipos := rfl
@[simp] theorem latch_opos (s : State) (op : BitVec 8) (c : Cause) : (latch op c s).opos = s.opos := rfl
@[simp] theorem latch_root (s : State) (op : BitVec 8) (c : Cause) : (latch op c s).root = s.root := rfl
@[simp] theorem latch_cur (s : State) (op : BitVec 8) (c : Cause) : (latch op c s).cur = s.cur := rfl
@[simp] theorem latch_bitsDone (s : State) (op : BitVec 8) (c : Cause) : (latch op c s).bitsDone = s.bitsDone := rfl
@[simp] theorem latch_outcnt (s : State) (op : BitVec 8) (c : Cause) : (latch op c s).outcnt = s.outcnt := rfl
@[simp] theorem latch_freq (s : State) (op : BitVec 8) (c : Cause) : (latch op c s).freq = s.freq := rfl
@[simp] theorem latch_code (s : State) (op : BitVec 8) (c : Cause) : (latch op c s).code = s.code := rfl
@[simp] theorem latch_len (s : State) (op : BitVec 8) (c : Cause) : (latch op c s).len = s.len := rfl
@[simp] theorem latch_nodes (s : State) (op : BitVec 8) (c : Cause) : (latch op c s).nodes = s.nodes := rfl
@[simp] theorem latch_rbuf (s : State) (op : BitVec 8) (c : Cause) : (latch op c s).rbuf = s.rbuf := rfl
@[simp] theorem latch_rcnt (s : State) (op : BitVec 8) (c : Cause) : (latch op c s).rcnt = s.rcnt := rfl
@[simp] theorem latch_wacc (s : State) (op : BitVec 8) (c : Cause) : (latch op c s).wacc = s.wacc := rfl
@[simp] theorem latch_wcnt (s : State) (op : BitVec 8) (c : Cause) : (latch op c s).wcnt = s.wcnt := rfl
@[simp] theorem latch_mem (s : State) (op : BitVec 8) (c : Cause) : (latch op c s).mem = s.mem := rfl
@[simp] theorem latch_answer (s : State) (op : BitVec 8) (c : Cause) : (latch op c s).answer = s.answer := rfl
@[simp] theorem latch_host (s : State) (op : BitVec 8) (c : Cause) : (latch op c s).host = s.host := rfl
@[simp] theorem latch_draws (s : State) (op : BitVec 8) (c : Cause) : (latch op c s).draws = s.draws := rfl
@[simp] theorem latch_freeDraws (s : State) (op : BitVec 8) (c : Cause) :
    (latch op c s).freeDraws = s.freeDraws := rfl

/-! ### clearTable -/

@[simp] theorem clearTable_ropen (s : State) : (clearTable s).ropen = s.ropen := rfl
@[simp] theorem clearTable_wopen (s : State) : (clearTable s).wopen = s.wopen := rfl
@[simp] theorem clearTable_eos (s : State) : (clearTable s).eos = s.eos := rfl
@[simp] theorem clearTable_err (s : State) : (clearTable s).err = s.err := rfl
@[simp] theorem clearTable_errinfo (s : State) : (clearTable s).errinfo = s.errinfo := rfl
@[simp] theorem clearTable_errcmd (s : State) : (clearTable s).errcmd = s.errcmd := rfl
@[simp] theorem clearTable_res (s : State) : (clearTable s).res = s.res := rfl
@[simp] theorem clearTable_codeLen (s : State) : (clearTable s).codeLen = s.codeLen := rfl
@[simp] theorem clearTable_tableSize (s : State) : (clearTable s).tableSize = s.tableSize := rfl
@[simp] theorem clearTable_tlen (s : State) : (clearTable s).tlen = s.tlen := rfl
@[simp] theorem clearTable_origBytes (s : State) : (clearTable s).origBytes = s.origBytes := rfl
@[simp] theorem clearTable_payloadBytes (s : State) : (clearTable s).payloadBytes = s.payloadBytes := rfl
@[simp] theorem clearTable_hdrBytes (s : State) : (clearTable s).hdrBytes = s.hdrBytes := rfl
@[simp] theorem clearTable_ipos (s : State) : (clearTable s).ipos = s.ipos := rfl
@[simp] theorem clearTable_opos (s : State) : (clearTable s).opos = s.opos := rfl
@[simp] theorem clearTable_root (s : State) : (clearTable s).root = s.root := rfl
@[simp] theorem clearTable_cur (s : State) : (clearTable s).cur = s.cur := rfl
@[simp] theorem clearTable_bitsDone (s : State) : (clearTable s).bitsDone = s.bitsDone := rfl
@[simp] theorem clearTable_outcnt (s : State) : (clearTable s).outcnt = s.outcnt := rfl
@[simp] theorem clearTable_freq (s : State) : (clearTable s).freq = s.freq := rfl
@[simp] theorem clearTable_code (s : State) : (clearTable s).code = Vector.replicate 256 0 := rfl
@[simp] theorem clearTable_len (s : State) : (clearTable s).len = Vector.replicate 256 0 := rfl
@[simp] theorem clearTable_nodes (s : State) : (clearTable s).nodes = s.nodes := rfl
@[simp] theorem clearTable_rbuf (s : State) : (clearTable s).rbuf = s.rbuf := rfl
@[simp] theorem clearTable_rcnt (s : State) : (clearTable s).rcnt = s.rcnt := rfl
@[simp] theorem clearTable_wacc (s : State) : (clearTable s).wacc = s.wacc := rfl
@[simp] theorem clearTable_wcnt (s : State) : (clearTable s).wcnt = s.wcnt := rfl
@[simp] theorem clearTable_mem (s : State) : (clearTable s).mem = s.mem := rfl
@[simp] theorem clearTable_answer (s : State) : (clearTable s).answer = s.answer := rfl
@[simp] theorem clearTable_host (s : State) : (clearTable s).host = s.host := rfl
@[simp] theorem clearTable_draws (s : State) : (clearTable s).draws = s.draws := rfl
@[simp] theorem clearTable_freeDraws (s : State) : (clearTable s).freeDraws = s.freeDraws := rfl

/-! ### addChild -/

@[simp] theorem addChild_ropen (s : State) (p : NodeIdx) (n : Node) (b : Bool) :
    (addChild p n b s).ropen = s.ropen := rfl
@[simp] theorem addChild_wopen (s : State) (p : NodeIdx) (n : Node) (b : Bool) :
    (addChild p n b s).wopen = s.wopen := rfl
@[simp] theorem addChild_eos (s : State) (p : NodeIdx) (n : Node) (b : Bool) : (addChild p n b s).eos = s.eos := rfl
@[simp] theorem addChild_err (s : State) (p : NodeIdx) (n : Node) (b : Bool) : (addChild p n b s).err = s.err := rfl
@[simp] theorem addChild_errinfo (s : State) (p : NodeIdx) (n : Node) (b : Bool) :
    (addChild p n b s).errinfo = s.errinfo := rfl
@[simp] theorem addChild_errcmd (s : State) (p : NodeIdx) (n : Node) (b : Bool) :
    (addChild p n b s).errcmd = s.errcmd := rfl
@[simp] theorem addChild_res (s : State) (p : NodeIdx) (n : Node) (b : Bool) : (addChild p n b s).res = s.res := rfl
@[simp] theorem addChild_codeLen (s : State) (p : NodeIdx) (n : Node) (b : Bool) :
    (addChild p n b s).codeLen = s.codeLen := rfl
@[simp] theorem addChild_tableSize (s : State) (p : NodeIdx) (n : Node) (b : Bool) :
    (addChild p n b s).tableSize = s.tableSize := rfl
@[simp] theorem addChild_tlen (s : State) (p : NodeIdx) (n : Node) (b : Bool) :
    (addChild p n b s).tlen = s.tlen := rfl
@[simp] theorem addChild_origBytes (s : State) (p : NodeIdx) (n : Node) (b : Bool) :
    (addChild p n b s).origBytes = s.origBytes := rfl
@[simp] theorem addChild_payloadBytes (s : State) (p : NodeIdx) (n : Node) (b : Bool) :
    (addChild p n b s).payloadBytes = s.payloadBytes := rfl
@[simp] theorem addChild_hdrBytes (s : State) (p : NodeIdx) (n : Node) (b : Bool) :
    (addChild p n b s).hdrBytes = s.hdrBytes := rfl
@[simp] theorem addChild_ipos (s : State) (p : NodeIdx) (n : Node) (b : Bool) :
    (addChild p n b s).ipos = s.ipos := rfl
@[simp] theorem addChild_opos (s : State) (p : NodeIdx) (n : Node) (b : Bool) :
    (addChild p n b s).opos = s.opos := rfl
@[simp] theorem addChild_root (s : State) (p : NodeIdx) (n : Node) (b : Bool) :
    (addChild p n b s).root = s.root := rfl
@[simp] theorem addChild_cur (s : State) (p : NodeIdx) (n : Node) (b : Bool) : (addChild p n b s).cur = s.cur := rfl
@[simp] theorem addChild_bitsDone (s : State) (p : NodeIdx) (n : Node) (b : Bool) :
    (addChild p n b s).bitsDone = s.bitsDone := rfl
@[simp] theorem addChild_outcnt (s : State) (p : NodeIdx) (n : Node) (b : Bool) :
    (addChild p n b s).outcnt = s.outcnt := rfl
@[simp] theorem addChild_freq (s : State) (p : NodeIdx) (n : Node) (b : Bool) :
    (addChild p n b s).freq = s.freq := rfl
@[simp] theorem addChild_code (s : State) (p : NodeIdx) (n : Node) (b : Bool) :
    (addChild p n b s).code = s.code := rfl
@[simp] theorem addChild_len (s : State) (p : NodeIdx) (n : Node) (b : Bool) : (addChild p n b s).len = s.len := rfl
@[simp] theorem addChild_nodes (s : State) (p : NodeIdx) (n : Node) (b : Bool) :
    (addChild p n b s).nodes = s.nodes.set p.toNat (n.setChild b (idx s.nodes.length)) ++ [Node.emptyInner] := rfl
@[simp] theorem addChild_rbuf (s : State) (p : NodeIdx) (n : Node) (b : Bool) :
    (addChild p n b s).rbuf = s.rbuf := rfl
@[simp] theorem addChild_rcnt (s : State) (p : NodeIdx) (n : Node) (b : Bool) :
    (addChild p n b s).rcnt = s.rcnt := rfl
@[simp] theorem addChild_wacc (s : State) (p : NodeIdx) (n : Node) (b : Bool) :
    (addChild p n b s).wacc = s.wacc := rfl
@[simp] theorem addChild_wcnt (s : State) (p : NodeIdx) (n : Node) (b : Bool) :
    (addChild p n b s).wcnt = s.wcnt := rfl
@[simp] theorem addChild_mem (s : State) (p : NodeIdx) (n : Node) (b : Bool) : (addChild p n b s).mem = s.mem := rfl
@[simp] theorem addChild_answer (s : State) (p : NodeIdx) (n : Node) (b : Bool) :
    (addChild p n b s).answer = s.answer := rfl
@[simp] theorem addChild_host (s : State) (p : NodeIdx) (n : Node) (b : Bool) :
    (addChild p n b s).host = s.host := rfl
@[simp] theorem addChild_draws (s : State) (p : NodeIdx) (n : Node) (b : Bool) :
    (addChild p n b s).draws = s.draws := rfl
@[simp] theorem addChild_freeDraws (s : State) (p : NodeIdx) (n : Node) (b : Bool) :
    (addChild p n b s).freeDraws = s.freeDraws := rfl

/-! ### hardwareReset -/

@[simp] theorem hardwareReset_ropen (s : State) : (hardwareReset s).ropen = State.reset.ropen := rfl
@[simp] theorem hardwareReset_wopen (s : State) : (hardwareReset s).wopen = State.reset.wopen := rfl
@[simp] theorem hardwareReset_eos (s : State) : (hardwareReset s).eos = State.reset.eos := rfl
@[simp] theorem hardwareReset_err (s : State) : (hardwareReset s).err = State.reset.err := rfl
@[simp] theorem hardwareReset_errinfo (s : State) : (hardwareReset s).errinfo = State.reset.errinfo := rfl
@[simp] theorem hardwareReset_errcmd (s : State) : (hardwareReset s).errcmd = State.reset.errcmd := rfl
@[simp] theorem hardwareReset_res (s : State) : (hardwareReset s).res = State.reset.res := rfl
@[simp] theorem hardwareReset_codeLen (s : State) : (hardwareReset s).codeLen = State.reset.codeLen := rfl
@[simp] theorem hardwareReset_tableSize (s : State) : (hardwareReset s).tableSize = State.reset.tableSize := rfl
@[simp] theorem hardwareReset_tlen (s : State) : (hardwareReset s).tlen = State.reset.tlen := rfl
@[simp] theorem hardwareReset_origBytes (s : State) : (hardwareReset s).origBytes = State.reset.origBytes := rfl
@[simp] theorem hardwareReset_payloadBytes (s : State) :
    (hardwareReset s).payloadBytes = State.reset.payloadBytes := rfl
@[simp] theorem hardwareReset_hdrBytes (s : State) : (hardwareReset s).hdrBytes = State.reset.hdrBytes := rfl
@[simp] theorem hardwareReset_ipos (s : State) : (hardwareReset s).ipos = State.reset.ipos := rfl
@[simp] theorem hardwareReset_opos (s : State) : (hardwareReset s).opos = State.reset.opos := rfl
@[simp] theorem hardwareReset_root (s : State) : (hardwareReset s).root = State.reset.root := rfl
@[simp] theorem hardwareReset_cur (s : State) : (hardwareReset s).cur = State.reset.cur := rfl
@[simp] theorem hardwareReset_bitsDone (s : State) : (hardwareReset s).bitsDone = State.reset.bitsDone := rfl
@[simp] theorem hardwareReset_outcnt (s : State) : (hardwareReset s).outcnt = State.reset.outcnt := rfl
@[simp] theorem hardwareReset_freq (s : State) : (hardwareReset s).freq = State.reset.freq := rfl
@[simp] theorem hardwareReset_code (s : State) : (hardwareReset s).code = State.reset.code := rfl
@[simp] theorem hardwareReset_len (s : State) : (hardwareReset s).len = State.reset.len := rfl
@[simp] theorem hardwareReset_nodes (s : State) : (hardwareReset s).nodes = State.reset.nodes := rfl
@[simp] theorem hardwareReset_rbuf (s : State) : (hardwareReset s).rbuf = State.reset.rbuf := rfl
@[simp] theorem hardwareReset_rcnt (s : State) : (hardwareReset s).rcnt = State.reset.rcnt := rfl
@[simp] theorem hardwareReset_wacc (s : State) : (hardwareReset s).wacc = State.reset.wacc := rfl
@[simp] theorem hardwareReset_wcnt (s : State) : (hardwareReset s).wcnt = State.reset.wcnt := rfl
@[simp] theorem hardwareReset_mem (s : State) : (hardwareReset s).mem = s.mem.closeSink := rfl
@[simp] theorem hardwareReset_answer (s : State) : (hardwareReset s).answer = State.reset.answer := rfl
@[simp] theorem hardwareReset_host (s : State) : (hardwareReset s).host = s.host := rfl
@[simp] theorem hardwareReset_draws (s : State) : (hardwareReset s).draws = s.draws := rfl
@[simp] theorem hardwareReset_freeDraws (s : State) : (hardwareReset s).freeDraws = s.freeDraws := rfl

/-! ### releaseReader -/

@[simp] theorem releaseReader_ropen (s : State) : (releaseReader s).ropen = false := by
  unfold releaseReader; split <;> simp_all
@[simp] theorem releaseReader_wopen (s : State) : (releaseReader s).wopen = s.wopen := by
  unfold releaseReader; split <;> simp_all
@[simp] theorem releaseReader_eos (s : State) : (releaseReader s).eos = s.eos := by
  unfold releaseReader; split <;> simp_all
@[simp] theorem releaseReader_err (s : State) : (releaseReader s).err = s.err := by
  unfold releaseReader; split <;> simp_all
@[simp] theorem releaseReader_errinfo (s : State) : (releaseReader s).errinfo = s.errinfo := by
  unfold releaseReader; split <;> simp_all
@[simp] theorem releaseReader_errcmd (s : State) : (releaseReader s).errcmd = s.errcmd := by
  unfold releaseReader; split <;> simp_all
@[simp] theorem releaseReader_res (s : State) : (releaseReader s).res = s.res := by
  unfold releaseReader; split <;> simp_all
@[simp] theorem releaseReader_codeLen (s : State) : (releaseReader s).codeLen = s.codeLen := by
  unfold releaseReader; split <;> simp_all
@[simp] theorem releaseReader_tableSize (s : State) : (releaseReader s).tableSize = s.tableSize := by
  unfold releaseReader; split <;> simp_all
@[simp] theorem releaseReader_tlen (s : State) : (releaseReader s).tlen = s.tlen := by
  unfold releaseReader; split <;> simp_all
@[simp] theorem releaseReader_origBytes (s : State) : (releaseReader s).origBytes = s.origBytes := by
  unfold releaseReader; split <;> simp_all
@[simp] theorem releaseReader_payloadBytes (s : State) : (releaseReader s).payloadBytes = s.payloadBytes := by
  unfold releaseReader; split <;> simp_all
@[simp] theorem releaseReader_hdrBytes (s : State) : (releaseReader s).hdrBytes = s.hdrBytes := by
  unfold releaseReader; split <;> simp_all
@[simp] theorem releaseReader_ipos (s : State) : (releaseReader s).ipos = s.ipos := by
  unfold releaseReader; split <;> simp_all
@[simp] theorem releaseReader_opos (s : State) : (releaseReader s).opos = s.opos := by
  unfold releaseReader; split <;> simp_all
@[simp] theorem releaseReader_root (s : State) : (releaseReader s).root = s.root := by
  unfold releaseReader; split <;> simp_all
@[simp] theorem releaseReader_cur (s : State) : (releaseReader s).cur = s.cur := by
  unfold releaseReader; split <;> simp_all
@[simp] theorem releaseReader_bitsDone (s : State) : (releaseReader s).bitsDone = s.bitsDone := by
  unfold releaseReader; split <;> simp_all
@[simp] theorem releaseReader_outcnt (s : State) : (releaseReader s).outcnt = s.outcnt := by
  unfold releaseReader; split <;> simp_all
@[simp] theorem releaseReader_freq (s : State) : (releaseReader s).freq = s.freq := by
  unfold releaseReader; split <;> simp_all
@[simp] theorem releaseReader_code (s : State) : (releaseReader s).code = s.code := by
  unfold releaseReader; split <;> simp_all
@[simp] theorem releaseReader_len (s : State) : (releaseReader s).len = s.len := by
  unfold releaseReader; split <;> simp_all
@[simp] theorem releaseReader_nodes (s : State) : (releaseReader s).nodes = s.nodes := by
  unfold releaseReader; split <;> simp_all
@[simp] theorem releaseReader_rbuf (s : State) : (releaseReader s).rbuf = (if s.ropen then 0 else s.rbuf) := by
  unfold releaseReader; split <;> simp_all
@[simp] theorem releaseReader_rcnt (s : State) : (releaseReader s).rcnt = (if s.ropen then 0 else s.rcnt) := by
  unfold releaseReader; split <;> simp_all
@[simp] theorem releaseReader_wacc (s : State) : (releaseReader s).wacc = s.wacc := by
  unfold releaseReader; split <;> simp_all
@[simp] theorem releaseReader_wcnt (s : State) : (releaseReader s).wcnt = s.wcnt := by
  unfold releaseReader; split <;> simp_all
@[simp] theorem releaseReader_mem (s : State) : (releaseReader s).mem = s.mem := by
  unfold releaseReader; split <;> simp_all
@[simp] theorem releaseReader_answer (s : State) : (releaseReader s).answer = s.answer := by
  unfold releaseReader; split <;> simp_all
@[simp] theorem releaseReader_host (s : State) : (releaseReader s).host = s.host := by
  unfold releaseReader; split <;> simp_all
@[simp] theorem releaseReader_draws (s : State) : (releaseReader s).draws = s.draws := by
  unfold releaseReader; split <;> simp_all
@[simp] theorem releaseReader_freeDraws (s : State) : (releaseReader s).freeDraws = s.freeDraws := by
  unfold releaseReader; split <;> simp_all

/-! ### releaseWriter -/

@[simp] theorem releaseWriter_ropen (s : State) : (releaseWriter s).ropen = s.ropen := by
  unfold releaseWriter; split <;> simp_all
@[simp] theorem releaseWriter_wopen (s : State) : (releaseWriter s).wopen = false := by
  unfold releaseWriter; split <;> simp_all
@[simp] theorem releaseWriter_eos (s : State) : (releaseWriter s).eos = s.eos := by
  unfold releaseWriter; split <;> simp_all
@[simp] theorem releaseWriter_err (s : State) : (releaseWriter s).err = s.err := by
  unfold releaseWriter; split <;> simp_all
@[simp] theorem releaseWriter_errinfo (s : State) : (releaseWriter s).errinfo = s.errinfo := by
  unfold releaseWriter; split <;> simp_all
@[simp] theorem releaseWriter_errcmd (s : State) : (releaseWriter s).errcmd = s.errcmd := by
  unfold releaseWriter; split <;> simp_all
@[simp] theorem releaseWriter_res (s : State) : (releaseWriter s).res = s.res := by
  unfold releaseWriter; split <;> simp_all
@[simp] theorem releaseWriter_codeLen (s : State) : (releaseWriter s).codeLen = s.codeLen := by
  unfold releaseWriter; split <;> simp_all
@[simp] theorem releaseWriter_tableSize (s : State) : (releaseWriter s).tableSize = s.tableSize := by
  unfold releaseWriter; split <;> simp_all
@[simp] theorem releaseWriter_tlen (s : State) : (releaseWriter s).tlen = s.tlen := by
  unfold releaseWriter; split <;> simp_all
@[simp] theorem releaseWriter_origBytes (s : State) : (releaseWriter s).origBytes = s.origBytes := by
  unfold releaseWriter; split <;> simp_all
@[simp] theorem releaseWriter_payloadBytes (s : State) : (releaseWriter s).payloadBytes = s.payloadBytes := by
  unfold releaseWriter; split <;> simp_all
@[simp] theorem releaseWriter_hdrBytes (s : State) : (releaseWriter s).hdrBytes = s.hdrBytes := by
  unfold releaseWriter; split <;> simp_all
@[simp] theorem releaseWriter_ipos (s : State) : (releaseWriter s).ipos = s.ipos := by
  unfold releaseWriter; split <;> simp_all
@[simp] theorem releaseWriter_opos (s : State) : (releaseWriter s).opos = s.opos := by
  unfold releaseWriter; split <;> simp_all
@[simp] theorem releaseWriter_root (s : State) : (releaseWriter s).root = s.root := by
  unfold releaseWriter; split <;> simp_all
@[simp] theorem releaseWriter_cur (s : State) : (releaseWriter s).cur = s.cur := by
  unfold releaseWriter; split <;> simp_all
@[simp] theorem releaseWriter_bitsDone (s : State) : (releaseWriter s).bitsDone = s.bitsDone := by
  unfold releaseWriter; split <;> simp_all
@[simp] theorem releaseWriter_outcnt (s : State) : (releaseWriter s).outcnt = s.outcnt := by
  unfold releaseWriter; split <;> simp_all
@[simp] theorem releaseWriter_freq (s : State) : (releaseWriter s).freq = s.freq := by
  unfold releaseWriter; split <;> simp_all
@[simp] theorem releaseWriter_code (s : State) : (releaseWriter s).code = s.code := by
  unfold releaseWriter; split <;> simp_all
@[simp] theorem releaseWriter_len (s : State) : (releaseWriter s).len = s.len := by
  unfold releaseWriter; split <;> simp_all
@[simp] theorem releaseWriter_nodes (s : State) : (releaseWriter s).nodes = s.nodes := by
  unfold releaseWriter; split <;> simp_all
@[simp] theorem releaseWriter_rbuf (s : State) : (releaseWriter s).rbuf = s.rbuf := by
  unfold releaseWriter; split <;> simp_all
@[simp] theorem releaseWriter_rcnt (s : State) : (releaseWriter s).rcnt = s.rcnt := by
  unfold releaseWriter; split <;> simp_all
@[simp] theorem releaseWriter_wacc (s : State) : (releaseWriter s).wacc = (if s.wopen then 0 else s.wacc) := by
  unfold releaseWriter; split <;> simp_all
@[simp] theorem releaseWriter_wcnt (s : State) : (releaseWriter s).wcnt = (if s.wopen then 0 else s.wcnt) := by
  unfold releaseWriter; split <;> simp_all
@[simp] theorem releaseWriter_mem (s : State) : (releaseWriter s).mem = (if s.wopen then s.mem.closeSink else s.mem) := by
  unfold releaseWriter; split <;> simp_all
@[simp] theorem releaseWriter_answer (s : State) : (releaseWriter s).answer = s.answer := by
  unfold releaseWriter; split <;> simp_all
@[simp] theorem releaseWriter_host (s : State) : (releaseWriter s).host = s.host := by
  unfold releaseWriter; split <;> simp_all
@[simp] theorem releaseWriter_draws (s : State) : (releaseWriter s).draws = s.draws := by
  unfold releaseWriter; split <;> simp_all
@[simp] theorem releaseWriter_freeDraws (s : State) : (releaseWriter s).freeDraws = s.freeDraws := by
  unfold releaseWriter; split <;> simp_all

/-! ### Register files -/

/-- Reading back the counter just written. -/
@[simp] theorem State.getFreq_setFreq_self (s : State) (c : Symbol) (v : BitVec 32) :
    (s.setFreq c v).getFreq c = v := by
  simp [State.getFreq]

/-- A write to one counter leaves every other alone. -/
theorem State.getFreq_setFreq_ne (s : State) {c d : Symbol} (v : BitVec 32) (h : d ≠ c) :
    (s.setFreq c v).getFreq d = s.getFreq d := by
  have : c.toNat ≠ d.toNat := fun e => h (BitVec.eq_of_toNat_eq e.symm)
  simp [State.getFreq, Vector.getElem_set_ne _ _ this]

/-- Reading back the code just written. -/
@[simp] theorem State.getCode_setEntry_self (s : State) (c : Symbol) (v : BitVec 32) (n : BitVec 8) :
    (s.setEntry c v n).getCode c = v := by
  simp [State.getCode]

/-- Reading back the length just written. -/
@[simp] theorem State.getLen_setEntry_self (s : State) (c : Symbol) (v : BitVec 32) (n : BitVec 8) :
    (s.setEntry c v n).getLen c = n := by
  simp [State.getLen]

/-- A write to one entry leaves every other code alone. -/
theorem State.getCode_setEntry_ne (s : State) {c d : Symbol} (v : BitVec 32) (n : BitVec 8) (h : d ≠ c) :
    (s.setEntry c v n).getCode d = s.getCode d := by
  have : c.toNat ≠ d.toNat := fun e => h (BitVec.eq_of_toNat_eq e.symm)
  simp [State.getCode, Vector.getElem_set_ne _ _ this]

/-- A write to one entry leaves every other length alone. -/
theorem State.getLen_setEntry_ne (s : State) {c d : Symbol} (v : BitVec 32) (n : BitVec 8) (h : d ≠ c) :
    (s.setEntry c v n).getLen d = s.getLen d := by
  have : c.toNat ≠ d.toNat := fun e => h (BitVec.eq_of_toNat_eq e.symm)
  simp [State.getLen, Vector.getElem_set_ne _ _ this]

@[simp] theorem getCode_clearTable (s : State) (c : Symbol) : (clearTable s).getCode c = 0 := by
  simp [State.getCode]

@[simp] theorem getLen_clearTable (s : State) (c : Symbol) : (clearTable s).getLen c = 0 := by
  simp [State.getLen]

/-! ### Memory: the canonical form -/

@[simp] theorem Memory.openSink_src (m : Memory) : m.openSink.src = m.src := rfl
@[simp] theorem Memory.openSink_snk (m : Memory) : m.openSink.snk = [] := rfl
@[simp] theorem Memory.openSink_snkOpen (m : Memory) : m.openSink.snkOpen = true := rfl
@[simp] theorem Memory.closeSink_src (m : Memory) : m.closeSink.src = m.src := rfl
@[simp] theorem Memory.closeSink_snk (m : Memory) : m.closeSink.snk = m.snk := rfl
@[simp] theorem Memory.closeSink_snkOpen (m : Memory) : m.closeSink.snkOpen = false := rfl
@[simp] theorem Memory.append_src (m : Memory) (v : Byte) : (m.append v).src = m.src := rfl
@[simp] theorem Memory.append_snk (m : Memory) (v : Byte) : (m.append v).snk = m.snk ++ [v] := rfl
@[simp] theorem Memory.append_snkOpen (m : Memory) (v : Byte) : (m.append v).snkOpen = m.snkOpen := rfl
@[simp] theorem Memory.supply_src (m : Memory) (bs : List Byte) : (m.supply bs).src = bs := rfl
@[simp] theorem Memory.supply_snk (m : Memory) (bs : List Byte) : (m.supply bs).snk = m.snk := rfl
@[simp] theorem Memory.supply_snkOpen (m : Memory) (bs : List Byte) : (m.supply bs).snkOpen = m.snkOpen := rfl

/-- Opening SNK keeps the form. -/
theorem Memory.openSink_wf {m : Memory} (h : m.wf) : m.openSink.wf :=
  ⟨h.1, by simp [Config.streamBound]⟩

/-- Closing SNK keeps the form. -/
theorem Memory.closeSink_wf {m : Memory} (h : m.wf) : m.closeSink.wf := h

/-- Appending keeps the form below the position limit, which `snk_byte` tests first (R140). -/
theorem Memory.append_wf {m : Memory} (v : Byte) (h : m.wf) (hp : m.snk.length + 1 < Config.streamBound) :
    (m.append v).wf :=
  ⟨h.1, by simpa using hp⟩

/-- Another SRC of fewer than 2^32 bytes keeps the form. -/
theorem Memory.supply_wf {m : Memory} {bs : List Byte} (h : m.wf) (hb : bs.length < Config.streamBound) :
    (m.supply bs).wf :=
  ⟨hb, h.2⟩

/-- The memory right after reset has the form. -/
theorem reset_mem_wf : State.reset.mem.wf := by decide

end Sys2Proof.Machine
end

