-- ==== Sys2Proof/Laws/Ops.lean ====
section
/-! SUPPORT. What each shared operation can do, said once: sequencing, the environment's answer, the stream accesses,
fault entry. The provers cite these instead of unfolding the operations. -/

namespace Sys2Proof.Machine

/-! ### The alphabet -/

/-- Every byte value is a symbol. -/
theorem mem_symbols (c : Symbol) : c ∈ symbols := by
  refine List.mem_map.2 ⟨c.toNat, List.mem_range.2 c.isLt, ?_⟩
  simp

/-- No symbol is listed twice. -/
theorem symbols_nodup : symbols.Nodup := by
  refine List.Nodup.map_on ?_ List.nodup_range
  intro a ha b hb h
  have ha' := List.mem_range.1 ha
  have hb' := List.mem_range.1 hb
  have := congrArg BitVec.toNat h
  simp [BitVec.toNat_ofNat] at this
  omega

/-- There are 256 symbols (00_scope.md R2). -/
theorem symbols_length : symbols.length = 256 := by simp [symbols]

/-! ### Sequencing -/

@[simp] theorem Res.bind_ok {α β : Type} (a : α) (s : State) (f : α → State → Res β) :
    (Res.ok a s).bind f = f a s := rfl

@[simp] theorem Res.bind_stop {α β : Type} (w : Stop) (s : State) (f : α → State → Res β) :
    (Res.stop w s : Res α).bind f = .stop w s := rfl

@[simp] theorem Res.bind_raise {α β : Type} (c : Cause) (s : State) (f : α → State → Res β) :
    (raise c s : Res α).bind f = raise c s := rfl

/-- Sequencing is associative. -/
theorem Res.bind_assoc {α β γ : Type} (r : Res α) (f : α → State → Res β) (g : β → State → Res γ) :
    (r.bind f).bind g = r.bind fun a s => (f a s).bind g := by
  cases r <;> rfl

/-- A sequence that ran to its end ran both parts to their ends. -/
theorem Res.bind_eq_ok {α β : Type} {r : Res α} {f : α → State → Res β} {b : β} {t : State} :
    r.bind f = .ok b t ↔ ∃ a s, r = .ok a s ∧ f a s = .ok b t := by
  cases r <;> simp [Res.bind]

/-- What every outcome of a piece of pseudocode satisfies: `P` at its end, `Q` where a fault is raised or the reset
input was asserted; and the model itself is never stuck. -/
inductive Res.Keeps {α : Type} (P : α → State → Prop) (Q : State → Prop) : Res α → Prop
  | ok {a : α} {s : State} (h : P a s) : Res.Keeps P Q (.ok a s)
  | raise {c : Cause} {s : State} (h : Q s) : Res.Keeps P Q (.stop (.raise c) s)
  | reset {s : State} (h : Q s) : Res.Keeps P Q (.stop .hwReset s)

/-- What a completed piece of pseudocode that keeps `P` leaves. -/
theorem Res.Keeps.of_ok {α : Type} {P : α → State → Prop} {Q : State → Prop} {a : α} {s : State}
    (h : (Res.ok a s).Keeps P Q) : P a s := by
  cases h; assumption

/-- The rule of sequencing for `Keeps`. -/
theorem Res.Keeps.bind {α β : Type} {P : α → State → Prop} {P' : β → State → Prop} {Q : State → Prop}
    {r : Res α} {f : α → State → Res β} (h : r.Keeps P Q) (hf : ∀ a s, P a s → (f a s).Keeps P' Q) :
    (r.bind f).Keeps P' Q := by
  cases h with
  | ok h => exact hf _ _ h
  | raise h => exact .raise h
  | reset h => exact .reset h

/-- The rule of a test for `Keeps`. -/
theorem Res.Keeps.ite {α : Type} {P : α → State → Prop} {Q : State → Prop} {c : Prop} [Decidable c] {a b : Res α}
    (ha : c → a.Keeps P Q) (hb : ¬ c → b.Keeps P Q) : (if c then a else b).Keeps P Q := by
  by_cases h : c
  · rw [if_pos h]; exact ha h
  · rw [if_neg h]; exact hb h

/-- A weaker claim follows. -/
theorem Res.Keeps.mono {α : Type} {P P' : α → State → Prop} {Q Q' : State → Prop} {r : Res α}
    (h : r.Keeps P Q) (hP : ∀ a s, P a s → P' a s) (hQ : ∀ s, Q s → Q' s) : r.Keeps P' Q' := by
  cases h with
  | ok h => exact .ok (hP _ _ h)
  | raise h => exact .raise (hQ _ h)
  | reset h => exact .reset (hQ _ h)

/-! ### The environment's answer -/

/-- A draw changes nothing but the environment's own answers. -/
theorem draw_state (s : State) :
    s.draw.2 = { s with draws := s.draw.2.draws, freeDraws := s.draw.2.freeDraws } := by
  unfold State.draw; split <;> rfl

/-- The next access is served when the first answer supplied says so. -/
theorem draw_served {s : State} (h : Served 1 s) : s.draw = (.served, { s with draws := s.draws.drop 1 }) := by
  unfold State.draw
  rcases hd : s.draws with _ | ⟨a, r⟩
  · simp [Served, hd] at h
  · simp [Served, hd] at h
    subst h; simp

/-- Of `k + 1` served accesses the first is served. -/
theorem Served.first {k : Nat} {s : State} (h : Served (k + 1) s) : Served 1 s := by
  unfold Served at *
  rcases hd : s.draws with _ | ⟨a, r⟩
  · simp [hd] at h
  · simp [hd, List.replicate_succ] at h ⊢
    exact h.1

/-- Fewer served accesses are served. -/
theorem Served.mono {j k : Nat} {s : State} (h : Served k s) (hjk : j ≤ k) : Served j s := by
  unfold Served at *
  have := congrArg (List.take j) h
  rwa [List.take_take, Nat.min_eq_left hjk, List.take_replicate, Nat.min_eq_left hjk] at this

/-- After `j` of `j + k` served accesses, `k` are still served. -/
theorem Served.rest {j k : Nat} {s t : State} (h : Served (j + k) s) (ht : t.draws = s.draws.drop j) :
    Served k t := by
  unfold Served at *
  have := congrArg (List.drop j) h
  rw [List.drop_take, List.drop_replicate] at this
  rw [ht]
  simpa using this

/-! ### Reading SRC -/

/-- All that `src_byte()` can do (40_bitstream_reader.md R120): end-of-stream at or past SRC_LEN, the byte at IPOS, an
I/O failure, or the reset input; `s'` is the state with the environment's answers as they then stand. -/
theorem srcByte_cases (s : State) :
    ∃ ds n, ∃ s' : State, s' = { s with draws := ds, freeDraws := n } ∧
      ((s.mem.src[s.ipos.toNat]? = none ∧ srcByte s = .ok none { s' with eos := true }) ∨
        (∃ v, s.mem.src[s.ipos.toNat]? = some v ∧
          srcByte s = .ok (some v) { s' with ipos := s.ipos + 1, eos := false }) ∨
        srcByte s = raise .ioSrc s' ∨ srcByte s = .stop .hwReset s') := by
  refine ⟨s.draw.2.draws, s.draw.2.freeDraws, s.draw.2, draw_state s, ?_⟩
  have hm : s.draw.2.mem = s.mem := by rw [draw_state]
  have hi : s.draw.2.ipos = s.ipos := by rw [draw_state]
  unfold srcByte memRead
  rcases hd : s.draw with ⟨a, s'⟩
  rw [hd] at hm hi
  simp only at hm hi
  cases a
  · simp only [Res.bind_ok, Memory.srcByte?, hm, hi]
    rcases s.mem.src[s.ipos.toNat]? with _ | v
    · exact .inl ⟨rfl, rfl⟩
    · exact .inr (.inl ⟨v, rfl, rfl⟩)
  · exact .inr (.inr (.inl rfl))
  · exact .inr (.inr (.inr rfl))

/-- A served read inside SRC delivers the byte at IPOS (R62, R120). -/
theorem srcByte_served {s : State} {v : Byte} (h : Served 1 s) (hv : s.mem.src[s.ipos.toNat]? = some v) :
    srcByte s = .ok (some v) { s with draws := s.draws.drop 1, ipos := s.ipos + 1, eos := false } := by
  unfold srcByte memRead
  rw [draw_served h]
  simp [Memory.srcByte?, hv]

/-- A served read at or past SRC_LEN finds end-of-stream (R62, R120). -/
theorem srcByte_end {s : State} (h : Served 1 s) (hv : s.mem.src.length ≤ s.ipos.toNat) :
    srcByte s = .ok none { s with draws := s.draws.drop 1, eos := true } := by
  unfold srcByte memRead
  rw [draw_served h]
  simp [Memory.srcByte?, List.getElem?_eq_none hv]

/-! ### Writing SNK -/

/-- All that `snk_byte(v)` can do (41_bitstream_writer.md R140): the position limit, an append, an I/O failure, or the
reset input. -/
theorem snkByte_cases (v : Byte) (s : State) :
    (s.opos = lastPos ∧ snkByte v s = raise .posOverflow s) ∨
      (s.opos ≠ lastPos ∧ ∃ ds n, ∃ s' : State, s' = { s with draws := ds, freeDraws := n } ∧
        (snkByte v s = .ok () { s' with mem := s.mem.append v, opos := s.opos + 1 } ∨
          snkByte v s = raise .ioSnk s' ∨ snkByte v s = .stop .hwReset s')) := by
  unfold snkByte
  split
  · exact .inl ⟨‹_›, rfl⟩
  · refine .inr ⟨‹_›, s.draw.2.draws, s.draw.2.freeDraws, s.draw.2, draw_state s, ?_⟩
    have hm : s.draw.2.mem = s.mem := by rw [draw_state]
    have ho : s.draw.2.opos = s.opos := by rw [draw_state]
    unfold memWrite
    rcases hd : s.draw with ⟨a, s'⟩
    rw [hd] at hm ho
    simp only at hm ho
    cases a
    · left; simp [hm, ho]
    · exact .inr (.inl rfl)
    · exact .inr (.inr rfl)

/-- A served append below the position limit (R64, R140). -/
theorem snkByte_served {s : State} (v : Byte) (h : Served 1 s) (hp : s.opos ≠ lastPos) :
    snkByte v s =
      .ok () { s with draws := s.draws.drop 1, mem := s.mem.append v, opos := s.opos + 1 } := by
  unfold snkByte memWrite
  rw [if_neg hp, draw_served h]

/-! ### Fault entry -/

/-- All that the final flush can do: nothing, an append, a failure that is ignored, or the reset input. -/
theorem finalFlush_cases (allowed : Bool) (s : State) :
    ∃ ds n, ∃ s' : State, s' = { s with draws := ds, freeDraws := n } ∧
      (finalFlush allowed s = (.served, s) ∨
        (allowed = true ∧ s.wopen = true ∧ s.wcnt ≠ 0 ∧ s.opos ≠ lastPos ∧
          (finalFlush allowed s =
              (.served, { s' with mem := s.mem.append s.wacc, opos := s.opos + 1 }) ∨
            finalFlush allowed s = (.ioErr, s') ∨ finalFlush allowed s = (.hwReset, s')))) := by
  refine ⟨s.draw.2.draws, s.draw.2.freeDraws, s.draw.2, draw_state s, ?_⟩
  have hm : s.draw.2.mem = s.mem := by rw [draw_state]
  have ho : s.draw.2.opos = s.opos := by rw [draw_state]
  unfold finalFlush
  split
  · rename_i hc
    refine .inr ⟨hc.1, hc.2.1, hc.2.2.1, hc.2.2.2, ?_⟩
    unfold memWrite
    rcases hd : s.draw with ⟨a, s'⟩
    rw [hd] at hm ho
    simp only at hm ho
    cases a
    · left; simp [hm, ho]
    · exact .inr (.inl rfl)
    · exact .inr (.inr rfl)
  · exact .inl rfl

/-- With no pending bits there is nothing to flush. -/
theorem finalFlush_none {allowed : Bool} {s : State}
    (h : allowed = false ∨ s.wopen = false ∨ s.wcnt = 0 ∨ s.opos = lastPos) :
    finalFlush allowed s = (.served, s) := by
  unfold finalFlush
  rw [if_neg]
  rintro ⟨h1, h2, h3, h4⟩
  rcases h with h | h | h | h <;> simp_all

/-- A served flush appends the pending bits as one byte (R246). -/
theorem finalFlush_served {allowed : Bool} {s : State} (ha : allowed = true) (hw : s.wopen = true)
    (hc : s.wcnt ≠ 0) (hp : s.opos ≠ lastPos) (h : Served 1 s) :
    finalFlush allowed s =
      (.served, { s with draws := s.draws.drop 1, mem := s.mem.append s.wacc, opos := s.opos + 1 }) := by
  unfold finalFlush memWrite
  rw [if_pos ⟨ha, hw, hc, hp⟩, draw_served h]

/-- Fault entry with nothing to flush: latch, release, answer (R246). -/
theorem faultEntry_noFlush {op : BitVec 8} {c : Cause} {s : State}
    (h : c = .ioSnk ∨ s.wopen = false ∨ s.wcnt = 0 ∨ s.opos = lastPos) :
    faultEntry op c s = (releaseReader (releaseWriter (latch op c s))).answered .fault := by
  unfold faultEntry
  rw [finalFlush_none]
  rcases h with h | h | h | h <;> simp [h]

/-! ### The frame of a command -/

/-- A command that executes: the block not faulted, the word well-formed, the stream precondition met (R93). -/
theorem command_runs {i : Instr} {ready : State → Bool} {body : State → Res Unit} {s : State}
    (hf : s.faulted = false) (hw : i.wellFormed = true) (hr : ready s = true) :
    command i ready body s = finish (opcode i) (body s) := by
  simp [command, hf, hw, hr]

/-- A command that executes to its end answers `done` (00_scope.md R10). -/
theorem command_done {i : Instr} {ready : State → Bool} {body : State → Res Unit} {s t : State}
    (hf : s.faulted = false) (hw : i.wellFormed = true) (hr : ready s = true) (hb : body s = .ok () t) :
    command i ready body s = .next (t.answered .done) := by
  rw [command_runs hf hw hr, hb]; rfl

/-- A command whose pseudocode raises a fault takes fault entry (R246). -/
theorem command_raises {i : Instr} {ready : State → Bool} {body : State → Res Unit} {s t : State} {c : Cause}
    (hf : s.faulted = false) (hw : i.wellFormed = true) (hr : ready s = true) (hb : body s = raise c t) :
    command i ready body s = .next (faultEntry (opcode i) c t) := by
  rw [command_runs hf hw hr, hb]; rfl

/-- A faulted block rejects (60_exceptions.md R248). -/
theorem command_rejected {i : Instr} {ready : State → Bool} {body : State → Res Unit} {s : State}
    (hf : s.faulted = true) : command i ready body s = .next (rejected s) := by
  simp [command, hf]

/-- A well-formed command in the wrong stream state takes `ILLEGAL_CMD, STREAM_STATE` (R93). -/
theorem command_streamState {i : Instr} {ready : State → Bool} {body : State → Res Unit} {s : State}
    (hf : s.faulted = false) (hw : i.wellFormed = true) (hr : ready s = false) :
    command i ready body s = .next (faultEntry (opcode i) .streamState s) := by
  simp [command, hf, hw, hr, raise, finish]

/-- An operand out of range takes `ILLEGAL_CMD, BAD_FIELD`, before the stream state is looked at (R93, R249). -/
theorem command_badField {i : Instr} {ready : State → Bool} {body : State → Res Unit} {s : State}
    (hf : s.faulted = false) (hw : i.wellFormed = false) :
    command i ready body s = .next (faultEntry (opcode i) .badField s) := by
  simp [command, hf, hw, raise, finish]

/-! ### Single facts -/

/-- An empty bit buffer is in form (R149). -/
theorem emptyBuffer : (0 : BitVec 4).toNat ≤ 7 ∧ (0 : BitVec 8).toNat < 2 ^ (0 : BitVec 4).toNat := by decide

theorem putBit_small {acc : Byte} {b : Bool} {k : BitVec 4} (h : acc.toNat < 2 ^ k.toNat) :
    (putBit acc b k).toNat < 2 ^ (k.toNat + 1) := by
  unfold putBit
  rw [BitVec.toNat_or, BitVec.toNat_shiftLeft]
  refine Nat.or_lt_two_pow (Nat.lt_trans h (Nat.pow_lt_pow_right (by decide) (Nat.lt_succ_self _))) ?_
  refine Nat.lt_of_le_of_lt (Nat.mod_le _ _) ?_
  rw [Nat.shiftLeft_eq]
  have hb : ((BitVec.ofBool b).setWidth 8).toNat ≤ 1 := by cases b <;> decide
  calc _ ≤ 1 * 2 ^ k.toNat := Nat.mul_le_mul_right _ hb
    _ < 2 ^ (k.toNat + 1) := by rw [Nat.pow_succ]; have := Nat.two_pow_pos k.toNat; omega

/-- The last position of a stream (R35, 41_bitstream_writer.md R140). -/
theorem lastPos_iff {p : BitVec 32} : p = lastPos ↔ p.toNat = 2 ^ 32 - 1 :=
  ⟨fun h => by rw [h]; rfl, fun h => BitVec.eq_of_toNat_eq h⟩

/-- An access that the medium fails (R78). -/
theorem draw_io {s : State} {ds : List EnvAnswer} (h : s.draws = .ioErr :: ds) :
    s.draw = (.ioErr, { s with draws := ds }) := by simp [State.draw, h]

/-- An access at which the reset input is asserted (R270). -/
theorem draw_hw {s : State} {ds : List EnvAnswer} (h : s.draws = .hwReset :: ds) :
    s.draw = (.hwReset, { s with draws := ds }) := by simp [State.draw, h]

/-- A source access that the medium fails raises IO_ERROR, SRC (R120). -/
theorem srcByte_io {s : State} {ds : List EnvAnswer} (h : s.draws = .ioErr :: ds) :
    srcByte s = raise .ioSrc { s with draws := ds } := by simp [srcByte, memRead, draw_io h]

/-- A source access abandoned by the reset input (R270). -/
theorem srcByte_hw {s : State} {ds : List EnvAnswer} (h : s.draws = .hwReset :: ds) :
    srcByte s = .stop .hwReset { s with draws := ds } := by simp [srcByte, memRead, draw_hw h]

/-- A sink access that the medium fails raises IO_ERROR, SNK (R140). -/
theorem snkByte_io {s : State} {ds : List EnvAnswer} {v : Byte} (h : s.draws = .ioErr :: ds) (hp : s.opos ≠ lastPos) :
    snkByte v s = raise .ioSnk { s with draws := ds } := by simp [snkByte, memWrite, draw_io h, hp]

/-- At the last position the append faults without an access (R140). -/
theorem snkByte_full {s : State} {v : Byte} (hp : s.opos = lastPos) : snkByte v s = raise .posOverflow s := by
  simp [snkByte, hp]

/-- Fault entry after its flush is the latched state (R246). -/
theorem latched_eq (op : BitVec 8) (c : Cause) (s : State) :
    (releaseReader (releaseWriter (latch op c s))).answered .fault = faultLatched op c s := by
  have h1 : (latch op c s).wopen = s.wopen := rfl
  unfold releaseReader releaseWriter faultLatched
  rcases hw : s.wopen <;> rcases hr : s.ropen <;> simp [latch, hw, hr, State.answered, Memory.closeSink]

end Sys2Proof.Machine
end

