-- ==== Sys2Proof/Laws/Answer.lean ====
section
/-! SUPPORT. No pseudocode reads or writes the answer of the command port (00_scope.md R10), so commands issued one by
one compute what a macro's steps compute (44_archiver.md R211); and the fault registers are written by fault entry
alone (10_state.md R24 to R26). -/

namespace Sys2Proof.Machine

/-- The same result with another answer in its state. -/
def Res.answered {α : Type} (a : Answer) : Res α → Res α
  | .ok x s => .ok x (s.answered a)
  | .stop w s => .stop w (s.answered a)

/-- Pseudocode that neither reads nor writes the answer. -/
def Blind {α : Type} (f : State → Res α) : Prop := ∀ s a, f (s.answered a) = (f s).answered a

@[simp] theorem answered_answered (s : State) (a b : Answer) : (s.answered a).answered b = s.answered b := rfl

theorem Blind.bind {α β : Type} {f : State → Res α} {g : α → State → Res β} (hf : Blind f) (hg : ∀ x, Blind (g x)) :
    Blind fun s => (f s).bind g := by
  intro s a
  simp only
  rw [hf s a]
  cases f s with
  | ok x t => exact hg x t a
  | stop w t => rfl

/-- Pseudocode that ends with a value and a state computed without the answer. -/
theorem Blind.ok {α : Type} {x : State → α} {u : State → State} (hx : ∀ s a, x (s.answered a) = x s)
    (hu : ∀ s a, u (s.answered a) = (u s).answered a) : Blind fun s => Res.ok (x s) (u s) := by
  intro s a
  simp only [hx, hu]
  rfl

theorem Blind.raise {α : Type} (c : Cause) : Blind fun s => (raise c s : Res α) := fun _ _ => rfl

theorem Blind.ite {α : Type} {c : State → Prop} [∀ s, Decidable (c s)] {f g : State → Res α}
    (hc : ∀ s a, c (s.answered a) ↔ c s) (hf : Blind f) (hg : Blind g) : Blind fun s => if c s then f s else g s := by
  intro s a
  by_cases h : c s
  · simp only [if_pos h, if_pos ((hc s a).2 h), hf s a]
  · simp only [if_neg h, if_neg (mt (hc s a).1 h), hg s a]

/-! ### Streams -/

theorem draw_answered (s : State) (a : Answer) :
    (s.answered a).draw = (s.draw.1, s.draw.2.answered a) := by
  unfold State.draw
  rw [State.answered_draws]
  rcases s.draws with _ | ⟨d, ds⟩ <;> rfl

theorem srcByte_blind : Blind srcByte := by
  intro s a
  unfold srcByte memRead
  rw [draw_answered]
  rcases s.draw with ⟨d, t⟩
  cases d
  · show ((Res.ok (t.mem.srcByte? t.ipos.toNat) (t.answered a)).bind _) =
      ((Res.ok (t.mem.srcByte? t.ipos.toNat) t).bind _).answered a
    rcases t.mem.srcByte? t.ipos.toNat with _ | v <;> rfl
  · rfl
  · rfl

theorem takeBit_blind : Blind takeBit := fun _ _ => rfl

theorem readBit_blind : Blind readBit := by
  refine Blind.ite (c := fun s => s.rcnt = 0) (fun _ _ => Iff.rfl) (srcByte_blind.bind fun r => ?_) takeBit_blind
  cases r with
  | none => exact fun _ _ => rfl
  | some v => exact fun _ _ => rfl

theorem readBytes_blind (n k : Nat) (acc : BitVec 32) : Blind (readBytes n k acc) := by
  induction n generalizing k acc with
  | zero => exact fun _ _ => rfl
  | succ n ih =>
    refine srcByte_blind.bind fun r => ?_
    cases r with
    | none => exact fun _ _ => rfl
    | some v => exact ih _ _

theorem readExact_blind (n : Nat) : Blind (readExact n) := readBytes_blind n 0 0

theorem snkByte_blind (v : Byte) : Blind (snkByte v) := by
  refine Blind.ite (c := fun s => s.opos = lastPos) (fun _ _ => Iff.rfl) (Blind.raise _) ?_
  intro s a
  simp only
  unfold memWrite
  rw [draw_answered]
  rcases s.draw with ⟨d, t⟩
  cases d <;> rfl

theorem writeBit_blind (b : Bool) : Blind (writeBit b) := by
  refine Blind.ite (c := fun s => s.wcnt + 1 = 8) (fun _ _ => Iff.rfl) ?_ fun _ _ => rfl
  intro s a
  exact snkByte_blind (putBit s.wacc b s.wcnt) { s with wacc := 0, wcnt := 0 } a

theorem writeBits_blind (bs : List Bool) : Blind (writeBits bs) := by
  induction bs with
  | nil => exact fun _ _ => rfl
  | cons b bs ih => exact (writeBit_blind b).bind fun _ => ih

theorem writeBytes_blind (vs : List Byte) : Blind (writeBytes vs) := by
  induction vs with
  | nil => exact fun _ _ => rfl
  | cons v vs ih => exact (snkByte_blind v).bind fun _ => ih

theorem openReader_blind : Blind openReader := fun _ _ => rfl

theorem closeReader_blind : Blind closeReader := fun _ _ => rfl

theorem openWriter_blind : Blind openWriter := fun _ _ => rfl

theorem shutWriter_blind : Blind shutWriter := fun _ _ => rfl

theorem closeWriter_blind : Blind closeWriter := by
  refine Blind.ite (c := fun s => s.wcnt ≠ 0) (fun _ _ => Iff.rfl) ?_ shutWriter_blind
  intro s a
  exact (snkByte_blind s.wacc).bind (fun _ => shutWriter_blind) { s with wacc := 0, wcnt := 0 } a

/-! ### Tables and tree -/

theorem clearFreq_blind : Blind clearFreq := fun _ _ => rfl

theorem freqInc_blind (c : Symbol) : Blind (freqInc c) :=
  Blind.ite (c := fun s => s.getFreq c = 0xFFFFFFFF) (fun _ _ => Iff.rfl) (Blind.raise _) fun _ _ => rfl

theorem scanSource_blind {perByte : Byte → State → Res Unit} (h : ∀ v, Blind (perByte v)) (fuel : Nat) :
    Blind (scanSource perByte fuel) := by
  induction fuel with
  | zero => exact fun _ _ => rfl
  | succ fuel ih =>
    refine srcByte_blind.bind fun r => ?_
    cases r with
    | none => exact fun _ _ => rfl
    | some v => exact (h v).bind fun _ => ih

theorem scanFreq_blind : Blind scanFreq := fun s a => scanSource_blind freqInc_blind (scanBound s) s a

theorem writeSymbol_blind (c : Symbol) : Blind (writeSymbol c) := fun s a => writeBits_blind _ s a

theorem encPayload_blind : Blind encPayload := fun s a => scanSource_blind writeSymbol_blind (scanBound s) s a

theorem treeBuild_blind : Blind treeBuild := fun _ _ => rfl

theorem treeClear_blind : Blind treeClear := fun _ _ => rfl

theorem recordLeaves_answered (ls : List LeafAt) (s : State) (a : Answer) :
    recordLeaves ls (s.answered a) = (recordLeaves ls s).answered a := by
  induction ls generalizing s with
  | nil => rfl
  | cons l ls ih => exact ih (s.setEntry l.sym (BitVec.ofNat 32 l.code) (BitVec.ofNat 8 l.depth))

theorem tableBuild_blind : Blind tableBuild := by
  intro s a
  unfold tableBuild
  have : treeLeaves (s.answered a) = treeLeaves s := rfl
  rw [this]
  rcases treeLeaves s with e | ls
  · rfl
  · simp only
    have hc : clearTable (s.answered a) = (clearTable s).answered a := rfl
    rw [hc, recordLeaves_answered]
    split <;> rfl

theorem encHeader_blind : Blind encHeader := by
  intro s a
  have h1 : payloadBits (s.answered a) = payloadBits s := by unfold payloadBits; rfl
  have h2 : presentSymbols (s.answered a) = presentSymbols s := by unfold presentSymbols; rfl
  unfold encHeader
  rw [h1, h2]
  generalize payloadBits s = p
  generalize BitVec.ofNat 32 (presentSymbols s).length = size
  split
  · rfl
  · generalize BitVec.ofNat 32 p = cl
    simp only
    have h3 : ∀ t : State, headerBytes (t.answered a) = headerBytes t := fun t => by unfold headerBytes; rfl
    have h4 := h3 { s with codeLen := cl, tableSize := size, hdrBytes := headerByteCount size }
    have h5 := writeBytes_blind
      (headerBytes { s with codeLen := cl, tableSize := size, hdrBytes := headerByteCount size })
      { s with codeLen := cl, tableSize := size, hdrBytes := headerByteCount size } a
    rw [← h5, ← h4]
    rfl

/-! ### The decoder -/

theorem insertWalk_blind (bs : List Bool) (p : NodeIdx) : Blind (insertWalk bs p) := by
  induction bs generalizing p with
  | nil => exact fun _ _ => rfl
  | cons b bs ih =>
    intro s a
    unfold insertWalk
    rw [State.answered_nodes]
    rcases s.nodes[p.toNat]? with _ | n
    · rfl
    · cases n with
      | leaf c f => rfl
      | inner l r f =>
        simp only
        rcases (Node.inner l r f).child b with _ | q
        · exact ih _ (addChild p (.inner l r f) b s) a
        · exact ih q s a

theorem storeSymbol_blind (c : Symbol) (p : NodeIdx) : Blind (storeSymbol c p) := by
  intro s a
  unfold storeSymbol
  rw [State.answered_nodes]
  rcases s.nodes[p.toNat]? with _ | n
  · rfl
  · cases n with
    | leaf c f => rfl
    | inner l r f => cases l <;> cases r <;> rfl

theorem treeInsert_blind (c : Symbol) (code : BitVec 32) (n : Nat) : Blind (treeInsert c code n) := by
  intro s a
  unfold treeInsert
  split
  · rfl
  · exact (insertWalk_blind _ s.root).bind (fun p => storeSymbol_blind c p) s a

theorem readEntries_blind (k : Nat) : Blind (readEntries k) := by
  induction k with
  | zero => exact fun _ _ => rfl
  | succ k ih =>
    exact (readExact_blind 4).bind fun c => (readExact_blind 1).bind fun n => (readExact_blind 1).bind fun x =>
      (treeInsert_blind _ _ _).bind fun _ => ih

theorem decHeader_blind : Blind decHeader := by
  refine treeClear_blind.bind fun _ => ?_
  intro s a
  refine ((readExact_blind 4).bind (g := fun v s => (readExact 4 { s with codeLen := v }).bind fun v s =>
    let s' := { s with tableSize := v }
    if Config.maxTableSize < v.toNat then raise .badTableSize s' else readEntries v.toNat s') fun v => ?_)
    { s with bitsDone := 0, outcnt := 0 } a
  intro s a
  refine ((readExact_blind 4).bind (g := fun v s =>
    let s' := { s with tableSize := v }
    if Config.maxTableSize < v.toNat then raise .badTableSize s' else readEntries v.toNat s') fun v => ?_)
    { s with codeLen := v } a
  intro s a
  simp only
  split
  · rfl
  · exact readEntries_blind _ { s with tableSize := v } a

theorem walkBit_blind (b : Bool) : Blind (walkBit b) := by
  intro s a
  unfold walkBit
  rw [State.answered_nodes, State.answered_cur]
  rcases s.nodes[s.cur.toNat]? with _ | n
  · rfl
  · simp only
    rcases n.child b with _ | q
    · rfl
    · simp only
      try rw [State.answered_nodes]
      rcases s.nodes[q.toNat]? with _ | m
      · rfl
      · cases m with
        | leaf c f => exact (snkByte_blind c).bind (fun _ _ _ => rfl) s a
        | inner l r f => rfl

theorem decStep_blind : Blind decStep := by
  refine Blind.ite (c := fun s => s.codeLen.toNat ≤ s.bitsDone.toNat) (fun _ _ => Iff.rfl) (fun _ _ => rfl)
    (readBit_blind.bind fun r => ?_)
  cases r with
  | none => exact fun _ _ => rfl
  | some b => exact fun s a => walkBit_blind b { s with bitsDone := s.bitsDone + 1 } a

theorem decSteps_blind (k : Nat) : Blind (decSteps k) := by
  induction k with
  | zero => exact fun _ _ => rfl
  | succ k ih => exact decStep_blind.bind fun _ => ih

theorem decPayload_blind : Blind decPayload := fun s a => decSteps_blind _ s a

end Sys2Proof.Machine
end

