-- ==== Sys2Proof/Laws/Tree.lean ====
section
/-! SUPPORT. The code tree: paths, the walk over the leaves, and the insertion of a table entry, each with what it can
do and the tree invariants (10_state.md R50) it keeps. -/

namespace Sys2Proof.Machine

/-! ### Links and paths -/

/-- A LEAF has no links (R50 (4)). -/
theorem Link.inner {ns : List Node} {p : Nat} {b : Bool} {q : NodeIdx} (h : Link ns p b q) :
    ∃ l r f, ns[p]? = some (.inner l r f) := by
  obtain ⟨n, hn, hc⟩ := h
  cases n with
  | leaf c f => simp [Node.child] at hc
  | inner l r f => exact ⟨l, r, f, hn⟩

/-- A node with a link is in the node memory. -/
theorem Link.lt {ns : List Node} {p : Nat} {b : Bool} {q : NodeIdx} (h : Link ns p b q) : p < ns.length := by
  obtain ⟨n, hn, _⟩ := h
  exact (List.getElem?_eq_some_iff.1 hn).1

/-- There is at most one link on a side of a node. -/
theorem Link.fun {ns : List Node} {p : Nat} {b : Bool} {q q' : NodeIdx} (h : Link ns p b q)
    (h' : Link ns p b q') : q = q' := by
  obtain ⟨n, hn, hc⟩ := h
  obtain ⟨n', hn', hc'⟩ := h'
  rw [hn] at hn'
  cases hn'
  rw [hc] at hc'
  exact Option.some.inj hc'

@[simp] theorem follow_nil (ns : List Node) (p : NodeIdx) : follow ns p [] = some p := rfl

/-- One edge of a path is a link. -/
theorem follow_cons {ns : List Node} {p q : NodeIdx} {b : Bool} {bs : List Bool} :
    follow ns p (b :: bs) = some q ↔ ∃ m, Link ns p.toNat b m ∧ follow ns m bs = some q := by
  unfold Link
  simp only [follow]
  constructor
  · intro h
    split at h
    · cases h
    · rename_i n hn
      split at h
      · cases h
      · rename_i m hm
        exact ⟨m, ⟨n, hn, hm⟩, h⟩
  · rintro ⟨m, ⟨n, hn, hm⟩, h⟩
    simp [hn, hm, h]

/-- A path in two parts. -/
theorem follow_append {ns : List Node} {p q : NodeIdx} {bs cs : List Bool} :
    follow ns p (bs ++ cs) = some q ↔ ∃ m, follow ns p bs = some m ∧ follow ns m cs = some q := by
  induction bs generalizing p with
  | nil => simp
  | cons b bs ih =>
    simp only [List.cons_append, follow_cons, ih]
    constructor
    · rintro ⟨m, hl, n, h1, h2⟩; exact ⟨n, ⟨m, hl, h1⟩, h2⟩
    · rintro ⟨n, ⟨m, hl, h1⟩, h2⟩; exact ⟨m, hl, n, h1, h2⟩

/-- The last edge of a path. -/
theorem follow_snoc {ns : List Node} {p q : NodeIdx} {b : Bool} {bs : List Bool} :
    follow ns p (bs ++ [b]) = some q ↔ ∃ m, follow ns p bs = some m ∧ Link ns m.toNat b q := by
  rw [follow_append]
  simp [follow_cons]

/-- A path survives when every link survives. -/
theorem follow_mono {ns ns' : List Node} (h : ∀ p b q, Link ns p b q → Link ns' p b q) {p q : NodeIdx}
    {bs : List Bool} (hf : follow ns p bs = some q) : follow ns' p bs = some q := by
  induction bs generalizing p with
  | nil => simpa using hf
  | cons b bs ih =>
    obtain ⟨m, hl, hm⟩ := follow_cons.1 hf
    exact follow_cons.2 ⟨m, h _ _ _ hl, ih hm⟩

/-- Nothing can be followed out of a node without a link on that side. -/
theorem follow_stops {ns : List Node} {p q : NodeIdx} {n : Node} {b : Bool} {bs : List Bool}
    (hn : ns[p.toNat]? = some n) (hc : n.child b = none) : follow ns p (b :: bs) ≠ some q := by
  intro h
  obtain ⟨m, ⟨n', hn', hc'⟩, -⟩ := follow_cons.1 h
  rw [hn] at hn'; cases hn'
  rw [hc] at hc'; cases hc'

/-! ### The shape of a tree, with at most the given nodes childless -/

/-- The tree invariants, except that the INNER nodes of `x` may be childless as well: the shape in the middle of an
insertion. -/
structure ShapeBut (x : Nat → Prop) (ns : List Node) (root cur : NodeIdx) : Prop where
  size : ns.length ≤ Config.nodeCap
  rootInner : IsInner ns root
  curInner : IsInner ns cur
  links : ∀ p b q, Link ns p b q → q.toNat < ns.length
  oneParent : ∀ p p' b b' q, Link ns p b q → Link ns p' b' q → p = p' ∧ b = b'
  rootFree : ∀ p b, ¬ Link ns p b root
  reach : ∀ q : NodeIdx, q.toNat < ns.length → ∃ bits, follow ns root bits = some q
  grown : ∀ p f, ns[p]? = some (.inner none none f) → p = root.toNat ∨ x p

/-- A tree has the shape with no exception. -/
theorem TreeShape.but {x : Nat → Prop} {ns : List Node} {root cur : NodeIdx} (h : TreeShape ns root cur) :
    ShapeBut x ns root cur :=
  ⟨h.size, h.rootInner, h.curInner, h.links, h.oneParent, h.rootFree, h.reach,
    fun p f hp => .inl (h.grown p f hp)⟩

/-- The root is in the node memory. -/
theorem ShapeBut.root_lt {x : Nat → Prop} {ns : List Node} {root cur : NodeIdx} (h : ShapeBut x ns root cur) :
    root.toNat < ns.length := by
  obtain ⟨l, r, f, hr⟩ := h.rootInner
  exact (List.getElem?_eq_some_iff.1 hr).1

/-- A path from the root ends inside the node memory. -/
theorem ShapeBut.follow_lt {x : Nat → Prop} {ns : List Node} {root cur : NodeIdx} (h : ShapeBut x ns root cur)
    {bs : List Bool} {q : NodeIdx} (hf : follow ns root bs = some q) : q.toNat < ns.length := by
  rcases List.eq_nil_or_concat bs with rfl | ⟨as, b, rfl⟩
  · cases hf; exact h.root_lt
  · rw [List.concat_eq_append] at hf
    obtain ⟨m, -, hl⟩ := follow_snoc.1 hf
    exact h.links _ _ _ hl

/-- "Never repeats one": two paths from the root to one node are the same path (R50 (5)). -/
theorem ShapeBut.path_unique {x : Nat → Prop} {ns : List Node} {root cur : NodeIdx} (h : ShapeBut x ns root cur)
    {bs bs' : List Bool} {q : NodeIdx} (hf : follow ns root bs = some q) (hf' : follow ns root bs' = some q) :
    bs = bs' := by
  induction bs using List.reverseRecOn generalizing bs' q with
  | nil =>
    cases hf
    rcases List.eq_nil_or_concat bs' with rfl | ⟨as, b, rfl⟩
    · rfl
    · rw [List.concat_eq_append] at hf'
      obtain ⟨m, -, hl⟩ := follow_snoc.1 hf'
      exact absurd hl (h.rootFree _ _)
  | append_singleton as b ih =>
    obtain ⟨m, hm, hl⟩ := follow_snoc.1 hf
    rcases List.eq_nil_or_concat bs' with rfl | ⟨as', b', rfl⟩
    · cases hf'; exact absurd hl (h.rootFree _ _)
    · rw [List.concat_eq_append] at hf' ⊢
      obtain ⟨m', hm', hl'⟩ := follow_snoc.1 hf'
      obtain ⟨hpp, rfl⟩ := h.oneParent _ _ _ _ _ hl hl'
      rw [BitVec.eq_of_toNat_eq hpp] at hm
      rw [ih hm hm']

/-- A path from the root is shorter than the number of nodes: the walk terminates (70_reset_and_hazards.md R286). -/
theorem ShapeBut.path_length {x : Nat → Prop} {ns : List Node} {root cur : NodeIdx}
    (h : ShapeBut x ns root cur) {bs : List Bool} {q : NodeIdx} (hf : follow ns root bs = some q) :
    bs.length < ns.length := by
  have hpre : ∀ i, ∃ p, follow ns root (bs.take i) = some p := by
    intro i
    rw [← List.take_append_drop i bs] at hf
    obtain ⟨m, hm, -⟩ := follow_append.1 hf
    exact ⟨m, hm⟩
  choose node hnode using hpre
  let g : Fin (bs.length + 1) → Fin ns.length := fun i => ⟨(node i).toNat, h.follow_lt (hnode i)⟩
  have hg : Function.Injective g := by
    intro i j hij
    have he : node i = node j := BitVec.eq_of_toNat_eq (by simpa [g] using hij)
    have hi := hnode i
    rw [he] at hi
    have := congrArg List.length (h.path_unique hi (hnode j))
    simp only [List.length_take] at this
    have := i.isLt; have := j.isLt
    ext; omega
  have := Fintype.card_le_of_injective g hg
  simpa using this

/-! ### The walk over the leaves -/

/-- On a tree the walk meets no absent node and does not run out of its bound. -/
theorem leavesUnder_ok {x : Nat → Prop} {ns : List Node} {root cur : NodeIdx} (h : ShapeBut x ns root cur)
    (fuel : Nat) {p : NodeIdx} {bs : List Bool} (hf : follow ns root bs = some p) (c d : Nat)
    (hfuel : ns.length ≤ fuel + bs.length) : ∃ ls, leavesUnder ns fuel p c d = .ok ls := by
  induction fuel generalizing p bs c d with
  | zero => have := h.path_length hf; omega
  | succ fuel ih =>
    have hp := h.follow_lt hf
    have hget : ns[p.toNat]? = some ns[p.toNat] := List.getElem?_eq_getElem hp
    have side : ∀ (b : Bool) (q : NodeIdx) (c' : Nat), ns[p.toNat].child b = some q →
        ∃ ls, leavesUnder ns fuel q c' (d + 1) = .ok ls := fun b q c' hq =>
      ih (bs := bs ++ [b]) (follow_snoc.2 ⟨p, hf, _, hget, hq⟩) c' (d + 1) (by simp; omega)
    unfold leavesUnder
    rw [hget]
    cases hn : ns[p.toNat] with
    | leaf sym f => exact ⟨_, rfl⟩
    | inner l r f =>
      rw [hn] at side
      have behind : ∀ (b : Bool) (o : Option NodeIdx) (c' : Nat), (Node.inner l r f).child b = o →
          ∃ ls, behindLink o (fun q => leavesUnder ns fuel q c' (d + 1)) = .ok ls := by
        intro b o c' ho
        cases o with
        | none => exact ⟨[], rfl⟩
        | some q => exact side b q c' ho
      obtain ⟨ls, hl⟩ := behind false l c rfl
      obtain ⟨rs, hr⟩ := behind true r (c ||| (1 <<< d)) rfl
      exact ⟨ls ++ rs, by simp only [hl, hr, joinLeaves]⟩

/-- TR_LEN and TB_BUILD never meet the model's own stops on a tree. -/
theorem treeLeaves_ok {s : State} (h : TreeInv s) : ∃ ls, treeLeaves s = .ok ls :=
  leavesUnder_ok (x := fun _ => False) h.but _ (follow_nil _ _) 0 0 (by simp)

/-- The code of a path: bit `i` is the edge at depth `i` (30_encoding.md R104). -/
def pathCode : List Bool → Nat
  | [] => 0
  | b :: bs => b.toNat ||| (pathCode bs <<< 1)

/-- The bits of a path's code are its edges. -/
theorem testBit_pathCode (bs : List Bool) (i : Nat) : (pathCode bs).testBit i = (bs[i]?).getD false := by
  induction bs generalizing i with
  | nil => simp [pathCode]
  | cons b bs ih =>
    cases i with
    | zero => cases b <;> simp [pathCode]
    | succ i => cases b <;> simp [pathCode, Nat.testBit_shiftLeft, ih, Nat.testBit_one_eq_true_iff_self_eq_zero]

/-- A path's code has no bit at or above its length. -/
theorem pathCode_lt (bs : List Bool) : pathCode bs < 2 ^ bs.length := by
  refine Nat.lt_pow_two_of_testBit _ fun i hi => ?_
  rw [testBit_pathCode, List.getElem?_eq_none hi]
  rfl

/-- A path is determined by its code and its length. -/
theorem pathCode_inj {bs cs : List Bool} (hl : bs.length = cs.length) (h : pathCode bs = pathCode cs) :
    bs = cs := by
  refine List.ext_getElem hl fun i h1 h2 => ?_
  have := congrArg (Nat.testBit · i) h
  simpa [testBit_pathCode, h1, h2] using this

/-- What the walk lists (43_table_builder.md R192): exactly the leaves under `p`, each with the code and depth of its
path. -/
theorem mem_leavesUnder {ns : List Node} {fuel : Nat} {p : NodeIdx} {c d : Nat} {ls : List LeafAt}
    (h : leavesUnder ns fuel p c d = .ok ls) (l : LeafAt) :
    l ∈ ls ↔ ∃ bits q, follow ns p bits = some q ∧ ns[q.toNat]? = some (.leaf l.sym l.freq) ∧
      l.code = (c ||| (pathCode bits <<< d)) ∧ l.depth = d + bits.length := by
  induction fuel generalizing p c d ls with
  | zero => simp [leavesUnder] at h
  | succ fuel ih =>
    unfold leavesUnder at h
    split at h
    · cases h
    · rename_i sym f hn
      cases h
      constructor
      · intro hm
        rw [List.mem_singleton] at hm
        subst hm
        exact ⟨[], p, rfl, hn, by simp [pathCode], by simp⟩
      · rintro ⟨bits, q, hf, hq, hc, hd⟩
        cases bits with
        | nil =>
          cases hf
          rw [hn] at hq; cases hq
          rcases l with ⟨ls', lf, lc, ld⟩
          simp [pathCode] at hc hd ⊢
          exact ⟨hc, hd⟩
        | cons b bs => exact absurd hf (follow_stops hn rfl)
    · rename_i lk rk f hn
      have side : ∀ (b : Bool) (o : Option NodeIdx) (c' : Nat) (l' : List LeafAt),
          (Node.inner lk rk f).child b = o → c' = (c ||| (b.toNat <<< d)) →
          behindLink o (fun q => leavesUnder ns fuel q c' (d + 1)) = .ok l' →
          (l ∈ l' ↔ ∃ bits q, follow ns p (b :: bits) = some q ∧ ns[q.toNat]? = some (.leaf l.sym l.freq) ∧
            l.code = (c ||| (pathCode (b :: bits) <<< d)) ∧ l.depth = d + (b :: bits).length) := by
        intro b o c' l' ho hc' he
        cases o with
        | none =>
          cases he
          simp only [List.not_mem_nil, false_iff]
          rintro ⟨bits, q, hf, -⟩
          exact follow_stops hn ho hf
        | some q =>
          rw [ih he]
          constructor
          · rintro ⟨bits, r, hf, hr, hc, hd⟩
            refine ⟨bits, r, follow_cons.2 ⟨q, ⟨_, hn, ho⟩, hf⟩, hr, ?_, by simp; omega⟩
            rw [hc, hc', pathCode, Nat.shiftLeft_or_distrib, ← Nat.shiftLeft_add, Nat.or_assoc, Nat.add_comm 1 d]
          · rintro ⟨bits, r, hf, hr, hc, hd⟩
            obtain ⟨m, hl, hm⟩ := follow_cons.1 hf
            have : m = q := hl.fun ⟨_, hn, ho⟩
            subst this
            refine ⟨bits, r, hm, hr, ?_, by simp at hd; omega⟩
            rw [hc, hc', pathCode, Nat.shiftLeft_or_distrib, ← Nat.shiftLeft_add, Nat.or_assoc, Nat.add_comm 1 d]
      unfold joinLeaves at h
      split at h
      · cases h
      · rename_i lsl hl
        split at h
        · cases h
        · rename_i lsr hr
          cases h
          rw [List.mem_append, side false lk c lsl rfl (by simp) hl,
            side true rk (c ||| (1 <<< d)) lsr rfl (by simp) hr]
          constructor
          · rintro (⟨bits, h⟩ | ⟨bits, h⟩)
            · exact ⟨false :: bits, h⟩
            · exact ⟨true :: bits, h⟩
          · rintro ⟨bits, q, hf, hq, hc, hd⟩
            cases bits with
            | nil => cases hf; rw [hn] at hq; cases hq
            | cons b bs =>
              cases b
              · exact .inl ⟨bs, q, hf, hq, hc, hd⟩
              · exact .inr ⟨bs, q, hf, hq, hc, hd⟩

/-- The leaves of the current tree: exactly the ends of the paths from the root that lead to a LEAF, with the path's
code and length (R192, R193). -/
theorem mem_treeLeaves {s : State} {ls : List LeafAt} (h : treeLeaves s = .ok ls) (l : LeafAt) :
    l ∈ ls ↔ ∃ bits q, follow s.nodes s.root bits = some q ∧
      s.nodes[q.toNat]? = some (.leaf l.sym l.freq) ∧ l.code = pathCode bits ∧ l.depth = bits.length := by
  rw [mem_leavesUnder h]
  simp

end Sys2Proof.Machine
end

