-- ==== Sys2Proof/Laws/Insert.lean ====
section
/-! SUPPORT. Insertion of a table entry into the code tree (42_code_tree.md R167 to R169): what the walk and the final
store can do, and that the tree invariants hold after it, even where it faults. -/

namespace Sys2Proof.Machine

/-- A new index below the capacity is the index asked for. -/
@[simp] theorem toNat_idx {i : Nat} (h : i < 16384) : (idx i).toNat = i := by
  simp [idx, BitVec.toNat_ofNat, Nat.mod_eq_of_lt h]

/-- The node memory with a new empty INNER node as the child of `p` on side `b`. -/
def grownNodes (ns : List Node) (p : NodeIdx) (n : Node) (b : Bool) : List Node :=
  ns.set p.toNat (n.setChild b (idx ns.length)) ++ [Node.emptyInner]

theorem addChild_eq (p : NodeIdx) (n : Node) (b : Bool) (s : State) :
    addChild p n b s = { s with nodes := grownNodes s.nodes p n b } := rfl

@[simp] theorem grownNodes_length (ns : List Node) (p : NodeIdx) (n : Node) (b : Bool) :
    (grownNodes ns p n b).length = ns.length + 1 := by
  simp [grownNodes]

/-- Entry by entry: the parent with its new link, the old nodes, the new node. -/
theorem grownNodes_get {ns : List Node} {p : NodeIdx} {n : Node} {b : Bool} (hp : p.toNat < ns.length) (i : Nat) :
    (grownNodes ns p n b)[i]? =
      if i = p.toNat then some (n.setChild b (idx ns.length))
      else if i = ns.length then some Node.emptyInner
      else ns[i]? := by
  unfold grownNodes
  rcases Nat.lt_trichotomy i ns.length with h | h | h
  · rw [List.getElem?_append_left (by simpa using h)]
    by_cases hi : i = p.toNat
    · subst hi; simp [hp]
    · rw [if_neg hi, if_neg (by omega), List.getElem?_set_ne (by omega)]
  · subst h
    rw [if_neg (by omega), if_pos rfl, List.getElem?_append_right (by simp)]
    simp
  · rw [if_neg (by omega), if_neg (by omega), List.getElem?_eq_none (by simp; omega),
      List.getElem?_eq_none (by omega)]

/-- The links after a new child: the old ones and the new one. -/
theorem link_grownNodes {ns : List Node} {p : NodeIdx} {l r : Option NodeIdx} {f : BitVec 40} {b : Bool}
    (hn : ns[p.toNat]? = some (.inner l r f)) (hc : (Node.inner l r f).child b = none) (i : Nat) (b' : Bool)
    (q : NodeIdx) :
    Link (grownNodes ns p (.inner l r f) b) i b' q ↔
      Link ns i b' q ∨ (i = p.toNat ∧ b' = b ∧ q = idx ns.length) := by
  have hp : p.toNat < ns.length := (List.getElem?_eq_some_iff.1 hn).1
  unfold Link
  rw [grownNodes_get hp]
  by_cases hi : i = p.toNat
  · subst hi
    simp only [if_true, hn, Option.some.injEq, exists_eq_left', true_and]
    cases b <;> cases b' <;> simp_all [Node.setChild, Node.child, eq_comm]
  · rw [if_neg hi]
    by_cases hl : i = ns.length
    · subst hl
      simp [hi, Node.emptyInner, Node.child]
      intro h; cases b' <;> simp at h
    · simp [hi, hl]

/-- A new child keeps the shape, with the new node the childless one. -/
theorem ShapeBut.grow {x : Nat → Prop} {ns : List Node} {root cur p : NodeIdx} {l r : Option NodeIdx}
    {f : BitVec 40} {b : Bool} (h : ShapeBut x ns root cur) (hx : ∀ y, x y → y = p.toNat)
    (hn : ns[p.toNat]? = some (.inner l r f)) (hc : (Node.inner l r f).child b = none)
    (hcap : ns.length + 1 ≤ Config.nodeCap) :
    ShapeBut (fun y => y = ns.length) (grownNodes ns p (.inner l r f) b) root cur := by
  have hp : p.toNat < ns.length := (List.getElem?_eq_some_iff.1 hn).1
  have hcap' : ns.length < 16384 := by simp [Config.nodeCap] at hcap; omega
  have hnew : (idx ns.length).toNat = ns.length := toNat_idx hcap'
  have hlk := fun i b' q => link_grownNodes hn hc i b' q
  have hold : ∀ i b' q, Link ns i b' q → Link (grownNodes ns p (.inner l r f) b) i b' q :=
    fun i b' q hl => (hlk i b' q).2 (.inl hl)
  have hinner : ∀ m : NodeIdx, IsInner ns m → IsInner (grownNodes ns p (.inner l r f) b) m := by
    rintro m ⟨l', r', f', hm⟩
    unfold IsInner
    rw [grownNodes_get hp]
    by_cases hmp : m.toNat = p.toNat
    · rw [if_pos hmp]
      cases b <;> exact ⟨_, _, _, rfl⟩
    · rw [if_neg hmp, if_neg (by have := (List.getElem?_eq_some_iff.1 hm).1; omega)]
      exact ⟨l', r', f', hm⟩
  refine ⟨by simpa using hcap, hinner _ h.rootInner, hinner _ h.curInner, ?_, ?_, ?_, ?_, ?_⟩
  · intro i b' q hl
    rw [grownNodes_length]
    rcases (hlk i b' q).1 hl with hl | ⟨-, -, rfl⟩
    · exact Nat.lt_succ_of_lt (h.links _ _ _ hl)
    · omega
  · intro i i' b1 b2 q h1 h2
    rcases (hlk i b1 q).1 h1 with o1 | ⟨e1, e2, e3⟩ <;> rcases (hlk i' b2 q).1 h2 with o2 | ⟨e4, e5, e6⟩
    · exact h.oneParent _ _ _ _ _ o1 o2
    · have := h.links _ _ _ o1; rw [e6] at this; omega
    · have := h.links _ _ _ o2; rw [e3] at this; omega
    · exact ⟨e1.trans e4.symm, e2.trans e5.symm⟩
  · intro i b' hl
    rcases (hlk i b' root).1 hl with hl | ⟨-, -, hr⟩
    · exact h.rootFree _ _ hl
    · have := h.root_lt; rw [hr] at this; omega
  · intro q hq
    rw [grownNodes_length] at hq
    rcases Nat.lt_or_ge q.toNat ns.length with hlt | hge
    · obtain ⟨bits, hb⟩ := h.reach q hlt
      exact ⟨bits, follow_mono hold hb⟩
    · obtain ⟨bits, hb⟩ := h.reach p hp
      refine ⟨bits ++ [b], follow_snoc.2 ⟨p, follow_mono hold hb, (hlk _ _ _).2 (.inr ⟨rfl, rfl, ?_⟩)⟩⟩
      exact BitVec.eq_of_toNat_eq (by omega)
  · intro i f' hi
    rw [grownNodes_get hp] at hi
    split at hi
    · cases b <;> simp [Node.setChild] at hi
    · split at hi
      · exact .inr ‹_›
      · rcases h.grown i f' hi with hr | hxi
        · exact .inl hr
        · exact absurd (hx _ hxi) ‹_›

/-- The end of a walk from the childless node `p`, where every further node is new: it runs, and ends at a childless
node. -/
theorem insertWalk_fresh (bs : List Bool) {s : State} {p : NodeIdx} {f : BitVec 40} {pre : List Bool}
    (h : ShapeBut (fun y => y = p.toNat) s.nodes s.root s.cur)
    (hn : s.nodes[p.toNat]? = some (.inner none none f)) (hpre : follow s.nodes s.root pre = some p)
    (hcap : s.nodes.length + bs.length ≤ Config.nodeCap) :
    ∃ p' ns' f', insertWalk bs p s = .ok p' { s with nodes := ns' } ∧
      ShapeBut (fun y => y = p'.toNat) ns' s.root s.cur ∧ ns'[p'.toNat]? = some (.inner none none f') ∧
      follow ns' s.root (pre ++ bs) = some p' ∧ ns'.length = s.nodes.length + bs.length ∧
      (∀ i b q, Link s.nodes i b q → Link ns' i b q) ∧
      (∀ (i : Nat) (c : Symbol) (g : BitVec 40),
        s.nodes[i]? = some (Node.leaf c g) ↔ ns'[i]? = some (Node.leaf c g)) ∧
      (p' = p ∨ s.nodes.length ≤ p'.toNat) := by
  induction bs generalizing s p f pre with
  | nil =>
    exact ⟨p, s.nodes, f, rfl, h, hn, by simpa using hpre, by simp, fun _ _ _ hl => hl, fun _ _ _ => Iff.rfl, .inl rfl⟩
  | cons b bs ih =>
    have hc : (Node.inner none none f).child b = none := by cases b <;> rfl
    simp only [List.length_cons] at hcap
    have hp : p.toNat < s.nodes.length := (List.getElem?_eq_some_iff.1 hn).1
    have hidx : (idx s.nodes.length).toNat = s.nodes.length :=
      toNat_idx (by simp [Config.nodeCap] at hcap; omega)
    have hold : ∀ i b' q, Link s.nodes i b' q → Link (grownNodes s.nodes p (.inner none none f) b) i b' q :=
      fun i b' q hl => (link_grownNodes hn hc i b' q).2 (.inl hl)
    have hg := h.grow (b := b) (fun y hy => hy) hn hc (by omega)
    have hnew : (grownNodes s.nodes p (.inner none none f) b)[(idx s.nodes.length).toNat]? =
        some (.inner none none 0) := by
      rw [grownNodes_get hp, hidx, if_neg (by omega), if_pos rfl]; rfl
    have hpath : follow (grownNodes s.nodes p (.inner none none f) b) s.root (pre ++ [b]) =
        some (idx s.nodes.length) :=
      follow_snoc.2 ⟨p, follow_mono hold hpre, (link_grownNodes hn hc _ _ _).2 (.inr ⟨rfl, rfl, rfl⟩)⟩
    obtain ⟨p', ns', f', hw, hs, hn', hf', hl', hlk, hleaf, hor⟩ :=
      ih (s := { s with nodes := grownNodes s.nodes p (.inner none none f) b }) (p := idx s.nodes.length)
        (pre := pre ++ [b]) (by rw [hidx]; exact hg) hnew hpath (by simp; omega)
    refine ⟨p', ns', f', ?_, hs, hn', by simpa using hf', by simp at hl' ⊢; omega,
      fun i b' q hl => hlk i b' q (hold i b' q hl), fun i c g => ?_, ?_⟩
    · unfold insertWalk
      rw [hn]
      simp only [hc]
      rw [addChild_eq]
      exact hw
    · rw [← hleaf i c g]
      simp only
      rw [grownNodes_get hp]
      constructor
      · intro hi
        have hlt := (List.getElem?_eq_some_iff.1 hi).1
        rw [if_neg (by rintro rfl; rw [hn] at hi; cases hi), if_neg (by omega)]
        exact hi
      · intro hi
        split at hi
        · cases b <;> simp [Node.setChild] at hi
        · split at hi
          · cases hi
          · exact hi
    · rcases hor with rfl | hge
      · exact .inr (by omega)
      · exact .inr (by simp at hge; omega)

/-- All that the walk of `tree_insert` can do from a node of a tree (R168): check (a) fails with nothing changed; it
ends at a node that was there before, with nothing changed; or it ends at a node it has just made. -/
theorem insertWalk_cases (bs : List Bool) {s : State} {p : NodeIdx} {pre : List Bool}
    (h : TreeShape s.nodes s.root s.cur) (hpre : follow s.nodes s.root pre = some p)
    (hcap : s.nodes.length + bs.length ≤ Config.nodeCap) :
    insertWalk bs p s = raise .tableConflict s ∨
      (∃ p', insertWalk bs p s = .ok p' s ∧ follow s.nodes s.root (pre ++ bs) = some p') ∨
      (∃ p' ns' f', insertWalk bs p s = .ok p' { s with nodes := ns' } ∧
        ShapeBut (fun y => y = p'.toNat) ns' s.root s.cur ∧ ns'[p'.toNat]? = some (.inner none none f') ∧
        follow ns' s.root (pre ++ bs) = some p' ∧ ns'.length ≤ s.nodes.length + bs.length ∧
        (∀ i b q, Link s.nodes i b q → Link ns' i b q) ∧
        (∀ (i : Nat) (c : Symbol) (g : BitVec 40),
        s.nodes[i]? = some (Node.leaf c g) ↔ ns'[i]? = some (Node.leaf c g)) ∧
        s.nodes.length ≤ p'.toNat) := by
  induction bs generalizing p pre with
  | nil => exact .inr (.inl ⟨p, rfl, by simpa using hpre⟩)
  | cons b bs ih =>
    simp only [List.length_cons] at hcap
    have hp := (h.but (x := fun _ => False)).follow_lt hpre
    have hget : s.nodes[p.toNat]? = some s.nodes[p.toNat] := List.getElem?_eq_getElem hp
    unfold insertWalk
    rw [hget]
    cases hn : s.nodes[p.toNat] with
    | leaf c f => exact .inl rfl
    | inner l r f =>
      rw [hn] at hget
      simp only
      cases hc : (Node.inner l r f).child b with
      | some q =>
        have := ih (p := q) (pre := pre ++ [b]) (follow_snoc.2 ⟨p, hpre, _, hget, hc⟩) (by omega)
        simp only [List.append_assoc, List.singleton_append] at this
        rcases this with hr | ⟨p', hw, hf⟩ | ⟨p', ns', f', hw, h1, h2, h3, h4, h5⟩
        · exact .inl hr
        · exact .inr (.inl ⟨p', hw, hf⟩)
        · exact .inr (.inr ⟨p', ns', f', hw, h1, h2, h3, by simp; omega, h5⟩)
      | none =>
        have hidx : (idx s.nodes.length).toNat = s.nodes.length :=
          toNat_idx (by simp [Config.nodeCap] at hcap; omega)
        have hold : ∀ i b' q, Link s.nodes i b' q → Link (grownNodes s.nodes p (.inner l r f) b) i b' q :=
          fun i b' q hl => (link_grownNodes hget hc i b' q).2 (.inl hl)
        have hg := (h.but (x := fun _ => False)).grow (b := b) (fun y hy => hy.elim) hget hc (by omega)
        have hnew : (grownNodes s.nodes p (.inner l r f) b)[(idx s.nodes.length).toNat]? =
            some (.inner none none 0) := by
          rw [grownNodes_get hp, hidx, if_neg (by omega), if_pos rfl]; rfl
        have hpath : follow (grownNodes s.nodes p (.inner l r f) b) s.root (pre ++ [b]) =
            some (idx s.nodes.length) :=
          follow_snoc.2 ⟨p, follow_mono hold hpre, (link_grownNodes hget hc _ _ _).2 (.inr ⟨rfl, rfl, rfl⟩)⟩
        obtain ⟨p', ns', f', hw, hs, hn', hf', hl', hlk, hleaf, hor⟩ :=
          insertWalk_fresh bs (s := { s with nodes := grownNodes s.nodes p (.inner l r f) b })
            (p := idx s.nodes.length) (pre := pre ++ [b]) (by rw [hidx]; exact hg) hnew hpath (by simp; omega)
        refine .inr (.inr ⟨p', ns', f', ?_, hs, hn', by simpa using hf', by simp at hl' ⊢; omega,
          fun i b' q hl => hlk i b' q (hold i b' q hl), fun i c g => ?_, ?_⟩)
        · rw [addChild_eq]; exact hw
        · rw [← hleaf i c g]
          simp only
          rw [grownNodes_get hp]
          constructor
          · intro hi
            have hlt := (List.getElem?_eq_some_iff.1 hi).1
            rw [if_neg (by rintro rfl; rw [hget] at hi; cases hi), if_neg (by omega)]
            exact hi
          · intro hi
            split at hi
            · cases b <;> simp [Node.setChild] at hi
            · split at hi
              · cases hi
              · exact hi
        · rcases hor with rfl | hge
          · omega
          · simp at hge; omega

/-- Storing a symbol at a childless node that is neither ROOT nor CUR turns the shape back into a tree. -/
theorem ShapeBut.store {ns : List Node} {root cur p : NodeIdx} {f : BitVec 40} (c : Symbol)
    (h : ShapeBut (fun y => y = p.toNat) ns root cur) (hn : ns[p.toNat]? = some (.inner none none f))
    (hr : p ≠ root) (hc : p ≠ cur) : TreeShape (ns.set p.toNat (.leaf c f)) root cur := by
  have hp : p.toNat < ns.length := (List.getElem?_eq_some_iff.1 hn).1
  have hlk : ∀ i b q, Link (ns.set p.toNat (.leaf c f)) i b q ↔ Link ns i b q := by
    intro i b q
    unfold Link
    by_cases hi : i = p.toNat
    · subst hi
      simp only [List.getElem?_set_self hp, hn, Option.some.injEq, exists_eq_left']
      cases b <;> simp [Node.child]
    · rw [List.getElem?_set_ne (by omega)]
  have hin : ∀ m : NodeIdx, m ≠ p → IsInner ns m → IsInner (ns.set p.toNat (.leaf c f)) m := by
    rintro m hm ⟨l, r, g, hg⟩
    refine ⟨l, r, g, ?_⟩
    rw [List.getElem?_set_ne fun e => hm (BitVec.eq_of_toNat_eq e.symm)]
    exact hg
  refine ⟨by simpa using h.size, hin _ hr.symm h.rootInner, hin _ hc.symm h.curInner, ?_, ?_, ?_, ?_, ?_⟩
  · intro i b q hl
    simpa using h.links _ _ _ ((hlk i b q).1 hl)
  · intro i i' b b' q h1 h2
    exact h.oneParent _ _ _ _ _ ((hlk i b q).1 h1) ((hlk i' b' q).1 h2)
  · intro i b hl
    exact h.rootFree _ _ ((hlk i b root).1 hl)
  · intro q hq
    obtain ⟨bits, hb⟩ := h.reach q (by simpa using hq)
    exact ⟨bits, follow_mono (fun i b q => (hlk i b q).2) hb⟩
  · intro i g hi
    by_cases hip : i = p.toNat
    · subst hip; rw [List.getElem?_set_self hp] at hi; cases hi
    · rw [List.getElem?_set_ne (by omega)] at hi
      exact (h.grown i g hi).resolve_right hip

/-- All that `tree_insert` can do on a tree with room (R168): BAD_LENGTH and TABLE_CONFLICT leave the state as it was;
otherwise only the node memory changes, by at most one node per bit, and it is a tree again. -/
theorem treeInsert_cases (c : Symbol) (code : BitVec 32) (n : Nat) {s : State}
    (h : TreeShape s.nodes s.root s.cur) (hcap : s.nodes.length + 32 ≤ Config.nodeCap) :
    ((n < 1 ∨ 32 < n) ∧ treeInsert c code n s = raise .badLength s) ∨
      treeInsert c code n s = raise .tableConflict s ∨
      (∃ ns', treeInsert c code n s = .ok () { s with nodes := ns' } ∧ TreeShape ns' s.root s.cur ∧
        ns'.length ≤ s.nodes.length + n ∧ (1 ≤ n ∧ n ≤ 32)) := by
  unfold treeInsert
  split
  · rename_i hbad
    exact .inl ⟨by simpa [Config.maxCodeLen] using hbad, rfl⟩
  · rename_i hgood
    simp only [Config.maxCodeLen, not_or, not_lt] at hgood
    have hlen : ((List.range n).map (codeBit code)).length = n := by simp
    have hne : (List.range n).map (codeBit code) ≠ [] := by
      intro he; rw [he] at hlen; simp at hlen; omega
    rcases insertWalk_cases ((List.range n).map (codeBit code)) (p := s.root) (pre := []) h rfl
      (by rw [hlen]; omega) with hr | ⟨p', hw, hf⟩ | ⟨p', ns', f', hw, hs, hn', hf', hl', hlk, hleaf, hge⟩
    · rw [hr]; exact .inr (.inl rfl)
    · rw [hw]
      have hp' := (h.but (x := fun _ => False)).follow_lt hf
      have hget : s.nodes[p'.toNat]? = some s.nodes[p'.toNat] := List.getElem?_eq_getElem hp'
      simp only [Res.bind_ok]
      unfold storeSymbol
      rw [hget]
      cases hnode : s.nodes[p'.toNat] with
      | leaf c f => exact .inr (.inl rfl)
      | inner l r f =>
        rw [hnode] at hget
        cases l <;> cases r
        · have hroot := h.grown _ _ hget
          have : follow s.nodes s.root [] = some p' := by
            rw [follow_nil]; exact congrArg some (BitVec.eq_of_toNat_eq hroot.symm)
          exact absurd ((h.but (x := fun _ => False)).path_unique hf this) hne
        all_goals exact .inr (.inl rfl)
    · rw [hw]
      simp only [Res.bind_ok]
      unfold storeSymbol
      simp only [hn']
      refine .inr (.inr ⟨ns'.set p'.toNat (.leaf c f'), rfl, ?_, by simp; omega, hgood⟩)
      have hcur : s.cur.toNat < s.nodes.length := by
        obtain ⟨l, r, g, hg⟩ := h.curInner
        exact (List.getElem?_eq_some_iff.1 hg).1
      have hroot := (h.but (x := fun _ => False)).root_lt
      exact hs.store c hn' (by rintro rfl; omega) (by rintro rfl; omega)

/-- The empty root is a tree (10_state.md R44, R52). -/
theorem emptyTree_shape : TreeShape [Node.emptyInner] 0 0 := by
  have hno : ∀ p b q, ¬ Link [Node.emptyInner] p b q := by
    rintro p b q ⟨n, hn, hc⟩
    cases p with
    | zero => simp at hn; subst hn; cases b <;> simp [Node.emptyInner, Node.child] at hc
    | succ p => simp at hn
  refine ⟨by simp [Config.nodeCap], ⟨none, none, 0, rfl⟩, ⟨none, none, 0, rfl⟩, ?_, ?_, ?_, ?_, ?_⟩
  · exact fun p b q h => absurd h (hno p b q)
  · exact fun p _ b _ q h => absurd h (hno p b q)
  · exact fun p b h => hno p b 0 h
  · intro q hq
    refine ⟨[], ?_⟩
    rw [follow_nil]
    exact congrArg some (BitVec.eq_of_toNat_eq (by simp at hq ⊢; omega))
  · intro p f hp
    cases p with
    | zero => rfl
    | succ p => simp at hp

end Sys2Proof.Machine
end

