-- ==== Sys2Proof/Laws/Build.lean ====
section
/-! SUPPORT. The priority merge of TR_BUILD (42_code_tree.md R164 to R166): the order is total, the merge keeps a
forest whose roots are the candidates and always joins the two least, and what is left at the end is a tree. -/

namespace Sys2Proof.Machine

/-! ### The priority order -/

theorem comesBefore_iff {ns : List Node} {i j : Nat} :
    comesBefore ns i j = true ↔ Before ns i j := by
  simp [comesBefore, Before]

/-- The order of R164 is transitive. -/
theorem comesBefore_trans {ns : List Node} {i j k : Nat} (h1 : comesBefore ns i j = true)
    (h2 : comesBefore ns j k = true) : comesBefore ns i k = true := by
  rw [comesBefore_iff, Before] at *; omega

/-- The order of R164 is total: "the order is total". -/
theorem comesBefore_total {ns : List Node} {i j : Nat} (h : i ≠ j) (hn : comesBefore ns i j = false) :
    comesBefore ns j i = true := by
  rw [comesBefore_iff, Before]
  have hno : ¬ (freqAt ns i < freqAt ns j ∨ (freqAt ns i = freqAt ns j ∧ i < j)) := by
    intro h'
    rw [comesBefore_iff.2 h'] at hn
    cases hn
  omega

/-- A node's frequency does not change when nodes are added behind it. -/
theorem freqAt_append {ns ms : List Node} {i : Nat} (h : i < ns.length) : freqAt (ns ++ ms) i = freqAt ns i := by
  simp [freqAt, List.getElem?_append_left h]

theorem comesBefore_append {ns ms : List Node} {i j : Nat} (hi : i < ns.length) (hj : j < ns.length) :
    comesBefore (ns ++ ms) i j = comesBefore ns i j := by
  simp [comesBefore, freqAt_append hi, freqAt_append hj]

/-! ### The priority structure -/

/-- Enqueueing adds exactly the new candidate. -/
theorem enqueue_perm (ns : List Node) (i : Nat) (q : List Nat) : (enqueue ns i q).Perm (i :: q) := by
  induction q with
  | nil => exact .refl _
  | cons j q ih =>
    unfold enqueue
    split
    · exact .refl _
    · exact (List.Perm.cons j ih).trans (List.Perm.swap i j q)

/-- The candidates in the order of R164. -/
def InOrder (ns : List Node) (q : List Nat) : Prop := q.Pairwise fun i j => comesBefore ns i j = true

/-- Enqueueing keeps the order. -/
theorem InOrder.enqueue {ns : List Node} {i : Nat} {q : List Nat} (h : InOrder ns q) (hi : i ∉ q) :
    InOrder ns (enqueue ns i q) := by
  induction q with
  | nil => exact List.pairwise_singleton _ _
  | cons j q ih =>
    obtain ⟨hj, hq⟩ := List.pairwise_cons.1 h
    rw [List.mem_cons, not_or] at hi
    unfold Machine.enqueue
    split
    · rename_i hb
      refine List.pairwise_cons.2 ⟨fun k hk => ?_, h⟩
      rcases List.mem_cons.1 hk with rfl | hk
      · exact hb
      · exact comesBefore_trans hb (hj k hk)
    · rename_i hb
      refine List.pairwise_cons.2 ⟨fun k hk => ?_, ih hq hi.2⟩
      rcases List.mem_cons.1 ((enqueue_perm ns i q).mem_iff.1 hk) with rfl | hk
      · exact comesBefore_total hi.1 (by simpa using hb)
      · exact hj k hk

/-- The first priority structure holds every given node once, in order. -/
theorem candidates_spec (ns : List Node) :
    (candidates ns).Perm (List.range ns.length) ∧ InOrder ns (candidates ns) := by
  unfold candidates
  suffices h : ∀ l : List Nat, l.Nodup →
      (l.foldr (enqueue ns) []).Perm l ∧ InOrder ns (l.foldr (enqueue ns) []) from h _ List.nodup_range
  intro l hl
  induction l with
  | nil => exact ⟨.refl _, List.Pairwise.nil⟩
  | cons i l ih =>
    obtain ⟨hi, hl⟩ := List.nodup_cons.1 hl
    obtain ⟨hp, ho⟩ := ih hl
    refine ⟨(enqueue_perm ns i _).trans (hp.cons i), ho.enqueue fun h => hi (hp.mem_iff.1 h)⟩

/-! ### The forest -/

/-- The state of the merge over `k` leaves with candidates `q`: nodes below `k` are leaves, later ones merges of the
two least; a child lies below its parent, has one parent, and the candidates are the nodes without one. -/
structure Forest (k : Nat) (ns : List Node) (q : List Nat) : Prop where
  leaves : ∀ i < k, ∃ c f, ns[i]? = some (.leaf c f)
  kle : k ≤ ns.length
  count : ns.length + q.length = 2 * k
  small : k ≤ 256
  nodup : q.Nodup
  inRange : ∀ i ∈ q, i < ns.length
  inOrder : InOrder ns q
  least : ∀ i, k ≤ i → i < ns.length → MergedLeast ns i
  below : ∀ p b c, Link ns p b c → c.toNat < p
  oneParent : ∀ p p' b b' c, Link ns p b c → Link ns p' b' c → p = p' ∧ b = b'
  orphans : ∀ i < ns.length, (∀ p b, ¬ Link ns p b (idx i)) ↔ i ∈ q
  total : (q.map (freqAt ns)).sum < 2 ^ 40

/-- The links after a merge: the old ones and the two new ones. -/
theorem link_merge {ns : List Node} {a b : Nat} (p : Nat) (side : Bool) (c : NodeIdx) :
    Link (ns ++ [merged ns a b]) p side c ↔
      Link ns p side c ∨ (p = ns.length ∧ c = if side then idx b else idx a) := by
  unfold Link
  rcases Nat.lt_trichotomy p ns.length with h | h | h
  · rw [List.getElem?_append_left h]
    simp; omega
  · subst h
    rw [List.getElem?_append_right (Nat.le_refl _)]
    simp only [Nat.sub_self, List.getElem?_cons_zero, Option.some.injEq, exists_eq_left', true_and]
    rw [List.getElem?_eq_none (Nat.le_refl _)]
    cases side <;> simp [merged, Node.child, eq_comm]
  · rw [List.getElem?_eq_none (by simp; omega), List.getElem?_eq_none (by omega)]
    simp; omega

/-- Who was a candidate does not change when nodes are added. -/
theorem candidateAt_append {ns ms : List Node} {i j : Nat} (hi : i ≤ ns.length) :
    CandidateAt (ns ++ ms) i j ↔ CandidateAt ns i j := by
  refine and_congr_right fun _ => forall_congr' fun p => forall_congr' fun hp => forall_congr' fun side => ?_
  unfold Link
  rw [List.getElem?_append_left (by omega)]

/-- A merge that was the least stays so when nodes are added. -/
theorem MergedLeast.append {ns ms : List Node} {i : Nat} (h : MergedLeast ns i) (hi : i < ns.length) :
    MergedLeast (ns ++ ms) i := by
  obtain ⟨a, b, f, hn, ha, hb, hf, hab, hrest⟩ := h
  have hcand : ∀ j, CandidateAt (ns ++ ms) i j ↔ CandidateAt ns i j := fun j => candidateAt_append (by omega)
  have := ha.1
  have := hb.1
  refine ⟨a, b, f, by rw [List.getElem?_append_left hi]; exact hn, (hcand a).2 ha, (hcand b).2 hb, ?_, ?_, ?_⟩
  · rw [freqAt_append (by omega), freqAt_append (by omega)]; exact hf
  · rw [Before, freqAt_append (by omega), freqAt_append (by omega)]; exact hab
  · intro j hj hja hjb
    have := hj.1
    rw [Before, freqAt_append (by omega), freqAt_append (by omega)]
    exact hrest j ((hcand j).1 hj) hja hjb

/-- One merge keeps the forest. -/
theorem Forest.merge {k : Nat} {ns : List Node} {a b : Nat} {q : List Nat} (h : Forest k ns (a :: b :: q)) :
    Forest k (ns ++ [merged ns a b]) (enqueue (ns ++ [merged ns a b]) ns.length q) := by
  have hcount := h.count
  have hkle := h.kle
  have hsmall := h.small
  simp only [List.length_cons] at hcount
  have ha : a < ns.length := h.inRange a (by simp)
  have hb : b < ns.length := h.inRange b (by simp)
  have hlen : ns.length < 16384 := by omega
  have hnd := h.nodup
  simp only [List.nodup_cons, List.mem_cons, not_or] at hnd
  obtain ⟨⟨hab, haq⟩, hbq, hqnd⟩ := hnd
  have hqr : ∀ i ∈ q, i < ns.length := fun i hi => h.inRange i (by simp [hi])
  have hperm := enqueue_perm (ns ++ [merged ns a b]) ns.length q
  obtain ⟨hoa, hob⟩ := List.pairwise_cons.1 h.inOrder
  obtain ⟨hob, hoq⟩ := List.pairwise_cons.1 hob
  have hsum : freqAt ns a + freqAt ns b < 2 ^ 40 := by
    have := h.total
    simp only [List.map_cons, List.sum_cons] at this
    omega
  have hmf : (merged ns a b).freq.toNat = freqAt ns a + freqAt ns b := by
    simp only [merged, Node.freq, BitVec.toNat_ofNat, Nat.mod_eq_of_lt hsum]
  have hia : (idx a).toNat = a := toNat_idx (by omega)
  have hib : (idx b).toNat = b := toNat_idx (by omega)
  have hnoA : ∀ p s, ¬ Link ns p s (idx a) := (h.orphans a ha).2 (by simp)
  have hnoB : ∀ p s, ¬ Link ns p s (idx b) := (h.orphans b hb).2 (by simp)
  have hidx : ∀ i j : Nat, i < 16384 → j < 16384 → idx i = idx j → i = j := by
    intro i j hi hj e
    have := congrArg BitVec.toNat e
    rwa [toNat_idx hi, toNat_idx hj] at this
  refine ⟨?_, by simp; omega, ?_, h.small, ?_, ?_, ?_, ?_, ?_, ?_, ?_, ?_⟩
  · intro i hi
    rw [List.getElem?_append_left (by omega)]
    exact h.leaves i hi
  · rw [hperm.length_eq]; simp; omega
  · exact hperm.nodup_iff.2 (List.nodup_cons.2 ⟨fun hm => absurd (hqr _ hm) (by omega), hqnd⟩)
  · intro i hi
    rcases List.mem_cons.1 (hperm.mem_iff.1 hi) with rfl | hi
    · simp
    · have := hqr i hi; simp; omega
  · refine InOrder.enqueue ?_ fun hm => absurd (hqr _ hm) (by omega)
    refine hoq.imp_of_mem fun {i j} hi hj hij => ?_
    rw [comesBefore_append (hqr i hi) (hqr j hj)]
    exact hij
  · intro i hki hi
    simp only [List.length_append, List.length_singleton] at hi
    rcases Nat.lt_or_ge i ns.length with hlt | hge
    · exact (h.least i hki hlt).append hlt
    · obtain rfl : i = ns.length := by omega
      refine ⟨a, b, BitVec.ofNat 40 (freqAt ns a + freqAt ns b), ?_,
        (candidateAt_append (Nat.le_refl _)).2 ⟨ha, fun p _ s => hnoA p s⟩,
        (candidateAt_append (Nat.le_refl _)).2 ⟨hb, fun p _ s => hnoB p s⟩, ?_, ?_, ?_⟩
      · rw [List.getElem?_append_right (Nat.le_refl _)]; simp [merged]
      · rw [freqAt_append ha, freqAt_append hb]
        rw [BitVec.toNat_ofNat, Nat.mod_eq_of_lt hsum]
      · rw [Before, freqAt_append ha, freqAt_append hb]
        exact comesBefore_iff.1 (hoa b (by simp))
      · intro j hcand hja hjb
        obtain ⟨hj, hfree⟩ := (candidateAt_append (Nat.le_refl _)).1 hcand
        rw [Before, freqAt_append hb, freqAt_append hj]
        have : j ∈ a :: b :: q := (h.orphans j hj).1 fun p s hl => hfree p hl.lt s hl
        simp only [List.mem_cons] at this
        exact comesBefore_iff.1 (hob j (by tauto))
  · intro p s c hl
    rcases (link_merge p s c).1 hl with hl | ⟨rfl, rfl⟩
    · exact h.below _ _ _ hl
    · cases s <;> simp [hia, hib, ha, hb]
  · intro p p' s s' c h1 h2
    rcases (link_merge p s c).1 h1 with o1 | ⟨e1, e2⟩ <;> rcases (link_merge p' s' c).1 h2 with o2 | ⟨e3, e4⟩
    · exact h.oneParent _ _ _ _ _ o1 o2
    · rw [e4] at o1
      cases s' <;> simp at o1
      · exact absurd o1 (hnoA _ _)
      · exact absurd o1 (hnoB _ _)
    · rw [e2] at o2
      cases s <;> simp at o2
      · exact absurd o2 (hnoA _ _)
      · exact absurd o2 (hnoB _ _)
    · refine ⟨e1.trans e3.symm, ?_⟩
      rw [e2] at e4
      cases s <;> cases s' <;> simp at e4 ⊢
      · exact hab (hidx _ _ (by omega) (by omega) e4)
      · exact hab (hidx _ _ (by omega) (by omega) e4.symm)
  · intro i hi
    simp only [List.length_append, List.length_singleton] at hi
    rw [hperm.mem_iff, List.mem_cons]
    constructor
    · intro hno
      rcases Nat.lt_or_ge i ns.length with hlt | hge
      · have hm : i ∈ a :: b :: q := (h.orphans i hlt).1 fun p s hl => hno p s ((link_merge p s _).2 (.inl hl))
        simp only [List.mem_cons] at hm
        rcases hm with rfl | rfl | hm
        · exact absurd ((link_merge (b := b) ns.length false (idx i)).2 (.inr ⟨rfl, rfl⟩)) (hno _ _)
        · exact absurd ((link_merge (a := a) ns.length true (idx i)).2 (.inr ⟨rfl, rfl⟩)) (hno _ _)
        · exact .inr hm
      · exact .inl (by omega)
    · rintro (rfl | hm) p s hl
      · rcases (link_merge p s _).1 hl with hl | ⟨rfl, e⟩
        · have := h.below _ _ _ hl; have := hl.lt
          rw [toNat_idx hlen] at *; omega
        · cases s <;> simp at e
          · exact absurd (hidx _ _ hlen (by omega) e) (by omega)
          · exact absurd (hidx _ _ hlen (by omega) e) (by omega)
      · have hlt := hqr i hm
        rcases (link_merge p s _).1 hl with hl | ⟨rfl, e⟩
        · exact (h.orphans i hlt).2 (by simp [hm]) _ _ hl
        · cases s <;> simp at e
          · have := hidx _ _ (by omega) (by omega) e; subst this; exact haq hm
          · have := hidx _ _ (by omega) (by omega) e; subst this; exact hbq hm
  · have hmap : (q.map (freqAt (ns ++ [merged ns a b]))) = q.map (freqAt ns) :=
      List.map_congr_left fun i hi => freqAt_append (hqr i hi)
    have hnew : freqAt (ns ++ [merged ns a b]) ns.length = freqAt ns a + freqAt ns b := by
      simp [freqAt, hmf]
    rw [(hperm.map _).sum_eq, List.map_cons, List.sum_cons, hmap, hnew]
    have := h.total
    simp only [List.map_cons, List.sum_cons] at this
    omega

/-- A merge keeps the sum of the candidates' frequencies. -/
theorem Forest.merge_sum {k : Nat} {ns : List Node} {a b : Nat} {q : List Nat} (h : Forest k ns (a :: b :: q)) :
    ((enqueue (ns ++ [merged ns a b]) ns.length q).map (freqAt (ns ++ [merged ns a b]))).sum =
      ((a :: b :: q).map (freqAt ns)).sum := by
  have hperm := enqueue_perm (ns ++ [merged ns a b]) ns.length q
  have hqr : ∀ i ∈ q, i < ns.length := fun i hi => h.inRange i (by simp [hi])
  have hmap : (q.map (freqAt (ns ++ [merged ns a b]))) = q.map (freqAt ns) :=
    List.map_congr_left fun i hi => freqAt_append (hqr i hi)
  have hsum : freqAt ns a + freqAt ns b < 2 ^ 40 := by
    have := h.total
    simp only [List.map_cons, List.sum_cons] at this
    omega
  have hnew : freqAt (ns ++ [merged ns a b]) ns.length = freqAt ns a + freqAt ns b := by
    rw [freqAt, List.getElem?_concat_length]
    simp only [merged, Node.freq, BitVec.toNat_ofNat, Nat.mod_eq_of_lt hsum]
  rw [(hperm.map _).sum_eq, List.map_cons, List.sum_cons, hmap, hnew]
  simp only [List.map_cons, List.sum_cons]
  omega

/-- The merge ends with one candidate, the last node made, over the same leaves and with the same total frequency. -/
theorem mergeAll_spec (fuel : Nat) {k : Nat} {ns : List Node} {q : List Nat} (h : Forest k ns q) (hq : q ≠ [])
    (hfuel : q.length ≤ fuel + 1) (hlast : q.length = 1 → q = [ns.length - 1]) :
    ∃ ns', mergeAll fuel ns q = (ns', [ns'.length - 1]) ∧ Forest k ns' [ns'.length - 1] ∧ ns <+: ns' ∧
      freqAt ns' (ns'.length - 1) = (q.map (freqAt ns)).sum := by
  induction fuel generalizing ns q with
  | zero =>
    match q, hq, hfuel with
    | [r], _, _ =>
      have := hlast rfl
      refine ⟨ns, by simp [mergeAll, this], ?_, List.prefix_refl _, ?_⟩
      · rw [← this]; exact h
      · simp at this; simp [this]
  | succ fuel ih =>
    match q, hq, hfuel with
    | [r], _, _ =>
      have := hlast rfl
      refine ⟨ns, by simp [mergeAll, this], ?_, List.prefix_refl _, ?_⟩
      · rw [← this]; exact h
      · simp at this; simp [this]
    | a :: b :: q, _, hfuel =>
      have hperm := enqueue_perm (ns ++ [merged ns a b]) ns.length q
      obtain ⟨ns', hm, hf, hpre, hs⟩ := ih (ns := ns ++ [merged ns a b])
        (q := enqueue (ns ++ [merged ns a b]) ns.length q) h.merge
        (by intro he; have := hperm.length_eq; rw [he] at this; simp at this)
        (by rw [hperm.length_eq]; simp at hfuel ⊢; omega)
        (by
          intro hl
          rw [hperm.length_eq] at hl
          have : q = [] := List.length_eq_zero_iff.1 (by simpa using hl)
          subst this
          simp [enqueue])
      refine ⟨ns', ?_, hf, (List.prefix_append _ _).trans hpre, ?_⟩
      · rw [mergeAll]; exact hm
      · rw [hs, h.merge_sum]

/-- The leaves alone are a forest whose candidates are all of them. -/
theorem leaves_forest {ls : List Node} (hleaf : ∀ n ∈ ls, ∃ c f, n = .leaf c f) (hk : ls.length ≤ 256)
    (htot : (ls.map fun n => n.freq.toNat).sum < 2 ^ 40) : Forest ls.length ls (candidates ls) := by
  obtain ⟨hp, ho⟩ := candidates_spec ls
  have hget : ∀ i < ls.length, ∃ c f, ls[i]? = some (.leaf c f) := by
    intro i hi
    obtain ⟨c, f, he⟩ := hleaf ls[i] (List.getElem_mem hi)
    exact ⟨c, f, by rw [List.getElem?_eq_getElem hi, he]⟩
  have hno : ∀ p b c, ¬ Link ls p b c := by
    intro p b c hl
    obtain ⟨l, r, f, hn⟩ := hl.inner
    obtain ⟨c', f', hn'⟩ := hget p hl.lt
    rw [hn] at hn'; cases hn'
  refine ⟨hget, Nat.le_refl _, ?_, hk, hp.nodup_iff.2 List.nodup_range, ?_, ho, ?_, ?_, ?_, ?_, ?_⟩
  · rw [hp.length_eq, List.length_range]; omega
  · intro i hi
    exact List.mem_range.1 (hp.mem_iff.1 hi)
  · intro i h1 h2; omega
  · exact fun p b c h => absurd h (hno p b c)
  · exact fun p _ b _ c h => absurd h (hno p b c)
  · intro i hi
    exact ⟨fun _ => hp.mem_iff.2 (List.mem_range.2 hi), fun _ p b => hno p b _⟩
  · rw [(hp.map _).sum_eq]
    have : (List.range ls.length).map (freqAt ls) = ls.map fun n => n.freq.toNat := by
      refine List.ext_getElem (by simp) fun i h1 h2 => ?_
      simp at h1
      simp [freqAt, List.getElem?_eq_getElem h1]
    rw [this]; exact htot

/-- A forest with one candidate, an INNER node, is a tree under it. -/
theorem Forest.tree {k : Nat} {ns : List Node} {r : Nat} (h : Forest k ns [r]) (hr : k ≤ r) (hk : 1 ≤ k) :
    TreeShape ns (idx r) (idx r) := by
  have hcount := h.count
  have hsmall := h.small
  have hrlt : r < ns.length := h.inRange r (by simp)
  have hir : (idx r).toNat = r := toNat_idx (by omega)
  simp only [List.length_singleton] at hcount
  have hroot : IsInner ns (idx r) := by
    obtain ⟨a, b, f, hn, -⟩ := h.least r hr hrlt
    exact ⟨_, _, f, by rw [hir]; exact hn⟩
  refine ⟨by simp [Config.nodeCap]; omega, hroot, hroot, ?_, h.oneParent, (h.orphans r hrlt).2 (by simp), ?_, ?_⟩
  · intro p b q hl
    have := h.below _ _ _ hl; have := hl.lt; omega
  · suffices hs : ∀ m, ∀ q : NodeIdx, q.toNat < ns.length → ns.length - q.toNat ≤ m →
        ∃ bits, follow ns (idx r) bits = some q from fun q hq => hs _ q hq (Nat.le_refl _)
    intro m
    induction m with
    | zero => intro q hq hm; omega
    | succ m ih =>
      intro q hq hm
      have hqi : idx q.toNat = q := by simp [idx]
      by_cases hqr : q.toNat = r
      · exact ⟨[], by rw [follow_nil, ← hqr, hqi]⟩
      · have : ∃ p b, Link ns p b q := by
          by_contra hno
          push Not at hno
          have := (h.orphans q.toNat hq).1 (by rw [hqi]; exact hno)
          simp at this; omega
        obtain ⟨p, b, hl⟩ := this
        have h1 := h.below _ _ _ hl
        have h2 := hl.lt
        have hip : (idx p).toNat = p := toNat_idx (by omega)
        obtain ⟨bits, hb⟩ := ih (idx p) (by omega) (by omega)
        exact ⟨bits ++ [b], follow_snoc.2 ⟨_, hb, by rw [hip]; exact hl⟩⟩
  · intro p f hp
    have hlt := (List.getElem?_eq_some_iff.1 hp).1
    rcases Nat.lt_or_ge p k with hpk | hpk
    · obtain ⟨c, g, hl⟩ := h.leaves p hpk
      rw [hl] at hp; cases hp
    · obtain ⟨a, b, g, hn, -⟩ := h.least p hpk hlt
      rw [hn] at hp; cases hp

/-- The tree of one symbol (R165, k = 1). -/
theorem oneLeaf_shape (c : Symbol) (f g : BitVec 40) :
    TreeShape [.leaf c f, .inner (some 0) none g] 1 1 := by
  have hlk : ∀ p b q, Link [Node.leaf c f, .inner (some 0) none g] p b q ↔ p = 1 ∧ b = false ∧ q = 0 := by
    intro p b q
    unfold Link
    rcases p with _ | _ | p
    · simp [Node.child]
    · constructor
      · rintro ⟨n, hn, hc⟩
        cases hn
        cases b
        · cases hc; exact ⟨rfl, rfl, rfl⟩
        · cases hc
      · rintro ⟨-, rfl, rfl⟩
        exact ⟨_, rfl, rfl⟩
    · simp
  refine ⟨(by decide : 2 ≤ Config.nodeCap), ⟨_, _, g, rfl⟩, ⟨_, _, g, rfl⟩, ?_, ?_, ?_, ?_, ?_⟩
  · rintro p b q h
    obtain ⟨-, -, rfl⟩ := (hlk p b q).1 h
    simp
  · intro p p' b b' q h1 h2
    obtain ⟨rfl, rfl, -⟩ := (hlk p b q).1 h1
    obtain ⟨rfl, rfl, -⟩ := (hlk p' b' q).1 h2
    exact ⟨rfl, rfl⟩
  · intro p b h
    obtain ⟨-, -, h⟩ := (hlk p b 1).1 h
    exact absurd h (by decide)
  · intro q hq
    simp at hq
    rcases Nat.lt_or_ge q.toNat 1 with h | h
    · obtain rfl : q = 0 := BitVec.eq_of_toNat_eq (by simp; omega)
      exact ⟨[false], rfl⟩
    · obtain rfl : q = 1 := BitVec.eq_of_toNat_eq (by simp; omega)
      exact ⟨[], rfl⟩
  · intro p f' hp
    rcases p with _ | _ | p <;> simp at hp

/-- Two or more leaves: the merge's result is the tree (R165, R166). -/
theorem buildTree_many {ls : List Node} (h2 : 2 ≤ ls.length) (hleaf : ∀ n ∈ ls, ∃ c f, n = .leaf c f)
    (hk : ls.length ≤ 256) (htot : (ls.map fun n => n.freq.toNat).sum < 2 ^ 40) :
    ∃ ns, buildTree ls = (ns, ns.length - 1) ∧ Forest ls.length ns [ns.length - 1] ∧ ls <+: ns ∧
      ns.length = 2 * ls.length - 1 ∧
      freqAt ns (ns.length - 1) = (ls.map fun n => n.freq.toNat).sum := by
  have hF := leaves_forest hleaf hk htot
  obtain ⟨hp, -⟩ := candidates_spec ls
  have hlen : (candidates ls).length = ls.length := by rw [hp.length_eq, List.length_range]
  obtain ⟨ns, hm, hf, hpre, hs⟩ := mergeAll_spec ls.length hF
    (by intro he; rw [he] at hlen; simp at hlen; omega) (by omega) (by intro h1; omega)
  have hcount := hf.count
  simp only [List.length_singleton] at hcount
  refine ⟨ns, ?_, hf, hpre, by omega, ?_⟩
  · match ls, h2 with
    | a :: b :: ls, _ => unfold buildTree; simp only [hm]; simp
  · rw [hs, (hp.map _).sum_eq]
    congr 1
    refine List.ext_getElem (by simp) fun i h1 h2 => ?_
    simp at h1
    simp [freqAt, List.getElem?_eq_getElem h1]

/-- Whatever the leaves, TR_BUILD makes a tree (10_state.md R50). -/
theorem buildTree_shape {ls : List Node} (hleaf : ∀ n ∈ ls, ∃ c f, n = .leaf c f) (hk : ls.length ≤ 256)
    (htot : (ls.map fun n => n.freq.toNat).sum < 2 ^ 40) :
    TreeShape (buildTree ls).1 (idx (buildTree ls).2) (idx (buildTree ls).2) := by
  match ls, hleaf, hk, htot with
  | [], _, _, _ => exact emptyTree_shape
  | [l], hleaf, _, _ =>
    obtain ⟨c, f, rfl⟩ := hleaf l (by simp)
    exact oneLeaf_shape c f f
  | a :: b :: ls, hleaf, hk, htot =>
    obtain ⟨ns, hb, hf, hpre, hl, -⟩ := buildTree_many (by simp) hleaf hk htot
    rw [hb]
    exact hf.tree (by simp at hl ⊢; omega) (by simp)

/-! ### The leaves of TR_BUILD -/

/-- The root's frequency is the sum of the leaves' (R165). -/
theorem buildTree_rootFreq {ls : List Node} (hleaf : ∀ n ∈ ls, ∃ c f, n = .leaf c f) (hk : ls.length ≤ 256)
    (htot : (ls.map fun n => n.freq.toNat).sum < 2 ^ 40) :
    freqAt (buildTree ls).1 (idx (buildTree ls).2).toNat = (ls.map fun n => n.freq.toNat).sum := by
  match ls, hleaf, hk, htot with
  | [], _, _, _ => rfl
  | [l], _, _, _ => simp [buildTree, idx, freqAt, Node.freq]
  | a :: b :: ls, hleaf, hk, htot =>
    obtain ⟨ns, hb, hf, hpre, hl, hfr⟩ := buildTree_many (by simp) hleaf hk htot
    rw [hb]
    simp only
    rw [toNat_idx (by simp at hl hk; omega), hfr]

theorem freqLeaves_eq (s : State) :
    freqLeaves s = (countedSymbols s).map fun c => .leaf c ((s.getFreq c).setWidth 40) := rfl

theorem countedSymbols_length (s : State) : (countedSymbols s).length ≤ 256 := by
  have := List.length_filter_le (fun c => s.getFreq c != 0) symbols
  rw [symbols_length] at this
  exact this

theorem freqLeaves_length (s : State) : (freqLeaves s).length ≤ 256 := by
  rw [freqLeaves_eq, List.length_map]; exact countedSymbols_length s

theorem freqLeaves_leaf (s : State) : ∀ n ∈ freqLeaves s, ∃ c f, n = .leaf c f := by
  intro n hn
  obtain ⟨c, -, rfl⟩ := List.mem_map.1 hn
  exact ⟨c, _, rfl⟩

/-- The sum of the leaves' frequencies is the sum of the frequency table (R166 (2)). -/
theorem freqLeaves_sum (s : State) : ((freqLeaves s).map fun n => n.freq.toNat).sum = totalFreq s := by
  unfold totalFreq
  rw [freqLeaves_eq, List.map_map]
  unfold countedSymbols
  generalize symbols = l
  induction l with
  | nil => rfl
  | cons c l ih =>
    have hlt := (s.getFreq c).isLt
    by_cases h : s.getFreq c = 0
    · rw [List.filter_cons_of_neg (by simp [h]), ih, List.map_cons, List.sum_cons, h]
      simp
    · rw [List.filter_cons_of_pos (by simpa using h), List.map_cons, List.sum_cons, ih, List.map_cons,
        List.sum_cons, Function.comp_apply, Node.freq, BitVec.toNat_setWidth, Nat.mod_eq_of_lt (by omega)]

/-- No sum of the table overflows 40 bits (00_scope.md R6, R9 (2)). -/
theorem totalFreq_lt (s : State) : totalFreq s < 2 ^ 40 := by
  unfold totalFreq
  have h : ∀ l : List Symbol, (l.map fun c => (s.getFreq c).toNat).sum ≤ l.length * (2 ^ 32 - 1) := by
    intro l
    induction l with
    | nil => simp
    | cons c l ih =>
      have := (s.getFreq c).isLt
      simp only [List.map_cons, List.sum_cons, List.length_cons]
      omega
  have := h symbols
  rw [symbols_length] at this
  omega

/-- TR_BUILD always makes a tree (10_state.md R50). -/
theorem treeBuild_shape (s : State) :
    TreeShape (buildTree (freqLeaves s)).1 (idx (buildTree (freqLeaves s)).2)
      (idx (buildTree (freqLeaves s)).2) :=
  buildTree_shape (freqLeaves_leaf s) (freqLeaves_length s)
    (by rw [freqLeaves_sum]; exact totalFreq_lt s)

end Sys2Proof.Machine
end

