-- ==== Sys2Proof/Laws/Keeps.lean ====
section
/-! SUPPORT. What every piece of pseudocode keeps of the invariants of the state, and that none meets the model's own
stops: one lemma per procedure and per command body, then fault entry, hardware reset and the frame of a command. -/

namespace Sys2Proof.Machine

/-! ### What pseudocode keeps -/

/-- The part of the invariants that holds at every statement, also where a fault is raised. -/
structure Sound (s : State) : Prop where
  tree : TreeInv s
  table : TableInv s
  writer : WriterInv s
  stream : StreamInv s
  count : s.outcnt.toNat ≤ s.bitsDone.toNat

/-- A sound state of a block that is not faulted. -/
structure Good (s : State) : Prop where
  sound : Sound s
  noFault : s.err = 0 ∧ s.errinfo = 0 ∧ s.errcmd = 0
  size : s.tableSize.toNat ≤ 256

/-- What most pieces of pseudocode leave at their end: a good state, the streams open or closed as they were, and SRC
and the node memory as they were. -/
structure Onward (s t : State) : Prop where
  good : Good t
  ropen : t.ropen = s.ropen
  wopen : t.wopen = s.wopen
  src : t.mem.src = s.mem.src
  ipos : s.ipos.toNat ≤ t.ipos.toNat
  nodes : t.nodes = s.nodes

theorem Onward.trans {s t u : State} (h : Onward s t) (h' : Onward t u) : Onward s u :=
  ⟨h'.good, h'.ropen.trans h.ropen, h'.wopen.trans h.wopen, h'.src.trans h.src, h.ipos.trans h'.ipos,
    h'.nodes.trans h.nodes⟩

theorem Onward.refl {s : State} (h : Good s) : Onward s s := ⟨h, rfl, rfl, rfl, Nat.le_refl _, rfl⟩

/-- The invariants do not speak of the result register, the environment's answers or EOS. -/
theorem Sound.aside {s : State} (h : Sound s) (r : BitVec 32) (e : Bool) (ds : List EnvAnswer) (n : Nat) :
    Sound { s with res := r, eos := e, draws := ds, freeDraws := n } :=
  ⟨h.tree, h.table, h.writer, ⟨h.stream.wf, h.stream.ipos, h.stream.opos, h.stream.flag, h.stream.closed,
    h.stream.rcnt⟩, h.count⟩

theorem Good.aside {s : State} (h : Good s) (r : BitVec 32) (e : Bool) (ds : List EnvAnswer) (n : Nat) :
    Good { s with res := r, eos := e, draws := ds, freeDraws := n } :=
  ⟨h.sound.aside r e ds n, h.noFault, h.size⟩

theorem Onward.aside {s : State} (h : Good s) (r : BitVec 32) (e : Bool) (ds : List EnvAnswer) (n : Nat) :
    Onward s { s with res := r, eos := e, draws := ds, freeDraws := n } :=
  ⟨h.aside r e ds n, rfl, rfl, rfl, Nat.le_refl _, rfl⟩

theorem emptyReader : (0 : BitVec 4).toNat ≤ 8 := by decide

theorem fullReader : (8 : BitVec 4).toNat ≤ 8 ∧ (8 : BitVec 4) ≠ 0 := by decide

/-- A read position inside SRC can be raised by one without wrapping. -/
theorem ipos_succ {s : State} {v : Byte} (h : s.mem.wf) (hv : s.mem.src[s.ipos.toNat]? = some v) :
    (s.ipos + 1).toNat = s.ipos.toNat + 1 ∧ s.ipos.toNat + 1 ≤ s.mem.src.length := by
  have hlt := (List.getElem?_eq_some_iff.1 hv).1
  have hwf := h.1
  simp only [Config.streamBound] at hwf
  refine ⟨?_, hlt⟩
  rw [BitVec.toNat_add]
  simp
  omega

/-! ### Streams -/

/-- `src_byte()`: after a byte, IPOS is one higher. -/
theorem srcByte_keeps {s : State} (h : Good s) :
    (srcByte s).Keeps (fun r t => Onward s t ∧ t.rcnt = s.rcnt ∧ t.bitsDone = s.bitsDone ∧
      (∀ v, r = some v → t.ipos.toNat = s.ipos.toNat + 1 ∧ s.ipos.toNat < s.mem.src.length)) Sound := by
  obtain ⟨ds, n, s', hs', hc⟩ := srcByte_cases s
  have hraise : Sound s' := by rw [hs']; exact h.sound.aside s.res s.eos ds n
  rcases hc with ⟨-, hc⟩ | ⟨v, hv, hc⟩ | hc | hc
  · rw [hc, hs']
    exact .ok ⟨Onward.aside h s.res true ds n, rfl, rfl, fun v hv => by cases hv⟩
  · rw [hc, hs']
    obtain ⟨h1, h2⟩ := ipos_succ h.sound.stream.wf hv
    have hS := h.sound.stream
    refine .ok ⟨⟨⟨⟨h.sound.tree, h.sound.table, h.sound.writer, ⟨hS.wf, fun _ => ?_, hS.opos, hS.flag, hS.closed,
      hS.rcnt⟩, h.sound.count⟩, h.noFault, h.size⟩, rfl, rfl, rfl, ?_, rfl⟩, rfl, rfl, fun w _ => ⟨h1, h2⟩⟩
    · exact h1 ▸ h2
    · exact h1 ▸ Nat.le_succ _
  · rw [hc]; exact .raise hraise
  · rw [hc]; exact .reset hraise

/-- Appending one byte to an open sink. -/
theorem append_sound {s : State} (h : Sound s) (hw : s.wopen = true) (hp : s.opos ≠ lastPos) (v : Byte)
    (ds : List EnvAnswer) (n : Nat) :
    Sound { s with draws := ds, freeDraws := n, mem := s.mem.append v, opos := s.opos + 1 } := by
  have hS := h.stream
  have hlen := hS.opos hw
  have hlt : s.opos.toNat < 2 ^ 32 - 1 := by
    have := s.opos.isLt
    have hne : s.opos.toNat ≠ 2 ^ 32 - 1 := fun he => hp (BitVec.eq_of_toNat_eq he)
    omega
  have hsucc : (s.opos + 1).toNat = s.opos.toNat + 1 := by rw [BitVec.toNat_add]; simp; omega
  refine ⟨h.tree, h.table, h.writer, ⟨Memory.append_wf v hS.wf ?_, hS.ipos, fun _ => ?_, hS.flag, hS.closed,
    hS.rcnt⟩, h.count⟩
  · simp only [Config.streamBound]; omega
  · simp only [Memory.append_snk, List.length_append, List.length_singleton]
    rw [hsucc, hlen]

/-- `snk_byte(v)` on an open sink. -/
theorem snkByte_keeps (v : Byte) {s : State} (h : Good s) (hw : s.wopen = true) :
    (snkByte v s).Keeps (fun _ t => Onward s t ∧ t.ipos = s.ipos ∧ t.outcnt = s.outcnt ∧
      t.bitsDone = s.bitsDone ∧ t.root = s.root ∧ t.cur = s.cur) Sound := by
  rcases snkByte_cases v s with ⟨-, hc⟩ | ⟨hp, ds, n, s', hs', hc⟩
  · rw [hc]; exact .raise h.sound
  · have hraise : Sound s' := by rw [hs']; exact h.sound.aside s.res s.eos ds n
    rcases hc with hc | hc | hc
    · rw [hc, hs']
      exact .ok ⟨⟨⟨append_sound h.sound hw hp v ds n, h.noFault, h.size⟩, rfl, rfl, rfl, Nat.le_refl _, rfl⟩, rfl, rfl,
        rfl, rfl, rfl⟩
    · rw [hc]; exact .raise hraise
    · rw [hc]; exact .reset hraise

/-- Delivering a buffered bit. -/
theorem takeBit_keeps {s : State} (h : Good s) (hr : s.rcnt ≠ 0) :
    (takeBit s).Keeps (fun _ t => Onward s t ∧ t.bitsDone = s.bitsDone) Sound := by
  have hS := h.sound.stream
  refine .ok ⟨⟨⟨⟨h.sound.tree, h.sound.table, h.sound.writer, ⟨hS.wf, hS.ipos, hS.opos, hS.flag, hS.closed, ?_⟩,
    h.sound.count⟩, h.noFault, h.size⟩, rfl, rfl, rfl, Nat.le_refl _, rfl⟩, rfl⟩
  have h1 := hS.rcnt
  have h2 : s.rcnt.toNat ≠ 0 := fun he => hr (BitVec.eq_of_toNat_eq he)
  have h3 := s.rcnt.isLt
  show (s.rcnt - 1).toNat ≤ 8
  rw [BitVec.toNat_sub]
  simp
  omega

/-- `read_bit()`. -/
theorem readBit_keeps {s : State} (h : Good s) :
    (readBit s).Keeps (fun _ t => Onward s t ∧ t.bitsDone = s.bitsDone) Sound := by
  unfold readBit
  split
  · refine (srcByte_keeps h).bind fun r t ⟨ht, _, hb, _⟩ => ?_
    cases r with
    | none => exact .ok ⟨ht, hb⟩
    | some v =>
      have hS := ht.good.sound.stream
      have hg : Good { t with rbuf := v, rcnt := 8 } :=
        ⟨⟨ht.good.sound.tree, ht.good.sound.table, ht.good.sound.writer,
          ⟨hS.wf, hS.ipos, hS.opos, hS.flag, hS.closed, fullReader.1⟩, ht.good.sound.count⟩, ht.good.noFault,
          ht.good.size⟩
      refine (takeBit_keeps hg fullReader.2).mono (fun _ u hu => ?_) fun _ hq => hq
      exact ⟨ht.trans ⟨hu.1.good, hu.1.ropen, hu.1.wopen, hu.1.src, hu.1.ipos, hu.1.nodes⟩, hu.2.trans hb⟩
  · exact takeBit_keeps h ‹_›

/-- `read_exact(n)`. -/
theorem readBytes_keeps (n k : Nat) (acc : BitVec 32) {s : State} (h : Good s) :
    (readBytes n k acc s).Keeps (fun _ t => Onward s t) Sound := by
  induction n generalizing k acc s with
  | zero => exact .ok (Onward.refl h)
  | succ n ih =>
    refine (srcByte_keeps h).bind fun r t ⟨ht, _, _, _⟩ => ?_
    cases r with
    | none => exact .raise ht.good.sound
    | some v => exact (ih (k + 1) (putByte acc v k) ht.good).mono (fun _ u hu => ht.trans hu) fun _ hq => hq

theorem readExact_keeps (n : Nat) {s : State} (h : Good s) :
    (readExact n s).Keeps (fun _ t => Onward s t) Sound := readBytes_keeps n 0 0 h

/-- `write_bit(b)` on an open sink. -/
theorem writeBit_keeps (b : Bool) {s : State} (h : Good s) (hw : s.wopen = true) :
    (writeBit b s).Keeps (fun _ t => Onward s t ∧ t.ipos = s.ipos) Sound := by
  have hS := h.sound.stream
  obtain ⟨hk, hacc⟩ := h.sound.writer
  unfold writeBit
  simp only
  split
  · have hg : Good { s with wacc := 0, wcnt := 0 } :=
      ⟨⟨h.sound.tree, h.sound.table, emptyBuffer,
        ⟨hS.wf, hS.ipos, hS.opos, hS.flag, fun _ => rfl, hS.rcnt⟩, h.sound.count⟩, h.noFault, h.size⟩
    refine (snkByte_keeps _ hg hw).mono (fun _ u hu => ?_) fun _ hq => hq
    exact ⟨⟨hu.1.good, hu.1.ropen, hu.1.wopen, hu.1.src, hu.1.ipos, hu.1.nodes⟩, hu.2.1⟩
  · rename_i hne
    have hlt : s.wcnt.toNat ≠ 7 := by
      intro he
      refine hne ?_
      have : s.wcnt = 7 := BitVec.eq_of_toNat_eq he
      rw [this]; decide
    have hsucc : (s.wcnt + 1).toNat = s.wcnt.toNat + 1 := by rw [BitVec.toNat_add]; simp; omega
    refine .ok ⟨⟨⟨⟨h.sound.tree, h.sound.table, ⟨?_, ?_⟩, ⟨hS.wf, hS.ipos, hS.opos, hS.flag, fun hc => ?_, hS.rcnt⟩,
      h.sound.count⟩, h.noFault, h.size⟩, rfl, rfl, rfl, Nat.le_refl _, rfl⟩, rfl⟩
    · show (s.wcnt + 1).toNat ≤ 7
      omega
    · show (putBit s.wacc b s.wcnt).toNat < 2 ^ (s.wcnt + 1).toNat
      rw [hsucc]; exact putBit_small hacc
    · rw [hw] at hc; cases hc

theorem writeBits_keeps (bs : List Bool) {s : State} (h : Good s) (hw : s.wopen = true) :
    (writeBits bs s).Keeps (fun _ t => Onward s t ∧ t.ipos = s.ipos) Sound := by
  induction bs generalizing s with
  | nil => exact .ok ⟨Onward.refl h, rfl⟩
  | cons b bs ih =>
    refine (writeBit_keeps b h hw).bind fun _ t ⟨ht, hi⟩ => ?_
    refine (ih ht.good (ht.wopen.trans hw)).mono (fun _ u hu => ?_) fun _ hq => hq
    exact ⟨ht.trans hu.1, hu.2.trans hi⟩

theorem writeBytes_keeps (vs : List Byte) {s : State} (h : Good s) (hw : s.wopen = true) :
    (writeBytes vs s).Keeps (fun _ t => Onward s t) Sound := by
  induction vs generalizing s with
  | nil => exact .ok (Onward.refl h)
  | cons v vs ih =>
    refine (snkByte_keeps v h hw).bind fun _ t ⟨ht, _⟩ => ?_
    exact (ih ht.good (ht.wopen.trans hw)).mono (fun _ u hu => ht.trans hu) fun _ hq => hq

/-! ### The reader's and the writer's commands -/

theorem openReader_keeps {s : State} (h : Good s) :
    (openReader s).Keeps (fun _ t => Good t ∧ t.ropen = true ∧ t.wopen = s.wopen ∧ t.nodes = s.nodes) Sound := by
  have hS := h.sound.stream
  exact .ok ⟨⟨⟨h.sound.tree, h.sound.table, h.sound.writer,
    ⟨hS.wf, fun _ => Nat.zero_le _, hS.opos, hS.flag, hS.closed, emptyReader⟩, h.sound.count⟩, h.noFault, h.size⟩,
    rfl, rfl, rfl⟩

theorem closeReader_keeps {s : State} (h : Good s) :
    (closeReader s).Keeps (fun _ t => Good t ∧ t.ropen = false ∧ t.wopen = s.wopen) Sound := by
  have hS := h.sound.stream
  exact .ok ⟨⟨⟨h.sound.tree, h.sound.table, h.sound.writer,
    ⟨hS.wf, (by intro hr; cases hr), hS.opos, hS.flag, hS.closed, emptyReader⟩, h.sound.count⟩, h.noFault, h.size⟩,
    rfl, rfl⟩

theorem rdBit_keeps {s : State} (h : Good s) : (rdBit s).Keeps (fun _ t => Good t) Sound := by
  refine (readBit_keeps h).bind fun r t ⟨ht, _⟩ => ?_
  cases r <;> exact .ok (ht.good.aside _ t.eos t.draws t.freeDraws)

theorem rdByte_keeps {s : State} (h : Good s) : (rdByte s).Keeps (fun _ t => Good t) Sound := by
  refine (srcByte_keeps h).bind fun r t ⟨ht, _⟩ => ?_
  cases r <;> exact .ok (ht.good.aside _ t.eos t.draws t.freeDraws)

theorem rdExact_keeps (n : Nat) {s : State} (h : Good s) : (rdExact n s).Keeps (fun _ t => Good t) Sound := by
  refine (readExact_keeps n (h.aside 0 s.eos s.draws s.freeDraws)).bind fun v t ht => ?_
  exact .ok (ht.good.aside _ t.eos t.draws t.freeDraws)

theorem openWriter_keeps {s : State} (h : Good s) :
    (openWriter s).Keeps (fun _ t => Good t ∧ t.wopen = true ∧ t.ropen = s.ropen) Sound := by
  have hS := h.sound.stream
  exact .ok ⟨⟨⟨h.sound.tree, h.sound.table, emptyBuffer,
    ⟨Memory.openSink_wf hS.wf, hS.ipos, fun _ => rfl, rfl, fun _ => rfl, hS.rcnt⟩, h.sound.count⟩, h.noFault,
    h.size⟩, rfl, rfl⟩

theorem shutWriter_keeps {s : State} (h : Good s) (hw : s.wcnt = 0) :
    (shutWriter s).Keeps (fun _ t => Good t) Sound := by
  have hS := h.sound.stream
  exact .ok ⟨⟨h.sound.tree, h.sound.table, h.sound.writer,
    ⟨Memory.closeSink_wf hS.wf, hS.ipos, (by intro hc; cases hc), rfl, fun _ => hw, hS.rcnt⟩, h.sound.count⟩, h.noFault,
    h.size⟩

theorem closeWriter_keeps {s : State} (h : Good s) (hw : s.wopen = true) :
    (closeWriter s).Keeps (fun _ t => Good t) Sound := by
  have hS := h.sound.stream
  unfold closeWriter
  split
  · have hg : Good { s with wacc := 0, wcnt := 0 } :=
      ⟨⟨h.sound.tree, h.sound.table, emptyBuffer,
        ⟨hS.wf, hS.ipos, hS.opos, hS.flag, fun _ => rfl, hS.rcnt⟩, h.sound.count⟩, h.noFault, h.size⟩
    rcases snkByte_cases s.wacc { s with wacc := 0, wcnt := 0 } with ⟨-, hc⟩ | ⟨hp, ds, n, s', hs', hc⟩
    · rw [hc]; exact .raise hg.sound
    · have hraise : Sound s' := by rw [hs']; exact hg.sound.aside s.res s.eos ds n
      rcases hc with hc | hc | hc
      · rw [hc, hs']
        exact shutWriter_keeps ⟨append_sound hg.sound hw hp s.wacc ds n, h.noFault, h.size⟩ rfl
      · rw [hc]; exact .raise hraise
      · rw [hc]; exact .reset hraise
  · rename_i hz
    exact shutWriter_keeps h (not_not.1 hz)

theorem writeSymbol_keeps (c : Symbol) {s : State} (h : Good s) (hw : s.wopen = true) :
    (writeSymbol c s).Keeps (fun _ t => Onward s t ∧ t.ipos = s.ipos) Sound := writeBits_keeps _ h hw

/-! ### Frequencies -/

theorem setFreq_good {s : State} (h : Good s) (c : Symbol) (v : BitVec 32) : Good (s.setFreq c v) := by
  have hS := h.sound.stream
  exact ⟨⟨h.sound.tree, h.sound.table, h.sound.writer,
    ⟨hS.wf, hS.ipos, hS.opos, hS.flag, hS.closed, hS.rcnt⟩, h.sound.count⟩, h.noFault, h.size⟩

theorem clearFreq_keeps {s : State} (h : Good s) :
    (clearFreq s).Keeps (fun _ t => Onward s t) Sound := by
  have hS := h.sound.stream
  exact .ok ⟨⟨⟨h.sound.tree, h.sound.table, h.sound.writer,
    ⟨hS.wf, hS.ipos, hS.opos, hS.flag, hS.closed, hS.rcnt⟩, h.sound.count⟩, h.noFault, h.size⟩,
    rfl, rfl, rfl, Nat.le_refl _, rfl⟩

theorem freqInc_keeps (c : Symbol) {s : State} (h : Good s) :
    (freqInc c s).Keeps (fun _ t => Onward s t ∧ t.ipos = s.ipos) Sound := by
  unfold freqInc
  split
  · exact .raise h.sound
  · exact .ok ⟨⟨setFreq_good h c _, rfl, rfl, rfl, Nat.le_refl _, rfl⟩, rfl⟩

/-- A pass over SRC ends within its bound (R286). -/
theorem scanSource_keeps {perByte : Byte → State → Res Unit} (X : State → Prop)
    (hX : ∀ s t, X s → t.wopen = s.wopen → X t)
    (hper : ∀ v s, Good s → X s → (perByte v s).Keeps (fun _ t => Onward s t ∧ t.ipos = s.ipos) Sound)
    (fuel : Nat) {s : State} (h : Good s) (hx : X s) (hfuel : s.mem.src.length - s.ipos.toNat + 1 ≤ fuel) :
    (scanSource perByte fuel s).Keeps (fun _ t => Onward s t) Sound := by
  induction fuel generalizing s with
  | zero => omega
  | succ fuel ih =>
    refine (srcByte_keeps h).bind fun r t ⟨ht, _, _, hr⟩ => ?_
    cases r with
    | none =>
      exact .ok (ht.trans (Onward.aside ht.good 0 t.eos t.draws t.freeDraws))
    | some v =>
      obtain ⟨hi, hlt⟩ := hr v rfl
      refine (hper v t ht.good (hX s t hx ht.wopen)).bind fun _ u ⟨hu, hui⟩ => ?_
      refine (ih hu.good (hX t u (hX s t hx ht.wopen) hu.wopen) ?_).mono (fun _ w hw => (ht.trans hu).trans hw)
        fun _ hq => hq
      rw [hui, hu.src, ht.src, hi]
      omega

theorem scanFreq_keeps {s : State} (h : Good s) : (scanFreq s).Keeps (fun _ t => Onward s t) Sound :=
  scanSource_keeps (fun _ => True) (fun _ _ _ _ => trivial) (fun v _ hs _ => freqInc_keeps v hs) _ h trivial
    (Nat.le_refl _)

theorem encPayload_keeps {s : State} (h : Good s) (hw : s.wopen = true) :
    (encPayload s).Keeps (fun _ t => Onward s t) Sound :=
  scanSource_keeps (fun s => s.wopen = true) (fun _ _ hs ht => ht.trans hs)
    (fun v _ hs hw => writeSymbol_keeps v hs hw) _ h hw (Nat.le_refl _)

/-! ### The tree and the table -/

/-- A new tree with CUR at a node of it. -/
theorem retree_good {s : State} (h : Good s) {ns : List Node} {root cur : NodeIdx} (ht : TreeShape ns root cur) :
    Good { s with nodes := ns, root := root, cur := cur } := by
  have hS := h.sound.stream
  exact ⟨⟨ht, h.sound.table, h.sound.writer,
    ⟨hS.wf, hS.ipos, hS.opos, hS.flag, hS.closed, hS.rcnt⟩, h.sound.count⟩, h.noFault, h.size⟩

theorem treeBuild_eq (s : State) : treeBuild s = .ok () { s with
    nodes := (buildTree (freqLeaves s)).1
    root := idx (buildTree (freqLeaves s)).2
    cur := idx (buildTree (freqLeaves s)).2 } := rfl

theorem treeBuild_keeps {s : State} (h : Good s) :
    (treeBuild s).Keeps (fun _ t => Good t ∧ t.ropen = s.ropen ∧ t.wopen = s.wopen) Sound :=
  .ok ⟨retree_good h (treeBuild_shape s), rfl, rfl⟩

theorem treeClear_keeps {s : State} (h : Good s) :
    (treeClear s).Keeps (fun _ t => Good t ∧ t.ropen = s.ropen ∧ t.wopen = s.wopen ∧ t.nodes.length = 1) Sound :=
  .ok ⟨retree_good h emptyTree_shape, rfl, rfl, rfl⟩

/-- `tree_insert` with room for 32 nodes: at most 32 more. -/
theorem treeInsert_keeps (c : Symbol) (code : BitVec 32) (n : Nat) {s : State} (h : Good s)
    (hcap : s.nodes.length + 32 ≤ Config.nodeCap) :
    (treeInsert c code n s).Keeps (fun _ t => Good t ∧ t.ropen = s.ropen ∧ t.wopen = s.wopen ∧
      t.nodes.length ≤ s.nodes.length + 32) Sound := by
  rcases treeInsert_cases c code n h.sound.tree hcap with ⟨-, hc⟩ | hc | ⟨ns', hc, hs, hl, -, hn⟩
  · rw [hc]; exact .raise h.sound
  · rw [hc]; exact .raise h.sound
  · rw [hc]
    exact .ok ⟨retree_good h hs, rfl, rfl, by simp only; omega⟩

theorem trInsert_keeps (c : Symbol) (n : Nat) (code : BitVec 32) {s : State} (h : Good s) :
    (trInsert c n code s).Keeps (fun _ t => Good t) Sound := by
  unfold trInsert
  split
  · exact .raise h.sound
  · exact (treeInsert_keeps c code n h (by omega)).mono (fun _ t ht => ht.1) fun _ hq => hq

theorem treeLen_keeps {s : State} (h : Good s) : (treeLen s).Keeps (fun _ t => Good t) Sound := by
  obtain ⟨ls, hl⟩ := treeLeaves_ok h.sound.tree
  have hS := h.sound.stream
  unfold treeLen
  rw [hl]
  exact .ok ⟨⟨h.sound.tree, h.sound.table, h.sound.writer,
    ⟨hS.wf, hS.ipos, hS.opos, hS.flag, hS.closed, hS.rcnt⟩, h.sound.count⟩, h.noFault, h.size⟩

theorem setEntry_good {s : State} (h : Good s) (c : Symbol) (v : BitVec 32) (n : BitVec 8) (hn : n.toNat ≤ 32)
    (hv : v.toNat < 2 ^ n.toNat) : Good (s.setEntry c v n) := by
  have hS := h.sound.stream
  refine ⟨⟨h.sound.tree, fun d => ?_, h.sound.writer,
    ⟨hS.wf, hS.ipos, hS.opos, hS.flag, hS.closed, hS.rcnt⟩, h.sound.count⟩, h.noFault, h.size⟩
  by_cases hd : d = c
  · subst hd; simp [hn, hv]
  · rw [State.getLen_setEntry_ne _ _ _ hd, State.getCode_setEntry_ne _ _ _ hd]
    exact h.sound.table d

theorem clearTable_good {s : State} (h : Good s) : Good (clearTable s) := by
  have hS := h.sound.stream
  exact ⟨⟨h.sound.tree, fun d => by simp, h.sound.writer,
    ⟨hS.wf, hS.ipos, hS.opos, hS.flag, hS.closed, hS.rcnt⟩, h.sound.count⟩, h.noFault, h.size⟩

/-- No leaf is deeper than the deepest. -/
theorem le_maxDepth {ls : List LeafAt} {l : LeafAt} (h : l ∈ ls) : l.depth ≤ maxDepth ls := by
  induction ls with
  | nil => cases h
  | cons a ls ih =>
    simp only [maxDepth, List.map_cons, List.foldr_cons]
    rcases List.mem_cons.1 h with rfl | h
    · exact Nat.le_max_left _ _
    · exact Nat.le_trans (ih h) (Nat.le_max_right _ _)

theorem recordLeaves_good (ls : List LeafAt) {s : State} (h : Good s)
    (hl : ∀ l ∈ ls, l.depth ≤ 32 ∧ l.code < 2 ^ l.depth) :
    Good (recordLeaves ls s) ∧ (recordLeaves ls s).ropen = s.ropen ∧ (recordLeaves ls s).wopen = s.wopen := by
  induction ls generalizing s with
  | nil => exact ⟨h, rfl, rfl⟩
  | cons l ls ih =>
    obtain ⟨h1, h2⟩ := hl l (by simp)
    have hd : (BitVec.ofNat 8 l.depth).toNat = l.depth := by
      rw [BitVec.toNat_ofNat, Nat.mod_eq_of_lt (by omega)]
    have hc : (BitVec.ofNat 32 l.code).toNat = l.code := by
      rw [BitVec.toNat_ofNat, Nat.mod_eq_of_lt]
      exact Nat.lt_of_lt_of_le h2 (Nat.pow_le_pow_right (by decide) h1)
    have hg := setEntry_good h l.sym (BitVec.ofNat 32 l.code) (BitVec.ofNat 8 l.depth) (by omega)
      (by rw [hc, hd]; exact h2)
    obtain ⟨g, hr, hw⟩ := ih hg fun m hm => hl m (by simp [hm])
    exact ⟨g, hr, hw⟩

theorem tableBuild_keeps {s : State} (h : Good s) :
    (tableBuild s).Keeps (fun _ t => Good t ∧ t.ropen = s.ropen ∧ t.wopen = s.wopen) Sound := by
  obtain ⟨ls, hl⟩ := treeLeaves_ok h.sound.tree
  unfold tableBuild
  rw [hl]
  simp only
  split
  · exact .raise (clearTable_good h).sound
  · rename_i hd
    refine .ok (recordLeaves_good ls (clearTable_good h) fun l hm => ?_)
    obtain ⟨bits, q, -, -, hc, hdep⟩ := (mem_treeLeaves hl l).1 hm
    refine ⟨Nat.le_trans (le_maxDepth hm) (by simpa [Config.maxCodeLen] using hd), ?_⟩
    rw [hc, hdep]
    exact pathCode_lt bits

/-! ### The archiver -/

/-- The size registers, the table size in range. -/
theorem sized_good {s : State} (h : Good s) (a b c : BitVec 32) (hb : b.toNat ≤ 256) :
    Good { s with codeLen := a, tableSize := b, hdrBytes := c } := by
  have hS := h.sound.stream
  exact ⟨⟨h.sound.tree, h.sound.table, h.sound.writer,
    ⟨hS.wf, hS.ipos, hS.opos, hS.flag, hS.closed, hS.rcnt⟩, h.sound.count⟩, h.noFault, hb⟩

theorem encHeader_keeps {s : State} (h : Good s) (hw : s.wopen = true) :
    (encHeader s).Keeps (fun _ t => Good t ∧ t.ropen = s.ropen ∧ t.wopen = s.wopen) Sound := by
  have hsize : (presentSymbols s).length ≤ 256 := by
    have := List.length_filter_le (fun c => s.getLen c != 0) symbols
    rw [symbols_length] at this
    exact this
  have hts : (BitVec.ofNat 32 (presentSymbols s).length).toNat ≤ 256 := by
    rw [BitVec.toNat_ofNat, Nat.mod_eq_of_lt (by omega)]
    exact hsize
  unfold encHeader
  apply Res.Keeps.ite
  · intro _
    exact .raise h.sound
  intro _
  have hg := sized_good h (BitVec.ofNat 32 (payloadBits s)) _
    (headerByteCount (BitVec.ofNat 32 (presentSymbols s).length)) hts
  exact (writeBytes_keeps _ hg hw).mono (fun _ t ht => ⟨ht.good, ht.ropen, ht.wopen⟩) fun _ hq => hq

theorem report_keeps (orig : BitVec 32) {s : State} (h : Good s) :
    (report orig s).Keeps (fun _ t => Good t) Sound := by
  have hS := h.sound.stream
  exact .ok ⟨⟨h.sound.tree, h.sound.table, h.sound.writer,
    ⟨hS.wf, hS.ipos, hS.opos, hS.flag, hS.closed, hS.rcnt⟩, h.sound.count⟩, h.noFault, h.size⟩

/-- The steps of ENCODE, whatever keeps the invariants in the place of ENC_HEADER. -/
theorem encodeWith_keeps {header : State → Res Unit}
    (hh : ∀ s, Good s → s.wopen = true →
      (header s).Keeps (fun _ t => Good t ∧ t.ropen = s.ropen ∧ t.wopen = s.wopen) Sound) {s : State} (h : Good s) :
    ((openReader s).bind fun _ s =>
      (clearFreq s).bind fun _ s =>
      (scanFreq s).bind fun _ s =>
      (closeReader s).bind fun _ s =>
      (treeBuild s).bind fun _ s =>
      (tableBuild s).bind fun _ s =>
      (openWriter s).bind fun _ s =>
      (header s).bind fun _ s =>
      (openReader s).bind fun _ s =>
      (encPayload s).bind fun _ s =>
      (closeReader s).bind fun _ s =>
      (closeWriter s).bind fun _ s =>
      report (BitVec.ofNat 32 (totalFreq s)) s).Keeps (fun _ t => Good t) Sound := by
  refine (openReader_keeps h).bind fun _ s1 ⟨h1, _, _, _⟩ => ?_
  refine (clearFreq_keeps h1).bind fun _ s2 h2 => ?_
  refine (scanFreq_keeps h2.good).bind fun _ s3 h3 => ?_
  refine (closeReader_keeps h3.good).bind fun _ s4 ⟨h4, _, _⟩ => ?_
  refine (treeBuild_keeps h4).bind fun _ s5 ⟨h5, _, _⟩ => ?_
  refine (tableBuild_keeps h5).bind fun _ s6 ⟨h6, _, _⟩ => ?_
  refine (openWriter_keeps h6).bind fun _ s7 ⟨h7, w7, _⟩ => ?_
  refine (hh s7 h7 w7).bind fun _ s8 ⟨h8, _, w8⟩ => ?_
  refine (openReader_keeps h8).bind fun _ s9 ⟨h9, _, w9, _⟩ => ?_
  refine (encPayload_keeps h9 (w9.trans (w8.trans w7))).bind fun _ s10 h10 => ?_
  refine (closeReader_keeps h10.good).bind fun _ s11 ⟨h11, _, w11⟩ => ?_
  refine (closeWriter_keeps h11 (w11.trans (h10.wopen.trans (w9.trans (w8.trans w7))))).bind fun _ s12 h12 => ?_
  exact report_keeps _ h12

theorem encodeFile_keeps {s : State} (h : Good s) : (encodeFile s).Keeps (fun _ t => Good t) Sound :=
  encodeWith_keeps (fun _ => encHeader_keeps) h

/-- The table loop of DEC_HEADER has room for its entries (R168: "each insertion creates at most 32 nodes"). -/
theorem readEntries_keeps (k : Nat) {s : State} (h : Good s) (hcap : s.nodes.length + 32 * k ≤ Config.nodeCap) :
    (readEntries k s).Keeps (fun _ t => Good t ∧ t.ropen = s.ropen ∧ t.wopen = s.wopen) Sound := by
  induction k generalizing s with
  | zero => exact .ok ⟨h, rfl, rfl⟩
  | succ k ih =>
    refine (readExact_keeps 4 h).bind fun c s1 h1 => ?_
    refine (readExact_keeps 1 h1.good).bind fun n s2 h2 => ?_
    refine (readExact_keeps 1 h2.good).bind fun x s3 h3 => ?_
    have hn : s3.nodes = s.nodes := h3.nodes.trans (h2.nodes.trans h1.nodes)
    refine (treeInsert_keeps (lowByte x) c n.toNat h3.good (by rw [hn]; omega)).bind fun _ s4 ⟨h4, r4, w4, l4⟩ => ?_
    refine (ih h4 (by rw [hn] at l4; omega)).mono (fun _ t ⟨ht, hr, hw⟩ => ?_) fun _ hq => hq
    have o := h1.trans (h2.trans h3)
    exact ⟨ht, hr.trans (r4.trans o.ropen), hw.trans (w4.trans o.wopen)⟩

theorem decHeader_keeps {s : State} (h : Good s) :
    (decHeader s).Keeps (fun _ t => Good t ∧ t.ropen = s.ropen ∧ t.wopen = s.wopen) Sound := by
  refine (treeClear_keeps h).bind fun _ s1 ⟨h1, r1, w1, n1⟩ => ?_
  have hS1 := h1.sound.stream
  have g1 : Good { s1 with bitsDone := 0, outcnt := 0 } :=
    ⟨⟨h1.sound.tree, h1.sound.table, h1.sound.writer,
      ⟨hS1.wf, hS1.ipos, hS1.opos, hS1.flag, hS1.closed, hS1.rcnt⟩, Nat.le_refl _⟩, h1.noFault, h1.size⟩
  refine (readExact_keeps 4 g1).bind fun v s2 h2 => ?_
  have hS2 := h2.good.sound.stream
  have g2 : Good { s2 with codeLen := v } :=
    ⟨⟨h2.good.sound.tree, h2.good.sound.table, h2.good.sound.writer,
      ⟨hS2.wf, hS2.ipos, hS2.opos, hS2.flag, hS2.closed, hS2.rcnt⟩, h2.good.sound.count⟩, h2.good.noFault,
      h2.good.size⟩
  refine (readExact_keeps 4 g2).bind fun v s3 h3 => ?_
  have hS3 := h3.good.sound.stream
  have g3 : Sound { s3 with tableSize := v } :=
    ⟨h3.good.sound.tree, h3.good.sound.table, h3.good.sound.writer,
      ⟨hS3.wf, hS3.ipos, hS3.opos, hS3.flag, hS3.closed, hS3.rcnt⟩, h3.good.sound.count⟩
  simp only
  split
  · exact .raise g3
  · rename_i hv
    have hv' : v.toNat ≤ 256 := by simpa [Config.maxTableSize] using hv
    refine (readEntries_keeps v.toNat (s := { s3 with tableSize := v }) ⟨g3, h3.good.noFault, hv'⟩ ?_).mono
      (fun _ t ⟨ht, hr, hw⟩ => ⟨ht, ?_, ?_⟩) fun _ hq => hq
    · have hn : s3.nodes = s1.nodes := h3.nodes.trans h2.nodes
      show s3.nodes.length + 32 * v.toNat ≤ 8193
      rw [hn, n1]; omega
    · exact hr.trans (h3.ropen.trans (h2.ropen.trans r1))
    · exact hw.trans (h3.wopen.trans (h2.wopen.trans w1))

/-- `walk_bit(b)`, with a bit already counted. -/
theorem walkBit_keeps (b : Bool) {s : State} (h : Good s) (hw : s.wopen = true)
    (hc : s.outcnt.toNat < s.bitsDone.toNat) :
    (walkBit b s).Keeps (fun _ t => Good t ∧ t.ropen = s.ropen ∧ t.wopen = s.wopen) Sound := by
  have hT := h.sound.tree
  have hS := h.sound.stream
  obtain ⟨l, r, f, hn⟩ := hT.curInner
  unfold walkBit
  rw [hn]
  simp only
  cases hq : (Node.inner l r f).child b with
  | none => exact .raise h.sound
  | some q =>
    have hlt : q.toNat < s.nodes.length := hT.links _ _ _ ⟨_, hn, hq⟩
    have hget : s.nodes[q.toNat]? = some s.nodes[q.toNat] := List.getElem?_eq_getElem hlt
    simp only
    rw [hget]
    cases hnode : s.nodes[q.toNat] with
    | leaf c g =>
      refine (snkByte_keeps c h hw).bind fun _ t ⟨ht, _, ho, hb, hroot, hcur⟩ => ?_
      have hS' := ht.good.sound.stream
      have hT' := ht.good.sound.tree
      have hsucc : (t.outcnt + 1).toNat = t.outcnt.toNat + 1 := by
        have h1 := s.bitsDone.isLt
        rw [BitVec.toNat_add, ho]; simp; omega
      refine .ok ⟨⟨⟨⟨hT'.size, hT'.rootInner, hT'.rootInner, hT'.links, hT'.oneParent, hT'.rootFree, hT'.reach,
        hT'.grown⟩, ht.good.sound.table, ht.good.sound.writer,
        ⟨hS'.wf, hS'.ipos, hS'.opos, hS'.flag, hS'.closed, hS'.rcnt⟩, ?_⟩, ht.good.noFault, ht.good.size⟩,
        ht.ropen, ht.wopen⟩
      show (t.outcnt + 1).toNat ≤ t.bitsDone.toNat
      rw [hsucc, ho, hb]; exact hc
    | inner l' r' g =>
      have hin : IsInner s.nodes q := ⟨l', r', g, by rw [hget, hnode]⟩
      exact .ok ⟨⟨⟨⟨hT.size, hT.rootInner, hin, hT.links, hT.oneParent, hT.rootFree, hT.reach, hT.grown⟩,
        h.sound.table, h.sound.writer, ⟨hS.wf, hS.ipos, hS.opos, hS.flag, hS.closed, hS.rcnt⟩, h.sound.count⟩,
        h.noFault, h.size⟩, rfl, rfl⟩

theorem readBit_outcnt {s t : State} {r : Option Bool} (h : readBit s = .ok r t) : t.outcnt = s.outcnt := by
  unfold readBit at h
  split at h
  · obtain ⟨ds, n, s', hs', hc⟩ := srcByte_cases s
    rcases hc with ⟨-, hc⟩ | ⟨v, -, hc⟩ | hc | hc <;> rw [hc] at h
    · cases h; rw [hs']
    · cases h; rw [hs']
    · cases h
    · cases h
  · cases h; rfl

theorem decStep_keeps {s : State} (h : Good s) (hw : s.wopen = true) :
    (decStep s).Keeps (fun _ t => Good t ∧ t.ropen = s.ropen ∧ t.wopen = s.wopen) Sound := by
  unfold decStep
  split
  · exact .ok ⟨h, rfl, rfl⟩
  · rename_i hlt
    have hk := readBit_keeps h
    cases hr : readBit s with
    | stop why t => rw [hr] at hk; cases hk with | raise h => exact .raise h | reset h => exact .reset h
    | ok r t =>
      rw [hr] at hk
      obtain ⟨ht, hb⟩ := hk.of_ok
      have ho := readBit_outcnt hr
      cases r with
      | none => exact .raise ht.good.sound
      | some b =>
        have hS := ht.good.sound.stream
        have hsucc : (t.bitsDone + 1).toNat = s.bitsDone.toNat + 1 := by
          have := s.codeLen.isLt
          rw [BitVec.toNat_add, hb]; simp; omega
        have hcnt := h.sound.count
        have hg : Good { t with bitsDone := t.bitsDone + 1 } :=
          ⟨⟨ht.good.sound.tree, ht.good.sound.table, ht.good.sound.writer,
            ⟨hS.wf, hS.ipos, hS.opos, hS.flag, hS.closed, hS.rcnt⟩, by
              show t.outcnt.toNat ≤ (t.bitsDone + 1).toNat
              rw [hsucc, ho]; omega⟩, ht.good.noFault, ht.good.size⟩
        refine (walkBit_keeps b hg (ht.wopen.trans hw) ?_).mono (fun _ u ⟨hu, r', w'⟩ =>
          ⟨hu, r'.trans ht.ropen, w'.trans ht.wopen⟩) fun _ hq => hq
        show t.outcnt.toNat < (t.bitsDone + 1).toNat
        rw [hsucc, ho]; omega

theorem decSteps_keeps (k : Nat) {s : State} (h : Good s) (hw : s.wopen = true) :
    (decSteps k s).Keeps (fun _ t => Good t ∧ t.ropen = s.ropen ∧ t.wopen = s.wopen) Sound := by
  induction k generalizing s with
  | zero => exact .ok ⟨h, rfl, rfl⟩
  | succ k ih =>
    refine (decStep_keeps h hw).bind fun _ t ⟨ht, r, w⟩ => ?_
    exact (ih ht (w.trans hw)).mono (fun _ u ⟨hu, r', w'⟩ => ⟨hu, r'.trans r, w'.trans w⟩) fun _ hq => hq

theorem decPayload_keeps {s : State} (h : Good s) (hw : s.wopen = true) :
    (decPayload s).Keeps (fun _ t => Good t ∧ t.ropen = s.ropen ∧ t.wopen = s.wopen) Sound :=
  decSteps_keeps _ h hw

theorem decodeFile_keeps {s : State} (h : Good s) : (decodeFile s).Keeps (fun _ t => Good t) Sound := by
  refine (openReader_keeps h).bind fun _ s1 ⟨h1, _, _, _⟩ => ?_
  refine (openWriter_keeps h1).bind fun _ s2 ⟨h2, w2, _⟩ => ?_
  refine (decHeader_keeps h2).bind fun _ s3 ⟨h3, _, w3⟩ => ?_
  refine (decPayload_keeps h3 (w3.trans w2)).bind fun _ s4 ⟨h4, _, w4⟩ => ?_
  refine (closeReader_keeps h4).bind fun _ s5 ⟨h5, _, w5⟩ => ?_
  refine (closeWriter_keeps h5 (w5.trans (w4.trans (w3.trans w2)))).bind fun _ s6 h6 => ?_
  exact report_keeps _ h6

/-! ### Fault entry, reset and the frame of a command -/

/-- A block that is not faulted is good. -/
theorem Inv.good {s : State} (h : Inv s) (hf : s.faulted = false) : Good s := by
  have he : s.err = 0 := by simpa [State.faulted] using hf
  refine ⟨⟨h.tree, h.table, h.writer, h.stream, h.count.1⟩, ?_, h.count.2 he⟩
  rcases h.fault with hz | ⟨⟨c, hc, -⟩, -⟩
  · exact hz
  · rw [he] at hc
    cases c <;> exact absurd hc (by decide)

/-- A good state meets the invariant. -/
theorem Good.inv {s : State} (h : Good s) : Inv s :=
  ⟨h.sound.tree, h.sound.table, h.sound.writer, h.sound.stream, .inl h.noFault, h.sound.count, fun _ => h.size⟩

/-- The answer is no part of the invariant. -/
theorem Inv.answered {s : State} (h : Inv s) (a : Answer) : Inv (s.answered a) :=
  ⟨h.tree, h.table, h.writer, ⟨h.stream.wf, h.stream.ipos, h.stream.opos, h.stream.flag, h.stream.closed,
    h.stream.rcnt⟩, h.fault, h.count⟩

/-- Nor are the environment's inputs. -/
theorem Inv.inputs {s : State} (h : Inv s) (host : List HostAct) (ds : List EnvAnswer) :
    Inv { s with host := host, draws := ds } :=
  ⟨h.tree, h.table, h.writer, ⟨h.stream.wf, h.stream.ipos, h.stream.opos, h.stream.flag, h.stream.closed,
    h.stream.rcnt⟩, h.fault, h.count⟩

/-- The state after reset meets the table and the tree invariants whatever SNK holds (R52). -/
theorem hardwareReset_inv {s : State} (h : s.mem.wf) : Inv (hardwareReset s) := by
  have hlen : ∀ c : Symbol, (hardwareReset s).getLen c = 0 := fun c => by
    simp [hardwareReset, State.getLen, State.reset]
  have hcode : ∀ c : Symbol, (hardwareReset s).getCode c = 0 := fun c => by
    simp [hardwareReset, State.getCode, State.reset]
  refine ⟨emptyTree_shape, fun c => by rw [hlen, hcode]; decide, emptyBuffer,
    ⟨h, (by intro hc; cases hc), (by intro hc; cases hc), rfl, fun _ => rfl, emptyReader⟩, .inl ⟨rfl, rfl, rfl⟩,
    by show 0 ≤ 0; exact Nat.le_refl _, fun _ => by show 0 ≤ 256; omega⟩

/-- The final flush keeps a sound state sound. -/
theorem finalFlush_sound (allowed : Bool) {s : State} (h : Sound s) : Sound (finalFlush allowed s).2 := by
  obtain ⟨ds, n, s', hs', hc⟩ := finalFlush_cases allowed s
  have hs : Sound s' := by rw [hs']; exact h.aside s.res s.eos ds n
  rcases hc with hc | ⟨-, hw, -, hp, hc | hc | hc⟩ <;> rw [hc]
  · exact h
  · rw [hs']; exact append_sound h hw hp s.wacc ds n
  · exact hs
  · exact hs

theorem latch_sound (op : BitVec 8) (c : Cause) {s : State} (h : Sound s) : Sound (latch op c s) :=
  ⟨h.tree, h.table, h.writer, ⟨h.stream.wf, h.stream.ipos, h.stream.opos, h.stream.flag, h.stream.closed,
    h.stream.rcnt⟩, h.count⟩

/-- The flush does not touch the fault registers. -/
theorem finalFlush_err (allowed : Bool) (s : State) :
    (finalFlush allowed s).2.err = s.err ∧ (finalFlush allowed s).2.errinfo = s.errinfo := by
  obtain ⟨ds, n, s', hs', hc⟩ := finalFlush_cases allowed s
  rcases hc with hc | ⟨-, -, -, -, hc | hc | hc⟩ <;> rw [hc] <;> simp [hs']

/-- Releasing both streams of a sound state whose fault is latched. -/
theorem release_inv {s : State} {c : Cause} (h : Sound s) (he : s.err = c.err) (hi : s.errinfo = c.info) :
    Inv (releaseReader (releaseWriter s)) := by
  have hcnt : ∀ P : Prop, s.err = 0 → P := fun P hz => by
    rw [he] at hz; cases c <;> exact absurd hz (by decide)
  have hw : Sound (releaseWriter s) ∧ (releaseWriter s).wopen = false := by
    unfold releaseWriter
    split
    · exact ⟨⟨h.tree, h.table, emptyBuffer, ⟨h.stream.wf, h.stream.ipos, (by intro hc; cases hc), rfl,
        fun _ => rfl, h.stream.rcnt⟩, h.count⟩, rfl⟩
    · exact ⟨h, by simpa using ‹¬ s.wopen = true›⟩
  have hew : (releaseWriter s).err = s.err ∧ (releaseWriter s).errinfo = s.errinfo := by
    unfold releaseWriter; split <;> exact ⟨rfl, rfl⟩
  obtain ⟨hw, hwo⟩ := hw
  generalize releaseWriter s = t at *
  unfold releaseReader
  split
  · exact ⟨hw.tree, hw.table, hw.writer, ⟨hw.stream.wf, (by intro hc; cases hc), hw.stream.opos, hw.stream.flag,
      hw.stream.closed, emptyReader⟩, .inr ⟨⟨c, hew.1.trans he, hew.2.trans hi⟩, rfl, hwo⟩, hw.count,
      fun hz => hcnt _ (hew.1.symm.trans hz)⟩
  · rename_i hr
    exact ⟨hw.tree, hw.table, hw.writer, hw.stream,
      .inr ⟨⟨c, hew.1.trans he, hew.2.trans hi⟩, by simpa using hr, hwo⟩, hw.count,
      fun hz => hcnt _ (hew.1.symm.trans hz)⟩

/-- Fault entry from any sound state (R246). -/
theorem faultEntry_inv (op : BitVec 8) (c : Cause) {s : State} (h : Sound s) : Inv (faultEntry op c s) := by
  have hs := finalFlush_sound (decide (c ≠ .ioSnk)) (latch_sound op c h)
  have he := finalFlush_err (decide (c ≠ .ioSnk)) (latch op c s)
  unfold faultEntry
  rcases hf : finalFlush (decide (c ≠ .ioSnk)) (latch op c s) with ⟨a, t⟩
  rw [hf] at hs he
  cases a
  · exact (release_inv hs he.1 he.2).answered _
  · exact (release_inv hs he.1 he.2).answered _
  · exact hardwareReset_inv hs.stream.wf

theorem Good.inv_rejected {s : State} (h : Inv s) : Inv (rejected s) := h.answered _

/-- A command whose pseudocode keeps the invariants never stops the model and keeps the invariant. -/
theorem command_inv {i : Instr} {ready : State → Bool} {body : State → Res Unit} {s : State} (h : Inv s)
    (hb : Good s → ready s = true → (body s).Keeps (fun _ t => Good t) Sound) :
    ∃ t, command i ready body s = .next t ∧ Inv t := by
  unfold command
  split
  · exact ⟨_, rfl, h.answered _⟩
  · rename_i hf
    have hg := h.good (by simpa using hf)
    split
    · exact ⟨_, rfl, faultEntry_inv _ _ hg.sound⟩
    · split
      · exact ⟨_, rfl, faultEntry_inv _ _ hg.sound⟩
      · rename_i hr
        have hk := hb hg (by simpa using hr)
        match hbody : body s, hk with
        | .ok _ t, .ok hk => exact ⟨_, rfl, hk.inv.answered _⟩
        | .stop (.raise c) t, .raise hk => exact ⟨_, rfl, faultEntry_inv _ _ hk⟩
        | .stop .hwReset t, .reset hk => exact ⟨_, rfl, hardwareReset_inv hk.stream.wf⟩

end Sys2Proof.Machine
end

