-- ==== Sys2Proof/Laws/Leaves.lean ====
section
/-! SUPPORT. The leaves of the code tree as paths: what TR_INSERT adds, the order of the depth-first walk, the leaves of
a tree made by TR_BUILD (42_code_tree.md R165 to R172, 43_table_builder.md R192, R193). -/

namespace Sys2Proof.Machine

/-! ### Leaves as paths -/

/-- A path leads to a LEAF. -/
def HasLeaf (ns : List Node) (root : NodeIdx) (bits : List Bool) (c : Symbol) (f : BitVec 40) : Prop :=
  ∃ q, follow ns root bits = some q ∧ ns[q.toNat]? = some (.leaf c f)

theorem HasLeaf.unique {ns : List Node} {root : NodeIdx} {bits : List Bool} {c d : Symbol} {f g : BitVec 40}
    (h : HasLeaf ns root bits c f) (h' : HasLeaf ns root bits d g) : c = d ∧ f = g := by
  obtain ⟨q, hq, hl⟩ := h
  obtain ⟨q', hq', hl'⟩ := h'
  rw [hq] at hq'
  cases hq'
  rw [hl] at hl'
  cases hl'
  exact ⟨rfl, rfl⟩

theorem leafSymbol_eq_some {s : State} {bits : List Bool} {c : Symbol} :
    leafSymbol s bits = some c ↔ ∃ f, HasLeaf s.nodes s.root bits c f := by
  unfold leafSymbol HasLeaf
  constructor
  · intro h
    split at h
    · cases h
    · rename_i p hp
      split at h
      · rename_i c' f hn
        cases h
        exact ⟨f, p, hp, hn⟩
      · cases h
  · rintro ⟨f, q, hq, hl⟩
    simp [hq, hl]

theorem leafFreq_eq {s : State} {bits : List Bool} {c : Symbol} {f : BitVec 40}
    (h : HasLeaf s.nodes s.root bits c f) : leafFreq s bits = f.toNat := by
  obtain ⟨q, hq, hl⟩ := h
  simp [leafFreq, hq, hl]

theorem leafSymbol_eq {s : State} {bits : List Bool} {c : Symbol} {f : BitVec 40}
    (h : HasLeaf s.nodes s.root bits c f) : leafSymbol s bits = some c := leafSymbol_eq_some.2 ⟨f, h⟩

/-- Nothing lies below a LEAF: the paths to leaves are prefix-free (R104, R193 (4)). -/
theorem HasLeaf.prefix_eq {ns : List Node} {root : NodeIdx} {p q : List Bool} {c d : Symbol} {f g : BitVec 40}
    (h : HasLeaf ns root p c f) (h' : HasLeaf ns root q d g) (hpq : p <+: q) : p = q := by
  obtain ⟨rest, rfl⟩ := hpq
  obtain ⟨n, hn, hl⟩ := h
  obtain ⟨m, hm, -⟩ := h'
  obtain ⟨k, hk, hr⟩ := follow_append.1 hm
  rw [hn] at hk
  cases hk
  cases rest with
  | nil => simp
  | cons b bs => exact absurd hr (follow_stops hl rfl)

/-- Under every INNER node with a child there is a LEAF. -/
theorem TreeShape.leaf_below {ns : List Node} {root cur : NodeIdx} (h : TreeShape ns root cur) (m : Nat)
    {bits : List Bool} {p q : NodeIdx} {b : Bool} (hp : follow ns root bits = some p) (hl : Link ns p.toNat b q)
    (hm : ns.length ≤ bits.length + m) : ∃ ext c f, HasLeaf ns root (bits ++ b :: ext) c f := by
  have hB := h.but (x := fun _ => False)
  induction m generalizing bits p q b with
  | zero => have := hB.path_length hp; omega
  | succ m ih =>
    have hq : follow ns root (bits ++ [b]) = some q := follow_snoc.2 ⟨p, hp, hl⟩
    have hlt := h.links _ _ _ hl
    have hget : ns[q.toNat]? = some ns[q.toNat] := List.getElem?_eq_getElem hlt
    cases hn : ns[q.toNat] with
    | leaf c f => exact ⟨[], c, f, q, hq, by rw [hget, hn]⟩
    | inner l r f =>
      rw [hn] at hget
      have hchild : ∃ b' q', Link ns q.toNat b' q' := by
        cases l with
        | some x => exact ⟨false, x, _, hget, rfl⟩
        | none =>
          cases r with
          | some x => exact ⟨true, x, _, hget, rfl⟩
          | none =>
            have hr := h.grown _ _ hget
            have : q = root := BitVec.eq_of_toNat_eq hr
            subst this
            exact absurd hl (h.rootFree _ _)
      obtain ⟨b', q', hl'⟩ := hchild
      obtain ⟨ext, c, g, he⟩ := ih hq hl' (by simp; omega)
      refine ⟨b' :: ext, c, g, ?_⟩
      simpa using he

/-! ### TR_INSERT -/

/-- The walk stops with TABLE_CONFLICT only at a LEAF on the way (R168 (a)). -/
theorem insertWalk_conflict (bs : List Bool) {s : State} {p : NodeIdx} {pre : List Bool}
    (h : TreeShape s.nodes s.root s.cur) (hpre : follow s.nodes s.root pre = some p)
    (hcap : s.nodes.length + bs.length ≤ Config.nodeCap) {c : Cause} {t : State}
    (hw : insertWalk bs p s = raise c t) :
    ∃ i d f, HasLeaf s.nodes s.root (pre ++ bs.take i) d f := by
  induction bs generalizing p pre with
  | nil => cases hw
  | cons b bs ih =>
    simp only [List.length_cons] at hcap
    have hp := (h.but (x := fun _ => False)).follow_lt hpre
    have hget : s.nodes[p.toNat]? = some s.nodes[p.toNat] := List.getElem?_eq_getElem hp
    unfold insertWalk at hw
    rw [hget] at hw
    cases hn : s.nodes[p.toNat] with
    | leaf d f => exact ⟨0, d, f, p, by simpa using hpre, by rw [hget, hn]⟩
    | inner l r f =>
      rw [hn] at hget hw
      simp only at hw
      cases hc : (Node.inner l r f).child b with
      | some q =>
        rw [hc] at hw
        obtain ⟨i, d, g, hl⟩ := ih (p := q) (pre := pre ++ [b])
          (follow_snoc.2 ⟨p, hpre, _, hget, hc⟩) (by omega) hw
        exact ⟨i + 1, d, g, by simpa using hl⟩
      | none =>
        rw [hc] at hw
        have hidx : (idx s.nodes.length).toNat = s.nodes.length :=
          toNat_idx (by simp [Config.nodeCap] at hcap; omega)
        have hg := (h.but (x := fun _ => False)).grow (b := b) (fun y hy => hy.elim) hget hc (by omega)
        have hnew : (grownNodes s.nodes p (.inner l r f) b)[(idx s.nodes.length).toNat]? =
            some (.inner none none 0) := by
          rw [grownNodes_get hp, hidx, if_neg (by omega), if_pos rfl]; rfl
        have hold : ∀ i b' q, Link s.nodes i b' q → Link (grownNodes s.nodes p (.inner l r f) b) i b' q :=
          fun i b' q hl => (link_grownNodes hget hc i b' q).2 (.inl hl)
        have hpath : follow (grownNodes s.nodes p (.inner l r f) b) s.root (pre ++ [b]) =
            some (idx s.nodes.length) :=
          follow_snoc.2 ⟨p, follow_mono hold hpre, (link_grownNodes hget hc _ _ _).2 (.inr ⟨rfl, rfl, rfl⟩)⟩
        obtain ⟨p', ns', f', hok, -⟩ :=
          insertWalk_fresh bs (s := { s with nodes := grownNodes s.nodes p (.inner l r f) b })
            (p := idx s.nodes.length) (pre := pre ++ [b]) (by rw [hidx]; exact hg) hnew hpath (by simp; omega)
        simp only [addChild_eq] at hw
        rw [hok] at hw
        cases hw

/-- "The new nodes have freq = 0" (R169): those at or above `N`, if they were so before. -/
theorem insertWalk_new (bs : List Bool) (N : Nat) {s t : State} {p p' : NodeIdx}
    (h : ∀ i n, N ≤ i → s.nodes[i]? = some n → n.freq = 0) (hw : insertWalk bs p s = .ok p' t) (i : Nat) (n : Node)
    (hi : N ≤ i) (hn : t.nodes[i]? = some n) : n.freq = 0 := by
  induction bs generalizing s p with
  | nil => cases hw; exact h i n hi hn
  | cons b bs ih =>
    unfold insertWalk at hw
    split at hw
    · cases hw
    · cases hw
    · rename_i m _ hm
      split at hw
      · exact ih h hw
      · refine ih (fun j k hj hk => ?_) hw
        simp only [addChild_eq] at hk
        rw [grownNodes_get (List.getElem?_eq_some_iff.1 hm).1] at hk
        split at hk
        · rename_i hjp
          cases hk
          have := h _ _ (hjp ▸ hj) hm
          cases m with
          | leaf c f => exact this
          | inner l r f => cases b <;> exact this
        · split at hk
          · cases hk; rfl
          · exact h _ _ hj hk

/-- What storing a symbol at a new node does to the leaves: one more, at the end of the new path (R168). -/
theorem store_leaves {ns ns' : List Node} {root cur p : NodeIdx} {f : BitVec 40} {c : Symbol} {bits : List Bool}
    (h : TreeShape ns root cur) (ht : TreeShape (ns'.set p.toNat (.leaf c f)) root cur)
    (hn : ns'[p.toNat]? = some (.inner none none f)) (hf : follow ns' root bits = some p)
    (hlk : ∀ i b q, Link ns i b q → Link ns' i b q)
    (hleaf : ∀ (i : Nat) (d : Symbol) (g : BitVec 40), ns[i]? = some (Node.leaf d g) ↔ ns'[i]? = some (Node.leaf d g))
    (q : List Bool) (d : Symbol) (g : BitVec 40) :
    HasLeaf (ns'.set p.toNat (.leaf c f)) root q d g ↔ (q = bits ∧ d = c ∧ g = f) ∨ HasLeaf ns root q d g := by
  have hp : p.toNat < ns'.length := (List.getElem?_eq_some_iff.1 hn).1
  have hset : ∀ i b x, Link ns' i b x → Link (ns'.set p.toNat (.leaf c f)) i b x := by
    rintro i b x ⟨n, hi, hc⟩
    refine ⟨n, ?_, hc⟩
    rw [List.getElem?_set_ne]
    · exact hi
    · rintro rfl
      rw [hn] at hi
      cases hi
      cases b <;> cases hc
  have hbits : HasLeaf (ns'.set p.toNat (.leaf c f)) root bits c f :=
    ⟨p, follow_mono hset hf, List.getElem?_set_self hp⟩
  have hup : ∀ q d g, HasLeaf ns root q d g → HasLeaf (ns'.set p.toNat (.leaf c f)) root q d g := by
    rintro q d g ⟨x, hx, hl⟩
    have hl' := (hleaf _ _ _).1 hl
    refine ⟨x, follow_mono hset (follow_mono hlk hx), ?_⟩
    rw [List.getElem?_set_ne]
    · exact hl'
    · intro he
      rw [← he, hn] at hl'
      cases hl'
  constructor
  · rintro ⟨x, hx, hl⟩
    by_cases hxp : x = p
    · subst hxp
      have := (ht.but (x := fun _ => False)).path_unique hx (follow_mono hset hf)
      subst this
      obtain ⟨rfl, rfl⟩ := HasLeaf.unique ⟨x, hx, hl⟩ hbits
      exact .inl ⟨rfl, rfl, rfl⟩
    · have hne : p.toNat ≠ x.toNat := fun he => hxp (BitVec.eq_of_toNat_eq he.symm)
      rw [List.getElem?_set_ne hne] at hl
      have hl' := (hleaf _ _ _).2 hl
      obtain ⟨q', hq'⟩ := h.reach x (List.getElem?_eq_some_iff.1 hl').1
      have hq2 := follow_mono hset (follow_mono hlk hq')
      have := (ht.but (x := fun _ => False)).path_unique hx hq2
      subst this
      exact .inr ⟨x, hq', hl'⟩
  · rintro (⟨rfl, rfl, rfl⟩ | h')
    · exact hbits
    · exact hup _ _ _ h'

/-- All that `tree_insert` does on a tree with room and a legal length: a path that is free gets the new LEAF; for one
that is not, TABLE_CONFLICT with nothing changed. "Together (a) and (b) hold exactly when the codes inserted so far plus
this one are prefix-free" (R168). -/
theorem treeInsert_spec (c : Symbol) (code : BitVec 32) (n : Nat) {s : State} (h : TreeInv s)
    (hcap : s.nodes.length + 32 ≤ Config.nodeCap) (h1 : 1 ≤ n) (h32 : n ≤ 32) :
    (PathFree s ((List.range n).map code.getLsbD) ∧
      ∃ ns', treeInsert c code n s = .ok () { s with nodes := ns' } ∧ TreeShape ns' s.root s.cur ∧
        ns'.length ≤ s.nodes.length + n ∧
        ∀ q d g, HasLeaf ns' s.root q d g ↔
          (q = (List.range n).map code.getLsbD ∧ d = c ∧ g = 0) ∨ HasLeaf s.nodes s.root q d g) ∨
      (¬ PathFree s ((List.range n).map code.getLsbD) ∧ treeInsert c code n s = raise .tableConflict s) := by
  have hlen : ((List.range n).map code.getLsbD).length = n := by simp
  have hne : (List.range n).map code.getLsbD ≠ [] := by
    intro he; rw [he] at hlen; simp at hlen; omega
  have hgood : ¬ (n < 1 ∨ Config.maxCodeLen < n) := by simp [Config.maxCodeLen]; omega
  have hmap : (List.range n).map (codeBit code) = (List.range n).map code.getLsbD := rfl
  unfold treeInsert
  rw [if_neg hgood, hmap]
  generalize hbits : (List.range n).map code.getLsbD = bits at *
  have hB := h.but (x := fun _ => False)
  rcases insertWalk_cases bits (p := s.root) (pre := []) h rfl (by omega) with
    hr | ⟨p', hw, hf⟩ | ⟨p', ns', f', hw, hs, hn', hf', hl', hlk, hleaf, hge⟩
  · right
    refine ⟨fun hfree => ?_, by rw [hr]; rfl⟩
    obtain ⟨i, d, f, hl⟩ := insertWalk_conflict bits (p := s.root) (pre := []) h rfl (by omega) hr
    exact (hfree _ d (leafSymbol_eq hl)).1 (by simpa using List.take_prefix i bits)
  · right
    have hp' := hB.follow_lt hf
    have hget : s.nodes[p'.toNat]? = some s.nodes[p'.toNat] := List.getElem?_eq_getElem hp'
    rw [hw]
    simp only [Res.bind_ok]
    unfold storeSymbol
    rw [hget]
    cases hnode : s.nodes[p'.toNat] with
    | leaf d f =>
      rw [hnode] at hget
      refine ⟨fun hfree => ?_, rfl⟩
      exact (hfree bits d (leafSymbol_eq ⟨p', by simpa using hf, hget⟩)).1 (List.prefix_refl _)
    | inner l r f =>
      rw [hnode] at hget
      have below : ∀ b x, (Node.inner l r f).child b = some x → ¬ PathFree s bits := by
        intro b x hx hfree
        obtain ⟨ext, d, g, hl⟩ := h.leaf_below s.nodes.length hf ⟨_, hget, hx⟩ (by omega)
        exact (hfree _ d (leafSymbol_eq hl)).2 (by simp)
      cases l with
      | some x => exact ⟨below false x rfl, by cases r <;> rfl⟩
      | none =>
        cases r with
        | some x => exact ⟨below true x rfl, rfl⟩
        | none =>
          have hroot := h.grown _ _ hget
          have : follow s.nodes s.root [] = some p' := by
            rw [follow_nil]; exact congrArg some (BitVec.eq_of_toNat_eq hroot.symm)
          exact absurd (hB.path_unique hf this) hne
  · left
    have hcur : s.cur.toNat < s.nodes.length := by
      obtain ⟨l, r, g, hg⟩ := h.curInner
      exact (List.getElem?_eq_some_iff.1 hg).1
    have hroot := hB.root_lt
    have hshape := hs.store c hn' (by rintro rfl; omega) (by rintro rfl; omega)
    have hf'' : follow ns' s.root bits = some p' := by simpa using hf'
    have hf0 : f' = 0 := insertWalk_new bits s.nodes.length
      (fun i n hi he => absurd (List.getElem?_eq_some_iff.1 he).1 (by omega)) hw _ _ hge hn'
    subst hf0
    have hall := store_leaves h hshape hn' hf'' hlk hleaf
    refine ⟨?_, ns'.set p'.toNat (.leaf c 0), ?_, hshape, by simp; omega, hall⟩
    · intro q d hq
      obtain ⟨g, hg⟩ := leafSymbol_eq_some.1 hq
      have hnew := (hall bits c 0).2 (.inl ⟨rfl, rfl, rfl⟩)
      have hold := (hall q d g).2 (.inr hg)
      have hdiff : q ≠ bits := by
        rintro rfl
        obtain ⟨x, hx, hl⟩ := hg
        have hxlt := (List.getElem?_eq_some_iff.1 hl).1
        have := follow_mono hlk hx
        rw [hf''] at this
        cases this
        omega
      exact ⟨fun hpre => hdiff (hold.prefix_eq hnew hpre), fun hpre => hdiff (hnew.prefix_eq hold hpre).symm⟩
    · rw [hw]
      simp only [Res.bind_ok]
      unfold storeSymbol
      simp only [hn']

end Sys2Proof.Machine
end

