-- ==== Sys2Proof/Laws/Codes.lean ====
section
/-! SUPPORT. The code table that TB_BUILD reads off the tree (43_table_builder.md R192, R193), the weighted length of
TR_LEN (42_code_tree.md R170), and the leaves of a tree made by TR_BUILD. -/

namespace Sys2Proof.Machine

/-! ### The order of the walk -/

theorem leftOf_cons (b : Bool) (p q : List Bool) : leftOf (b :: p) (b :: q) = leftOf p q := by
  cases b <;> simp [leftOf]

theorem leftOf_self (p : List Bool) : leftOf p p = false := by
  induction p with
  | nil => rfl
  | cons b p ih => rw [leftOf_cons]; exact ih

/-- A listed leaf and its path. -/
def LeafPath (ns : List Node) (p : NodeIdx) (c d : Nat) (l : LeafAt) (bits : List Bool) : Prop :=
  ∃ q, follow ns p bits = some q ∧ ns[q.toNat]? = some (.leaf l.sym l.freq) ∧
    l.code = (c ||| (pathCode bits <<< d)) ∧ l.depth = d + bits.length

/-- The walk lists the leaves from left to right (R192: "the walk goes left before right"). -/
theorem leavesUnder_order {ns : List Node} {fuel : Nat} {p : NodeIdx} {c d : Nat} {ls : List LeafAt}
    (h : leavesUnder ns fuel p c d = .ok ls) :
    ∃ ps : List (List Bool), List.Forall₂ (LeafPath ns p c d) ls ps ∧ ps.Pairwise fun p q => leftOf p q = true := by
  induction fuel generalizing p c d ls with
  | zero => simp [leavesUnder] at h
  | succ fuel ih =>
    unfold leavesUnder at h
    split at h
    · cases h
    · rename_i sym f hn
      cases h
      exact ⟨[[]], .cons ⟨p, rfl, hn, by simp [pathCode], by simp⟩ .nil, List.pairwise_singleton _ _⟩
    · rename_i lk rk f hn
      have side : ∀ (b : Bool) (o : Option NodeIdx) (c' : Nat) (l' : List LeafAt),
          (Node.inner lk rk f).child b = o → c' = (c ||| (b.toNat <<< d)) →
          behindLink o (fun q => leavesUnder ns fuel q c' (d + 1)) = .ok l' →
          ∃ ps : List (List Bool), List.Forall₂ (LeafPath ns p c d) l' (ps.map (b :: ·)) ∧ ps.Pairwise fun p q => leftOf p q = true := by
        intro b o c' l' ho hc' he
        cases o with
        | none => cases he; exact ⟨[], .nil, .nil⟩
        | some q =>
          obtain ⟨ps, hps, hord⟩ := ih he
          refine ⟨ps, ?_, hord⟩
          rw [List.forall₂_map_right_iff]
          refine hps.imp fun l bits ⟨r, hf, hr, hc, hd⟩ => ?_
          refine ⟨r, follow_cons.2 ⟨q, ⟨_, hn, ho⟩, hf⟩, hr, ?_, by simp; omega⟩
          rw [hc, hc', pathCode, Nat.shiftLeft_or_distrib, ← Nat.shiftLeft_add, Nat.or_assoc, Nat.add_comm 1 d]
      unfold joinLeaves at h
      split at h
      · cases h
      · rename_i lsl hl
        split at h
        · cases h
        · rename_i lsr hr
          cases h
          obtain ⟨ps, h1, h2⟩ := side false lk c lsl rfl (by simp) hl
          obtain ⟨qs, h3, h4⟩ := side true rk (c ||| (1 <<< d)) lsr rfl (by simp) hr
          refine ⟨ps.map (false :: ·) ++ qs.map (true :: ·), List.rel_append h1 h3, ?_⟩
          rw [List.pairwise_append, List.pairwise_map, List.pairwise_map]
          refine ⟨h2.imp fun {a b} hab => by rw [leftOf_cons]; exact hab,
            h4.imp fun {a b} hab => by rw [leftOf_cons]; exact hab, ?_⟩
          intro a ha b hb
          obtain ⟨a', -, rfl⟩ := List.mem_map.1 ha
          obtain ⟨b', -, rfl⟩ := List.mem_map.1 hb
          rfl

/-- A leaf of the whole tree and its path. -/
def TreeLeaf (s : State) (l : LeafAt) (p : List Bool) : Prop :=
  HasLeaf s.nodes s.root p l.sym l.freq ∧ l.code = pathCode p ∧ l.depth = p.length

/-- The leaves of the current tree with their paths, from left to right. -/
theorem treeLeaves_paths {s : State} {ls : List LeafAt} (h : treeLeaves s = .ok ls) :
    ∃ ps, List.Forall₂ (TreeLeaf s) ls ps ∧ ps.Pairwise (fun p q => leftOf p q = true) ∧ ps.Nodup ∧
      ∀ p, p ∈ ps ↔ (leafSymbol s p).isSome = true := by
  obtain ⟨ps, h1, h2⟩ := leavesUnder_order h
  have h1' : List.Forall₂ (TreeLeaf s) ls ps :=
    h1.imp fun l p ⟨q, hf, hq, hc, hd⟩ => ⟨⟨q, hf, hq⟩, by simpa using hc, by simpa using hd⟩
  refine ⟨ps, h1', h2, ?_, fun p => ⟨fun hp => ?_, fun hp => ?_⟩⟩
  · refine h2.imp fun {a b} hab he => ?_
    rw [he, leftOf_self] at hab
    cases hab
  · obtain ⟨hlen, hget⟩ := List.forall₂_iff_get.1 h1'
    obtain ⟨i, hi, rfl⟩ := List.mem_iff_getElem.1 hp
    have hl := hget i (by omega) hi
    simp only [List.get_eq_getElem] at hl
    rw [leafSymbol_eq hl.1]
    rfl
  · obtain ⟨c, hc⟩ := Option.isSome_iff_exists.1 hp
    obtain ⟨f, q, hf, hq⟩ := leafSymbol_eq_some.1 hc
    have hm := (mem_treeLeaves h ⟨c, f, pathCode p, p.length⟩).2 ⟨p, q, hf, hq, rfl, rfl⟩
    obtain ⟨i, hi, he⟩ := List.mem_iff_getElem.1 hm
    obtain ⟨hlen, hget⟩ := List.forall₂_iff_get.1 h1'
    have ht := hget i hi (by omega)
    simp only [List.get_eq_getElem] at ht
    rw [he] at ht
    have : ps[i]'(by omega) = p := (pathCode_inj ht.2.2 ht.2.1).symm
    rw [← this]
    exact List.getElem_mem _

/-! ### Recording the table -/

theorem recordLeaves_append (ls ms : List LeafAt) (s : State) :
    recordLeaves (ls ++ ms) s = recordLeaves ms (recordLeaves ls s) := by
  induction ls generalizing s with
  | nil => rfl
  | cons l ls ih => exact ih _

/-- Recording writes nothing but the code table. -/
theorem recordLeaves_frame (ls : List LeafAt) (s : State) :
    ∃ code len, recordLeaves ls s = { s with code := code, len := len } := by
  induction ls generalizing s with
  | nil => exact ⟨s.code, s.len, rfl⟩
  | cons l ls ih =>
    obtain ⟨code, len, h⟩ := ih (s.setEntry l.sym (BitVec.ofNat 32 l.code) (BitVec.ofNat 8 l.depth))
    exact ⟨code, len, h⟩

/-- A symbol at no recorded leaf keeps its entry. -/
theorem recordLeaves_absent {ls : List LeafAt} {c : Symbol} (h : ∀ l ∈ ls, l.sym ≠ c) (s : State) :
    (recordLeaves ls s).getCode c = s.getCode c ∧ (recordLeaves ls s).getLen c = s.getLen c := by
  induction ls generalizing s with
  | nil => exact ⟨rfl, rfl⟩
  | cons l ls ih =>
    have hne : c ≠ l.sym := fun he => h l (by simp) he.symm
    obtain ⟨h1, h2⟩ := ih (fun m hm => h m (by simp [hm]))
      (s.setEntry l.sym (BitVec.ofNat 32 l.code) (BitVec.ofNat 8 l.depth))
    exact ⟨h1.trans (State.getCode_setEntry_ne _ _ _ hne), h2.trans (State.getLen_setEntry_ne _ _ _ hne)⟩

/-- The last leaf recorded for a symbol wins (R192 corner case 1). -/
theorem recordLeaves_last {as bs : List LeafAt} {l : LeafAt} (h : ∀ m ∈ bs, m.sym ≠ l.sym) (s : State) :
    (recordLeaves (as ++ l :: bs) s).getCode l.sym = BitVec.ofNat 32 l.code ∧
      (recordLeaves (as ++ l :: bs) s).getLen l.sym = BitVec.ofNat 8 l.depth := by
  rw [recordLeaves_append]
  obtain ⟨h1, h2⟩ := recordLeaves_absent h
    ((recordLeaves as s).setEntry l.sym (BitVec.ofNat 32 l.code) (BitVec.ofNat 8 l.depth))
  exact ⟨h1.trans (State.getCode_setEntry_self _ _ _ _), h2.trans (State.getLen_setEntry_self _ _ _ _)⟩

/-- The last element with a property. -/
theorem exists_last {α : Type} {p : α → Prop} {l : List α} (h : ∃ a ∈ l, p a) :
    ∃ as a bs, l = as ++ a :: bs ∧ p a ∧ ∀ b ∈ bs, ¬ p b := by
  induction l with
  | nil => simp at h
  | cons x l ih =>
    by_cases hl : ∃ a ∈ l, p a
    · obtain ⟨as, a, bs, rfl, ha, hb⟩ := ih hl
      exact ⟨x :: as, a, bs, rfl, ha, hb⟩
    · obtain ⟨a, ha, hpa⟩ := h
      rcases List.mem_cons.1 ha with rfl | ha
      · exact ⟨[], a, l, rfl, hpa, fun b hb hpb => hl ⟨b, hb, hpb⟩⟩
      · exact absurd ⟨a, ha, hpa⟩ hl

/-- The bits of a path's code, `length` of them, are the path (R104). -/
theorem bits_pathCode {p : List Bool} (h : p.length ≤ 32) :
    (List.range p.length).map (BitVec.ofNat 32 (pathCode p)).getLsbD = p := by
  refine List.ext_getElem (by simp) fun i h1 h2 => ?_
  simp only [List.getElem_map, List.getElem_range, BitVec.getLsbD_ofNat, testBit_pathCode]
  simp [show i < 32 by omega, h2]

/-- What TB_BUILD leaves of a symbol: nothing when it is at no leaf, otherwise the path of its last leaf. -/
def Recorded (s t : State) (c : Symbol) : Prop :=
  ((∀ p, leafSymbol s p ≠ some c) ∧ t.getLen c = 0 ∧ t.getCode c = 0) ∨
    ∃ p, leafSymbol s p = some c ∧ (t.getLen c).toNat = p.length ∧ symbolBits t c = p ∧
      (t.getCode c).toNat < 2 ^ p.length ∧ ∀ p', leafSymbol s p' = some c → p' = p ∨ leftOf p' p = true

/-- TB_BUILD on a tree whose leaves are at depth 32 at most (R192). -/
theorem tableBuild_ok {s : State} (h : TreeInv s) (hd : ∀ p c, leafSymbol s p = some c → p.length ≤ 32) :
    ∃ code len, tableBuild s = .ok () { s with code := code, len := len } ∧
      ∀ c, Recorded s { s with code := code, len := len } c := by
  obtain ⟨ls, hl⟩ := treeLeaves_ok h
  obtain ⟨ps, hF, hord, hnd, hmem⟩ := treeLeaves_paths hl
  obtain ⟨hlen, hget⟩ := List.forall₂_iff_get.1 hF
  have hdep : ∀ l ∈ ls, l.depth ≤ 32 := by
    intro l hm
    obtain ⟨i, hi, rfl⟩ := List.mem_iff_getElem.1 hm
    have ht := hget i hi (by omega)
    simp only [List.get_eq_getElem] at ht
    rw [ht.2.2]
    exact hd _ _ (leafSymbol_eq ht.1)
  have hmax : ¬ Config.maxCodeLen < maxDepth ls := by
    have : maxDepth ls ≤ 32 := by
      clear hl hF hlen hget
      induction ls with
      | nil => simp [maxDepth]
      | cons l ls ih =>
        simp only [maxDepth, List.map_cons, List.foldr_cons]
        exact Nat.max_le.2 ⟨hdep l (by simp), ih fun m hm => hdep m (by simp [hm])⟩
    simp only [Config.maxCodeLen]; omega
  obtain ⟨code, len, hfr⟩ := recordLeaves_frame ls (clearTable s)
  refine ⟨code, len, ?_, fun c => ?_⟩
  · unfold tableBuild
    rw [hl]
    simp only
    rw [if_neg hmax, hfr]
    rfl
  · have hst : ({ s with code := code, len := len } : State) = recordLeaves ls (clearTable s) := hfr.symm
    by_cases hc : ∃ l ∈ ls, l.sym = c
    · right
      obtain ⟨as, l, bs, rfl, rfl, hb⟩ := exists_last hc
      obtain ⟨hcode, hlen'⟩ := recordLeaves_last (as := as) hb (clearTable s)
      rw [← hst] at hcode hlen'
      have hi : as.length < (as ++ l :: bs).length := by simp
      have ht := hget as.length hi (by omega)
      simp only [List.get_eq_getElem] at ht
      have hel : (as ++ l :: bs)[as.length] = l := by simp
      rw [hel] at ht
      set p := ps[as.length]'(by omega) with hp
      have hp32 : p.length ≤ 32 := hd _ _ (leafSymbol_eq ht.1)
      have hlen8 : (({ s with code := code, len := len } : State).getLen l.sym).toNat = p.length := by
        rw [hlen', ht.2.2, BitVec.toNat_ofNat, Nat.mod_eq_of_lt (by omega)]
      have hcode32 : (BitVec.ofNat 32 (pathCode p)).toNat = pathCode p := by
        rw [BitVec.toNat_ofNat, Nat.mod_eq_of_lt]
        exact Nat.lt_of_lt_of_le (pathCode_lt p) (Nat.pow_le_pow_right (by decide) hp32)
      refine ⟨p, leafSymbol_eq ht.1, hlen8, ?_, ?_, fun p' hp' => ?_⟩
      · unfold symbolBits
        rw [hlen8, hcode, ht.2.1]
        exact bits_pathCode hp32
      · rw [hcode, ht.2.1, hcode32]
        exact pathCode_lt p
      · have hm : p' ∈ ps := (hmem p').2 (by rw [hp']; rfl)
        obtain ⟨j, hj, rfl⟩ := List.mem_iff_getElem.1 hm
        rcases Nat.lt_trichotomy j as.length with hlt | heq | hgt
        · exact .inr (List.pairwise_iff_getElem.1 hord j as.length hj (by omega) hlt)
        · subst heq; exact .inl rfl
        · exfalso
          have htj := hget j (by omega) hj
          simp only [List.get_eq_getElem] at htj
          have hsym := leafSymbol_eq htj.1
          rw [hp'] at hsym
          have hin : (as ++ l :: bs)[j]'(by omega) ∈ bs := by
            rw [List.getElem_append_right (by omega)]
            obtain ⟨k, hk⟩ := Nat.exists_eq_succ_of_ne_zero (show j - as.length ≠ 0 by omega)
            simp only [hk, List.getElem_cons_succ]
            exact List.getElem_mem _
          exact hb _ hin (Option.some.inj hsym).symm
    · left
      push Not at hc
      obtain ⟨h1, h2⟩ := recordLeaves_absent hc (clearTable s)
      rw [← hst] at h1 h2
      refine ⟨fun p hp => ?_, by simpa using h2, by simpa using h1⟩
      have hm : p ∈ ps := (hmem p).2 (by rw [hp]; rfl)
      obtain ⟨j, hj, rfl⟩ := List.mem_iff_getElem.1 hm
      have htj := hget j (by omega) hj
      have hsym := leafSymbol_eq htj.1
      rw [List.get_eq_getElem, hp] at hsym
      exact hc _ (List.getElem_mem _) (Option.some.inj hsym).symm

/-- TB_BUILD on a tree with a leaf deeper than 32 (R192). -/
theorem tableBuild_deep {s : State} (h : TreeInv s) {p : List Bool} {c : Symbol} (hp : leafSymbol s p = some c)
    (hd : 32 < p.length) : tableBuild s = raise .codeTooLong (clearTable s) := by
  obtain ⟨ls, hl⟩ := treeLeaves_ok h
  obtain ⟨f, q, hf, hq⟩ := leafSymbol_eq_some.1 hp
  have hm := (mem_treeLeaves hl ⟨c, f, pathCode p, p.length⟩).2 ⟨p, q, hf, hq, rfl, rfl⟩
  have := le_maxDepth hm
  unfold tableBuild
  rw [hl]
  simp only
  rw [if_pos]
  simp only [Config.maxCodeLen] at this ⊢
  omega

/-! ### The weighted length -/

/-- TR_LEN: the sum over the leaves of depth times frequency (R170). -/
theorem treeLen_ok {s : State} (h : TreeInv s) :
    ∃ ps : List (List Bool), ps.Nodup ∧ (∀ p, p ∈ ps ↔ (leafSymbol s p).isSome = true) ∧
      treeLen s = .ok () { s with tlen := BitVec.ofNat 48 (ps.map fun p => p.length * leafFreq s p).sum } := by
  obtain ⟨ls, hl⟩ := treeLeaves_ok h
  obtain ⟨ps, hF, -, hnd, hmem⟩ := treeLeaves_paths hl
  refine ⟨ps, hnd, hmem, ?_⟩
  have : weightedLength ls = (ps.map fun p => p.length * leafFreq s p).sum := by
    unfold weightedLength
    clear hl hnd hmem
    induction hF with
    | nil => rfl
    | cons hab _ ih =>
      simp only [List.map_cons, List.sum_cons]
      rw [ih, hab.2.2, leafFreq_eq hab.1]
  unfold treeLen
  rw [hl]
  simp only
  rw [this]

/-! ### The leaves of a built tree -/

/-- The LEAF nodes TR_BUILD makes are exactly the given ones, at the same indices (R165). -/
theorem buildTree_leaf {ls : List Node} (hleaf : ∀ n ∈ ls, ∃ c f, n = .leaf c f) (hk : ls.length ≤ 256)
    (htot : (ls.map fun n => n.freq.toNat).sum < 2 ^ 40) (i : Nat) (c : Symbol) (f : BitVec 40) :
    (buildTree ls).1[i]? = some (.leaf c f) ↔ ls[i]? = some (.leaf c f) := by
  match ls, hleaf, hk, htot with
  | [], _, _, _ =>
    rcases i with _ | i <;> simp [buildTree, Node.emptyInner]
  | [l], hleaf, _, _ =>
    rcases i with _ | _ | i <;> simp [buildTree]
  | a :: b :: ls, hleaf, hk, htot =>
    obtain ⟨ns, hb, hf, ⟨rest, hpre⟩, hl, -⟩ := buildTree_many (by simp) hleaf hk htot
    rw [hb]
    simp only
    rcases Nat.lt_or_ge i (a :: b :: ls).length with h | h
    · rw [← hpre, List.getElem?_append_left h]
    · rw [List.getElem?_eq_none h]
      constructor
      · intro hi
        have hlt := (List.getElem?_eq_some_iff.1 hi).1
        obtain ⟨x, y, g, hn, -⟩ := hf.least i h hlt
        rw [hn] at hi
        cases hi
      · intro hi; cases hi

/-- The leaves of the tree TR_BUILD makes: one for every symbol with non-zero frequency, with that frequency, at one
path (R165, R166). -/
theorem treeBuild_leaves {s t : State} (ht : t.nodes = (buildTree (freqLeaves s)).1)
    (hr : t.root = idx (buildTree (freqLeaves s)).2) :
    (∀ p c f, HasLeaf t.nodes t.root p c f → s.getFreq c ≠ 0 ∧ f.toNat = (s.getFreq c).toNat) ∧
      (∀ c, s.getFreq c ≠ 0 → ∃ p f, HasLeaf t.nodes t.root p c f) ∧
      (∀ p p' c f f', HasLeaf t.nodes t.root p c f → HasLeaf t.nodes t.root p' c f' → p = p') := by
  have hshape := treeBuild_shape s
  rw [← ht, ← hr] at hshape
  have hleaf := fun i c f => buildTree_leaf (freqLeaves_leaf s) (freqLeaves_length s)
    (by rw [freqLeaves_sum]; exact totalFreq_lt s) i c f
  rw [← ht] at hleaf
  have hget : ∀ (i : Nat) (c : Symbol) (f : BitVec 40), (freqLeaves s)[i]? = some (Node.leaf c f) →
      (countedSymbols s)[i]? = some c ∧ f = (s.getFreq c).setWidth 40 := by
    intro i c f h
    rw [freqLeaves_eq, List.getElem?_map] at h
    cases hc : (countedSymbols s)[i]? with
    | none => rw [hc] at h; cases h
    | some d => rw [hc] at h; cases h; exact ⟨rfl, rfl⟩
  refine ⟨?_, ?_, ?_⟩
  · rintro p c f ⟨q, hq, hl⟩
    obtain ⟨h1, rfl⟩ := hget _ _ _ ((hleaf _ _ _).1 hl)
    have hm := List.mem_of_getElem? h1
    simp only [countedSymbols, List.mem_filter] at hm
    refine ⟨by simpa using hm.2, ?_⟩
    have := (s.getFreq c).isLt
    rw [BitVec.toNat_setWidth, Nat.mod_eq_of_lt (by omega)]
  · intro c hc
    have hm : c ∈ countedSymbols s := List.mem_filter.2 ⟨mem_symbols c, by simpa using hc⟩
    obtain ⟨i, hi, he⟩ := List.mem_iff_getElem.1 hm
    have hn : (freqLeaves s)[i]? = some (Node.leaf c ((s.getFreq c).setWidth 40)) := by
      rw [freqLeaves_eq, List.getElem?_map, List.getElem?_eq_getElem hi, he]
      rfl
    have hn' := (hleaf _ _ _).2 hn
    have hlt := (List.getElem?_eq_some_iff.1 hn').1
    have hsize := hshape.size
    have hidx : (idx i).toNat = i := toNat_idx (by simp only [Config.nodeCap] at hsize; omega)
    obtain ⟨p, hp⟩ := hshape.reach (idx i) (by omega)
    exact ⟨p, _, idx i, hp, by rw [hidx]; exact hn'⟩
  · rintro p p' c f f' ⟨q, hq, hl⟩ ⟨q', hq', hl'⟩
    obtain ⟨h1, -⟩ := hget _ _ _ ((hleaf _ _ _).1 hl)
    obtain ⟨h2, -⟩ := hget _ _ _ ((hleaf _ _ _).1 hl')
    have hnd : (countedSymbols s).Nodup := symbols_nodup.filter _
    have : q.toNat = q'.toNat := by
      have hlt := (List.getElem?_eq_some_iff.1 h1).1
      exact (List.getElem?_inj hlt hnd).1 (h1.trans h2.symm)
    have : q = q' := BitVec.eq_of_toNat_eq this
    subst this
    exact (hshape.but (x := fun _ => False)).path_unique hq hq'

/-- A path in a built tree is shorter than the number of symbols (R172). -/
theorem Forest.depth {k : Nat} {ns : List Node} {q : List Nat} (h : Forest k ns q) {p r : NodeIdx} {bits : List Bool}
    (hf : follow ns p bits = some r) (hne : bits ≠ []) : k + bits.length ≤ p.toNat + 1 := by
  induction bits generalizing p with
  | nil => exact absurd rfl hne
  | cons b bs ih =>
    obtain ⟨m, hl, hm⟩ := follow_cons.1 hf
    have hlt := h.below _ _ _ hl
    have hk : k ≤ p.toNat := by
      rcases Nat.lt_or_ge p.toNat k with hpk | hpk
      · obtain ⟨c, g, hn⟩ := h.leaves _ hpk
        obtain ⟨l, r', f, hn'⟩ := hl.inner
        rw [hn] at hn'
        cases hn'
      · exact hpk
    by_cases hbs : bs = []
    · subst hbs; simp; omega
    · have := ih hm hbs
      simp only [List.length_cons]
      omega

/-- No leaf of a tree made by TR_BUILD is deeper than 255 (R172). -/
theorem treeBuild_depth {s t : State} (ht : t.nodes = (buildTree (freqLeaves s)).1)
    (hr : t.root = idx (buildTree (freqLeaves s)).2) {p : List Bool} {c : Symbol} {f : BitVec 40}
    (hl : HasLeaf t.nodes t.root p c f) : p.length ≤ max 1 ((countedSymbols s).length - 1) := by
  obtain ⟨q, hq, hn⟩ := hl
  have hlen : (freqLeaves s).length = (countedSymbols s).length := by rw [freqLeaves_eq, List.length_map]
  have hfl := freqLeaves_leaf s
  have hk := freqLeaves_length s
  have htot : ((freqLeaves s).map fun n => n.freq.toNat).sum < 2 ^ 40 := by
    rw [freqLeaves_sum]; exact totalFreq_lt s
  rw [← hlen]
  rw [ht, hr] at hq
  match hls : freqLeaves s, hfl, hk, htot with
  | [], _, _, _ =>
    have hshape := treeBuild_shape s
    rw [hls] at hshape hq
    have := (hshape.but (x := fun _ => False)).path_length hq
    simp only [buildTree, List.length_singleton] at this
    omega
  | [l], _, _, _ =>
    have hshape := treeBuild_shape s
    rw [hls] at hshape hq
    have := (hshape.but (x := fun _ => False)).path_length hq
    simp [buildTree] at this
    omega
  | a :: b :: ls, hfl, hk, htot =>
    rw [hls] at hq
    obtain ⟨ns, hb, hf, -, hl, -⟩ := buildTree_many (by simp) hfl hk htot
    rw [hb] at hq
    simp only at hq
    by_cases hp : p = []
    · subst hp; simp
    · have := hf.depth hq hp
      simp only [List.length_cons] at hl hk this ⊢
      rw [toNat_idx (by omega)] at this
      omega

end Sys2Proof.Machine
end

