-- ==== Sys2Proof/Laws/Streams.lean ====
section
/-! SUPPORT. Streams of bits and bytes: what the reader delivers of the bits it has not yet read, what the writer adds
to the bits it has written, and raw reads and writes of several bytes (20_memory.md R66, R67, R69). -/

namespace Sys2Proof.Machine

/-! ### Bits of bytes -/

@[simp] theorem byteBits_length (v : Byte) : (byteBits v).length = 8 := by simp [byteBits]

@[simp] theorem streamBits_nil : streamBits [] = [] := rfl

@[simp] theorem streamBits_cons (v : Byte) (vs : List Byte) : streamBits (v :: vs) = byteBits v ++ streamBits vs := rfl

@[simp] theorem streamBits_append (vs ws : List Byte) : streamBits (vs ++ ws) = streamBits vs ++ streamBits ws :=
  List.flatMap_append

@[simp] theorem streamBits_length (vs : List Byte) : (streamBits vs).length = 8 * vs.length := by
  induction vs with
  | nil => rfl
  | cons v vs ih => simp [ih]; omega

/-- The bits of a byte: the first, then those of the byte shifted right (R121). -/
theorem bits_succ (v : Byte) (n : Nat) :
    (List.range (n + 1)).map v.getLsbD = v.getLsbD 0 :: (List.range n).map (v >>> 1).getLsbD := by
  rw [List.range_succ_eq_map, List.map_cons, List.map_map]
  congr 1
  refine List.map_congr_left fun i _ => ?_
  simp [Nat.add_comm]

/-- Equal bits, equal bytes. -/
theorem byteBits_inj {v w : Byte} (h : byteBits v = byteBits w) : v = w := by
  refine BitVec.eq_of_getLsbD_eq fun i hi => ?_
  have := congrArg (fun l : List Bool => l[i]?) h
  simpa [byteBits, hi] using this

theorem streamBits_inj {vs ws : List Byte} (h : streamBits vs = streamBits ws) : vs = ws := by
  induction vs generalizing ws with
  | nil =>
    cases ws with
    | nil => rfl
    | cons w ws => have := congrArg List.length h; simp at this; omega
  | cons v vs ih =>
    cases ws with
    | nil => have := congrArg List.length h; simp at this
    | cons w ws =>
      simp only [streamBits_cons] at h
      obtain ⟨h1, h2⟩ := List.append_inj h (by simp)
      rw [byteBits_inj h1, ih h2]

/-! ### The reader -/

/-- A position inside a stream below 2^32 bytes can be raised without wrapping. -/
theorem toNat_addNat {p : BitVec 32} {n : Nat} (h : p.toNat + n < 2 ^ 32) :
    (p + BitVec.ofNat 32 n).toNat = p.toNat + n := by
  rw [BitVec.toNat_add, BitVec.toNat_ofNat]
  omega

/-- `read_bit()` does what `BitRead` says (R121). -/
theorem readBit_ok {s t : State} {b : Bool} (h : BitRead s b t) : readBit s = .ok (some b) t := by
  rcases h with ⟨hr, rfl, rfl⟩ | ⟨hr, hs, v, hv, rfl, rfl⟩
  · unfold readBit
    rw [if_neg hr]
    rfl
  · unfold readBit
    have h7 : (8 : BitVec 4) - 1 = 7 := by decide
    rw [if_pos hr, srcByte_served hs hv]
    simp only [Res.bind_ok, takeBit, firstBit, h7]

/-- With the buffer empty at the end of SRC a served read of a bit finds end-of-stream (R121). -/
theorem readBit_end {s : State} (hr : s.rcnt = 0) (h : Served 1 s) (hv : s.mem.src.length ≤ s.ipos.toNat) :
    readBit s = .ok none { s with draws := s.draws.drop 1, eos := true } := by
  unfold readBit
  rw [if_pos hr, srcByte_end h hv]
  rfl

/-- The state after a delivered bit differs from the one before in these fields only. -/
theorem BitRead.frame {s t : State} {b : Bool} (h : BitRead s b t) :
    t = { s with rbuf := t.rbuf, rcnt := t.rcnt, ipos := t.ipos, eos := false, draws := t.draws } := by
  rcases h with ⟨-, -, rfl⟩ | ⟨-, -, v, -, -, rfl⟩ <;> rfl

/-- A delivered bit takes at most one of the served accesses. -/
theorem BitRead.served {s t : State} {b : Bool} {k : Nat} (h : BitRead s b t) (hk : Served (k + 1) s) : Served k t := by
  rcases h with ⟨-, -, rfl⟩ | ⟨-, -, v, -, -, rfl⟩
  · exact hk.mono (Nat.le_succ k)
  · exact Served.rest (j := 1) (s := s) (by rwa [Nat.add_comm]) rfl

/-- RCNT stays in range. -/
theorem BitRead.rcnt {s t : State} {b : Bool} (h : BitRead s b t) (hr : s.rcnt.toNat ≤ 8) : t.rcnt.toNat ≤ 8 := by
  rcases h with ⟨hne, -, rfl⟩ | ⟨-, -, v, -, -, rfl⟩
  · have h2 : s.rcnt.toNat ≠ 0 := fun he => hne (BitVec.eq_of_toNat_eq he)
    have h3 := s.rcnt.isLt
    show (s.rcnt - 1).toNat ≤ 8
    rw [BitVec.toNat_sub]
    simp
    omega
  · show (7 : BitVec 4).toNat ≤ 8
    decide

/-- The next unread bit is the one the reader delivers, and the others stay (R67, R121). -/
theorem bitRead_of_unread {s : State} {b : Bool} {rest : List Bool} (hs : Served 1 s)
    (hwf : s.mem.src.length < 2 ^ 32) (h : unreadBits s = b :: rest) : ∃ t, BitRead s b t ∧ unreadBits t = rest := by
  by_cases hr : s.rcnt = 0
  · have hr' : s.rcnt.toNat = 0 := by rw [hr]; rfl
    unfold unreadBits at h
    rw [hr'] at h
    rcases hd : s.mem.src.drop s.ipos.toNat with _ | ⟨v, vs⟩
    · rw [hd] at h; simp at h
    · have hv : s.mem.src[s.ipos.toNat]? = some v := by
        have := congrArg (fun l : List Byte => l[0]?) hd
        simpa using this
      have hlt := (List.getElem?_eq_some_iff.1 hv).1
      have hvs : s.mem.src.drop (s.ipos.toNat + 1) = vs := by
        have := congrArg (List.drop 1) hd
        simpa using this
      have hi : (s.ipos + 1).toNat = s.ipos.toNat + 1 := toNat_addNat (n := 1) (by omega)
      rw [hd] at h
      have hb : byteBits v = v.getLsbD 0 :: (List.range 7).map (v >>> 1).getLsbD := bits_succ v 7
      simp only [List.range_zero, List.map_nil, List.nil_append, streamBits_cons, hb, List.cons_append,
        List.cons.injEq] at h
      obtain ⟨rfl, rfl⟩ := h
      refine ⟨_, .inr ⟨hr, hs, v, hv, rfl, rfl⟩, ?_⟩
      unfold unreadBits
      simp only [hi, hvs]
      rfl
  · have hr' : s.rcnt.toNat ≠ 0 := fun he => hr (BitVec.eq_of_toNat_eq he)
    obtain ⟨n, hn⟩ := Nat.exists_eq_succ_of_ne_zero hr'
    have hlt := s.rcnt.isLt
    have hsub : (s.rcnt - 1).toNat = n := by rw [BitVec.toNat_sub]; simp; omega
    unfold unreadBits at h
    rw [hn, bits_succ] at h
    simp only [List.cons_append, List.cons.injEq] at h
    obtain ⟨rfl, rfl⟩ := h
    refine ⟨_, .inl ⟨hr, rfl, rfl⟩, ?_⟩
    unfold unreadBits
    simp only [hsub]

/-- When no bit is left the buffer is empty and SRC is at its end. -/
theorem unread_nil {s : State} (h : unreadBits s = []) : s.rcnt = 0 ∧ s.mem.src.length ≤ s.ipos.toNat := by
  unfold unreadBits at h
  have hl := congrArg List.length h
  simp at hl
  exact ⟨BitVec.eq_of_toNat_eq (by simpa using hl.1), by omega⟩

/-- The bytes as a number fit their width. -/
theorem littleEndian_lt (vs : List Byte) : littleEndian vs < 2 ^ (8 * vs.length) := by
  induction vs with
  | nil => simp [littleEndian]
  | cons v vs ih =>
    have := v.isLt
    simp only [littleEndian, List.length_cons]
    have : 2 ^ (8 * (vs.length + 1)) = 256 * 2 ^ (8 * vs.length) := by
      rw [Nat.mul_add, Nat.pow_add]; omega
    omega

/-- A byte put above the bytes already read. -/
theorem toNat_putByte {acc : BitVec 32} {v : Byte} {k : Nat} (h : acc.toNat < 2 ^ (8 * k)) (hk : k < 4) :
    (putByte acc v k).toNat = acc.toNat + 2 ^ (8 * k) * v.toNat := by
  unfold putByte
  have hv := v.isLt
  have h1 : (v.setWidth 32).toNat = v.toNat := by
    rw [BitVec.toNat_setWidth, Nat.mod_eq_of_lt (by omega)]
  have h2 : v.toNat * 2 ^ (8 * k) < 2 ^ 32 := by
    calc v.toNat * 2 ^ (8 * k) < 2 ^ 8 * 2 ^ (8 * k) := Nat.mul_lt_mul_of_pos_right hv (Nat.two_pow_pos _)
      _ = 2 ^ (8 + 8 * k) := (Nat.pow_add 2 8 _).symm
      _ ≤ 2 ^ 32 := Nat.pow_le_pow_right (by decide) (by omega)
  rw [BitVec.toNat_or, BitVec.toNat_shiftLeft, h1, Nat.shiftLeft_eq, Nat.mod_eq_of_lt h2, Nat.mul_comm,
    Nat.or_comm, ← Nat.two_pow_add_eq_or_of_lt h, Nat.add_comm]

/-- The state after `n` raw bytes have been read, every access served. -/
def fetched (s : State) (n : Nat) : State :=
  { s with
    draws := s.draws.drop n
    ipos := s.ipos + BitVec.ofNat 32 n
    eos := if n = 0 then s.eos else false }

@[simp] theorem fetched_zero (s : State) : fetched s 0 = s := by simp [fetched]

theorem ofNat_add32 (p : BitVec 32) (a b : Nat) :
    p + BitVec.ofNat 32 a + BitVec.ofNat 32 b = p + BitVec.ofNat 32 (a + b) := by
  rw [BitVec.add_assoc, ← BitVec.ofNat_add]

/-- Bytes read in two parts. -/
theorem fetched_fetched (s : State) (a b : Nat) : fetched (fetched s a) b = fetched s (a + b) := by
  unfold fetched
  simp only [List.drop_drop, ofNat_add32]
  congr 1
  by_cases ha : a = 0 <;> by_cases hb : b = 0 <;> simp [ha, hb]

theorem fetched_served {s : State} {j k : Nat} (h : Served (j + k) s) : Served k (fetched s j) :=
  Served.rest h rfl

theorem fetched_ipos {s : State} {n : Nat} (h : s.ipos.toNat + n < 2 ^ 32) :
    (fetched s n).ipos.toNat = s.ipos.toNat + n := toNat_addNat h

/-- The bytes from IPOS on, after the first of them have been read. -/
theorem fetched_drop {s : State} {vs ws : List Byte} (hwf : s.mem.src.length < 2 ^ 32)
    (hd : s.mem.src.drop s.ipos.toNat = vs ++ ws) :
    (fetched s vs.length).mem.src.drop (fetched s vs.length).ipos.toNat = ws := by
  have hlen := congrArg List.length hd
  simp only [List.length_drop, List.length_append] at hlen
  rcases Nat.lt_or_ge s.mem.src.length s.ipos.toNat with h | h
  · have hv : vs.length = 0 := by omega
    have hvs : vs = [] := List.length_eq_zero_iff.1 hv
    subst hvs
    simpa using hd
  · rw [fetched_ipos (by omega)]
    show s.mem.src.drop (s.ipos.toNat + vs.length) = ws
    rw [← List.drop_drop, hd, List.drop_left]

theorem srcByte_fetched {s : State} {v : Byte} (h : Served 1 s) (hv : s.mem.src[s.ipos.toNat]? = some v) :
    srcByte s = .ok (some v) (fetched s 1) := srcByte_served h hv

/-- The byte at IPOS. -/
theorem srcAt_of_drop {s : State} {v : Byte} {vs : List Byte} (hd : s.mem.src.drop s.ipos.toNat = v :: vs) :
    s.mem.src[s.ipos.toNat]? = some v := by
  have := congrArg (fun l : List Byte => l[0]?) hd
  simpa using this

/-- `read_exact` with enough bytes left and every access served (R126). -/
theorem readBytes_ok (vs : List Byte) {ws : List Byte} {k : Nat} {acc : BitVec 32} {s : State}
    (hd : s.mem.src.drop s.ipos.toNat = vs ++ ws) (hwf : s.mem.src.length < 2 ^ 32) (hs : Served vs.length s)
    (hacc : acc.toNat < 2 ^ (8 * k)) (hk : k + vs.length ≤ 4) :
    ∃ v, readBytes vs.length k acc s = .ok v (fetched s vs.length) ∧
      v.toNat = acc.toNat + 2 ^ (8 * k) * littleEndian vs := by
  induction vs generalizing k acc s with
  | nil => exact ⟨acc, by simp [readBytes], by simp [littleEndian]⟩
  | cons v vs ih =>
    simp only [List.length_cons] at hs hk ⊢
    have hv := srcAt_of_drop hd
    have hp := toNat_putByte (v := v) hacc (by omega)
    have hv8 := v.isLt
    have hpow : 2 ^ (8 * (k + 1)) = 256 * 2 ^ (8 * k) := by rw [Nat.mul_add, Nat.pow_add]; omega
    have hacc' : (putByte acc v k).toNat < 2 ^ (8 * (k + 1)) := by
      rw [hp, hpow]
      have : 2 ^ (8 * k) * v.toNat ≤ 2 ^ (8 * k) * 255 := Nat.mul_le_mul_left _ (by omega)
      omega
    obtain ⟨w, hw, hwv⟩ := ih (k := k + 1) (acc := putByte acc v k) (s := fetched s 1)
      (fetched_drop (vs := [v]) hwf hd) hwf (fetched_served (by rwa [Nat.add_comm])) hacc' (by omega)
    refine ⟨w, ?_, ?_⟩
    · unfold readBytes
      rw [srcByte_fetched (hs.mono (by omega)) hv]
      simp only [Res.bind_ok]
      rw [hw, fetched_fetched, Nat.add_comm 1]
    · rw [hwv, hp, hpow]
      simp only [littleEndian]
      ring

/-- `read_exact(n)` as a whole. -/
theorem readExact_ok {s : State} (vs : List Byte) {ws : List Byte} (hn4 : vs.length ≤ 4)
    (hd : s.mem.src.drop s.ipos.toNat = vs ++ ws) (hwf : s.mem.src.length < 2 ^ 32) (hs : Served vs.length s) :
    readExact vs.length s = .ok (BitVec.ofNat 32 (littleEndian vs)) (fetched s vs.length) := by
  obtain ⟨v, hv, hval⟩ := readBytes_ok vs (k := 0) (acc := 0) hd hwf hs (by decide) (by omega)
  unfold readExact
  rw [hv]
  congr 1
  refine BitVec.eq_of_toNat_eq ?_
  have := littleEndian_lt vs
  have h32 : 2 ^ (8 * vs.length) ≤ 2 ^ 32 := Nat.pow_le_pow_right (by decide) (by omega)
  rw [hval, BitVec.toNat_ofNat, Nat.mod_eq_of_lt (by omega)]
  simp

/-- The state after `n` raw bytes and then end-of-stream, every access served. -/
def metEnd (s : State) (n : Nat) : State :=
  { s with draws := s.draws.drop (n + 1), ipos := s.ipos + BitVec.ofNat 32 n, eos := true }

theorem metEnd_fetched (s : State) (a b : Nat) : metEnd (fetched s a) b = metEnd s (a + b) := by
  unfold metEnd fetched
  simp only [List.drop_drop, ofNat_add32, Nat.add_assoc]

/-- The end of SRC, met at once. -/
theorem srcByte_metEnd {s : State} (h : Served 1 s) (hd : s.mem.src.drop s.ipos.toNat = []) :
    srcByte s = .ok none (metEnd s 0) := by
  rw [srcByte_end h (List.drop_eq_nil_iff.1 hd)]
  simp [metEnd]

/-- A raw read that meets the end of SRC: the bytes that remained have been consumed (R126). -/
theorem readBytes_short (vs : List Byte) {n k : Nat} {acc : BitVec 32} {s : State}
    (hd : s.mem.src.drop s.ipos.toNat = vs) (hn : vs.length < n) (hwf : s.mem.src.length < 2 ^ 32)
    (hs : Served (vs.length + 1) s) : readBytes n k acc s = raise .shortRead (metEnd s vs.length) := by
  induction vs generalizing n k acc s with
  | nil =>
    obtain ⟨n, rfl⟩ := Nat.exists_eq_succ_of_ne_zero (Nat.ne_of_gt hn)
    unfold readBytes
    rw [srcByte_metEnd (hs.mono (by simp)) hd]
    rfl
  | cons v vs ih =>
    simp only [List.length_cons] at hs hn ⊢
    obtain ⟨n, rfl⟩ := Nat.exists_eq_succ_of_ne_zero (Nat.ne_of_gt (Nat.lt_of_le_of_lt (Nat.zero_le _) hn))
    unfold readBytes
    rw [srcByte_fetched (hs.mono (by omega)) (srcAt_of_drop hd)]
    simp only [Res.bind_ok]
    rw [ih (s := fetched s 1) (fetched_drop (vs := [v]) hwf hd) (by omega) hwf
      (fetched_served (by rw [Nat.add_comm]; exact hs)), metEnd_fetched, Nat.add_comm 1]

/-! ### The writer -/

/-- The state after raw bytes have been appended, every access served. -/
def appended (s : State) (vs : List Byte) : State :=
  { s with
    draws := s.draws.drop vs.length
    mem := { s.mem with snk := s.mem.snk ++ vs }
    opos := s.opos + BitVec.ofNat 32 vs.length }

@[simp] theorem appended_nil (s : State) : appended s [] = s := by simp [appended]

theorem appended_appended (s : State) (vs ws : List Byte) :
    appended (appended s vs) ws = appended s (vs ++ ws) := by
  unfold appended
  simp only [List.drop_drop, ofNat_add32, List.append_assoc, List.length_append]

/-- Raw writes, every one served and below the position limit (R146). -/
theorem writeBytes_ok (vs : List Byte) {s : State} (hs : Served vs.length s)
    (hp : s.opos.toNat + vs.length ≤ 2 ^ 32 - 1) : writeBytes vs s = .ok () (appended s vs) := by
  induction vs generalizing s with
  | nil => simp [writeBytes]
  | cons v vs ih =>
    simp only [List.length_cons] at hs hp
    have hne : s.opos ≠ lastPos := by
      intro he; rw [he] at hp; simp [lastPos] at hp
    have hi : (appended s [v]).opos.toNat = s.opos.toNat + 1 := toNat_addNat (n := 1) (by omega)
    have h1 : snkByte v s = .ok () (appended s [v]) := snkByte_served v (hs.mono (by omega)) hne
    unfold writeBytes
    rw [h1]
    simp only [Res.bind_ok]
    rw [ih (Served.rest (j := 1) (s := s) (by rwa [Nat.add_comm]) rfl) (by rw [hi]; omega), appended_appended]
    rfl

/-- Raw writes that reach the last position: the bytes before it are appended, the next faults without an access (R140,
R146). -/
theorem writeBytes_full (vs : List Byte) {w : Byte} {ws : List Byte} {s : State} (hs : Served vs.length s)
    (hp : s.opos.toNat + vs.length = 2 ^ 32 - 1) :
    writeBytes (vs ++ w :: ws) s = raise .posOverflow (appended s vs) := by
  induction vs generalizing s with
  | nil =>
    have hl : s.opos = lastPos := BitVec.eq_of_toNat_eq (by simpa [lastPos] using hp)
    rw [List.nil_append, writeBytes, snkByte_full hl, appended_nil]
    rfl
  | cons v vs ih =>
    simp only [List.length_cons] at hs hp
    have hne : s.opos ≠ lastPos := by
      intro he; rw [he] at hp; simp [lastPos] at hp
    have hi : (appended s [v]).opos.toNat = s.opos.toNat + 1 := toNat_addNat (n := 1) (by omega)
    have h1 : snkByte v s = .ok () (appended s [v]) := snkByte_served v (hs.mono (by omega)) hne
    rw [List.cons_append, writeBytes, h1]
    simp only [Res.bind_ok]
    rw [ih (Served.rest (j := 1) (s := s) (by rwa [Nat.add_comm]) rfl) (by rw [hi]; omega), appended_appended]
    rfl

/-- The bits of the buffer after one more (R141). -/
theorem bits_putBit {acc : Byte} {b : Bool} {k : BitVec 4} (h : acc.toNat < 2 ^ k.toNat) (hk : k.toNat ≤ 7) :
    (List.range (k.toNat + 1)).map (putBit acc b k).getLsbD = (List.range k.toNat).map acc.getLsbD ++ [b] := by
  rw [List.range_succ, List.map_append]
  congr 1
  · refine List.map_congr_left fun i hi => ?_
    have := List.mem_range.1 hi
    simp only [putBit, BitVec.getLsbD_or, BitVec.getLsbD_shiftLeft]
    simp [this]
  · have h0 : acc.getLsbD k.toNat = false := Nat.testBit_lt_two_pow h
    simp only [List.map_cons, List.map_nil, putBit, BitVec.getLsbD_or, h0, BitVec.getLsbD_shiftLeft]
    have : k.toNat < 8 := by omega
    cases b <;> simp [this]

/-- The state after bits have been written: `m` bytes more in SNK, and a new buffer. -/
def wrote (s : State) (snk : List Byte) (m : Nat) (acc : Byte) (cnt : BitVec 4) : State :=
  { s with
    mem := { s.mem with snk := snk }
    opos := s.opos + BitVec.ofNat 32 m
    draws := s.draws.drop m
    wacc := acc
    wcnt := cnt }

/-- One bit written (R141): it follows the bits written before; every eighth makes a byte. -/
theorem writeBit_ok (b : Bool) {s : State} (hW : WriterInv s) (hs : Served ((s.wcnt.toNat + 1) / 8) s)
    (hp : s.opos.toNat + (s.wcnt.toNat + 1) / 8 ≤ 2 ^ 32 - 1) :
    ∃ snk acc cnt, writeBit b s = .ok () (wrote s snk ((s.wcnt.toNat + 1) / 8) acc cnt) ∧
      cnt.toNat = (s.wcnt.toNat + 1) % 8 ∧ acc.toNat < 2 ^ cnt.toNat ∧
      streamBits snk ++ (List.range cnt.toNat).map acc.getLsbD = writtenBits s ++ [b] ∧
      s.mem.snk <+: snk ∧ snk.length = s.mem.snk.length + (s.wcnt.toNat + 1) / 8 := by
  obtain ⟨hk, hacc⟩ := hW
  have hlt := s.wcnt.isLt
  have hsucc : (s.wcnt + 1).toNat = s.wcnt.toNat + 1 := by rw [BitVec.toNat_add]; simp; omega
  have hbits := bits_putBit (b := b) hacc hk
  by_cases h7 : s.wcnt.toNat = 7
  · have hm : (s.wcnt.toNat + 1) / 8 = 1 := by omega
    have h8 : s.wcnt + 1 = 8 := BitVec.eq_of_toNat_eq (by rw [hsucc, h7]; rfl)
    rw [hm] at hs hp ⊢
    have hne : s.opos ≠ lastPos := by
      intro he; rw [he] at hp; simp [lastPos] at hp
    refine ⟨s.mem.snk ++ [putBit s.wacc b s.wcnt], 0, 0, ?_, by rw [h7]; rfl, by decide, ?_, List.prefix_append _ _,
      by simp⟩
    · unfold writeBit
      simp only
      rw [if_pos h8, snkByte_served (s := { s with wacc := 0, wcnt := 0 }) _ hs hne]
      rfl
    · rw [h7] at hbits
      have hb8 : byteBits (putBit s.wacc b s.wcnt) = (List.range 7).map s.wacc.getLsbD ++ [b] := hbits
      simp only [streamBits_append, streamBits_cons, streamBits_nil, List.append_nil, writtenBits, pendingBits, h7,
        hb8, List.append_assoc]
      simp
  · have hm : (s.wcnt.toNat + 1) / 8 = 0 := by omega
    have h8 : s.wcnt + 1 ≠ 8 := by
      intro he
      have := congrArg BitVec.toNat he
      rw [hsucc] at this
      simp at this
      omega
    refine ⟨s.mem.snk, putBit s.wacc b s.wcnt, s.wcnt + 1, ?_, by rw [hsucc]; omega, ?_, ?_, List.prefix_refl _, by omega⟩
    · unfold writeBit
      simp only
      rw [if_neg h8, hm]
      simp [wrote]
    · rw [hsucc]; exact putBit_small hacc
    · rw [hsucc, hbits, writtenBits, pendingBits, List.append_assoc]

/-- Bits written one after the other follow the bits written before (R67, R141, R142). -/
theorem writeBits_ok (bs : List Bool) {s : State} (hW : WriterInv s)
    (hs : Served ((s.wcnt.toNat + bs.length) / 8) s)
    (hp : s.opos.toNat + (s.wcnt.toNat + bs.length) / 8 ≤ 2 ^ 32 - 1) :
    ∃ snk acc cnt, writeBits bs s = .ok () (wrote s snk ((s.wcnt.toNat + bs.length) / 8) acc cnt) ∧
      cnt.toNat = (s.wcnt.toNat + bs.length) % 8 ∧ acc.toNat < 2 ^ cnt.toNat ∧
      streamBits snk ++ (List.range cnt.toNat).map acc.getLsbD = writtenBits s ++ bs ∧
      s.mem.snk <+: snk ∧ snk.length = s.mem.snk.length + (s.wcnt.toNat + bs.length) / 8 := by
  induction bs generalizing s with
  | nil =>
    obtain ⟨hk, hacc⟩ := hW
    have hm : (s.wcnt.toNat + ([] : List Bool).length) / 8 = 0 := by simp; omega
    refine ⟨s.mem.snk, s.wacc, s.wcnt, ?_, by simp; omega, hacc, by simp [writtenBits, pendingBits],
      List.prefix_refl _, by omega⟩
    rw [hm]
    simp [writeBits, wrote]
  | cons b bs ih =>
    obtain ⟨hk, hacc⟩ := id hW
    simp only [List.length_cons] at hs hp ⊢
    obtain ⟨snk, acc, cnt, h1, h2, h3, h4, h5, h6⟩ := writeBit_ok b hW (hs.mono (by omega)) (by omega)
    have hdiv : (s.wcnt.toNat + (bs.length + 1)) / 8 = (s.wcnt.toNat + 1) / 8 + (cnt.toNat + bs.length) / 8 := by
      rw [h2]; omega
    have hW' : WriterInv (wrote s snk ((s.wcnt.toNat + 1) / 8) acc cnt) := ⟨by simp only [wrote]; omega, h3⟩
    have hopos : (wrote s snk ((s.wcnt.toNat + 1) / 8) acc cnt).opos.toNat =
        s.opos.toNat + (s.wcnt.toNat + 1) / 8 := toNat_addNat (by omega)
    obtain ⟨snk', acc', cnt', g1, g2, g3, g4, g5, g6⟩ := ih hW'
      (Served.rest (j := (s.wcnt.toNat + 1) / 8) (s := s) (by rw [hdiv] at hs; exact hs) rfl)
      (by rw [hopos]; simp only [wrote]; omega)
    refine ⟨snk', acc', cnt', ?_, ?_, g3, ?_, h5.trans g5, ?_⟩
    · unfold writeBits
      rw [h1]
      simp only [Res.bind_ok]
      rw [g1, hdiv]
      simp only [wrote, List.drop_drop]
      congr 2
      refine BitVec.eq_of_toNat_eq ?_
      simp [BitVec.toNat_add, BitVec.toNat_ofNat]
      omega
    · rw [g2]; simp only [wrote]; rw [h2]; omega
    · rw [g4]
      have : writtenBits (wrote s snk ((s.wcnt.toNat + 1) / 8) acc cnt) = writtenBits s ++ [b] := h4
      rw [this, List.append_assoc]
      rfl
    · rw [g6]
      simp only [wrote]
      rw [h6, hdiv]
      omega

/-- The pending bits put out as one byte: its unused high bits are zero (R147, R149). -/
theorem flush_packs {s : State} (hW : WriterInv s) (h0 : s.wcnt ≠ 0) :
    ∃ pad < 8, streamBits (s.mem.snk ++ [s.wacc]) = writtenBits s ++ List.replicate pad false := by
  have hne : s.wcnt.toNat ≠ 0 := fun h => h0 (BitVec.eq_of_toNat_eq h)
  obtain ⟨hk, hacc⟩ := hW
  refine ⟨8 - s.wcnt.toNat, by omega, ?_⟩
  rw [streamBits_append, streamBits_cons, streamBits_nil, List.append_nil, writtenBits, List.append_assoc]
  congr 1
  unfold byteBits pendingBits
  refine List.ext_getElem (by simp; omega) fun i h1 h2 => ?_
  simp only [List.length_map, List.length_range] at h1
  by_cases hi : i < s.wcnt.toNat
  · rw [List.getElem_append_left (by simpa using hi)]
    simp
  · rw [List.getElem_append_right (by simpa using hi)]
    simp only [List.getElem_map, List.getElem_range, List.getElem_replicate]
    exact Nat.testBit_lt_two_pow (Nat.lt_of_lt_of_le hacc (Nat.pow_le_pow_right (by decide) (by omega)))

end Sys2Proof.Machine
end

