-- ==== Sys2Proof/Laws/Archive.lean ====
section
/-! SUPPORT. The archiver's pieces on a served medium: the two passes over SRC, the header and the table written and read
back, and the decode walk (44_archiver.md R200 to R206). -/

namespace Sys2Proof.Machine

/-! ### The frequency pass -/

/-- The state after a pass over the last `n` bytes of SRC, every access served (R163). -/
def scanned (s : State) (n : Nat) (freq : Vector (BitVec 32) 256) : State :=
  { s with freq := freq, draws := s.draws.drop (n + 1), ipos := s.ipos + BitVec.ofNat 32 n, eos := true, res := 0 }

/-- `FQ_SCAN` adds to every counter the number of times its symbol occurs in the rest of SRC (R163). -/
theorem scanSource_freq (vs : List Byte) {s : State} (hd : s.mem.src.drop s.ipos.toNat = vs)
    (hwf : s.mem.src.length < 2 ^ 32) (hs : Served (vs.length + 1) s)
    (hc : ∀ c, (s.getFreq c).toNat + vs.count c ≤ 2 ^ 32 - 1) :
    ∃ freq, scanSource freqInc (vs.length + 1) s = .ok () (scanned s vs.length freq) ∧
      ∀ c, ((scanned s vs.length freq).getFreq c).toNat = (s.getFreq c).toNat + vs.count c := by
  induction vs generalizing s with
  | nil =>
    refine ⟨s.freq, ?_, fun c => by simp [scanned, State.getFreq]⟩
    unfold scanSource
    rw [srcByte_metEnd (hs.mono (by simp)) hd]
    rfl
  | cons v vs ih =>
    simp only [List.length_cons] at hs ⊢
    have hv := hc v
    rw [List.count_cons_self] at hv
    have hne : (fetched s 1).getFreq v ≠ 0xFFFFFFFF := by
      intro he
      have h1 : (s.getFreq v).toNat = 2 ^ 32 - 1 := congrArg BitVec.toNat he
      omega
    have hinc : freqInc v (fetched s 1) = .ok () ((fetched s 1).setFreq v ((fetched s 1).getFreq v + 1)) := by
      unfold freqInc; rw [if_neg hne]
    have hsucc : ((fetched s 1).getFreq v + 1).toNat = (s.getFreq v).toNat + 1 := toNat_addNat (n := 1) (by
      show (s.getFreq v).toNat + 1 < 2 ^ 32
      omega)
    have hfreq : ∀ c, (((fetched s 1).setFreq v ((fetched s 1).getFreq v + 1)).getFreq c).toNat + vs.count c =
        (s.getFreq c).toNat + (v :: vs).count c := by
      intro c
      by_cases h : c = v
      · subst h
        rw [State.getFreq_setFreq_self, hsucc, List.count_cons_self]
        omega
      · rw [State.getFreq_setFreq_ne _ _ h, List.count_cons_of_ne (Ne.symm h)]
        rfl
    obtain ⟨freq, h1, h2⟩ := ih (s := (fetched s 1).setFreq v ((fetched s 1).getFreq v + 1))
      (fetched_drop (vs := [v]) hwf hd) hwf (fetched_served (s := s) (by rw [Nat.add_comm]; exact hs))
      fun c => by rw [hfreq]; exact hc c
    refine ⟨freq, ?_, fun c => ?_⟩
    · rw [scanSource, srcByte_fetched (hs.mono (by omega)) (srcAt_of_drop hd)]
      simp only [Res.bind_ok]
      rw [hinc]
      simp only [Res.bind_ok]
      rw [h1]
      congr 1
      simp only [scanned, fetched, State.setFreq, List.drop_drop, ofNat_add32]
      congr 1
      · rw [Nat.add_comm 1]
      · congr 1; omega
    · have := h2 c
      rw [hfreq] at this
      exact this

theorem scanFreq_ok (vs : List Byte) {s : State} (hd : s.mem.src.drop s.ipos.toNat = vs)
    (hwf : s.mem.src.length < 2 ^ 32) (hs : Served (vs.length + 1) s)
    (hc : ∀ c, (s.getFreq c).toNat + vs.count c ≤ 2 ^ 32 - 1) :
    ∃ freq, scanFreq s = .ok () (scanned s vs.length freq) ∧
      ∀ c, ((scanned s vs.length freq).getFreq c).toNat = (s.getFreq c).toNat + vs.count c := by
  have hb : scanBound s = vs.length + 1 := by rw [scanBound, ← hd, List.length_drop]
  rw [scanFreq, hb]
  exact scanSource_freq vs hd hwf hs hc

/-- FQ_SCAN where a counter is full: it faults, and the counts so far stay (R163, R162). -/
theorem scanSource_full (vs : List Byte) {v : Byte} {ws : List Byte} {fuel : Nat} {s : State}
    (hd : s.mem.src.drop s.ipos.toNat = vs ++ v :: ws) (hw : s.mem.src.length < 2 ^ 32) (hfuel : vs.length < fuel)
    (hs : Served (vs.length + 1) s) (hc : ∀ c, (s.getFreq c).toNat + vs.count c ≤ 2 ^ 32 - 1) (hv : (s.getFreq v).toNat + vs.count v = 2 ^ 32 - 1) :
    ∃ u : State, scanSource freqInc fuel s = raise .freqOverflow u ∧
      (∀ c, (u.getFreq c).toNat = (s.getFreq c).toNat + vs.count c) ∧ u = { s with
          freq := u.freq, eos := false, ipos := s.ipos + BitVec.ofNat 32 (vs.length + 1)
          draws := s.draws.drop (vs.length + 1) } := by
  induction vs generalizing s fuel with
  | nil =>
    obtain ⟨fuel, rfl⟩ := Nat.exists_eq_succ_of_ne_zero (Nat.ne_of_gt (Nat.lt_of_le_of_lt (Nat.zero_le _) hfuel))
    refine ⟨fetched s 1, ?_, fun c => by simp [fetched, State.getFreq], ?_⟩
    · rw [scanSource, srcByte_fetched hs (srcAt_of_drop hd)]
      simp only [Res.bind_ok]
      have hv' : (s.getFreq v).toNat = 2 ^ 32 - 1 := by simpa using hv
      have : (fetched s 1).getFreq v = 0xFFFFFFFF := BitVec.eq_of_toNat_eq hv'
      unfold freqInc
      rw [if_pos this]
      rfl
    · simp [fetched]
  | cons x vs ih =>
    obtain ⟨fuel, rfl⟩ := Nat.exists_eq_succ_of_ne_zero (Nat.ne_of_gt (Nat.lt_of_le_of_lt (Nat.zero_le _) hfuel))
    simp only [List.length_cons] at hfuel hs
    have hx := hc x
    rw [List.count_cons_self] at hx
    have hne : (fetched s 1).getFreq x ≠ 0xFFFFFFFF := by
      intro he
      have h1 : (s.getFreq x).toNat = 2 ^ 32 - 1 := congrArg BitVec.toNat he
      omega
    have hsucc : ((fetched s 1).getFreq x + 1).toNat = (s.getFreq x).toNat + 1 := toNat_addNat (n := 1) (by
      show (s.getFreq x).toNat + 1 < 2 ^ 32
      omega)
    have hfreq : ∀ c, (((fetched s 1).setFreq x ((fetched s 1).getFreq x + 1)).getFreq c).toNat + vs.count c =
        (s.getFreq c).toNat + (x :: vs).count c := by
      intro c
      by_cases h : c = x
      · subst h
        rw [State.getFreq_setFreq_self, hsucc, List.count_cons_self]
        omega
      · rw [State.getFreq_setFreq_ne _ _ h, List.count_cons_of_ne (Ne.symm h)]
        rfl
    obtain ⟨u, h1, h2, h3⟩ := ih (fuel := fuel) (s := (fetched s 1).setFreq x ((fetched s 1).getFreq x + 1))
      (fetched_drop (vs := [x]) hw hd) hw (by omega) (fetched_served (s := s) (by rw [Nat.add_comm]; exact hs))
      (fun c => by rw [hfreq]; exact hc c) (by rw [hfreq]; exact hv)
    refine ⟨u, ?_, fun c => by rw [h2, hfreq], ?_⟩
    · rw [scanSource, srcByte_fetched (hs.mono (by omega)) (srcAt_of_drop hd)]
      simp only [Res.bind_ok]
      unfold freqInc
      rw [if_neg hne]
      simp only [Res.bind_ok]
      exact h1
    · conv_lhs => rw [h3]
      simp only [fetched, State.setFreq, List.drop_drop, ofNat_add32, List.length_cons]
      congr 1
      · rw [Nat.add_comm 1]
      · congr 1; omega

/-! ### The payload pass -/

/-- The state after the rest of SRC, `n` bytes, has been coded into `m` more bytes of SNK and a new bit buffer. -/
def coded (s : State) (n m : Nat) (snk : List Byte) (acc : Byte) (cnt : BitVec 4) : State :=
  { wrote s snk m acc cnt with
    draws := s.draws.drop (n + 1 + m), ipos := s.ipos + BitVec.ofNat 32 n, eos := true, res := 0 }

/-- `ENC_PAYLOAD` appends the code of every remaining byte of SRC to the bits written (R201, R103). -/
theorem scanSource_code (vs : List Byte) {s : State} (hd : s.mem.src.drop s.ipos.toNat = vs)
    (hwf : s.mem.src.length < 2 ^ 32) (hW : WriterInv s)
    (hs : Served (vs.length + 1 + (s.wcnt.toNat + (vs.flatMap (symbolBits s)).length) / 8) s)
    (hp : s.opos.toNat + (s.wcnt.toNat + (vs.flatMap (symbolBits s)).length) / 8 ≤ 2 ^ 32 - 1) :
    ∃ snk acc cnt, scanSource writeSymbol (vs.length + 1) s =
        .ok () (coded s vs.length ((s.wcnt.toNat + (vs.flatMap (symbolBits s)).length) / 8) snk acc cnt) ∧
      cnt.toNat = (s.wcnt.toNat + (vs.flatMap (symbolBits s)).length) % 8 ∧ acc.toNat < 2 ^ cnt.toNat ∧
      streamBits snk ++ (List.range cnt.toNat).map acc.getLsbD = writtenBits s ++ vs.flatMap (symbolBits s) ∧
      s.mem.snk <+: snk ∧
      snk.length = s.mem.snk.length + (s.wcnt.toNat + (vs.flatMap (symbolBits s)).length) / 8 := by
  induction vs generalizing s with
  | nil =>
    obtain ⟨hk, hacc⟩ := hW
    have hm : (s.wcnt.toNat + (([] : List Byte).flatMap (symbolBits s)).length) / 8 = 0 := by simp; omega
    refine ⟨s.mem.snk, s.wacc, s.wcnt, ?_, by simp; omega, hacc, by simp [writtenBits, pendingBits],
      List.prefix_refl _, by omega⟩
    rw [hm] at hs ⊢
    unfold scanSource
    rw [srcByte_metEnd (hs.mono (by simp)) hd]
    simp [coded, wrote, metEnd]
  | cons v vs ih =>
    simp only [List.length_cons, List.flatMap_cons, List.length_append] at hs hp ⊢
    generalize hB : (symbolBits s v).length = B at *
    generalize hR : (vs.flatMap (symbolBits s)).length = R at *
    have hk := hW.1
    obtain ⟨snk, acc, cnt, h1, h2, h3, h4, h5, h6⟩ := writeBits_ok (symbolBits s v) (s := fetched s 1) hW
      (by rw [hB]; exact fetched_served (s := s) (hs.mono (by show _ ≤ _; simp only [fetched]; omega)))
      (by rw [hB]; simp only [fetched]; omega)
    rw [hB] at h1 h2 h6
    have hmA : ((fetched s 1).wcnt.toNat + B) / 8 = (s.wcnt.toNat + B) / 8 := rfl
    rw [hmA] at h1 h6
    have h2' : cnt.toNat = (s.wcnt.toNat + B) % 8 := h2
    have hdiv : (s.wcnt.toNat + (B + R)) / 8 = (s.wcnt.toNat + B) / 8 + (cnt.toNat + R) / 8 := by
      rw [h2']; omega
    have hopos : (wrote (fetched s 1) snk ((s.wcnt.toNat + B) / 8) acc cnt).opos.toNat =
        s.opos.toNat + (s.wcnt.toNat + B) / 8 := toNat_addNat (p := s.opos) (by omega)
    have hsb : symbolBits (wrote (fetched s 1) snk ((s.wcnt.toNat + B) / 8) acc cnt) = symbolBits s := rfl
    have hih := ih (s := wrote (fetched s 1) snk ((s.wcnt.toNat + B) / 8) acc cnt)
      (fetched_drop (vs := [v]) hwf hd) hwf ⟨by simp only [wrote]; omega, h3⟩
    rw [hsb, hopos, hR] at hih
    obtain ⟨snk', acc', cnt', g1, g2, g3, g4, g5, g6⟩ := hih
      (Served.rest (j := 1 + (s.wcnt.toNat + B) / 8) (s := s)
        (hs.mono (by simp only [wrote]; omega)) (by show (s.draws.drop 1).drop _ = _; rw [List.drop_drop]))
      (by simp only [wrote]; omega)
    have hw : (wrote (fetched s 1) snk ((s.wcnt.toNat + B) / 8) acc cnt).wcnt = cnt := rfl
    rw [hw] at g1 g2 g6
    refine ⟨snk', acc', cnt', ?_, ?_, g3, ?_, h5.trans g5, ?_⟩
    · rw [scanSource, srcByte_fetched (hs.mono (by omega)) (srcAt_of_drop hd)]
      simp only [Res.bind_ok]
      have hws : writeSymbol v (fetched s 1) = writeBits (symbolBits s v) (fetched s 1) := rfl
      rw [hws, h1]
      simp only [Res.bind_ok]
      rw [g1, hdiv]
      simp only [coded, wrote, fetched, List.drop_drop, ofNat_add32]
      congr 2
      · rw [Nat.add_comm 1]
      · congr 1; omega
    · rw [g2, h2']; omega
    · rw [g4]
      have : writtenBits (wrote (fetched s 1) snk ((s.wcnt.toNat + B) / 8) acc cnt) =
          writtenBits s ++ symbolBits s v := h4
      rw [this, List.append_assoc]
    · rw [g6]
      have : (wrote (fetched s 1) snk ((s.wcnt.toNat + B) / 8) acc cnt).mem.snk.length = snk.length := rfl
      rw [this, h6, hdiv]
      show s.mem.snk.length + _ + _ = _
      omega

theorem encPayload_ok (vs : List Byte) {s : State} (hd : s.mem.src.drop s.ipos.toNat = vs)
    (hwf : s.mem.src.length < 2 ^ 32) (hW : WriterInv s)
    (hs : Served (vs.length + 1 + (s.wcnt.toNat + (vs.flatMap (symbolBits s)).length) / 8) s)
    (hp : s.opos.toNat + (s.wcnt.toNat + (vs.flatMap (symbolBits s)).length) / 8 ≤ 2 ^ 32 - 1) :
    ∃ snk acc cnt, encPayload s =
        .ok () (coded s vs.length ((s.wcnt.toNat + (vs.flatMap (symbolBits s)).length) / 8) snk acc cnt) ∧
      cnt.toNat = (s.wcnt.toNat + (vs.flatMap (symbolBits s)).length) % 8 ∧ acc.toNat < 2 ^ cnt.toNat ∧
      streamBits snk ++ (List.range cnt.toNat).map acc.getLsbD = writtenBits s ++ vs.flatMap (symbolBits s) ∧
      s.mem.snk <+: snk ∧
      snk.length = s.mem.snk.length + (s.wcnt.toNat + (vs.flatMap (symbolBits s)).length) / 8 := by
  have hb : scanBound s = vs.length + 1 := by rw [scanBound, ← hd, List.length_drop]
  rw [encPayload, hb]
  exact scanSource_code vs hd hwf hW hs hp

/-! ### The header -/

theorem bytesOf_word32 (v : BitVec 32) : bytesOf 4 v = word32 v := rfl

theorem entryBytes_eq (s : State) (c : Symbol) : entryBytes s c = Entry.bytes ⟨c, s.getCode c, s.getLen c⟩ := rfl

/-- The header that ENC_HEADER writes is that of the file format (R100, R101, R102). -/
theorem headerBytes_eq (s : State) (h : s.tableSize = BitVec.ofNat 32 (tableEntries s).length) :
    headerBytes s = fileHeader s.codeLen (tableEntries s) := by
  unfold headerBytes fileHeader
  rw [bytesOf_word32, bytesOf_word32, h]
  congr 1
  unfold tableEntries presentSymbols
  rw [List.flatMap_map]
  rfl

theorem word32_length (v : BitVec 32) : (word32 v).length = 4 := rfl

theorem entry_length (e : Entry) : e.bytes.length = 6 := rfl

theorem entries_length (es : List Entry) : (es.flatMap Entry.bytes).length = 6 * es.length := by
  induction es with
  | nil => rfl
  | cons e es ih => rw [List.flatMap_cons, List.length_append, ih, entry_length, List.length_cons]; omega

theorem fileHeader_length (v : BitVec 32) (es : List Entry) : (fileHeader v es).length = 8 + 6 * es.length := by
  simp only [fileHeader, List.length_append, word32_length, entries_length]

/-- The four bytes of a value are the value (R66). -/
theorem littleEndian_word32 (v : BitVec 32) : BitVec.ofNat 32 (littleEndian (word32 v)) = v := by
  have h : littleEndian (word32 v) = v.toNat := by
    have := v.isLt
    simp only [littleEndian, word32, BitVec.extractLsb'_toNat, Nat.shiftRight_eq_div_pow]
    omega
  rw [h, BitVec.ofNat_toNat]
  simp

/-- `ENC_HEADER` on a served medium (R200). -/
theorem encHeader_ok {s : State} (hlt : payloadBits s < 2 ^ 32)
    (hs : Served (8 + 6 * (tableEntries s).length) s)
    (hp : s.opos.toNat + (8 + 6 * (tableEntries s).length) ≤ 2 ^ 32 - 1) :
    encHeader s = .ok () (appended { s with
        codeLen := BitVec.ofNat 32 (payloadBits s)
        tableSize := BitVec.ofNat 32 (tableEntries s).length
        hdrBytes := BitVec.ofNat 32 (8 + 6 * (tableEntries s).length) }
      (fileHeader (BitVec.ofNat 32 (payloadBits s)) (tableEntries s))) := by
  have hlen : (presentSymbols s).length = (tableEntries s).length := by
    simp [tableEntries, presentSymbols]
  have hle : (tableEntries s).length ≤ 256 := by
    rw [← hlen]
    have := List.length_filter_le (fun c => s.getLen c != 0) symbols
    rw [symbols_length] at this
    exact this
  have hhdr : headerByteCount (BitVec.ofNat 32 (tableEntries s).length) =
      BitVec.ofNat 32 (8 + 6 * (tableEntries s).length) := by
    unfold headerByteCount
    rw [BitVec.toNat_ofNat, Nat.mod_eq_of_lt (by omega)]
  unfold encHeader
  rw [if_neg (by simp only [Config.streamBound]; omega)]
  simp only [hlen, hhdr]
  generalize hcl : BitVec.ofNat 32 (payloadBits s) = cl
  have hh := headerBytes_eq { s with
      codeLen := cl
      tableSize := BitVec.ofNat 32 (tableEntries s).length
      hdrBytes := BitVec.ofNat 32 (8 + 6 * (tableEntries s).length) } rfl
  have hl := fileHeader_length cl (tableEntries s)
  rw [hh]
  exact writeBytes_ok _ (by
    show Served (fileHeader cl (tableEntries s)).length _
    rw [hl]; exact hs) (by
    show s.opos.toNat + (fileHeader cl (tableEntries s)).length ≤ _
    rw [hl]; exact hp)

/-! ### The header read back -/

/-- `ENC_HEADER` whose payload bit count does not fit its field changes nothing (R200). -/
theorem encHeader_overflow {s : State} (h : 2 ^ 32 ≤ payloadBits s) : encHeader s = raise .codeLenOverflow s := by
  unfold encHeader
  rw [if_pos (show Config.streamBound ≤ payloadBits s from h)]

/-- The state with another node memory. -/
def withNodes (s : State) (ns : List Node) : State := { s with nodes := ns }

theorem lowByte_ofNat (v : Byte) : lowByte (BitVec.ofNat 32 v.toNat) = v := by
  unfold lowByte
  refine BitVec.eq_of_toNat_eq ?_
  have := v.isLt
  rw [BitVec.toNat_setWidth, BitVec.toNat_ofNat]
  omega

/-- One entry of the table loop whose six bytes are there: they are read, and what `tree_insert` makes of the entry
decides (R203). -/
theorem readEntries_entry (e : Entry) (k : Nat) {ws : List Byte} {s : State}
    (hd : s.mem.src.drop s.ipos.toNat = e.bytes ++ ws) (hwf : s.mem.src.length < 2 ^ 32) (hs : Served 6 s) :
    readEntries (k + 1) s =
        (treeInsert e.sym e.code e.len.toNat (fetched s 6)).bind (fun _ s => readEntries k s) ∧
      (fetched s 6).mem.src.drop (fetched s 6).ipos.toNat = ws := by
  have hbytes : e.bytes = word32 e.code ++ ([e.len] ++ [e.sym]) := rfl
  rw [hbytes, List.append_assoc, List.append_assoc] at hd
  have r1 := readExact_ok (s := s) (word32 e.code) (by simp [word32]) hd hwf (hs.mono (by rw [word32_length]; omega))
  have d1 := fetched_drop hwf hd
  rw [word32_length] at r1 d1
  have r2 := readExact_ok (s := fetched s 4) [e.len] (by simp) d1 hwf (fetched_served (hs.mono (by simp)))
  have d2 := fetched_drop (s := fetched s 4) hwf d1
  have r3 := readExact_ok (s := fetched (fetched s 4) 1) [e.sym] (by simp) d2 hwf
    (fetched_served (fetched_served (j := 4) (k := 2) hs))
  have d3 := fetched_drop (s := fetched (fetched s 4) 1) hwf d2
  simp only [List.length_singleton, fetched_fetched, Nat.reduceAdd] at r2 r3 d3
  have hn : (BitVec.ofNat 32 (littleEndian [e.len])).toNat = e.len.toNat := by
    have := e.len.isLt
    simp only [littleEndian, BitVec.toNat_ofNat]
    omega
  have hx : lowByte (BitVec.ofNat 32 (littleEndian [e.sym])) = e.sym := by
    simpa [littleEndian] using lowByte_ofNat e.sym
  refine ⟨?_, d3⟩
  rw [readEntries, r1]
  simp only [Res.bind_ok, littleEndian_word32]
  rw [r2]
  simp only [Res.bind_ok]
  rw [r3]
  simp only [Res.bind_ok, hn, hx]

/-- An entry of which SRC holds only a part: what there is has been read, and nothing inserted (R203, R126). -/
theorem readEntries_short (vs : List Byte) (k : Nat) {s : State} (hd : s.mem.src.drop s.ipos.toNat = vs)
    (hlen : vs.length < 6) (hwf : s.mem.src.length < 2 ^ 32) (hs : Served (vs.length + 1) s) :
    readEntries (k + 1) s = raise .shortRead (metEnd s vs.length) := by
  unfold readEntries
  rcases Nat.lt_or_ge vs.length 4 with h4 | h4
  · have h := readBytes_short vs (n := 4) (k := 0) (acc := 0) hd h4 hwf hs
    unfold readExact
    rw [h]
    rfl
  · have hsplit : vs = vs.take 4 ++ vs.drop 4 := (List.take_append_drop 4 vs).symm
    have hl4 : (vs.take 4).length = 4 := by rw [List.length_take]; omega
    rw [hsplit] at hd
    have r1 := readExact_ok (vs.take 4) (by omega) hd hwf (hs.mono (by omega))
    have d1 := fetched_drop hwf hd
    rw [hl4] at r1 d1
    rw [r1]
    simp only [Res.bind_ok]
    generalize hw : vs.drop 4 = ws at d1
    have hwl : vs.length = 4 + ws.length := by rw [← hw, List.length_drop]; omega
    rw [hwl] at hs ⊢
    match ws, hwl with
    | [], hwl =>
      have h := readBytes_short [] (n := 1) (k := 0) (acc := 0) d1 (by simp) hwf (fetched_served (j := 4) hs)
      unfold readExact
      rw [h, metEnd_fetched]
      rfl
    | [v], hwl =>
      have r2 := readExact_ok (s := fetched s 4) (ws := []) [v] (by simp) d1 hwf
        (fetched_served (hs.mono (by simp)))
      have d2 := fetched_drop (s := fetched s 4) (vs := [v]) (ws := []) hwf d1
      simp only [List.length_singleton, fetched_fetched, Nat.reduceAdd] at r2 d2
      rw [r2]
      simp only [Res.bind_ok]
      have h := readBytes_short [] (n := 1) (k := 0) (acc := 0) d2 (by simp) hwf (fetched_served (j := 5) (k := 1) hs)
      unfold readExact
      rw [h, metEnd_fetched]
      rfl
    | _ :: _ :: _, hwl => simp at hwl; omega

/-- The table loop of DEC_HEADER over good entries (R203, R168): every one becomes a leaf, and the loop goes on with the
`k` entries after them. -/
theorem readEntries_good (es : List Entry) (k : Nat) {ws : List Byte} {s : State} (h : TreeInv s)
    (hd : s.mem.src.drop s.ipos.toNat = es.flatMap Entry.bytes ++ ws) (hwf : s.mem.src.length < 2 ^ 32)
    (hs : Served (6 * es.length) s) (hcap : s.nodes.length + 32 * es.length ≤ Config.nodeCap)
    (hlen : ∀ e ∈ es, 1 ≤ e.len.toNat ∧ e.len.toNat ≤ 32) (hpf : PrefixFree (es.map Entry.bits))
    (hfree : ∀ e ∈ es, PathFree s e.bits) :
    ∃ ns, readEntries (es.length + k) s = readEntries k (withNodes (fetched s (6 * es.length)) ns) ∧
      (fetched s (6 * es.length)).mem.src.drop (fetched s (6 * es.length)).ipos.toNat = ws ∧
      TreeShape ns s.root s.cur ∧ ns.length ≤ s.nodes.length + 32 * es.length ∧
      ∀ q d g, HasLeaf ns s.root q d g ↔
        (∃ e ∈ es, q = e.bits ∧ d = e.sym ∧ g = 0) ∨ HasLeaf s.nodes s.root q d g := by
  induction es generalizing s with
  | nil => exact ⟨s.nodes, by simp [withNodes], by simpa using hd, h, by simp, fun q d g => by simp⟩
  | cons e es ih =>
    simp only [List.length_cons] at hs hcap ⊢
    rw [List.flatMap_cons, List.append_assoc] at hd
    obtain ⟨hread, hd'⟩ := readEntries_entry e (es.length + k) hd hwf (hs.mono (by omega))
    obtain ⟨hl1, hl2⟩ := hlen e (by simp)
    have hT : TreeInv (fetched s 6) := h
    rcases treeInsert_spec e.sym e.code e.len.toNat hT (by show s.nodes.length + 32 ≤ _; omega) hl1 hl2 with
      ⟨-, ns, hok, hshape, hgrow, hleaves⟩ | ⟨hnot, -⟩
    · have hleaves' : ∀ q d g, HasLeaf ns s.root q d g ↔
          (q = e.bits ∧ d = e.sym ∧ g = 0) ∨ HasLeaf s.nodes s.root q d g := hleaves
      simp only [PrefixFree, List.map_cons, List.pairwise_cons] at hpf
      have hgrow' : ns.length ≤ s.nodes.length + e.len.toNat := hgrow
      obtain ⟨ns', g1, g2, g3, g4, g5⟩ := ih (s := withNodes (fetched s 6) ns) hshape hd' hwf
        (fetched_served (s := s) (j := 6) (hs.mono (by omega)))
        (by show ns.length + _ ≤ _; omega) (fun e' he' => hlen e' (by simp [he'])) hpf.2
        (by
          intro e' he' q d hq
          obtain ⟨g, hg⟩ := leafSymbol_eq_some.1 hq
          rcases (hleaves' q d g).1 hg with ⟨rfl, -, -⟩ | hold
          · exact hpf.1 e'.bits (List.mem_map.2 ⟨e', he', rfl⟩)
          · exact hfree e' (by simp [he']) q d (leafSymbol_eq hold))
      have hcomp : ∀ ns'' : List Node, withNodes (fetched (withNodes (fetched s 6) ns) (6 * es.length)) ns'' =
          withNodes (fetched s (6 * (es.length + 1))) ns'' := by
        intro ns''
        have : withNodes (fetched (withNodes (fetched s 6) ns) (6 * es.length)) ns'' =
          withNodes (fetched (fetched s 6) (6 * es.length)) ns'' := rfl
        rw [this, fetched_fetched, show 6 + 6 * es.length = 6 * (es.length + 1) by omega]
      refine ⟨ns', ?_, ?_, g3, ?_, fun q d g => ?_⟩
      · rw [Nat.add_right_comm, hread, hok]
        simp only [Res.bind_ok]
        have : ({ fetched s 6 with nodes := ns } : State) = withNodes (fetched s 6) ns := rfl
        rw [this, g1, hcomp]
      · have := congrArg (fun t : State => t.mem.src.drop t.ipos.toNat) (hcomp ns)
        exact this.symm.trans g2
      · have : (withNodes (fetched s 6) ns).nodes.length = ns.length := rfl
        rw [this] at g4
        omega
      · have : (withNodes (fetched s 6) ns).root = s.root := rfl
        rw [this] at g5
        rw [g5 q d g]
        have : (withNodes (fetched s 6) ns).nodes = ns := rfl
        rw [this, hleaves']
        simp only [List.mem_cons, exists_eq_or_imp]
        constructor
        · rintro (h | h | h)
          exacts [.inl (.inr h), .inl (.inl h), .inr h]
        · rintro ((h | h) | h)
          exacts [.inr (.inl h), .inl h, .inr (.inr h)]
    · exact absurd (hfree e (by simp)) hnot

/-- The state in which the table loop of DEC_HEADER starts (R203): both length fields read. -/
def tableAhead (s : State) (codeLen size : BitVec 32) : State :=
  { fetched s 8 with
    nodes := [Node.emptyInner], root := 0, cur := 0, bitsDone := 0, outcnt := 0, codeLen := codeLen, tableSize := size }

/-- DEC_HEADER past the two length fields (R203). -/
theorem decHeader_size (codeLen size : BitVec 32) {ws : List Byte} {s : State}
    (hd : s.mem.src.drop s.ipos.toNat = word32 codeLen ++ word32 size ++ ws) (hwf : s.mem.src.length < 2 ^ 32)
    (hs : Served 8 s) :
    decHeader s = (if Config.maxTableSize < size.toNat then raise .badTableSize (tableAhead s codeLen size)
      else readEntries size.toNat (tableAhead s codeLen size)) ∧
      (tableAhead s codeLen size).mem.src.drop (tableAhead s codeLen size).ipos.toNat = ws := by
  rw [List.append_assoc] at hd
  -- the state at each read
  let s0 : State := { s with nodes := [Node.emptyInner], root := 0, cur := 0, bitsDone := 0, outcnt := 0 }
  let s1 : State := { fetched s0 4 with codeLen := codeLen }
  have r1 := readExact_ok (s := s0) (word32 codeLen) (by simp [word32]) hd hwf (hs.mono (by rw [word32_length]; omega))
  have d1 := fetched_drop (s := s0) hwf hd
  rw [word32_length] at r1 d1
  have r2 := readExact_ok (s := s1) (word32 size) (by simp [word32]) d1 hwf
    (fetched_served (s := s) (j := 4) (hs.mono (by rw [word32_length])))
  have d2 := fetched_drop (s := s1) hwf d1
  rw [word32_length] at r2 d2
  rw [littleEndian_word32] at r1 r2
  have hs2 : ({ fetched s1 4 with tableSize := size } : State) = tableAhead s codeLen size := by
    simp [s1, s0, fetched, tableAhead, List.drop_drop, ofNat_add32]
  have hd2 : (fetched s1 4).mem.src.drop (fetched s1 4).ipos.toNat = ws := d2
  refine ⟨?_, ?_⟩
  · unfold decHeader treeClear
    simp only [Res.bind_ok]
    show ((readExact 4 s0).bind _) = _
    rw [r1]
    simp only [Res.bind_ok]
    show ((readExact 4 s1).bind _) = _
    rw [r2]
    simp only [Res.bind_ok]
    rw [hs2]
  · rw [← hs2]; exact d2

/-- DEC_HEADER past the two length fields and the good entries at the head of the table: each has become a leaf, and the
loop goes on with the `k` entries after them (R203). -/
theorem decHeader_good (codeLen size : BitVec 32) (es : List Entry) (k : Nat) {ws : List Byte} {s : State}
    (hg : GoodTable es) (hk : size.toNat = es.length + k) (hsize : size.toNat ≤ 256)
    (hd : s.mem.src.drop s.ipos.toNat = word32 codeLen ++ word32 size ++ (es.flatMap Entry.bytes ++ ws))
    (hwf : s.mem.src.length < 2 ^ 32) (hs : Served (8 + 6 * es.length) s) :
    ∃ u, decHeader s = readEntries k u ∧ u.mem.src.drop u.ipos.toNat = ws ∧ TreeInv u ∧
      u.nodes.length + 32 * k ≤ Config.nodeCap ∧
      (∀ q d g, HasLeaf u.nodes 0 q d g ↔ ∃ e ∈ es, q = e.bits ∧ d = e.sym ∧ g = 0) ∧
      u = { fetched s (8 + 6 * es.length) with
        nodes := u.nodes, root := 0, cur := 0, bitsDone := 0, outcnt := 0, codeLen := codeLen, tableSize := size } := by
  obtain ⟨h1, h2⟩ := decHeader_size codeLen size hd hwf (hs.mono (by omega))
  have hnoleaf : ∀ q d g, ¬ HasLeaf [Node.emptyInner] 0 q d g := by
    rintro q d g ⟨x, -, hx⟩
    rcases hx' : x.toNat with _ | n <;> rw [hx'] at hx <;> simp [Node.emptyInner] at hx
  obtain ⟨ns, g1, g2, g3, g4, g5⟩ := readEntries_good es k (s := tableAhead s codeLen size) (ws := ws) emptyTree_shape
    h2 hwf (Served.rest (j := 8) (s := s) hs rfl)
    (by show 1 + 32 * es.length ≤ 8193; omega) hg.lengths hg.prefixFree
    (by
      intro e _ q d hq
      obtain ⟨g, hg'⟩ := leafSymbol_eq_some.1 hq
      exact absurd hg' (hnoleaf q d g))
  refine ⟨withNodes (fetched (tableAhead s codeLen size) (6 * es.length)) ns, ?_, g2, g3, ?_, fun q d g => ?_, ?_⟩
  · rw [h1, if_neg (by simp only [Config.maxTableSize]; omega), hk, g1]
  · have : ns.length ≤ 1 + 32 * es.length := g4
    show ns.length + 32 * k ≤ 8193
    omega
  · have := g5 q d g
    have hr : (tableAhead s codeLen size).root = 0 := rfl
    rw [hr] at this
    exact this.trans ⟨fun h => h.resolve_right (hnoleaf q d g), .inl⟩
  · have : fetched (tableAhead s codeLen size) (6 * es.length) =
        { fetched (fetched s 8) (6 * es.length) with
          nodes := [Node.emptyInner], root := 0, cur := 0, bitsDone := 0, outcnt := 0, codeLen := codeLen,
          tableSize := size } := rfl
    rw [this, fetched_fetched]
    rfl

/-- The state after DEC_HEADER has read a good header (R203). -/
def headed (s : State) (codeLen : BitVec 32) (k : Nat) (ns : List Node) : State :=
  { fetched s (8 + 6 * k) with
    nodes := ns, root := 0, cur := 0, bitsDone := 0, outcnt := 0, codeLen := codeLen, tableSize := BitVec.ofNat 32 k }

/-- `DEC_HEADER` on a good header (R203, R283). -/
theorem decHeader_ok (codeLen : BitVec 32) (es : List Entry) {ws : List Byte} {s : State} (hg : GoodTable es)
    (hd : s.mem.src.drop s.ipos.toNat = fileHeader codeLen es ++ ws) (hwf : s.mem.src.length < 2 ^ 32)
    (hs : Served (8 + 6 * es.length) s) :
    ∃ ns, decHeader s = .ok () (headed s codeLen es.length ns) ∧ TreeShape ns 0 0 ∧
      ∀ q d g, HasLeaf ns 0 q d g ↔ ∃ e ∈ es, q = e.bits ∧ d = e.sym ∧ g = 0 := by
  have hsize := hg.size
  have hk : (BitVec.ofNat 32 es.length).toNat = es.length := by
    rw [BitVec.toNat_ofNat, Nat.mod_eq_of_lt (by omega)]
  obtain ⟨u, h1, -, h3, -, h5, h6⟩ := decHeader_good codeLen (BitVec.ofNat 32 es.length) es 0 (ws := ws) hg (by omega)
    (by omega) (by rw [hd]; simp [fileHeader]) hwf hs
  have hu : u = headed s codeLen es.length u.nodes := h6
  have hr : u.root = 0 := by rw [h6]
  have hc : u.cur = 0 := by rw [h6]
  refine ⟨u.nodes, by rw [h1, readEntries, ← hu], ?_, h5⟩
  have := h3
  rw [TreeInv, hr, hc] at this
  exact this

end Sys2Proof.Machine
end

