-- ==== Sys2Proof/Laws/Decode.lean ====
section
/-! SUPPORT. The fields of a command word (30_encoding.md R90 to R94). -/

namespace Sys2Proof.Machine

/-- The fields of an assembled word (R90). -/
theorem fieldsOf_assemble (op sym len : BitVec 8) (val : BitVec 32) :
    fieldsOf (assemble op sym len val) = ⟨op, sym, len, 0, val⟩ := by
  simp only [fieldsOf, opField, assemble, Fields.mk.injEq]
  refine ⟨?_, ?_, ?_, ?_, ?_⟩ <;> (refine BitVec.eq_of_getLsbD_eq fun i hi => ?_) <;>
    simp only [BitVec.getLsbD_extractLsb', BitVec.getLsbD_append, hi, decide_true, Bool.true_and]
  · rw [if_neg (by omega), if_neg (by omega), if_neg (by omega), if_neg (by omega)]; congr 1; omega
  · rw [if_neg (by omega), if_neg (by omega), if_neg (by omega), if_pos (by omega)]; congr 1; omega
  · rw [if_neg (by omega), if_neg (by omega), if_pos (by omega)]; congr 1; omega
  · rw [if_neg (by omega), if_pos (by omega)]; simp
  · rw [if_pos (by omega)]; congr 1; omega

/-- A word with a zero reserved field is assembled from its fields (R90, R91). -/
theorem assemble_fieldsOf {w : Word} (h : (fieldsOf w).rsv = 0) :
    assemble (fieldsOf w).op (fieldsOf w).sym (fieldsOf w).len (fieldsOf w).val = w := by
  have e : assemble (fieldsOf w).op (fieldsOf w).sym (fieldsOf w).len (fieldsOf w).val =
    (fieldsOf w).op ++ (fieldsOf w).sym ++ (fieldsOf w).len ++ (fieldsOf w).rsv ++ (fieldsOf w).val := by rw [h]; rfl
  rw [e]
  refine BitVec.eq_of_getLsbD_eq fun i hi => ?_
  simp only [fieldsOf, opField, BitVec.getLsbD_extractLsb', BitVec.getLsbD_append]
  split
  · simp; omega
  · split
    · have : i - 32 < 8 := by omega
      have e : 32 + (i - 32) = i := by omega
      simp [this, e]
    · split
      · have : i - 32 - 8 < 8 := by omega
        have e : 40 + (i - 32 - 8) = i := by omega
        simp [this, e]
      · split
        · have : i - 32 - 8 - 8 < 8 := by omega
          have e : 48 + (i - 32 - 8 - 8) = i := by omega
          simp [this, e]
        · have : i - 32 - 8 - 8 - 8 < 8 := by omega
          have e : 56 + (i - 32 - 8 - 8 - 8) = i := by omega
          simp [this, e]

/-- A checked row that answers a command answers its own, with the reserved and the unused fields 0 and the operands in
range (R93). -/
theorem checkFields_command {f : Fields} {a b c : Bool} {i j : Instr} (h : checkFields f a b c i = .command j) :
    j = i ∧ f.rsv = 0 ∧ (a = false → f.sym = 0) ∧ (b = false → f.len = 0) ∧ (c = false → f.val = 0) ∧ i.wellFormed = true := by
  unfold checkFields at h
  split at h
  · cases h; rename_i h; cases a <;> cases b <;> cases c <;> simp_all
  · cases h

/-- BAD_OPCODE is the answer to exactly the opcodes outside the map (R93 (1), R94). -/
theorem decodeFields_badOpcode (f : Fields) : decodeFields f = .badOpcode ↔ f.op.toNat ∉ commandOpcodes := by
  constructor
  · intro h
    unfold decodeFields at h
    split at h <;> first | (unfold checkFields at h; split at h <;> cases h) | skip
    simp only [commandOpcodes, List.mem_append, List.mem_cons, List.not_mem_nil]
    simp_all
  · intro h
    simp only [commandOpcodes, List.mem_append, List.mem_cons, List.not_mem_nil] at h
    unfold decodeFields
    split <;> first | omega | rfl

/-- The opcode is the top byte of the word (R90). -/
theorem opField_shift (w : Word) : (fieldsOf w).op.toNat = (w >>> 56).toNat := by
  have := w.isLt
  simp only [fieldsOf, opField, BitVec.extractLsb'_toNat, BitVec.toNat_ushiftRight, Nat.shiftRight_eq_div_pow]
  omega

end Sys2Proof.Machine
end

