-- ==== Sys2Proof/Laws/Done.lean ====
section
/-! SUPPORT. What a piece of pseudocode that ran to its end has done, whatever the environment answered on the way: it
answered every access (20_memory.md R78), and no limit was met. -/

namespace Sys2Proof.Machine

/-! ### One access -/

/-- The state with other answers of the environment. -/
def State.env (s : State) (ds : List EnvAnswer) (n : Nat) : State := { s with draws := ds, freeDraws := n }

/-- A byte was delivered: it is SRC's at IPOS (R120). -/
theorem srcByte_some {s t : State} {v : Byte} (h : srcByte s = .ok (some v) t) :
    s.mem.src[s.ipos.toNat]? = some v ∧ ∃ ds n, t = { s.env ds n with ipos := s.ipos + 1, eos := false } := by
  obtain ⟨ds, n, s', rfl, ⟨-, h'⟩ | ⟨w, hw, h'⟩ | h' | h'⟩ := srcByte_cases s <;> rw [h] at h' <;> cases h'
  exact ⟨hw, ds, n, rfl⟩

/-- End-of-stream was found: IPOS is at SRC_LEN (R120). -/
theorem srcByte_none {s t : State} (h : srcByte s = .ok none t) :
    s.mem.src[s.ipos.toNat]? = none ∧ ∃ ds n, t = { s.env ds n with eos := true } := by
  obtain ⟨ds, n, s', rfl, ⟨hw, h'⟩ | ⟨w, -, h'⟩ | h' | h'⟩ := srcByte_cases s <;> rw [h] at h' <;> cases h'
  exact ⟨hw, ds, n, rfl⟩

/-- A byte was appended, below the position limit (R140). -/
theorem snkByte_done {s t : State} {v : Byte} (h : snkByte v s = .ok () t) :
    s.opos ≠ lastPos ∧ ∃ ds n, t = { s.env ds n with mem := s.mem.append v, opos := s.opos + 1 } := by
  obtain ⟨-, h'⟩ | ⟨hp, ds, n, s', rfl, h' | h' | h'⟩ := snkByte_cases v s <;> rw [h] at h' <;> cases h'
  exact ⟨hp, ds, n, rfl⟩

theorem opos_lt {p : BitVec 32} (h : p ≠ lastPos) : p.toNat + 1 ≤ 2 ^ 32 - 1 := by
  have := p.isLt
  have : p.toNat ≠ 2 ^ 32 - 1 := fun he => h (BitVec.eq_of_toNat_eq he)
  omega

/-! ### Bytes and bits written -/

/-- The state after `vs` has been appended. -/
def State.put (s : State) (vs : List Byte) : State :=
  { s with mem := { s.mem with snk := s.mem.snk ++ vs }, opos := s.opos + BitVec.ofNat 32 vs.length }

/-- OPOS counts SNK's bytes (10_state.md R35). -/
def Level (s : State) : Prop := s.opos.toNat = s.mem.snk.length

theorem put_level {s : State} {vs : List Byte} (h : Level s) (hp : s.opos.toNat + vs.length ≤ 2 ^ 32 - 1) :
    Level (s.put vs) := by
  show (s.opos + BitVec.ofNat 32 vs.length).toNat = (s.mem.snk ++ vs).length
  rw [toNat_addNat (by omega), List.length_append, h]

/-- Raw bytes were appended, all of them below the position limit (R146). -/
theorem writeBytes_done (vs : List Byte) {s t : State} (h : writeBytes vs s = .ok () t) :
    s.opos.toNat + vs.length ≤ 2 ^ 32 - 1 ∧ ∃ ds n, t = (s.put vs).env ds n := by
  induction vs generalizing s with
  | nil =>
    cases h
    exact ⟨by have := t.opos.isLt; simp; omega, t.draws, t.freeDraws, by simp [State.put, State.env]⟩
  | cons v vs ih =>
    obtain ⟨_, u, h1, h2⟩ := Res.bind_eq_ok.1 h
    obtain ⟨hp, ds, n, rfl⟩ := snkByte_done h1
    have hlt := opos_lt hp
    obtain ⟨hle, ds', n', rfl⟩ := ih h2
    have ho : (s.opos + 1).toNat = s.opos.toNat + 1 := toNat_addNat (n := 1) (by omega)
    simp only at hle
    rw [ho] at hle
    refine ⟨by simp only [List.length_cons]; omega, ds', n', ?_⟩
    simp only [State.put, State.env, Memory.append, List.append_assoc, List.singleton_append, List.length_cons,
      Nat.add_comm vs.length 1]
    congr 1
    exact ofNat_add32 s.opos 1 _

/-- Bits were written: they follow the bits written before, and OPOS counts the bytes added to SNK (R141). -/
theorem writeBits_done (bs : List Bool) {s t : State} (hW : WriterInv s) (h : writeBits bs s = .ok () t) :
    ∃ snk acc cnt ds n m, t = { s.env ds n with
        mem := { s.mem with snk := snk }, wacc := acc, wcnt := cnt, opos := s.opos + BitVec.ofNat 32 m } ∧
      writtenBits t = writtenBits s ++ bs ∧ WriterInv t ∧
      snk.length = s.mem.snk.length + m ∧ s.opos.toNat + m ≤ 2 ^ 32 - 1 := by
  induction bs generalizing s with
  | nil =>
    cases h
    exact ⟨t.mem.snk, t.wacc, t.wcnt, t.draws, t.freeDraws, 0, by simp [State.env], by simp, hW, by simp, by
      have := t.opos.isLt; omega⟩
  | cons b bs ih =>
    obtain ⟨_, u, h1, h2⟩ := Res.bind_eq_ok.1 h
    obtain ⟨hk, hacc⟩ := id hW
    have hbits := bits_putBit (b := b) hacc hk
    have hsmall := putBit_small (b := b) hacc
    unfold writeBit at h1
    dsimp only at h1
    split at h1
    · rename_i h8
      have h7 : s.wcnt.toNat = 7 := by
        have := congrArg BitVec.toNat h8
        rw [BitVec.toNat_add] at this
        simp at this
        omega
      obtain ⟨hp, ds, n, rfl⟩ := snkByte_done h1
      have hlt := opos_lt hp
      have ho : (s.opos + 1).toNat = s.opos.toNat + 1 := toNat_addNat (n := 1) (by simp only at hlt; omega)
      obtain ⟨snk, acc, cnt, ds', n', m, rfl, g1, g2, g3, g4⟩ := ih (by exact emptyBuffer) h2
      simp only [ho] at g4
      refine ⟨snk, acc, cnt, ds', n', m + 1, ?_, ?_, g2, ?_, by omega⟩
      · simp only [State.env, Memory.append, Nat.add_comm m 1]
        congr 1
        exact ofNat_add32 s.opos 1 m
      · rw [g1, ← List.singleton_append (l := bs), ← List.append_assoc]
        congr 1
        show streamBits (s.mem.snk ++ [putBit s.wacc b s.wcnt]) ++ _ = streamBits s.mem.snk ++ _ ++ [b]
        rw [h7] at hbits
        have : pendingBits s = (List.range 7).map s.wacc.getLsbD := by rw [pendingBits, h7]
        rw [this, streamBits_append, List.append_assoc, List.append_assoc, ← hbits]
        simp [byteBits, pendingBits, State.env]
      · rw [g3]; simp [Memory.append]; omega
    · rename_i h8
      cases h1
      have hne : s.wcnt.toNat ≠ 7 := by
        intro h7
        exact h8 (BitVec.eq_of_toNat_eq (by rw [BitVec.toNat_add, h7]; rfl))
      have hc : (s.wcnt + 1).toNat = s.wcnt.toNat + 1 := by
        rw [BitVec.toNat_add]; simp; omega
      obtain ⟨snk, acc, cnt, ds', n', m, rfl, g1, g2, g3, g4⟩ := ih
        ⟨by show (s.wcnt + 1).toNat ≤ 7; omega, by show (putBit _ _ _).toNat < 2 ^ (s.wcnt + 1).toNat; rw [hc]; exact hsmall⟩
        h2
      refine ⟨snk, acc, cnt, ds', n', m, rfl, ?_, g2, g3, g4⟩
      rw [g1, ← List.singleton_append (l := bs), ← List.append_assoc]
      congr 1
      show streamBits s.mem.snk ++ (List.range (s.wcnt + 1).toNat).map (putBit s.wacc b s.wcnt).getLsbD = _
      rw [hc, hbits, ← List.append_assoc]
      rfl

/-- The last byte went out: SNK holds exactly the bits written, padded with zeros (R147, R149). -/
theorem closeWriter_done {s t : State} (hW : WriterInv s) (h : closeWriter s = .ok () t) :
    ∃ snk ds n, t = { s.env ds n with
        mem := { s.mem with snk := snk, snkOpen := false }, wacc := t.wacc, wcnt := 0, wopen := false, opos := t.opos } ∧
      (∃ pad < 8, streamBits snk = writtenBits s ++ List.replicate pad false) ∧
      (Level s → Level t) := by
  unfold closeWriter at h
  split at h
  · rename_i h0
    obtain ⟨_, u, h1, h2⟩ := Res.bind_eq_ok.1 h
    obtain ⟨hp, ds, n, rfl⟩ := snkByte_done h1
    have hlt := opos_lt hp
    cases h2
    exact ⟨s.mem.snk ++ [s.wacc], ds, n, rfl, flush_packs hW h0, fun hl => put_level (vs := [s.wacc]) hl hlt⟩
  · rename_i h0
    have h0 : s.wcnt = 0 := by simpa using h0
    cases h
    refine ⟨s.mem.snk, s.draws, s.freeDraws, ?_, ⟨0, by omega, by simp [writtenBits, pendingBits, h0]⟩, id⟩
    simp [State.env, Memory.closeSink, h0]

/-! ### The passes over SRC -/

/-- The byte at IPOS is the first of those from IPOS on. -/
theorem srcAt_head {s : State} {vs : List Byte} (hd : s.mem.src.drop s.ipos.toNat = vs) :
    s.mem.src[s.ipos.toNat]? = vs.head? := by
  rw [← hd, List.head?_drop]

/-- One round of a pass over SRC: end-of-stream, or a byte and what is done with it. -/
theorem scanSource_done {perByte : Byte → State → Res Unit} (vs : List Byte) {fuel : Nat} {s t : State}
    (hd : s.mem.src.drop s.ipos.toNat = vs) (hwf : s.mem.src.length < 2 ^ 32)
    (h : scanSource perByte fuel s = .ok () t) :
    ∃ ds n, (vs = [] ∧ t = { s.env ds n with eos := true, res := 0 }) ∨
      ∃ v ws u, vs = v :: ws ∧ s.mem.src.drop (s.ipos + 1).toNat = ws ∧
        perByte v { s.env ds n with ipos := s.ipos + 1, eos := false } = .ok () u ∧
        scanSource perByte (fuel - 1) u = .ok () t := by
  rcases fuel with _ | fuel
  · cases h
  obtain ⟨r, u, h1, h2⟩ := Res.bind_eq_ok.1 h
  rcases r with _ | v
  · obtain ⟨hv, ds, n, rfl⟩ := srcByte_none h1
    rw [srcAt_head hd] at hv
    cases h2
    exact ⟨ds, n, .inl ⟨List.head?_eq_none_iff.1 hv, rfl⟩⟩
  · obtain ⟨hv, ds, n, rfl⟩ := srcByte_some h1
    rw [srcAt_head hd] at hv
    obtain ⟨ws, rfl⟩ := List.head?_eq_some_iff.1 hv
    obtain ⟨_, u, h3, h4⟩ := Res.bind_eq_ok.1 h2
    exact ⟨ds, n, .inr ⟨v, ws, u, rfl, fetched_drop (vs := [v]) hwf hd, h3, h4⟩⟩

/-- A completed FQ_SCAN has counted the rest of SRC (R163). -/
theorem scanFreq_done (vs : List Byte) {fuel : Nat} {s t : State} (hd : s.mem.src.drop s.ipos.toNat = vs)
    (hwf : s.mem.src.length < 2 ^ 32) (h : scanSource freqInc fuel s = .ok () t) :
    ∃ freq ds n, t = { s.env ds n with
        freq := freq, ipos := s.ipos + BitVec.ofNat 32 vs.length, eos := true, res := 0 } ∧
      ∀ c, (t.getFreq c).toNat = (s.getFreq c).toNat + vs.count c := by
  induction vs generalizing s fuel with
  | nil =>
    obtain ⟨ds, n, ⟨-, rfl⟩ | ⟨v, ws, u, h', -⟩⟩ := scanSource_done _ hd hwf h
    · exact ⟨s.freq, ds, n, by simp [State.env], fun c => by simp [State.getFreq, State.env]⟩
    · cases h'
  | cons v vs ih =>
    obtain ⟨ds, n, ⟨h', -⟩ | ⟨v', ws, u, h', hd', h1, h2⟩⟩ := scanSource_done _ hd hwf h
    · cases h'
    cases h'
    generalize hr : ({ s.env ds n with ipos := s.ipos + 1, eos := false } : State) = r at h1
    have hrf : ∀ c, r.getFreq c = s.getFreq c := fun c => by rw [← hr]; rfl
    unfold freqInc at h1
    split at h1
    · cases h1
    rename_i hne
    cases h1
    have hlt : (r.getFreq v).toNat + 1 < 2 ^ 32 := by
      have := (r.getFreq v).isLt
      have : (r.getFreq v).toNat ≠ 2 ^ 32 - 1 := fun he => hne (BitVec.eq_of_toNat_eq he)
      omega
    have hsucc : (r.getFreq v + 1).toNat = (r.getFreq v).toNat + 1 := toNat_addNat (n := 1) hlt
    obtain ⟨freq, ds', n', rfl, g⟩ := ih (s := r.setFreq v (r.getFreq v + 1))
      (by rw [← hr]; exact hd') (by rw [← hr]; exact hwf) h2
    refine ⟨freq, ds', n', ?_, fun c => ?_⟩
    · rw [← hr]
      simp only [State.env, State.setFreq, List.length_cons, Nat.add_comm vs.length 1]
      congr 1
      exact ofNat_add32 s.ipos 1 _
    · rw [g c]
      by_cases hc : c = v
      · rw [hc, State.getFreq_setFreq_self, hsucc, hrf, List.count_cons_self]
        omega
      · rw [State.getFreq_setFreq_ne _ _ hc, hrf, List.count_cons_of_ne (Ne.symm hc)]

/-- A completed ENC_PAYLOAD has appended the code of every remaining byte of SRC (R201). -/
theorem encPayload_done (vs : List Byte) {fuel : Nat} {s t : State} (hd : s.mem.src.drop s.ipos.toNat = vs)
    (hwf : s.mem.src.length < 2 ^ 32) (hW : WriterInv s) (h : scanSource writeSymbol fuel s = .ok () t) :
    ∃ snk acc cnt ds n m, t = { s.env ds n with
        mem := { s.mem with snk := snk }, wacc := acc, wcnt := cnt, opos := s.opos + BitVec.ofNat 32 m
        ipos := s.ipos + BitVec.ofNat 32 vs.length, eos := true, res := 0 } ∧
      writtenBits t = writtenBits s ++ vs.flatMap (symbolBits s) ∧ WriterInv t ∧
      snk.length = s.mem.snk.length + m ∧ s.opos.toNat + m ≤ 2 ^ 32 - 1 ∧ (Level s → Level t) := by
  induction vs generalizing s fuel with
  | nil =>
    obtain ⟨ds, n, ⟨-, rfl⟩ | ⟨v, ws, u, h', -⟩⟩ := scanSource_done _ hd hwf h
    · exact ⟨s.mem.snk, s.wacc, s.wcnt, ds, n, 0, by simp [State.env], by simp [writtenBits, pendingBits, State.env],
        hW, by simp, by have := s.opos.isLt; omega, id⟩
    · cases h'
  | cons v vs ih =>
    obtain ⟨ds, n, ⟨h', -⟩ | ⟨v', ws, u, h', hd', h1, h2⟩⟩ := scanSource_done _ hd hwf h
    · cases h'
    cases h'
    obtain ⟨snk, acc, cnt, ds1, n1, m1, rfl, a1, a2, a3, a4⟩ :=
      writeBits_done (symbolBits s v) (s := { s.env ds n with ipos := s.ipos + 1, eos := false }) hW h1
    obtain ⟨snk', acc', cnt', ds2, n2, m2, rfl, b1, b2, b3, b4, -⟩ := ih (by exact hd') (by exact hwf) a2 h2
    simp only [State.env] at a3 a4 b3 b4
    have ho : (s.opos + BitVec.ofNat 32 m1).toNat = s.opos.toNat + m1 := toNat_addNat (by omega)
    rw [ho] at b4
    refine ⟨snk', acc', cnt', ds2, n2, m1 + m2, ?_, ?_, b2, by omega, by omega, fun hl => ?_⟩
    · simp only [State.env, List.length_cons, Nat.add_comm vs.length 1]
      congr 1
      · exact ofNat_add32 s.ipos 1 _
      · exact ofNat_add32 s.opos m1 m2
    · rw [b1, a1, List.append_assoc]
      rfl
    · show (s.opos + BitVec.ofNat 32 m1 + BitVec.ofNat 32 m2).toNat = snk'.length
      have : s.opos.toNat = s.mem.snk.length := hl
      rw [ofNat_add32, toNat_addNat (by omega)]
      omega

end Sys2Proof.Machine
end

