-- ==== Sys2Proof/Laws/Encode.lean ====
section
/-! SUPPORT. The table that TB_BUILD makes is good (43_table_builder.md R193), its codes measure the payload (44_archiver.md
R200), and what a completed ENCODE leaves (44_archiver.md R202, R208). -/

namespace Sys2Proof.Machine

/-! ### The table of a tree -/

/-- A completed TB_BUILD has recorded the paths of all leaves (R192). -/
theorem tableBuild_done {s t : State} (h : TreeInv s) (hb : tableBuild s = .ok () t) :
    (∃ code len, t = { s with code := code, len := len }) ∧ ∀ c, Recorded s t c := by
  by_cases hd : ∀ p c, leafSymbol s p = some c → p.length ≤ 32
  · obtain ⟨code, len, h1, h2⟩ := tableBuild_ok h hd
    rw [h1] at hb
    cases hb
    exact ⟨⟨code, len, rfl⟩, h2⟩
  · simp only [not_forall] at hd
    obtain ⟨p, c, hp, hlt⟩ := hd
    rw [tableBuild_deep h hp (by omega)] at hb
    cases hb

/-- No LEAF is at the root (R50). -/
theorem TreeShape.path_pos {ns : List Node} {root cur : NodeIdx} (h : TreeShape ns root cur) {p : List Bool}
    {c : Symbol} {f : BitVec 40} (hl : HasLeaf ns root p c f) : p ≠ [] := by
  rintro rfl
  obtain ⟨q, hq, hn⟩ := hl
  cases hq
  obtain ⟨l, r, g, hi⟩ := h.rootInner
  rw [hn] at hi
  cases hi

/-- An entry of the table of a tree is a LEAF of the tree. -/
theorem Recorded.entry {s t : State} (hr : ∀ c, Recorded s t c) {c : Symbol} (hc : t.getLen c ≠ 0) :
    leafSymbol s (symbolBits t c) = some c ∧ 1 ≤ (t.getLen c).toNat := by
  rcases hr c with ⟨-, h0, -⟩ | ⟨p, h1, h2, h3, -⟩
  · exact absurd h0 hc
  · refine ⟨by rw [h3]; exact h1, ?_⟩
    have : (t.getLen c).toNat ≠ 0 := fun he => hc (BitVec.eq_of_toNat_eq he)
    omega

/-- The code of an entry of the table of a tree fits its length (R51, R193 (3)). -/
theorem Recorded.range {s t : State} (hr : ∀ c, Recorded s t c) {c : Symbol} (hc : t.getLen c ≠ 0) :
    (t.getCode c).toNat < 2 ^ (t.getLen c).toNat := by
  rcases hr c with ⟨-, h0, -⟩ | ⟨p, -, h2, -, h3, -⟩
  · exact absurd h0 hc
  · rw [h2]; exact h3

theorem mem_tableEntries {t : State} {e : Entry} :
    e ∈ tableEntries t ↔ t.getLen e.sym ≠ 0 ∧ e = ⟨e.sym, t.getCode e.sym, t.getLen e.sym⟩ := by
  unfold tableEntries
  rw [List.mem_map]
  constructor
  · rintro ⟨c, hc, rfl⟩
    exact ⟨by simpa using (List.mem_filter.1 hc).2, rfl⟩
  · rintro ⟨h1, h2⟩
    exact ⟨e.sym, List.mem_filter.2 ⟨mem_symbols _, by simpa using h1⟩, h2.symm⟩

theorem tableEntries_length (t : State) : (tableEntries t).length ≤ 256 := by
  have := List.length_filter_le (fun c => t.getLen c != 0) symbols
  rw [symbols_length] at this
  simpa [tableEntries] using this

/-- The table of a tree is good: lengths 1 to 32 and prefix-free codes (R193 (1), (4)). -/
theorem goodTable {s t : State} (hr : ∀ c, Recorded s t c)
    (hd : ∀ p c, leafSymbol s p = some c → p.length ≤ 32) : GoodTable (tableEntries t) := by
  refine ⟨tableEntries_length t, fun e he => ?_, ?_⟩
  · obtain ⟨h1, h2⟩ := mem_tableEntries.1 he
    obtain ⟨h3, h4⟩ := Recorded.entry hr h1
    have := hd _ _ h3
    simp only [symbolBits, List.length_map, List.length_range] at this
    rw [h2]
    exact ⟨h4, this⟩
  · unfold PrefixFree tableEntries
    rw [List.map_map, List.pairwise_map]
    refine List.Pairwise.imp_of_mem ?_ (symbols_nodup.filter fun c => t.getLen c != 0)
    intro c d hc hd' hne
    have hc := Recorded.entry hr (c := c) (by simpa using (List.mem_filter.1 hc).2)
    have hd' := Recorded.entry hr (c := d) (by simpa using (List.mem_filter.1 hd').2)
    obtain ⟨f, hf⟩ := leafSymbol_eq_some.1 hc.1
    obtain ⟨g, hg⟩ := leafSymbol_eq_some.1 hd'.1
    have key : symbolBits t c ≠ symbolBits t d := by
      intro he
      rw [he] at hf
      exact hne (hf.unique hg).1
    exact ⟨fun hp => key (hf.prefix_eq hg hp), fun hp => key (hg.prefix_eq hf hp).symm⟩

/-- A completed TB_BUILD leaves a good table (R193). -/
theorem tableBuild_good {s t : State} (h : TreeInv s) (hb : tableBuild s = .ok () t) : GoodTable (tableEntries t) := by
  refine goodTable (tableBuild_done h hb).2 fun p c hp => ?_
  by_contra hlt
  rw [tableBuild_deep h hp (by omega)] at hb
  cases hb

/-- The state after TR_BUILD. -/
def built (s : State) : State :=
  { s with
    nodes := (buildTree (freqLeaves s)).1
    root := idx (buildTree (freqLeaves s)).2
    cur := idx (buildTree (freqLeaves s)).2 }

theorem built_tree (s : State) : TreeInv (built s) := treeBuild_shape s

/-- Of the tree TR_BUILD makes, TB_BUILD records every counted symbol and no other, with the path of its one LEAF
(R166, R193 (5)). -/
theorem built_table {s t : State} (hr : ∀ c, Recorded (built s) t c) (p : List Bool) (c : Symbol) :
    (t.getLen c ≠ 0 ↔ s.getFreq c ≠ 0) ∧ (leafSymbol (built s) p = some c ↔ t.getLen c ≠ 0 ∧ p = symbolBits t c) := by
  obtain ⟨h1, h2, h3⟩ := treeBuild_leaves (s := s) (t := built s) rfl rfl
  have hA : t.getLen c ≠ 0 ↔ s.getFreq c ≠ 0 := by
    constructor
    · intro hc
      obtain ⟨h4, -⟩ := Recorded.entry hr hc
      obtain ⟨f, hf⟩ := leafSymbol_eq_some.1 h4
      exact (h1 _ _ _ hf).1
    · intro hc hz
      obtain ⟨q, f, hq⟩ := h2 c hc
      rcases hr c with ⟨hno, -, -⟩ | ⟨q', hq', hl, -⟩
      · exact hno q (leafSymbol_eq hq)
      · obtain ⟨g, hg⟩ := leafSymbol_eq_some.1 hq'
        have hpos := TreeShape.path_pos (built_tree s) hg
        rw [hz] at hl
        exact hpos (List.length_eq_zero_iff.1 hl.symm)
  refine ⟨hA, fun hp => ?_, ?_⟩
  · obtain ⟨f, hf⟩ := leafSymbol_eq_some.1 hp
    have hc := hA.2 (h1 _ _ _ hf).1
    obtain ⟨g, hg⟩ := leafSymbol_eq_some.1 (Recorded.entry hr hc).1
    exact ⟨hc, h3 _ _ _ _ _ hf hg⟩
  · rintro ⟨hc, rfl⟩
    exact (Recorded.entry hr hc).1

/-! ### The payload bit count -/

theorem sum_map_add {α : Type} (l : List α) (f g : α → Nat) :
    (l.map fun a => f a + g a).sum = (l.map f).sum + (l.map g).sum := by
  induction l with
  | nil => rfl
  | cons a l ih => simp only [List.map_cons, List.sum_cons, ih]; omega

theorem sum_indicator {α : Type} [DecidableEq α] {l : List α} (hn : l.Nodup) {a : α} (ha : a ∈ l) (f : α → Nat) :
    (l.map fun b => if a = b then f b else 0).sum = f a := by
  induction l with
  | nil => cases ha
  | cons b l ih =>
    simp only [List.nodup_cons] at hn
    simp only [List.map_cons, List.sum_cons]
    by_cases h : a = b
    · subst h
      have : (l.map fun b => if a = b then f b else 0) = l.map fun _ => 0 :=
        List.map_congr_left fun b hb => by rw [if_neg]; rintro rfl; exact hn.1 hb
      rw [if_pos rfl, this]
      simp
    · rw [if_neg h, ih hn.2 (by simpa [h] using ha)]
      omega

/-- The bits of a coded message, counted by symbol (R193 (6), R200). -/
theorem coded_length (vs : List Byte) (t : State) :
    (vs.flatMap (symbolBits t)).length = (symbols.map fun c => vs.count c * (t.getLen c).toNat).sum := by
  induction vs with
  | nil => simp
  | cons v vs ih =>
    have h1 : (symbolBits t v).length = (t.getLen v).toNat := by simp [symbolBits]
    rw [List.flatMap_cons, List.length_append, ih, h1,
      ← sum_indicator symbols_nodup (mem_symbols v) (fun c => (t.getLen c).toNat), ← sum_map_add]
    congr 1
    refine List.map_congr_left fun c _ => ?_
    rw [List.count_cons]
    by_cases h : v = c
    · subst h; simp; ring
    · simp [h]

theorem payloadBits_eq {t : State} {vs : List Byte} (h : ∀ c, (t.getFreq c).toNat = vs.count c) :
    payloadBits t = (vs.flatMap (symbolBits t)).length := by
  rw [coded_length, payloadBits]
  congr 1
  exact List.map_congr_left fun c _ => by rw [h c]

/-- The frequencies of a counted message sum to its length (R31). -/
theorem totalFreq_eq {t : State} {vs : List Byte} (h : ∀ c, (t.getFreq c).toNat = vs.count c) :
    totalFreq t = vs.length := by
  have hsum : ∀ vs : List Byte, (symbols.map fun c => vs.count c).sum = vs.length := by
    intro vs
    induction vs with
    | nil => simp
    | cons v vs ih =>
      have h1 : (fun c => (v :: vs).count c) = fun c => vs.count c + if v = c then 1 else 0 := by
        funext c
        rw [List.count_cons]
        by_cases h : v = c <;> simp [h]
      rw [h1, sum_map_add, ih, sum_indicator symbols_nodup (mem_symbols v) fun _ => 1]
      rfl
  rw [totalFreq, ← hsum vs]
  congr 1
  exact List.map_congr_left fun c _ => by rw [h c]

/-- The weighted depth sum of the tree TR_BUILD makes, by symbol (R193 (6)). -/
theorem built_weighted {s t : State} (hr : ∀ c, Recorded (built s) t c) {ps : List (List Bool)} (hnd : ps.Nodup)
    (hm : ∀ p, p ∈ ps ↔ (leafSymbol (built s) p).isSome = true) :
    (ps.map fun p => p.length * leafFreq (built s) p).sum =
      (symbols.map fun c => (s.getFreq c).toNat * (t.getLen c).toNat).sum := by
  have hrec : ∀ c ∈ countedSymbols s, leafSymbol (built s) (symbolBits t c) = some c := fun c hc =>
    (built_table hr (symbolBits t c) c).2.2
      ⟨(built_table hr [] c).1.2 (by simpa using (List.mem_filter.1 hc).2), rfl⟩
  have h1 : (symbols.map fun c => (s.getFreq c).toNat * (t.getLen c).toNat).sum =
      ((countedSymbols s).map fun c => (s.getFreq c).toNat * (t.getLen c).toNat).sum := by
    unfold countedSymbols
    generalize symbols = l
    induction l with
    | nil => rfl
    | cons c l ih =>
      by_cases h : s.getFreq c = 0
      · rw [List.filter_cons_of_neg (by simp [h]), List.map_cons, List.sum_cons, ih, h]; simp
      · rw [List.filter_cons_of_pos (by rw [bne_iff_ne]; exact h), List.map_cons, List.sum_cons, ih]; rfl
  have h2 : ps.Perm ((countedSymbols s).map (symbolBits t)) := by
    refine (List.perm_ext_iff_of_nodup hnd ?_).2 fun p => ?_
    · refine List.Nodup.map_on ?_ (symbols_nodup.filter _)
      intro c hc d hd he
      have hc' := hrec c hc
      rw [he, hrec d hd] at hc'
      exact (Option.some.inj hc').symm
    · rw [hm, Option.isSome_iff_exists, List.mem_map]
      constructor
      · rintro ⟨c, hc⟩
        obtain ⟨h3, h4⟩ := (built_table hr p c).2.1 hc
        exact ⟨c, List.mem_filter.2 ⟨mem_symbols c, by rw [bne_iff_ne]; exact (built_table hr [] c).1.1 h3⟩, h4.symm⟩
      · rintro ⟨c, hc, rfl⟩
        exact ⟨c, hrec c hc⟩
  rw [h1, (h2.map _).sum_eq, List.map_map]
  refine congrArg List.sum (List.map_congr_left fun c hc => ?_)
  obtain ⟨f, hf⟩ := leafSymbol_eq_some.1 (hrec c hc)
  have := (treeBuild_leaves (s := s) (t := built s) rfl rfl).1 _ _ _ hf
  simp only [Function.comp]
  rw [leafFreq_eq hf, this.2]
  simp [symbolBits, Nat.mul_comm]

/-- The payload bit count of a table of a tree fits TLEN (R30, R170). -/
theorem payloadBits_lt {t : State} (h : ∀ c, (t.getLen c).toNat ≤ 32) : payloadBits t < 2 ^ 48 := by
  have hle : payloadBits t ≤ totalFreq t * 32 := by
    unfold payloadBits totalFreq
    generalize symbols = l
    induction l with
    | nil => simp
    | cons c l ih =>
      have h1 := Nat.mul_le_mul_left (t.getFreq c).toNat (h c)
      simp only [List.map_cons, List.sum_cons, Nat.add_mul]
      omega
  have := totalFreq_lt t
  omega

theorem freqLeaves_congr {s t : State} (h : s.freq = t.freq) : freqLeaves s = freqLeaves t := by
  simp only [freqLeaves, State.getFreq, h]

/-! ### A completed ENCODE -/

/-- A completed ENC_HEADER has written the header of its table (R200). -/
theorem encHeader_done {s t : State} (h : encHeader s = .ok () t) :
    payloadBits s < 2 ^ 32 ∧ s.opos.toNat + (8 + 6 * (tableEntries s).length) ≤ 2 ^ 32 - 1 ∧
      ∃ cl ts hb ds n, cl.toNat = payloadBits s ∧ ts.toNat = (tableEntries s).length ∧
        t = ({ s with codeLen := cl, tableSize := ts, hdrBytes := hb }.put (fileHeader cl (tableEntries s))).env ds n := by
  unfold encHeader at h
  split at h
  · cases h
  rename_i hlt
  simp only [Config.streamBound, Nat.not_le] at hlt
  have hlen : (presentSymbols s).length = (tableEntries s).length := by simp [tableEntries, presentSymbols]
  have hle := tableEntries_length s
  dsimp only at h
  rw [hlen] at h
  generalize hcl : BitVec.ofNat 32 (payloadBits s) = cl at h
  generalize hts : BitVec.ofNat 32 (tableEntries s).length = ts at h
  generalize hhb : headerByteCount ts = hb at h
  have hh := headerBytes_eq { s with codeLen := cl, tableSize := ts, hdrBytes := hb } hts.symm
  rw [hh] at h
  obtain ⟨hp, ds, n, ht⟩ := writeBytes_done _ h
  rw [fileHeader_length] at hp
  refine ⟨hlt, hp, cl, ts, hb, ds, n, ?_, ?_, ht⟩
  · rw [← hcl, BitVec.toNat_ofNat, Nat.mod_eq_of_lt hlt]
  · rw [← hts, BitVec.toNat_ofNat, Nat.mod_eq_of_lt (by omega)]

/-- What a completed ENCODE of SRC leaves (R202, R208, 30_encoding.md R100 to R105). -/
structure Encoded (s t : State) : Prop where
  freq : ∀ c, (t.getFreq c).toNat = s.mem.src.count c
  table : GoodTable (tableEntries t)
  present : ∀ c, t.getLen c ≠ 0 ↔ c ∈ s.mem.src
  codeLen : t.codeLen.toNat = (s.mem.src.flatMap (symbolBits t)).length
  tableSize : t.tableSize.toNat = (tableEntries t).length
  origBytes : t.origBytes.toNat = s.mem.src.length
  payloadBytes : t.payloadBytes = payloadByteCount t.codeLen
  hdrBytes : t.hdrBytes = headerByteCount t.tableSize
  tree : t.nodes = (buildTree (freqLeaves t)).1 ∧ t.root = idx (buildTree (freqLeaves t)).2
  leaf : ∀ c, t.getLen c ≠ 0 →
    leafSymbol t (symbolBits t c) = some c ∧ (t.getCode c).toNat < 2 ^ (t.getLen c).toNat
  file : ∃ payload, Packs payload (s.mem.src.flatMap (symbolBits t)) ∧
    t.mem = { s.mem with snk := fileHeader t.codeLen (tableEntries t) ++ payload, snkOpen := false }
  short : t.mem.snk.length ≤ 2 ^ 32 - 1
  err : t.err = s.err
  ropen : t.ropen = false
  wopen : t.wopen = false

/-- The first six steps of ENCODE: the counts and the code table (R202, R163, R165, R192). -/
theorem encodeTables_done {s c t : State} (hwf : s.mem.src.length < 2 ^ 32)
    (h3 : scanFreq { s with
      ipos := 0, rbuf := 0, rcnt := 0, eos := false, ropen := true, freq := Vector.replicate 256 0 } = .ok () c)
    (h6 : tableBuild (built { c with ropen := false, rbuf := 0, rcnt := 0 }) = .ok () t) :
    (∀ x, (t.getFreq x).toNat = s.mem.src.count x) ∧ (∀ x, t.getLen x ≠ 0 ↔ x ∈ s.mem.src) ∧
      GoodTable (tableEntries t) ∧ t.mem = s.mem ∧ t.err = s.err ∧ t.ropen = false ∧ t.wopen = s.wopen ∧
      (t.nodes = (buildTree (freqLeaves t)).1 ∧ t.root = idx (buildTree (freqLeaves t)).2) ∧
      ∀ x, t.getLen x ≠ 0 →
        leafSymbol t (symbolBits t x) = some x ∧ (t.getCode x).toNat < 2 ^ (t.getLen x).toNat := by
  obtain ⟨freq, ds, n, rfl, hfreq⟩ := scanFreq_done s.mem.src (by rfl) (by exact hwf) h3
  obtain ⟨⟨code, len, rfl⟩, hrec⟩ := tableBuild_done (built_tree _) h6
  have hzero : ∀ x, (State.getFreq { s with
      ipos := 0, rbuf := 0, rcnt := 0, eos := false, ropen := true, freq := Vector.replicate 256 0 } x).toNat = 0 :=
    fun x => by simp [State.getFreq]
  have hf : ∀ x, (freq[x.toNat]'x.isLt).toNat = s.mem.src.count x := fun x => by
    have := hfreq x
    rw [hzero, Nat.zero_add] at this
    exact this
  refine ⟨hf, fun x => ?_, tableBuild_good (built_tree _) h6, rfl, rfl, rfl, rfl,
    ⟨congrArg (fun ls => (buildTree ls).1) (freqLeaves_congr rfl),
      congrArg (fun ls => idx (buildTree ls).2) (freqLeaves_congr rfl)⟩, fun x hx => ⟨(Recorded.entry hrec hx).1, Recorded.range hrec hx⟩⟩
  rw [(built_table hrec [] x).1, ← List.count_pos_iff, ← hf x]
  constructor
  · intro h
    exact Nat.pos_of_ne_zero fun he => h (BitVec.eq_of_toNat_eq he)
  · intro h he
    have : (freq[x.toNat]'x.isLt) = 0 := he
    rw [this] at h
    exact absurd h (by decide)

/-- The bits of the payload that ENC_PAYLOAD and WR_CLOSE leave after the header (R201, R147, R103). -/
theorem payload_packs {hdr snk : List Byte} {bits : List Bool} {pad : Nat} (hp : pad < 8)
    (h : streamBits snk = streamBits hdr ++ bits ++ List.replicate pad false) :
    ∃ payload, snk = hdr ++ payload ∧ Packs payload bits := by
  have hl := congrArg List.length h
  simp only [streamBits_length, List.length_append] at hl
  have htake : streamBits (snk.take hdr.length) = streamBits hdr := by
    have h1 := congrArg (List.take (8 * hdr.length)) h
    rw [← List.take_append_drop hdr.length snk, streamBits_append, List.append_assoc,
      List.take_left' (by rw [streamBits_length, List.length_take, Nat.min_eq_left (by omega)]),
      List.take_left' (streamBits_length hdr)] at h1
    exact h1
  have ht := streamBits_inj htake
  refine ⟨snk.drop hdr.length, ?_, pad, hp, ?_⟩
  · conv_lhs => rw [← List.take_append_drop hdr.length snk, ht]
  · rw [← List.take_append_drop hdr.length snk, ht, streamBits_append, List.append_assoc] at h
    exact List.append_cancel_left h

/-- The last six steps of ENCODE (R202), from a state whose tables are those of SRC. -/
theorem encodeWrite_done {s f g k l : State} (hwf : s.mem.src.length < 2 ^ 32) (hmem : f.mem = s.mem)
    (hfreq : ∀ x, (f.getFreq x).toNat = s.mem.src.count x)
    (h8 : encHeader { f with mem := f.mem.openSink, opos := 0, wacc := 0, wcnt := 0, wopen := true } = .ok () g)
    (h10 : encPayload { g with ipos := 0, rbuf := 0, rcnt := 0, eos := false, ropen := true } = .ok () k)
    (h12 : closeWriter { k with ropen := false, rbuf := 0, rcnt := 0 } = .ok () l) :
    l.codeLen.toNat = (s.mem.src.flatMap (symbolBits f)).length ∧ l.tableSize.toNat = (tableEntries f).length ∧
      l.freq = f.freq ∧ l.code = f.code ∧ l.len = f.len ∧ l.err = f.err ∧ l.ropen = false ∧ l.wopen = false ∧
      l.nodes = f.nodes ∧ l.root = f.root ∧ l.mem.snk.length ≤ 2 ^ 32 - 1 ∧
      ∃ payload, Packs payload (s.mem.src.flatMap (symbolBits f)) ∧
        l.mem = { s.mem with snk := fileHeader l.codeLen (tableEntries f) ++ payload, snkOpen := false } := by
  obtain ⟨-, hp, cl, ts, hb, ds, n, g1, g2, rfl⟩ := encHeader_done h8
  have hpb : payloadBits { f with mem := f.mem.openSink, opos := 0, wacc := 0, wcnt := 0, wopen := true } =
      (s.mem.src.flatMap (symbolBits f)).length := payloadBits_eq (t := f) hfreq
  rw [hpb] at g1
  change ts.toNat = (tableEntries f).length at g2
  change (0 : BitVec 32).toNat + (8 + 6 * (tableEntries f).length) ≤ _ at hp
  unfold encPayload at h10
  obtain ⟨snk, acc, cnt, ds', n', m, rfl, b1, b2, -, -, b5⟩ := encPayload_done s.mem.src
    (by show (f.mem.src.drop 0) = _; rw [hmem]; rfl) (by show f.mem.src.length < _; rw [hmem]; exact hwf)
    (by exact emptyBuffer) h10
  obtain ⟨snk', ds'', n'', hl, ⟨pad, hpad, hbits⟩, hlen⟩ := closeWriter_done (by exact b2) h12
  have hbits' : streamBits snk' = streamBits (fileHeader cl (tableEntries f)) ++
      s.mem.src.flatMap (symbolBits f) ++ List.replicate pad false := by
    rw [hbits]
    refine congrArg (· ++ List.replicate pad false) (Eq.trans (b1 : _ = _) ?_)
    refine congrArg (· ++ s.mem.src.flatMap (symbolBits f)) ?_
    show streamBits ([] ++ fileHeader cl (tableEntries f)) ++ [] = _
    rw [List.nil_append, List.append_nil]
  obtain ⟨payload, rfl, hpk⟩ := payload_packs hpad hbits'
  refine ⟨by rw [hl]; exact g1, by rw [hl]; exact g2, by rw [hl]; rfl, by rw [hl]; rfl, by rw [hl]; rfl, by rw [hl]; rfl,
    by rw [hl]; rfl, by rw [hl], by rw [hl]; rfl, by rw [hl]; rfl, ?_, payload, hpk, ?_⟩
  · rw [hl]
    have hg : Level (({ f with
        mem := f.mem.openSink, opos := 0, wacc := 0, wcnt := 0, wopen := true, codeLen := cl, tableSize := ts
        hdrBytes := hb } : State).put (fileHeader cl (tableEntries f))) :=
      put_level rfl (by rw [fileHeader_length]; exact hp)
    have hlast : Level l := hlen (b5 hg)
    rw [hl] at hlast
    have := hlast.symm.trans_lt (BitVec.isLt _)
    exact Nat.le_pred_of_lt this
  · rw [hl]
    show ({ f.mem with snk := _, snkOpen := false } : Memory) = _
    rw [hmem]
    rfl

/-- A completed ENCODE has written the encoded file of SRC (R202, R208). -/
theorem encodeFile_done {s t : State} (hwf : s.mem.src.length < 2 ^ 32) (h : encodeFile s = .ok () t) :
    Encoded s t := by
  unfold encodeFile openReader clearFreq closeReader openWriter at h
  simp only [Res.bind_ok] at h
  obtain ⟨_, c, h3, h'⟩ := Res.bind_eq_ok.1 h
  clear h
  rw [treeBuild_eq] at h'
  simp only [Res.bind_ok] at h'
  obtain ⟨_, f, h6, h⟩ := Res.bind_eq_ok.1 h'
  clear h'
  obtain ⟨e1, e2, e3, e4, e5, e6, e7, e8, e9⟩ := encodeTables_done hwf h3 h6
  clear h3 h6 c
  obtain ⟨_, g, h8, h'⟩ := Res.bind_eq_ok.1 h
  obtain ⟨_, k, h10, h''⟩ := Res.bind_eq_ok.1 h'
  obtain ⟨_, l, h12, h13⟩ := Res.bind_eq_ok.1 h''
  clear h h' h''
  obtain ⟨d1, d2, d3, d4, d5, d6, d7, d8, dn, dr, d9, d10⟩ := encodeWrite_done hwf e4 e1 h8 h10 h12
  clear h8 h10 h12 g k
  have q : t = { l with
      origBytes := BitVec.ofNat 32 (totalFreq l)
      payloadBytes := payloadByteCount l.codeLen
      hdrBytes := headerByteCount l.tableSize } := by cases h13; rfl
  clear h13
  have q3 : t.freq = f.freq := by rw [q]; exact d3
  have q4 : t.code = f.code := by rw [q]; exact d4
  have q5 : t.len = f.len := by rw [q]; exact d5
  have qc : t.codeLen = l.codeLen := by rw [q]
  have qt : t.tableSize = l.tableSize := by rw [q]
  have qm : t.mem = l.mem := by rw [q]
  have qn : t.nodes = f.nodes := by rw [q]; exact dn
  have qr : t.root = f.root := by rw [q]; exact dr
  have hfl : freqLeaves t = freqLeaves f := freqLeaves_congr q3
  have hls : ∀ p, leafSymbol t p = leafSymbol f p := fun p => by simp only [leafSymbol, qn, qr]
  have hsb : symbolBits t = symbolBits f := by funext x; simp only [symbolBits, State.getLen, State.getCode, q4, q5]
  have hte : tableEntries t = tableEntries f := by simp only [tableEntries, State.getLen, State.getCode, q4, q5]
  have hfr : ∀ x, (t.getFreq x).toNat = s.mem.src.count x := fun x => by
    rw [← e1 x]; simp only [State.getFreq, q3]
  have htot : totalFreq l = s.mem.src.length := totalFreq_eq fun x => by
    rw [← e1 x]; simp only [State.getFreq, d3]
  refine ⟨hfr, by rw [hte]; exact e3, fun x => ?_, by rw [qc, hsb]; exact d1, by rw [qt, hte]; exact d2, ?_, ?_, ?_,
    by rw [qn, qr, hfl]; exact e8, fun x hx => ?_, by rw [qm, qc, hsb, hte]; exact d10, by rw [qm]; exact d9, ?_, by rw [q]; exact d7, by rw [q]; exact d8⟩
  · rw [← e2 x]; simp only [State.getLen, q5]
  · rw [q]
    show (BitVec.ofNat 32 (totalFreq l)).toNat = _
    rw [htot, BitVec.toNat_ofNat, Nat.mod_eq_of_lt hwf]
  · rw [q]
  · rw [q]
  · rw [hls, hsb]
    have := e9 x (by simpa only [State.getLen, q5] using hx)
    exact ⟨this.1, by simpa only [State.getLen, State.getCode, q4, q5] using this.2⟩
  · rw [q]; exact d6.trans e5

end Sys2Proof.Machine
end

