-- ==== Sys2Proof/Laws/Walk.lean ====
section
/-! SUPPORT. The decode walk (44_archiver.md R204 to R206): one bit, one code, a whole payload. -/

namespace Sys2Proof.Machine

/-! ### One bit -/

/-- `dec_step()` with a bit to read (R205). -/
theorem decStep_bit {s t : State} {b : Bool} (h : BitRead s b t) (hlt : s.bitsDone.toNat < s.codeLen.toNat) :
    decStep s = walkBit b { t with bitsDone := t.bitsDone + 1 } := by
  unfold decStep
  rw [if_neg (by omega), readBit_ok h]
  rfl

/-- `dec_step()` when all the bits have been consumed (R205). -/
theorem decStep_idle {s : State} (h : s.codeLen.toNat ≤ s.bitsDone.toNat) : decStep s = .ok () s := by
  unfold decStep
  rw [if_pos h]

/-- The walk to an INNER child (R204). -/
theorem walkBit_inner {s : State} {b : Bool} {q : NodeIdx} (hl : Link s.nodes s.cur.toNat b q)
    (hq : IsInner s.nodes q) : walkBit b s = .ok () { s with cur := q } := by
  obtain ⟨n, hn, hc⟩ := hl
  obtain ⟨l, r, f, hi⟩ := hq
  unfold walkBit
  simp only [hn, hc, hi]

/-- The walk to a LEAF: its symbol goes out as a raw byte (R204). -/
theorem walkBit_leaf {s : State} {b : Bool} {q : NodeIdx} {c : Symbol} {f : BitVec 40}
    (hl : Link s.nodes s.cur.toNat b q) (hq : s.nodes[q.toNat]? = some (.leaf c f)) (hs : Served 1 s)
    (ho : s.opos ≠ lastPos) :
    walkBit b s = .ok () { s with
      draws := s.draws.drop 1, mem := s.mem.append c, opos := s.opos + 1, outcnt := s.outcnt + 1, cur := s.root } := by
  obtain ⟨n, hn, hc⟩ := hl
  unfold walkBit
  simp only [hn, hc, hq]
  rw [snkByte_served c hs ho]
  rfl

/-- The walk into a missing child (R204). -/
theorem walkBit_missing {s : State} {b : Bool} {n : Node} (hn : s.nodes[s.cur.toNat]? = some n)
    (hc : n.child b = none) : walkBit b s = raise .missingChild s := by
  unfold walkBit
  simp only [hn, hc]

/-! ### A code and a message -/

/-- The state after `n` payload bits that emitted the symbols `out`. -/
def walked (s : State) (n : Nat) (out : List Symbol) (rbuf : BitVec 8) (rcnt : BitVec 4) (ipos : BitVec 32)
    (eos : Bool) (draws : List EnvAnswer) (cur : NodeIdx) : State :=
  { s with
    rbuf := rbuf
    rcnt := rcnt
    ipos := ipos
    eos := eos
    draws := draws
    cur := cur
    bitsDone := s.bitsDone + BitVec.ofNat 32 n
    outcnt := s.outcnt + BitVec.ofNat 32 out.length
    opos := s.opos + BitVec.ofNat 32 out.length
    mem := { s.mem with snk := s.mem.snk ++ out } }

/-- The walk along one code to its LEAF (R204, R104). -/
theorem decSteps_path (p : List Bool) {s : State} {rest : List Bool} {c : Symbol} {f : BitVec 40}
    (hl : HasLeaf s.nodes s.cur p c f) (hp : p ≠ []) (hu : unreadBits s = p ++ rest)
    (hwf : s.mem.src.length < 2 ^ 32) (hs : Served (p.length + 1) s)
    (hlt : s.bitsDone.toNat + p.length ≤ s.codeLen.toNat) (ho : s.opos ≠ lastPos) :
    ∃ rb rc ip e ds, decSteps p.length s = .ok () (walked s p.length [c] rb rc ip e ds s.root) ∧
      unreadBits (walked s p.length [c] rb rc ip e ds s.root) = rest ∧
      ∀ k, Served (p.length + 1 + k) s → Served k (walked s p.length [c] rb rc ip e ds s.root) := by
  induction p generalizing s with
  | nil => exact absurd rfl hp
  | cons b p ih =>
    simp only [List.length_cons] at hs hlt ⊢
    obtain ⟨t, hb, hrest⟩ := bitRead_of_unread (hs.mono (by omega)) hwf hu
    have hfr := hb.frame
    have hstep := decStep_bit hb (by omega)
    obtain ⟨x, hx, hleaf⟩ := hl
    obtain ⟨q, hlink, hq⟩ := follow_cons.1 hx
    have hnodes : t.nodes = s.nodes := by rw [hfr]
    have hcur : t.cur = s.cur := by rw [hfr]
    have hroot : t.root = s.root := by rw [hfr]
    have hopos : t.opos = s.opos := by rw [hfr]
    have hserved : ∀ k, Served (k + 1) s → Served k t := fun k hk => hb.served hk
    cases p with
    | nil =>
      have hqx : q = x := Option.some.inj hq
      rw [← hqx] at hleaf
      have hrest' : unreadBits t = rest := hrest
      have h1 := hserved 1 (hs.mono (by simp))
      have hw := walkBit_leaf (s := { t with bitsDone := t.bitsDone + 1 }) (b := b) (q := q) (c := c) (f := f)
        (by show Link t.nodes t.cur.toNat b q; rw [hnodes, hcur]; exact hlink)
        (by show t.nodes[q.toNat]? = _; rw [hnodes]; exact hleaf) h1 (by show t.opos ≠ _; rw [hopos]; exact ho)
      refine ⟨t.rbuf, t.rcnt, t.ipos, false, t.draws.drop 1, ?_, ?_, fun k hk => ?_⟩
      · rw [decSteps, hstep, hw]
        simp only [Res.bind_ok, List.length_nil, decSteps]
        congr 1
        rw [hfr]
        rfl
      · rw [← hrest']
        have hm : t.mem.src = s.mem.src := by rw [hfr]
        unfold unreadBits
        simp only [walked, hm]
      · exact Served.rest (j := 1) (s := t) (hserved (1 + k) (by
          refine hk.mono ?_
          simp only [List.length_nil]
          omega)) rfl
    | cons b' p =>
      have hin : IsInner s.nodes q := by
        obtain ⟨m, hm, -⟩ := follow_cons.1 hq
        exact hm.inner
      have hw := walkBit_inner (s := { t with bitsDone := t.bitsDone + 1 }) (b := b) (q := q)
        (by show Link t.nodes t.cur.toNat b q; rw [hnodes, hcur]; exact hlink)
        (by show IsInner t.nodes q; rw [hnodes]; exact hin)
      have hbd : (t.bitsDone + 1).toNat = s.bitsDone.toNat + 1 := by
        have : t.bitsDone = s.bitsDone := by rw [hfr]
        rw [this]
        have := s.codeLen.isLt
        exact toNat_addNat (n := 1) (by omega)
      have hcl : t.codeLen = s.codeLen := by rw [hfr]
      have hm : t.mem = s.mem := by rw [hfr]
      obtain ⟨rb, rc, ip, e, ds, h1, h2, h3⟩ := ih (s := { t with bitsDone := t.bitsDone + 1, cur := q })
        ⟨x, by show follow t.nodes q _ = _; rw [hnodes]; exact hq, by show t.nodes[x.toNat]? = _; rw [hnodes]; exact hleaf⟩
        (by simp) (by exact hrest) (by show t.mem.src.length < _; rw [hm]; exact hwf)
        (hserved _ hs) (by
          show (t.bitsDone + 1).toNat + _ ≤ t.codeLen.toNat
          rw [hbd, hcl]
          simp only [List.length_cons] at hlt ⊢
          omega)
        (by show t.opos ≠ _; rw [hopos]; exact ho)
      have heq : walked { t with bitsDone := t.bitsDone + 1, cur := q } (b' :: p).length [c] rb rc ip e ds t.root =
          walked s ((b' :: p).length + 1) [c] rb rc ip e ds s.root := by
        rw [hfr]
        simp only [walked, Nat.add_comm _ 1]
        congr 1
        exact ofNat_add32 s.bitsDone 1 _
      refine ⟨rb, rc, ip, e, ds, ?_, ?_, fun k hk => ?_⟩
      · rw [decSteps, hstep, hw]
        simp only [Res.bind_ok]
        rw [h1, heq]
      · rw [← heq]; exact h2
      · rw [← heq]
        refine h3 k (hserved _ ?_)
        refine hk.mono ?_
        omega

theorem decSteps_add (a b : Nat) (s : State) :
    decSteps (a + b) s = (decSteps a s).bind fun _ t => decSteps b t := by
  induction a generalizing s with
  | zero => simp [decSteps]
  | succ a ih =>
    rw [Nat.succ_add, decSteps, decSteps, Res.bind_assoc]
    congr 1
    funext _ t
    exact ih t

/-- The walk along a whole message: from the root, code after code (R204 to R206, R104). -/
theorem decSteps_message (ms : List (List Bool × Symbol)) {s : State} {rest : List Bool}
    (hleaf : ∀ m ∈ ms, ∃ f, HasLeaf s.nodes s.root m.1 m.2 f) (hne : ∀ m ∈ ms, m.1 ≠ []) (hcur : s.cur = s.root)
    (hu : unreadBits s = ms.flatMap Prod.fst ++ rest) (hwf : s.mem.src.length < 2 ^ 32)
    (hs : Served ((ms.flatMap Prod.fst).length + ms.length) s)
    (hlt : s.bitsDone.toNat + (ms.flatMap Prod.fst).length ≤ s.codeLen.toNat)
    (ho : s.opos.toNat + ms.length ≤ 2 ^ 32 - 1) :
    ∃ rb rc ip e ds, decSteps (ms.flatMap Prod.fst).length s =
        .ok () (walked s (ms.flatMap Prod.fst).length (ms.map Prod.snd) rb rc ip e ds s.root) ∧
      unreadBits (walked s (ms.flatMap Prod.fst).length (ms.map Prod.snd) rb rc ip e ds s.root) = rest ∧
      ∀ k, Served ((ms.flatMap Prod.fst).length + ms.length + k) s →
        Served k (walked s (ms.flatMap Prod.fst).length (ms.map Prod.snd) rb rc ip e ds s.root) := by
  induction ms generalizing s with
  | nil =>
    refine ⟨s.rbuf, s.rcnt, s.ipos, s.eos, s.draws, ?_, hu, fun k hk => ?_⟩
    · have : walked s ([] : List Bool).length ([] : List Symbol) s.rbuf s.rcnt s.ipos s.eos s.draws s.root = s := by
        rw [← hcur]
        simp [walked]
      simp only [List.flatMap_nil, List.length_nil, List.map_nil, decSteps] at this ⊢
      rw [this]
    · exact hk.mono (by simp)
  | cons m ms ih =>
    obtain ⟨p, c⟩ := m
    simp only [List.flatMap_cons, List.length_append, List.length_cons, List.map_cons] at hu hs hlt ho ⊢
    obtain ⟨f, hl⟩ := hleaf (p, c) (by simp)
    have hp := hne (p, c) (by simp)
    have hone : s.opos ≠ lastPos := by
      intro he; rw [he] at ho; simp [lastPos] at ho
    obtain ⟨rb, rc, ip, e, ds, h1, h2, h3⟩ := decSteps_path p (s := s) (rest := ms.flatMap Prod.fst ++ rest)
      (by rw [hcur]; exact hl) hp (by rw [hu, List.append_assoc]) hwf (hs.mono (by omega)) (by omega) hone
    have hbd : (walked s p.length [c] rb rc ip e ds s.root).bitsDone.toNat = s.bitsDone.toNat + p.length :=
      toNat_addNat (by have := s.codeLen.isLt; omega)
    have hop : (walked s p.length [c] rb rc ip e ds s.root).opos.toNat = s.opos.toNat + 1 :=
      toNat_addNat (n := 1) (by omega)
    obtain ⟨rb', rc', ip', e', ds', g1, g2, g3⟩ := ih (s := walked s p.length [c] rb rc ip e ds s.root)
      (fun m hm => hleaf m (by simp [hm])) (fun m hm => hne m (by simp [hm])) rfl h2 hwf
      (h3 _ (hs.mono (by omega)))
      (by rw [hbd]; show _ ≤ s.codeLen.toNat; omega) (by rw [hop]; omega)
    have heq : walked (walked s p.length [c] rb rc ip e ds s.root) (ms.flatMap Prod.fst).length (ms.map Prod.snd)
          rb' rc' ip' e' ds' s.root =
        walked s (p.length + (ms.flatMap Prod.fst).length) (c :: ms.map Prod.snd) rb' rc' ip' e' ds' s.root := by
      simp only [walked, ofNat_add32, List.append_assoc, List.length_cons, List.length_nil,
        List.singleton_append, Nat.zero_add, Nat.add_comm 1]
    refine ⟨rb', rc', ip', e', ds', ?_, ?_, fun k hk => ?_⟩
    · rw [decSteps_add, h1]
      simp only [Res.bind_ok]
      rw [g1]
      exact congrArg _ heq
    · rw [← heq]; exact g2
    · rw [← heq]
      exact g3 k (h3 _ (hk.mono (by omega)))

end Sys2Proof.Machine
end

