-- ==== Sys2Proof/Laws/DecodeFile.lean ====
section
/-! SUPPORT. DECODE on a good file (44_archiver.md R203 to R208): the whole pipeline on a served medium, and where the
reader stops. -/

namespace Sys2Proof.Machine

/-! ### The reader's position -/

/-- The buffer holds less than a byte and IPOS does not pass SRC_LEN: the reader after it delivered a bit (R121). -/
def Midbyte (s : State) : Prop :=
  s.rcnt.toNat ≤ 7 ∧ s.ipos.toNat ≤ s.mem.src.length ∧ s.mem.src.length < 2 ^ 32

theorem readBit_midbyte {s t : State} {r : Option Bool} (h : readBit s = .ok r t) (hs : Midbyte s) : Midbyte t := by
  obtain ⟨h1, h2, h3⟩ := hs
  unfold readBit at h
  split at h
  · obtain ⟨r', u, h4, h5⟩ := Res.bind_eq_ok.1 h
    rcases r' with _ | v
    · obtain ⟨-, ds, n, rfl⟩ := srcByte_none h4
      cases h5
      exact ⟨h1, h2, h3⟩
    · obtain ⟨hv, ds, n, rfl⟩ := srcByte_some h4
      cases h5
      have hlt := (List.getElem?_eq_some_iff.1 hv).1
      refine ⟨by show ((8 : BitVec 4) - 1).toNat ≤ 7; decide, ?_, h3⟩
      show (s.ipos + 1).toNat ≤ s.mem.src.length
      have : (s.ipos + 1).toNat = s.ipos.toNat + 1 := toNat_addNat (n := 1) (by omega)
      omega
  · rename_i h0
    cases h
    refine ⟨?_, h2, h3⟩
    have h4 : s.rcnt.toNat ≠ 0 := fun he => h0 (BitVec.eq_of_toNat_eq he)
    have h5 := s.rcnt.isLt
    show (s.rcnt - 1).toNat ≤ 7
    rw [BitVec.toNat_sub]
    simp
    omega

theorem walkBit_midbyte {s t : State} {b : Bool} (h : walkBit b s = .ok () t) (hs : Midbyte s) : Midbyte t := by
  unfold walkBit at h
  split at h
  · cases h
  · split at h
    · cases h
    · split at h
      · cases h
      · obtain ⟨_, u, h1, h2⟩ := Res.bind_eq_ok.1 h
        obtain ⟨-, ds, n, rfl⟩ := snkByte_done h1
        cases h2
        exact hs
      · cases h
        exact hs

theorem decSteps_midbyte (k : Nat) {s t : State} (h : decSteps k s = .ok () t) (hs : Midbyte s) : Midbyte t := by
  induction k generalizing s with
  | zero => cases h; exact hs
  | succ k ih =>
    obtain ⟨_, u, h1, h2⟩ := Res.bind_eq_ok.1 h
    refine ih h2 ?_
    unfold decStep at h1
    split at h1
    · cases h1; exact hs
    · obtain ⟨r, v, h3, h4⟩ := Res.bind_eq_ok.1 h1
      have hv := readBit_midbyte h3 hs
      rcases r with _ | b
      · cases h4
      · exact walkBit_midbyte h4 (by exact hv)

/-- With the padding of one byte and whole bytes unread, the reader stands at the first of those bytes (R103, R278). -/
theorem midbyte_ipos {s : State} {pad : Nat} {trail : List Byte} (hs : Midbyte s) (hp : pad < 8)
    (hu : unreadBits s = List.replicate pad false ++ streamBits trail) :
    s.ipos.toNat + trail.length = s.mem.src.length := by
  obtain ⟨h1, h2, -⟩ := hs
  have hl := congrArg List.length hu
  simp only [unreadBits, List.length_append, List.length_map, List.length_range, streamBits_length, List.length_drop,
    List.length_replicate] at hl
  omega

/-! ### The pipeline -/

theorem zero_add32 (x : BitVec 32) : (0 : BitVec 32) + x = x := by simp

/-- The entries of a good table are not empty. -/
theorem entry_bits_ne {es : List Entry} (hg : GoodTable es) {e : Entry} (he : e ∈ es) : e.bits ≠ [] := by
  intro h
  have := congrArg List.length h
  simp only [Entry.bits, List.length_map, List.length_range, List.length_nil] at this
  have := (hg.lengths e he).1
  omega

/-- `n` symbols take at least `n` bits. -/
theorem message_le {es ms : List Entry} (hg : GoodTable es) (hm : ∀ e ∈ ms, e ∈ es) :
    ms.length ≤ (ms.flatMap Entry.bits).length := by
  induction ms with
  | nil => simp
  | cons m ms ih =>
    have h1 := ih fun e he => hm e (by simp [he])
    have h2 := entry_bits_ne hg (hm m (by simp))
    have h3 : m.bits.length ≠ 0 := fun h => h2 (List.length_eq_zero_iff.1 h)
    rw [List.flatMap_cons, List.length_append, List.length_cons]
    omega

/-- What DECODE leaves of a good file (R207, R208). -/
structure DecodedFile (s t : State) (es ms : List Entry) (payload : List Byte) : Prop where
  mem : t.mem = { s.mem with snk := ms.map Entry.sym, snkOpen := false }
  codeLen : t.codeLen.toNat = (ms.flatMap Entry.bits).length
  tableSize : t.tableSize.toNat = es.length
  bitsDone : t.bitsDone = t.codeLen
  cur : t.cur = t.root
  ipos : t.ipos.toNat = 8 + 6 * es.length + payload.length
  origBytes : t.origBytes.toNat = ms.length
  payloadBytes : t.payloadBytes = payloadByteCount t.codeLen
  hdrBytes : t.hdrBytes = headerByteCount t.tableSize
  err : t.err = s.err
  ropen : t.ropen = false
  wopen : t.wopen = false
  tables : t.freq = s.freq ∧ t.code = s.code ∧ t.len = s.len ∧ t.tlen = s.tlen

/-- DECODE of a good file on a served medium (R207). -/
theorem decodeFile_ok {s : State} {es ms : List Entry} {payload trail : List Byte} (hg : GoodTable es)
    (hm : ∀ e ∈ ms, e ∈ es) (hlt : (ms.flatMap Entry.bits).length < 2 ^ 32)
    (hpk : Packs payload (ms.flatMap Entry.bits))
    (hsrc : s.mem.src = fileHeader (BitVec.ofNat 32 (ms.flatMap Entry.bits).length) es ++ payload ++ trail)
    (hwf : s.mem.src.length < 2 ^ 32)
    (hs : Served (8 + 6 * es.length + ((ms.flatMap Entry.bits).length + ms.length)) s) :
    ∃ t, decodeFile s = .ok () t ∧ DecodedFile s t es ms payload := by
  have hle := message_le hg hm
  have hcl : (BitVec.ofNat 32 (ms.flatMap Entry.bits).length).toNat = (ms.flatMap Entry.bits).length := by
    rw [BitVec.toNat_ofNat, Nat.mod_eq_of_lt hlt]
  have hsize := hg.size
  have hts : (BitVec.ofNat 32 es.length).toNat = es.length := by
    rw [BitVec.toNat_ofNat, Nat.mod_eq_of_lt (by omega)]
  obtain ⟨pad, hpad, hpk⟩ := hpk
  generalize hcv : BitVec.ofNat 32 (ms.flatMap Entry.bits).length = cl at *
  -- both streams open
  let s1 : State := { s with
    ipos := 0, rbuf := 0, rcnt := 0, eos := false, ropen := true
    mem := s.mem.openSink, opos := 0, wacc := 0, wcnt := 0, wopen := true }
  obtain ⟨ns, h1, hshape, hleaf⟩ := decHeader_ok cl es (s := s1) (ws := payload ++ trail) hg
    (by show s.mem.src.drop 0 = _; rw [List.drop_zero, hsrc, List.append_assoc]) hwf
    (hs.mono (by omega))
  have hdrop : s.mem.src.drop (8 + 6 * es.length) = payload ++ trail := by
    rw [hsrc, List.append_assoc, List.drop_left' (fileHeader_length cl es)]
  have hsl : s.mem.src.length = 8 + 6 * es.length + (payload.length + trail.length) := by
    rw [hsrc, List.append_assoc, List.length_append, fileHeader_length, List.length_append]
  have hip : (headed s1 cl es.length ns).ipos.toNat = 8 + 6 * es.length := by
    show ((0 : BitVec 32) + BitVec.ofNat 32 (8 + 6 * es.length)).toNat = _
    rw [zero_add32, BitVec.toNat_ofNat, Nat.mod_eq_of_lt (by omega)]
  have hun : unreadBits (headed s1 cl es.length ns) =
      (ms.map fun e => (e.bits, e.sym)).flatMap Prod.fst ++ (List.replicate pad false ++ streamBits trail) := by
    unfold unreadBits
    rw [hip]
    show [] ++ streamBits (s.mem.src.drop _) = _
    rw [hdrop, streamBits_append, hpk, List.flatMap_map, List.nil_append, List.append_assoc]
  have hfm : ((ms.map fun e => (e.bits, e.sym)).flatMap Prod.fst) = ms.flatMap Entry.bits := List.flatMap_map ..
  have hsv : Served ((ms.flatMap Entry.bits).length + ms.length) (headed s1 cl es.length ns) :=
    fetched_served (s := s1) (j := 8 + 6 * es.length) hs
  obtain ⟨rb, rc, ip, e, ds, h2, h3, -⟩ := decSteps_message (ms.map fun e => (e.bits, e.sym))
    (s := headed s1 cl es.length ns) (rest := List.replicate pad false ++ streamBits trail)
    (by
      intro m hm'
      obtain ⟨e, he, rfl⟩ := List.mem_map.1 hm'
      exact ⟨0, (hleaf _ _ _).2 ⟨e, hm e he, rfl, rfl, rfl⟩⟩)
    (by
      intro m hm'
      obtain ⟨e, he, rfl⟩ := List.mem_map.1 hm'
      exact entry_bits_ne hg (hm e he))
    rfl hun hwf (by rw [hfm, List.length_map]; exact hsv)
    (by rw [hfm]; show (0 : BitVec 32).toNat + _ ≤ cl.toNat; rw [hcl]; simp)
    (by rw [List.length_map]; show (0 : BitVec 32).toNat + _ ≤ _; simp; omega)
  rw [hfm, List.map_map] at h2 h3
  have hmid : Midbyte (headed s1 cl es.length ns) := ⟨by show (0 : BitVec 4).toNat ≤ 7; decide, by
    rw [hip]; show _ ≤ s.mem.src.length; omega, hwf⟩
  have hmid' := decSteps_midbyte _ h2 hmid
  have hipos : ip.toNat + trail.length = s.mem.src.length := midbyte_ipos hmid' hpad h3
  have hpay : decPayload (headed s1 cl es.length ns) = .ok () (walked (headed s1 cl es.length ns)
      (ms.flatMap Entry.bits).length (ms.map (Prod.snd ∘ fun e => (e.bits, e.sym))) rb rc ip e ds 0) := by
    unfold decPayload
    have : (headed s1 cl es.length ns).codeLen.toNat - (headed s1 cl es.length ns).bitsDone.toNat =
        (ms.flatMap Entry.bits).length := by
      show cl.toNat - (0 : BitVec 32).toNat = _
      rw [hcl]; simp
    rw [this]
    exact h2
  generalize hw : walked (headed s1 cl es.length ns) (ms.flatMap Entry.bits).length
    (ms.map (Prod.snd ∘ fun e => (e.bits, e.sym))) rb rc ip e ds 0 = w at *
  have hrun : decodeFile s = report w.outcnt { w with
      ropen := false, rbuf := 0, rcnt := 0, wopen := false, mem := w.mem.closeSink } := by
    unfold decodeFile openReader openWriter closeReader
    simp only [Res.bind_ok]
    show ((decHeader s1).bind _) = _
    rw [h1]
    simp only [Res.bind_ok]
    rw [hpay]
    simp only [Res.bind_ok]
    have hc : closeWriter { w with ropen := false, rbuf := 0, rcnt := 0 } = .ok () { w with
        ropen := false, rbuf := 0, rcnt := 0, wopen := false, mem := w.mem.closeSink } := by
      unfold closeWriter
      rw [if_neg (by rw [← hw]; show ¬ (0 : BitVec 4) ≠ 0; decide)]
      rfl
    rw [hc]
    rfl
  refine ⟨_, hrun, ?_, ?_, ?_, ?_, ?_, ?_, ?_, rfl, rfl, ?_, rfl, rfl, ?_⟩
  · rw [← hw]
    show ({ s.mem with snk := [] ++ _, snkOpen := false } : Memory) = _
    rw [List.nil_append]
    rfl
  · rw [← hw]; exact hcl
  · rw [← hw]; exact hts
  · rw [← hw]
    show (0 : BitVec 32) + BitVec.ofNat 32 (ms.flatMap Entry.bits).length = cl
    rw [hcv, zero_add32]
  · rw [← hw]; rfl
  · rw [← hw]
    show ip.toNat = _
    omega
  · rw [← hw]
    show ((0 : BitVec 32) + BitVec.ofNat 32 (ms.map _).length).toNat = _
    rw [zero_add32, BitVec.toNat_ofNat, List.length_map, Nat.mod_eq_of_lt (by omega)]
  · rw [← hw]; rfl
  · rw [← hw]; exact ⟨rfl, rfl, rfl, rfl⟩

end Sys2Proof.Machine
end

