-- ==== Sys2Proof/Laws/EncodeFile.lean ====
section
/-! SUPPORT. ENCODE on a served medium (44_archiver.md R202): with at most 33 distinct byte values no code is longer than
32 bits (42_code_tree.md R172), and the command runs to its end. -/

namespace Sys2Proof.Machine

/-- How many distinct byte values a message has. -/
def distinct (vs : List Byte) : Nat := (symbols.filter fun c => vs.contains c).length

theorem countedSymbols_eq {s : State} {vs : List Byte} (h : ∀ c, (s.getFreq c).toNat = vs.count c) :
    (countedSymbols s).length = distinct vs := by
  unfold countedSymbols distinct
  congr 1
  refine List.filter_congr fun c _ => ?_
  have hc := h c
  by_cases hm : c ∈ vs
  · have h1 := List.count_pos_iff.2 hm
    have h2 : s.getFreq c ≠ 0 := fun he => by rw [he] at hc; simp at hc; omega
    rw [bne_iff_ne.2 h2, List.contains_iff_mem.2 hm]
  · have h1 := List.count_eq_zero.2 hm
    have h2 : s.getFreq c = 0 := BitVec.eq_of_toNat_eq (by rw [hc, h1]; rfl)
    simp [hm, h2]

/-- The length of a coded message when no code is longer than `D`. -/
theorem coded_le {t : State} {D : Nat} (vs : List Byte) (h : ∀ c ∈ vs, (t.getLen c).toNat ≤ D) :
    (vs.flatMap (symbolBits t)).length ≤ D * vs.length := by
  induction vs with
  | nil => simp
  | cons v vs ih =>
    have h1 := ih fun c hc => h c (by simp [hc])
    have h2 := h v (by simp)
    have h3 : (symbolBits t v).length = (t.getLen v).toNat := by simp [symbolBits]
    rw [List.flatMap_cons, List.length_append, List.length_cons, Nat.mul_add, h3]
    omega

/-- The table TB_BUILD makes of the tree TR_BUILD makes has one entry for each counted symbol (R193 (5)). -/
theorem built_entries {s t : State} (hr : ∀ c, Recorded (built s) t c) :
    (tableEntries t).length = (countedSymbols s).length := by
  unfold tableEntries countedSymbols
  rw [List.length_map]
  congr 1
  refine List.filter_congr fun c _ => ?_
  have := (built_table hr [] c).1
  by_cases h : s.getFreq c = 0
  · have h2 : t.getLen c = 0 := by_contra fun hn => this.1 hn h
    simp [h, h2]
  · rw [bne_iff_ne.2 h, bne_iff_ne.2 (this.2 h)]

/-- The tree of few symbols is not deep, and its table can be built (R172, R192). -/
theorem built_ok {s : State} (hk : (countedSymbols s).length ≤ 33) :
    ∃ code len, tableBuild (built s) = .ok () { built s with code := code, len := len } ∧
      (∀ c, Recorded (built s) { built s with code := code, len := len } c) ∧
      ∀ c, (State.getLen { built s with code := code, len := len } c).toNat ≤ max 1 ((countedSymbols s).length - 1) := by
  have hd : ∀ p c, leafSymbol (built s) p = some c → p.length ≤ max 1 ((countedSymbols s).length - 1) := by
    intro p c hp
    obtain ⟨f, hf⟩ := leafSymbol_eq_some.1 hp
    exact treeBuild_depth (t := built s) rfl rfl hf
  obtain ⟨code, len, h1, h2⟩ := tableBuild_ok (built_tree s) fun p c hp => by have := hd p c hp; omega
  refine ⟨code, len, h1, h2, fun c => ?_⟩
  rcases h2 c with ⟨-, h3, -⟩ | ⟨p, h3, h4, -⟩
  · rw [h3]; simp
  · rw [h4]; exact hd p c h3

/-- WR_CLOSE on a served medium, below the position limit (R147). -/
theorem closeWriter_ok {s : State} (hs : Served (if s.wcnt = 0 then 0 else 1) s)
    (hp : s.opos.toNat + (if s.wcnt = 0 then 0 else 1) ≤ 2 ^ 32 - 1) : ∃ t, closeWriter s = .ok () t := by
  unfold closeWriter
  by_cases h : s.wcnt = 0
  · rw [if_neg (by simp [h])]
    exact ⟨_, rfl⟩
  · rw [if_neg h] at hs hp
    have hne : s.opos ≠ lastPos := by
      intro he; rw [he] at hp; simp [lastPos] at hp
    rw [if_pos h, snkByte_served (s := { s with wacc := 0, wcnt := 0 }) s.wacc hs hne]
    exact ⟨_, rfl⟩

/-- The last six steps of ENCODE on a served medium (R202). -/
theorem encodeWrite_ok {s f : State} {B : Nat} (hwf : s.mem.src.length < 2 ^ 32) (hmem : f.mem = s.mem)
    (hfreq : ∀ x, (f.getFreq x).toNat = s.mem.src.count x)
    (hB : (s.mem.src.flatMap (symbolBits f)).length ≤ B) (hB32 : B < 2 ^ 32)
    (hs : Served (8 + 6 * (tableEntries f).length + (s.mem.src.length + 1 + (B + 7) / 8)) f) :
    ∃ g k l, encHeader { f with mem := f.mem.openSink, opos := 0, wacc := 0, wcnt := 0, wopen := true } = .ok () g ∧
      encPayload { g with ipos := 0, rbuf := 0, rcnt := 0, eos := false, ropen := true } = .ok () k ∧
      closeWriter { k with ropen := false, rbuf := 0, rcnt := 0 } = .ok () l := by
  have hle := tableEntries_length f
  let f1 : State := { f with mem := f.mem.openSink, opos := 0, wacc := 0, wcnt := 0, wopen := true }
  have hpb : payloadBits f1 = (s.mem.src.flatMap (symbolBits f)).length := payloadBits_eq (t := f) hfreq
  have z : (0 : BitVec 32).toNat = 0 := rfl
  have hte : tableEntries f1 = tableEntries f := rfl
  have h8 := encHeader_ok (s := f1) (by rw [hpb]; omega) (by rw [hte]; exact hs.mono (by omega))
    (by rw [hte]; show (0 : BitVec 32).toNat + _ ≤ _; rw [z]; omega)
  rw [hpb, hte] at h8
  have hH := fileHeader_length (BitVec.ofNat 32 (s.mem.src.flatMap (symbolBits f)).length) (tableEntries f)
  generalize BitVec.ofNat 32 (s.mem.src.flatMap (symbolBits f)).length = cl at h8 hH
  generalize BitVec.ofNat 32 (tableEntries f).length = ts at h8
  generalize BitVec.ofNat 32 (8 + 6 * (tableEntries f).length) = hb at h8
  generalize fileHeader cl (tableEntries f) = hdr at h8 hH
  let g : State := appended { f1 with codeLen := cl, tableSize := ts, hdrBytes := hb } hdr
  let g1 : State := { g with ipos := 0, rbuf := 0, rcnt := 0, eos := false, ropen := true }
  have hsb : symbolBits g1 = symbolBits f := rfl
  have hw : g1.wcnt = 0 := rfl
  have hop : g1.opos.toNat = hdr.length := by
    show ((0 : BitVec 32) + BitVec.ofNat 32 hdr.length).toNat = _
    rw [toNat_addNat (by rw [z]; omega), z, Nat.zero_add]
  have hsv : Served (s.mem.src.length + 1 + (B + 7) / 8) g1 :=
    Served.rest (j := hdr.length) (s := f) (by rw [hH]; exact hs) rfl
  have hw' : g1.wcnt.toNat = 0 := rfl
  generalize hN : (s.mem.src.flatMap (symbolBits f)).length = N at hB
  obtain ⟨snk, acc, cnt, h10, c1, -⟩ := encPayload_ok (s := g1) s.mem.src
    (by show f.mem.src.drop 0 = _; rw [hmem]; rfl) (by show f.mem.src.length < _; rw [hmem]; exact hwf) emptyBuffer
    (by rw [hsb, hN, hw']; exact hsv.mono (by omega))
    (by rw [hsb, hN, hw', hop]; omega)
  rw [hsb, hN, hw', Nat.zero_add] at h10 c1
  have hcnt : (if cnt = 0 then 0 else 1) + N / 8 ≤ (N + 7) / 8 := by
    split
    · omega
    · rename_i h
      have : cnt.toNat ≠ 0 := fun he => h (BitVec.eq_of_toNat_eq he)
      omega
  have hkop : (coded g1 s.mem.src.length (N / 8) snk acc cnt).opos.toNat = hdr.length + N / 8 := by
    show (g1.opos + BitVec.ofNat 32 (N / 8)).toNat = _
    rw [toNat_addNat (by rw [hop]; omega), hop]
  obtain ⟨l, hl⟩ := closeWriter_ok
    (s := { coded g1 s.mem.src.length (N / 8) snk acc cnt with ropen := false, rbuf := 0, rcnt := 0 })
    (by
      show Served (if cnt = 0 then 0 else 1) _
      exact Served.rest (j := s.mem.src.length + 1 + N / 8) (s := g1) (hsv.mono (by omega)) rfl)
    (by
      show (coded g1 s.mem.src.length (N / 8) snk acc cnt).opos.toNat + (if cnt = 0 then 0 else 1) ≤ _
      rw [hkop]; omega)
  exact ⟨g, _, l, h8, h10, hl⟩

/-- Counters with the same values are the same (R41). -/
theorem freq_ext {s t : State} (h : ∀ c, (s.getFreq c).toNat = (t.getFreq c).toNat) : s.freq = t.freq := by
  refine Vector.ext fun i hi => ?_
  have := h (BitVec.ofNat 8 i)
  simp only [State.getFreq, BitVec.toNat_ofNat, Nat.mod_eq_of_lt (show i < 2 ^ 8 from hi)] at this
  exact BitVec.eq_of_toNat_eq this

/-- The state in which the first five steps of ENCODE leave the block, but for the tree (R202). -/
def counted (s : State) (freq : Vector (BitVec 32) 256) : State :=
  { scanned { s with ipos := 0, rbuf := 0, rcnt := 0, eos := false, ropen := true, freq := Vector.replicate 256 0 }
      s.mem.src.length freq with ropen := false, rbuf := 0, rcnt := 0 }

/-- The first four steps of ENCODE on a served medium: the counts of SRC (R202, R163). -/
theorem encodeFile_counts {s : State} (hwf : s.mem.src.length < 2 ^ 32) (hs : Served (s.mem.src.length + 1) s) :
    ∃ freq, (∀ c, ((counted s freq).getFreq c).toNat = s.mem.src.count c) ∧
      encodeFile s = (tableBuild (built (counted s freq))).bind fun _ f =>
        (encHeader { f with mem := f.mem.openSink, opos := 0, wacc := 0, wcnt := 0, wopen := true }).bind fun _ g =>
        (encPayload { g with ipos := 0, rbuf := 0, rcnt := 0, eos := false, ropen := true }).bind fun _ k =>
        (closeWriter { k with ropen := false, rbuf := 0, rcnt := 0 }).bind fun _ l =>
        report (BitVec.ofNat 32 (totalFreq l)) l := by
  let s2 : State := { s with
    ipos := 0, rbuf := 0, rcnt := 0, eos := false, ropen := true, freq := Vector.replicate 256 0 }
  have hz : ∀ c, (s2.getFreq c).toNat = 0 := fun c => by simp [s2, State.getFreq]
  obtain ⟨freq, h3, hf⟩ := scanFreq_ok s.mem.src (s := s2) rfl hwf hs (fun c => by
    rw [hz, Nat.zero_add]
    exact Nat.le_trans List.count_le_length (by omega))
  refine ⟨freq, fun c => ?_, ?_⟩
  · have := hf c
    rw [hz, Nat.zero_add] at this
    exact this
  · unfold encodeFile openReader clearFreq closeReader openWriter
    simp only [Res.bind_ok]
    show ((scanFreq s2).bind _) = _
    rw [h3]
    simp only [Res.bind_ok]
    rw [treeBuild_eq]
    rfl

/-- The tree TR_BUILD makes depends on the counters alone (R165). -/
theorem built_congr {s t : State} (h : s.freq = t.freq) :
    (built s).nodes = (built t).nodes ∧ (built s).root = (built t).root :=
  ⟨congrArg (fun ls => (buildTree ls).1) (freqLeaves_congr h), congrArg (fun ls => idx (buildTree ls).2) (freqLeaves_congr h)⟩

theorem leafSymbol_built {s t : State} (h : s.freq = t.freq) (p : List Bool) :
    leafSymbol (built s) p = leafSymbol (built t) p := by
  obtain ⟨h1, h2⟩ := built_congr h
  simp only [leafSymbol, h1, h2]

theorem leafFreq_built {s t : State} (h : s.freq = t.freq) (p : List Bool) :
    leafFreq (built s) p = leafFreq (built t) p := by
  obtain ⟨h1, h2⟩ := built_congr h
  simp only [leafFreq, h1, h2]

/-- ENCODE of a SRC whose counts make a LEAF deeper than 32 (R192, R202). -/
theorem encodeFile_deep {s u : State} (hwf : s.mem.src.length < 2 ^ 32)
    (hu : ∀ c, (u.getFreq c).toNat = s.mem.src.count c) (hs : Served (s.mem.src.length + 1) s) {p : List Bool} {c : Symbol}
    (hp : leafSymbol (built u) p = some c) (hd : 32 < p.length) :
    ∃ freq, encodeFile s = raise .codeTooLong (clearTable (built (counted s freq))) := by
  obtain ⟨freq, hf, heq⟩ := encodeFile_counts hwf hs
  rw [leafSymbol_built (freq_ext fun c => (hu c).trans (hf c).symm)] at hp
  refine ⟨freq, ?_⟩
  rw [heq, tableBuild_deep (built_tree _) hp hd]
  rfl

/-- ENCODE on a served medium, no LEAF of the tree of SRC's counts deeper than 32 (R202, R209): it runs to its end exactly
when the payload is shorter than 2^32 bits. -/
theorem encodeFile_cases {s u : State} {N : Nat} (hwf : s.mem.src.length < 2 ^ 32)
    (hu : ∀ c, (u.getFreq c).toNat = s.mem.src.count c) {ps : List (List Bool)} (hnd : ps.Nodup)
    (hps : ∀ p, p ∈ ps ↔ (leafSymbol (built u) p).isSome = true)
    (hN : (ps.map fun p => p.length * leafFreq (built u) p).sum = N)
    (hd : ∀ p c, leafSymbol (built u) p = some c → p.length ≤ 32)
    (hs : Served (s.mem.src.length + 1 + (8 + 6 * distinct s.mem.src +
      (s.mem.src.length + 1 + (min N (2 ^ 32) + 7) / 8))) s) :
    (N < 2 ^ 32 → ∃ t, encodeFile s = .ok () t) ∧
      (2 ^ 32 ≤ N → ∃ t, encodeFile s = raise .codeLenOverflow t ∧ t.wcnt = 0) := by
  obtain ⟨freq, hf, heq⟩ := encodeFile_counts hwf (hs.mono (by omega))
  have hfe : u.freq = (counted s freq).freq := freq_ext fun c => (hu c).trans (hf c).symm
  simp only [leafSymbol_built hfe] at hps hd
  simp only [leafFreq_built hfe] at hN
  obtain ⟨code, len, h6, hrec⟩ := tableBuild_ok (built_tree _) hd
  have hw := built_weighted hrec hnd hps
  rw [hN] at hw
  have hent := built_entries hrec
  rw [countedSymbols_eq hf] at hent
  clear hps hN hd hfe
  generalize hfd : ({ built (counted s freq) with code := code, len := len } : State) = f at *
  have hm : f.mem = s.mem := by rw [← hfd]; rfl
  have hff : ∀ c, (f.getFreq c).toNat = s.mem.src.count c := fun c => by rw [← hfd]; exact hf c
  have hpb : payloadBits f = N := by
    rw [hw]
    unfold payloadBits
    congr 1
    refine List.map_congr_left fun c _ => ?_
    rw [hff, hf]
  rw [heq, h6]
  simp only [Res.bind_ok]
  have hcode : (s.mem.src.flatMap (symbolBits f)).length = N := by rw [← payloadBits_eq hff, hpb]
  refine ⟨fun hlt => ?_, fun hge => ?_⟩
  · have hfs : Served (8 + 6 * (tableEntries f).length + (s.mem.src.length + 1 + (N + 7) / 8)) f := by
      rw [hent]
      refine Served.rest (j := s.mem.src.length + 1) (s := s) (hs.mono (by omega)) ?_
      rw [← hfd]; rfl
    obtain ⟨g, k, l, h8, h10, h12⟩ := encodeWrite_ok hwf hm hff (Nat.le_of_eq hcode) hlt hfs
    rw [h8]
    simp only [Res.bind_ok]
    rw [h10]
    simp only [Res.bind_ok]
    rw [h12]
    exact ⟨_, rfl⟩
  · have h8 := encHeader_overflow
      (s := { f with mem := f.mem.openSink, opos := 0, wacc := 0, wcnt := 0, wopen := true })
      (show 2 ^ 32 ≤ payloadBits f by rw [hpb]; exact hge)
    rw [h8]
    exact ⟨_, rfl, rfl⟩

/-- ENCODE on a served medium runs to its end (R202, R172). -/
theorem encodeFile_ok {s : State} {D : Nat} (hwf : s.mem.src.length < 2 ^ 32) (hk : distinct s.mem.src ≤ 33)
    (hD : max 1 (distinct s.mem.src - 1) ≤ D) (hB : D * s.mem.src.length < 2 ^ 32)
    (hs : Served (2 * s.mem.src.length + 10 + 6 * distinct s.mem.src + (D * s.mem.src.length + 7) / 8) s) :
    ∃ t, encodeFile s = .ok () t := by
  obtain ⟨freq, hf, -⟩ := encodeFile_counts hwf (hs.mono (by omega))
  have hcount := countedSymbols_eq hf
  obtain ⟨code, len, -, hrec, hlen⟩ := built_ok (s := counted s freq) (by rw [hcount]; exact hk)
  obtain ⟨ps, h1, h2, -⟩ := treeLen_ok (built_tree (counted s freq))
  have hw := built_weighted hrec h1 h2
  have hd : ∀ p c, leafSymbol (built (counted s freq)) p = some c → p.length ≤ max 1 (distinct s.mem.src - 1) := by
    intro p c hp
    obtain ⟨f, hf⟩ := leafSymbol_eq_some.1 hp
    have := treeBuild_depth (t := built (counted s freq)) rfl rfl hf
    rw [hcount] at this
    exact this
  rw [hcount] at hlen
  generalize hfe : ({ built (counted s freq) with code := code, len := len } : State) = f at *
  have hff : ∀ c, (f.getFreq c).toNat = s.mem.src.count c := fun c => by rw [← hfe]; exact hf c
  have hN : (ps.map fun p => p.length * leafFreq (built (counted s freq)) p).sum ≤ D * s.mem.src.length := by
    rw [hw]
    have : (symbols.map fun c => ((counted s freq).getFreq c).toNat * (f.getLen c).toNat) =
        symbols.map fun c => s.mem.src.count c * (f.getLen c).toNat :=
      List.map_congr_left fun c _ => by rw [hf]
    rw [this, ← coded_length]
    exact coded_le _ fun c _ => Nat.le_trans (hlen c) hD
  exact (encodeFile_cases hwf hf h1 h2 rfl (fun p c hp => by have := hd p c hp; omega) (hs.mono (by omega))).1 (by omega)

end Sys2Proof.Machine
end

