-- ==== Sys2Proof/Laws/Exec.lean ====
section
/-! SUPPORT. Every command but SRESET is its line "Requires" and its pseudocode in the common frame (30_encoding.md R93). -/

namespace Sys2Proof.Machine

theorem exec_nop (s : State) : exec .nop s = command .nop always (fun s => .ok () s) s := rfl
theorem exec_rdOpen (s : State) : exec .rdOpen s = command .rdOpen readerClosed openReader s := rfl
theorem exec_rdClose (s : State) : exec .rdClose s = command .rdClose readerOpen closeReader s := rfl
theorem exec_rdBit (s : State) : exec .rdBit s = command .rdBit readerOpen rdBit s := rfl
theorem exec_rdByte (s : State) : exec .rdByte s = command .rdByte readerOpen rdByte s := rfl
theorem exec_rdExact (n : BitVec 8) (s : State) :
    exec (.rdExact n) s = command (.rdExact n) readerOpen (rdExact n.toNat) s := rfl
theorem exec_wrOpen (s : State) : exec .wrOpen s = command .wrOpen writerClosed openWriter s := rfl
theorem exec_wrClose (s : State) : exec .wrClose s = command .wrClose writerOpen closeWriter s := rfl
theorem exec_wrBit (v : BitVec 32) (s : State) :
    exec (.wrBit v) s = command (.wrBit v) writerOpen (writeBit (codeBit v 0)) s := rfl
theorem exec_wrByte (v : BitVec 32) (s : State) :
    exec (.wrByte v) s = command (.wrByte v) writerOpen (snkByte (lowByte v)) s := rfl
theorem exec_wrExact (n : BitVec 8) (v : BitVec 32) (s : State) :
    exec (.wrExact n v) s = command (.wrExact n v) writerOpen (writeExact n.toNat v) s := rfl
theorem exec_wrSym (c : Symbol) (s : State) :
    exec (.wrSym c) s = command (.wrSym c) writerOpen (writeSymbol c) s := rfl
theorem exec_fqClear (s : State) : exec .fqClear s = command .fqClear always clearFreq s := rfl
theorem exec_fqSet (c : Symbol) (v : BitVec 32) (s : State) :
    exec (.fqSet c v) s = command (.fqSet c v) always (fun s => .ok () (s.setFreq c v)) s := rfl
theorem exec_fqInc (c : Symbol) (s : State) : exec (.fqInc c) s = command (.fqInc c) always (freqInc c) s := rfl
theorem exec_fqScan (s : State) : exec .fqScan s = command .fqScan readerOpen scanFreq s := rfl
theorem exec_trClear (s : State) : exec .trClear s = command .trClear always treeClear s := rfl
theorem exec_trInsert (c : Symbol) (n : BitVec 8) (v : BitVec 32) (s : State) :
    exec (.trInsert c n v) s = command (.trInsert c n v) always (trInsert c n.toNat v) s := rfl
theorem exec_trBuild (s : State) : exec .trBuild s = command .trBuild always treeBuild s := rfl
theorem exec_trLen (s : State) : exec .trLen s = command .trLen always treeLen s := rfl
theorem exec_tbClear (s : State) : exec .tbClear s = command .tbClear always (fun s => .ok () (clearTable s)) s := rfl
theorem exec_tbSet (c : Symbol) (n : BitVec 8) (v : BitVec 32) (s : State) :
    exec (.tbSet c n v) s = command (.tbSet c n v) always (fun s => .ok () (s.setEntry c v n)) s := rfl
theorem exec_tbBuild (s : State) : exec .tbBuild s = command .tbBuild always tableBuild s := rfl
theorem exec_encHeader (s : State) : exec .encHeader s = command .encHeader writerOpen encHeader s := rfl
theorem exec_encPayload (s : State) : exec .encPayload s = command .encPayload bothOpen encPayload s := rfl
theorem exec_encode (s : State) : exec .encode s = command .encode bothClosed encodeFile s := rfl
theorem exec_decHeader (s : State) : exec .decHeader s = command .decHeader readerOpen decHeader s := rfl
theorem exec_decStep (s : State) : exec .decStep s = command .decStep bothOpen decStep s := rfl
theorem exec_decPayload (s : State) : exec .decPayload s = command .decPayload bothOpen decPayload s := rfl
theorem exec_decode (s : State) : exec .decode s = command .decode bothClosed decodeFile s := rfl

/-- Every command but SRESET runs in the common frame (R93). -/
theorem exec_frame (i : Instr) (h : i ≠ .sreset) (s : State) : ∃ body, exec i s = command i (requires i) body s := by
  cases i <;> first
    | exact absurd rfl h
    | exact ⟨_, rfl⟩
    | exact ⟨fun s => .ok () (s.setFreq _ _), rfl⟩
    | exact ⟨fun s => .ok () (clearTable s), rfl⟩
    | exact ⟨fun s => .ok () (s.setEntry _ _ _), rfl⟩

end Sys2Proof.Machine
end

