-- ==== Sys2Proof/Laws/PerInstr.lean ====
section
/-! SUPPORT. The family OpcodeField: for every command, the word the encoder writes carries the command's own opcode in
bits 63:56 and zero in the reserved bits 39:32 (30_encoding.md R90, R92). -/

namespace Sys2Proof.Laws.OpcodeField

/-- The encoded word's `op` field is the command's opcode and its reserved field is 0 (R90, R92). -/
def Statement (i : Instr) : Prop :=
  opField (encodeWord i) = opcode i ∧ (fieldsOf (encodeWord i)).rsv = 0

/-- The `op` and `rsv` fields of an assembled word. -/
theorem assemble_fields (op sym len : BitVec 8) (val : BitVec 32) :
    opField (assemble op sym len val) = op ∧ (fieldsOf (assemble op sym len val)).rsv = 0 := by
  constructor
  · unfold opField assemble
    refine BitVec.eq_of_getLsbD_eq fun i hi => ?_
    simp only [BitVec.getLsbD_extractLsb', BitVec.getLsbD_append, hi, decide_true, Bool.true_and]
    rw [if_neg (by omega), if_neg (by omega), if_neg (by omega), if_neg (by omega)]
    congr 1
    omega
  · unfold fieldsOf assemble
    refine BitVec.eq_of_getLsbD_eq fun i hi => ?_
    simp only [BitVec.getLsbD_extractLsb', BitVec.getLsbD_append, hi, decide_true, Bool.true_and]
    rw [if_neg (by omega), if_pos (by omega)]
    simp

theorem nop : Statement .nop := assemble_fields _ _ _ _

theorem sreset : Statement .sreset := assemble_fields _ _ _ _

theorem rdOpen : Statement .rdOpen := assemble_fields _ _ _ _

theorem rdClose : Statement .rdClose := assemble_fields _ _ _ _

theorem rdBit : Statement .rdBit := assemble_fields _ _ _ _

theorem rdByte : Statement .rdByte := assemble_fields _ _ _ _

theorem rdExact (len : BitVec 8) : Statement (.rdExact len) := assemble_fields _ _ _ _

theorem wrOpen : Statement .wrOpen := assemble_fields _ _ _ _

theorem wrClose : Statement .wrClose := assemble_fields _ _ _ _

theorem wrBit (val : BitVec 32) : Statement (.wrBit val) := assemble_fields _ _ _ _

theorem wrByte (val : BitVec 32) : Statement (.wrByte val) := assemble_fields _ _ _ _

theorem wrExact (len : BitVec 8) (val : BitVec 32) : Statement (.wrExact len val) := assemble_fields _ _ _ _

theorem wrSym (sym : Symbol) : Statement (.wrSym sym) := assemble_fields _ _ _ _

theorem fqClear : Statement .fqClear := assemble_fields _ _ _ _

theorem fqSet (sym : Symbol) (val : BitVec 32) : Statement (.fqSet sym val) := assemble_fields _ _ _ _

theorem fqInc (sym : Symbol) : Statement (.fqInc sym) := assemble_fields _ _ _ _

theorem fqScan : Statement .fqScan := assemble_fields _ _ _ _

theorem trClear : Statement .trClear := assemble_fields _ _ _ _

theorem trInsert (sym : Symbol) (len : BitVec 8) (val : BitVec 32) : Statement (.trInsert sym len val) := assemble_fields _ _ _ _

theorem trBuild : Statement .trBuild := assemble_fields _ _ _ _

theorem trLen : Statement .trLen := assemble_fields _ _ _ _

theorem tbClear : Statement .tbClear := assemble_fields _ _ _ _

theorem tbSet (sym : Symbol) (len : BitVec 8) (val : BitVec 32) : Statement (.tbSet sym len val) := assemble_fields _ _ _ _

theorem tbBuild : Statement .tbBuild := assemble_fields _ _ _ _

theorem encHeader : Statement .encHeader := assemble_fields _ _ _ _

theorem encPayload : Statement .encPayload := assemble_fields _ _ _ _

theorem encode : Statement .encode := assemble_fields _ _ _ _

theorem decHeader : Statement .decHeader := assemble_fields _ _ _ _

theorem decStep : Statement .decStep := assemble_fields _ _ _ _

theorem decPayload : Statement .decPayload := assemble_fields _ _ _ _

theorem decode : Statement .decode := assemble_fields _ _ _ _

end Sys2Proof.Laws.OpcodeField
end

