-- ==== Sys2Proof/Laws/Sequence.lean ====
section
/-! SUPPORT. Commands issued one by one against the steps of a macro (44_archiver.md R211): what each step leaves of the
stream state, and when a run of commands follows a sequence of steps. -/

namespace Sys2Proof.Machine

/-! ### The end of a command -/

/-- Fault entry never answers `done` (R246). -/
theorem faultEntry_answer (op : BitVec 8) (c : Cause) (s : State) : (faultEntry op c s).answer ≠ some .done := by
  unfold faultEntry
  rcases finalFlush _ _ with ⟨a, t⟩
  cases a <;> simp [State.answered, hardwareReset, State.reset]

/-- Fault entry ends in the fault registers and the released streams, or in a reset (R246, R270). -/
theorem faultEntry_cases (op : BitVec 8) (c : Cause) (s : State) :
    (∃ t, faultEntry op c s = (releaseReader (releaseWriter t)).answered .fault ∧ t.err = c.err ∧ t.errinfo = c.info ∧
      t.errcmd = op) ∨ ∃ t, faultEntry op c s = hardwareReset t := by
  unfold faultEntry
  obtain ⟨ds, n, s', h, h1 | ⟨-, -, -, -, h1 | h1 | h1⟩⟩ := finalFlush_cases (c ≠ .ioSnk) (latch op c s) <;> rw [h1]
  · exact .inl ⟨_, rfl, rfl, rfl, rfl⟩
  · exact .inl ⟨_, rfl, by rw [h]; exact ⟨rfl, rfl, rfl⟩⟩
  · exact .inl ⟨_, rfl, by rw [h]; exact ⟨rfl, rfl, rfl⟩⟩
  · exact .inr ⟨_, rfl⟩

/-- A command that answers `done` ran its pseudocode to its end (R10). -/
theorem command_ended {i : Instr} {ready : State → Bool} {body : State → Res Unit} {s t : State}
    (h : command i ready body s = .next t) (ht : t.answer = some .done) :
    ∃ u, body s = .ok () u ∧ t = u.answered .done := by
  unfold command at h
  split at h
  · cases h; cases ht
  · split at h
    · cases h; exact absurd ht (faultEntry_answer _ _ _)
    · split at h
      · cases h; exact absurd ht (faultEntry_answer _ _ _)
      · rcases hb : body s with ⟨a, u⟩ | ⟨w, u⟩
        · rw [hb] at h
          cases h
          exact ⟨u, rfl, rfl⟩
        · rw [hb] at h
          rcases w with c | _ | f
          · cases h; exact absurd ht (faultEntry_answer _ _ _)
          · cases h; simp [hardwareReset, State.reset] at ht
          · cases h

/-- The condition of the final flush (R246). -/
def FlushDue (b : Bool) (s : State) : Prop := b = true ∧ s.wopen = true ∧ s.wcnt ≠ 0 ∧ s.opos ≠ lastPos

theorem finalFlush_due {b : Bool} {s : State} (h : FlushDue b s) :
    finalFlush b s =
      match memWrite s.wacc s with
      | (.served, s') => (.served, { s' with opos := s'.opos + 1 })
      | (.ioErr, s') => (.ioErr, s')
      | (.hwReset, s') => (.hwReset, s') := if_pos h

theorem finalFlush_notDue {b : Bool} {s : State} (h : ¬ FlushDue b s) : finalFlush b s = (.served, s) := if_neg h

theorem finalFlush_answered (b : Bool) (s : State) (a : Answer) :
    finalFlush b (s.answered a) = ((finalFlush b s).1, (finalFlush b s).2.answered a) := by
  by_cases hc : FlushDue b s
  · have hc' : FlushDue b (s.answered a) := hc
    rw [finalFlush_due hc, finalFlush_due hc']
    unfold memWrite
    rw [draw_answered]
    rcases s.draw with ⟨d, t⟩
    cases d <;> rfl
  · have hc' : ¬ FlushDue b (s.answered a) := hc
    rw [finalFlush_notDue hc, finalFlush_notDue hc']

/-- Fault entry overwrites the answer. -/
theorem faultEntry_answered (op : BitVec 8) (c : Cause) (s : State) (a : Answer) :
    faultEntry op c (s.answered a) = faultEntry op c s := by
  have h : latch op c (s.answered a) = (latch op c s).answered a := rfl
  unfold faultEntry
  rw [h, finalFlush_answered]
  rcases finalFlush _ (latch op c s) with ⟨d, t⟩
  have h2 : ∀ t : State, (releaseReader (releaseWriter (t.answered a))).answered .fault =
      (releaseReader (releaseWriter t)).answered .fault := by
    intro t
    unfold releaseReader releaseWriter
    cases hw : t.wopen <;> cases hr : t.ropen <;> simp [hw, hr, State.answered]
  cases d
  · exact h2 t
  · exact h2 t
  · rfl

/-- The state with another opcode in ERRCMD. -/
def State.errcmdAs (s : State) (op : BitVec 8) : State := { s with errcmd := op }

theorem finalFlush_errcmd (b : Bool) (s : State) (op : BitVec 8) :
    finalFlush b (s.errcmdAs op) = ((finalFlush b s).1, (finalFlush b s).2.errcmdAs op) := by
  have hd : (s.errcmdAs op).draw = (s.draw.1, s.draw.2.errcmdAs op) := by
    unfold State.draw
    have : (s.errcmdAs op).draws = s.draws := rfl
    rw [this]
    rcases s.draws with _ | ⟨d, ds⟩ <;> rfl
  by_cases hc : FlushDue b s
  · have hc' : FlushDue b (s.errcmdAs op) := hc
    rw [finalFlush_due hc, finalFlush_due hc']
    unfold memWrite
    rw [hd]
    rcases s.draw with ⟨d, t⟩
    cases d <;> rfl
  · have hc' : ¬ FlushDue b (s.errcmdAs op) := hc
    rw [finalFlush_notDue hc, finalFlush_notDue hc']

/-- Fault entries with two opcodes differ in ERRCMD alone (R211, R246). -/
theorem faultEntry_sameBut (op op' : BitVec 8) (c : Cause) (s : State) :
    SameBut op (faultEntry op c s) (faultEntry op' c s) ∧
      (faultEntry op c s).answer = (faultEntry op' c s).answer := by
  have h : latch op c s = (latch op' c s).errcmdAs op := rfl
  have h2 : ∀ t : State, (releaseReader (releaseWriter (t.errcmdAs op))).answered .fault =
      ((releaseReader (releaseWriter t)).answered .fault).errcmdAs op := by
    intro t
    unfold releaseReader releaseWriter State.errcmdAs
    cases hw : t.wopen <;> cases hr : t.ropen <;> simp [hw, hr, State.answered]
  unfold faultEntry
  rw [h, finalFlush_errcmd]
  rcases finalFlush _ (latch op' c s) with ⟨d, t⟩
  cases d
  · simp only
    rw [h2]
    exact ⟨⟨rfl, fun _ => rfl⟩, rfl⟩
  · simp only
    rw [h2]
    exact ⟨⟨rfl, fun _ => rfl⟩, rfl⟩
  · exact ⟨⟨rfl, fun hf => by simp [State.faulted, hardwareReset, State.reset, State.errcmdAs] at hf⟩, rfl⟩

/-! ### A run of commands -/

/-- An outcome is what a command whose pseudocode ends so would have left, but for the opcode in ERRCMD. -/
inductive Follows : Res Unit → Host.Outcome State Fault Refusal → Prop
  | done {t : State} : Follows (.ok () t) (.next (t.answered .done))
  | raised {c : Cause} {t : State} (op : BitVec 8) : Follows (.stop (.raise c) t) (.next (faultEntry op c t))
  | reset {t : State} : Follows (.stop .hwReset t) (.next (hardwareReset t))
  | stuck {f : Fault} {t : State} : Follows (.stop (.stuck f) t) (.fault f)

/-- The answer before does not matter. -/
theorem Follows.answered {r : Res Unit} {o : Host.Outcome State Fault Refusal} {a : Answer}
    (h : Follows (r.answered a) o) : Follows r o := by
  rcases r with ⟨x, t⟩ | ⟨c | _ | f, t⟩
  · cases h; exact .done
  · cases h with
    | raised op => rw [faultEntry_answered]; exact .raised op
  · cases h; exact .reset
  · cases h; exact .stuck

/-- The empty run. -/
theorem Follows.nil (t : State) : Follows (.ok () t) (runCommands [] (t.answered .done)) := .done

/-- One more command in front: its pseudocode is the first step, and the rest follows the rest (R12, R211). -/
theorem Follows.cons {i : Instr} {is : List Instr} {ready : State → Bool} {body : State → Res Unit}
    {rest : State → Res Unit} {s : State} (hi : exec i s = command i ready body s) (hf : s.faulted = false)
    (hw : i.wellFormed = true) (hr : ready s = true) (hblind : Blind rest)
    (hrest : ∀ t, body s = .ok () t → Follows (rest (t.answered .done)) (runCommands is (t.answered .done))) :
    Follows ((body s).bind fun _ t => rest t) (runCommands (i :: is) s) := by
  unfold runCommands
  rw [hi, command_runs hf hw hr]
  rcases hb : body s with ⟨x, t⟩ | ⟨c | _ | f, t⟩
  · have := hrest t hb
    rw [hblind t .done] at this
    exact this.answered
  · show Follows _ (if (faultEntry (opcode i) c t).answer = some .done then _ else _)
    rw [if_neg (faultEntry_answer _ _ _)]
    exact .raised _
  · show Follows _ (if (hardwareReset t).answer = some .done then _ else _)
    rw [if_neg (by simp [hardwareReset, State.reset])]
    exact .reset
  · exact .stuck

/-- One command alone. -/
theorem Follows.one {i : Instr} {ready : State → Bool} {body : State → Res Unit} {s : State}
    (hi : exec i s = command i ready body s) (hf : s.faulted = false) (hw : i.wellFormed = true)
    (hr : ready s = true) : Follows (body s) (runCommands [i] s) := by
  have h := Follows.cons (is := []) (rest := fun t => .ok () t) hi hf hw hr (fun _ _ => rfl) fun t _ => Follows.nil (t.answered .done)
  have e : ((body s).bind fun _ t => Res.ok () t) = body s := by cases body s <;> rfl
  rw [e] at h
  exact h

/-- A macro and the run of commands its steps follow: the macro reports what the run leaves, or both end alike (R211). -/
theorem Follows.whole {i : Instr} {ready : State → Bool} {body : State → Res Unit} {s : State} {r : Res Unit}
    {o : Host.Outcome State Fault Refusal} {g : State → State} (hf : s.faulted = false) (hw : i.wellFormed = true)
    (hr : ready s = true) (hb : body s = r.bind fun _ t => .ok () (g t))
    (hg : ∀ t a, (g t).answered a = g (t.answered a)) (h : Follows r o) :
    (∃ u, o = .next u ∧ u.answer = some .done ∧ command i ready body s = .next (g u)) ∨
      (∃ t u, command i ready body s = .next t ∧ o = .next u ∧ u.answer ≠ some .done ∧ SameBut (opcode i) t u ∧
        t.answer = u.answer) ∨
      ∃ f, command i ready body s = .fault f ∧ o = .fault f := by
  rw [command_runs hf hw hr, hb]
  cases h with
  | done => exact .inl ⟨_, rfl, rfl, congrArg _ (hg _ .done)⟩
  | @raised c t op =>
    obtain ⟨h1, h2⟩ := faultEntry_sameBut (opcode i) op c t
    exact .inr (.inl ⟨_, _, rfl, rfl, faultEntry_answer _ _ _, h1, h2⟩)
  | reset =>
    refine .inr (.inl ⟨_, _, rfl, rfl, by simp [hardwareReset, State.reset], ⟨rfl, fun h => ?_⟩, rfl⟩)
    simp [State.faulted, hardwareReset, State.reset] at h
  | @stuck f t => exact .inr (.inr ⟨f, rfl, rfl⟩)

/-! ### The stream state after a step -/

/-- The stream state and ERR are as before. -/
def Steady (s t : State) : Prop := t.ropen = s.ropen ∧ t.wopen = s.wopen ∧ t.err = s.err

/-- Pseudocode that, when it ends, leaves the stream state and ERR as they were. -/
def Steadies {α : Type} (f : State → Res α) : Prop := ∀ s a t, f s = .ok a t → Steady s t

theorem Steady.trans {s t u : State} (h : Steady s t) (h' : Steady t u) : Steady s u :=
  ⟨h'.1.trans h.1, h'.2.1.trans h.2.1, h'.2.2.trans h.2.2⟩

theorem Steadies.bind {α β : Type} {f : State → Res α} {g : α → State → Res β} (hf : Steadies f)
    (hg : ∀ x, Steadies (g x)) : Steadies fun s => (f s).bind g := by
  intro s b t h
  obtain ⟨a, u, h1, h2⟩ := Res.bind_eq_ok.1 h
  exact (hf s a u h1).trans (hg a u b t h2)

theorem Steadies.ite {α : Type} {c : State → Prop} [∀ s, Decidable (c s)] {f g : State → Res α}
    (hf : Steadies f) (hg : Steadies g) : Steadies fun s => if c s then f s else g s := by
  intro s a t h
  by_cases hc : c s
  · simp only [if_pos hc] at h; exact hf s a t h
  · simp only [if_neg hc] at h; exact hg s a t h

theorem srcByte_steady : Steadies srcByte := by
  intro s a t h
  obtain ⟨ds, n, s', rfl, ⟨-, h'⟩ | ⟨v, -, h'⟩ | h' | h'⟩ := srcByte_cases s <;> rw [h] at h' <;> cases h'
  · exact ⟨rfl, rfl, rfl⟩
  · exact ⟨rfl, rfl, rfl⟩

theorem snkByte_steady (v : Byte) : Steadies (snkByte v) := by
  intro s a t h
  obtain ⟨-, h'⟩ | ⟨-, ds, n, s', rfl, h' | h' | h'⟩ := snkByte_cases v s <;> rw [h] at h' <;> cases h'
  exact ⟨rfl, rfl, rfl⟩

theorem readBit_steady : Steadies readBit := by
  intro s a t h
  unfold readBit at h
  split at h
  · obtain ⟨r, u, h1, h2⟩ := Res.bind_eq_ok.1 h
    have := srcByte_steady s r u h1
    rcases r with _ | v <;> cases h2 <;> exact this
  · cases h; exact ⟨rfl, rfl, rfl⟩

theorem readBytes_steady (n k : Nat) (acc : BitVec 32) : Steadies (readBytes n k acc) := by
  induction n generalizing k acc with
  | zero => intro s a t h; cases h; exact ⟨rfl, rfl, rfl⟩
  | succ n ih =>
    refine srcByte_steady.bind fun r => ?_
    rcases r with _ | v
    · intro s a t h; cases h
    · exact ih _ _

theorem readExact_steady (n : Nat) : Steadies (readExact n) := readBytes_steady n 0 0

theorem writeBit_steady (b : Bool) : Steadies (writeBit b) := by
  intro s a t h
  unfold writeBit at h
  dsimp only at h
  split at h
  · exact snkByte_steady _ { s with wacc := 0, wcnt := 0 } a t h
  · cases h; exact ⟨rfl, rfl, rfl⟩

theorem writeBits_steady (bs : List Bool) : Steadies (writeBits bs) := by
  induction bs with
  | nil => intro s a t h; cases h; exact ⟨rfl, rfl, rfl⟩
  | cons b bs ih => exact (writeBit_steady b).bind fun _ => ih

theorem writeBytes_steady (vs : List Byte) : Steadies (writeBytes vs) := by
  induction vs with
  | nil => intro s a t h; cases h; exact ⟨rfl, rfl, rfl⟩
  | cons v vs ih => exact (snkByte_steady v).bind fun _ => ih

theorem freqInc_steady (c : Symbol) : Steadies (freqInc c) := by
  intro s a t h
  unfold freqInc at h
  split at h <;> cases h
  exact ⟨rfl, rfl, rfl⟩

theorem scanSource_steady {perByte : Byte → State → Res Unit} (h : ∀ v, Steadies (perByte v)) (fuel : Nat) :
    Steadies (scanSource perByte fuel) := by
  induction fuel with
  | zero => intro s a t h; cases h
  | succ fuel ih =>
    refine srcByte_steady.bind fun r => ?_
    rcases r with _ | v
    · intro s a t h; cases h; exact ⟨rfl, rfl, rfl⟩
    · exact (h v).bind fun _ => ih

theorem scanFreq_steady : Steadies scanFreq := fun s a t h => scanSource_steady freqInc_steady _ s a t h

theorem encPayload_steady : Steadies encPayload :=
  fun s a t h => scanSource_steady (fun _ s => writeBits_steady _ s) _ s a t h

theorem tableBuild_steady : Steadies tableBuild := by
  intro s a t h
  unfold tableBuild at h
  split at h
  · cases h
  · split at h <;> cases h
    rename_i ls _ _
    have : ∀ (ls : List LeafAt) (u : State), Steady u (recordLeaves ls u) := by
      intro ls
      induction ls with
      | nil => exact fun u => ⟨rfl, rfl, rfl⟩
      | cons l ls ih => exact fun u => Steady.trans ⟨rfl, rfl, rfl⟩ (ih _)
    exact this ls (clearTable s)

theorem encHeader_steady : Steadies encHeader := by
  intro s a t h
  unfold encHeader at h
  split at h
  · cases h
  · dsimp only at h
    generalize BitVec.ofNat 32 (payloadBits s) = cl at h
    generalize BitVec.ofNat 32 (presentSymbols s).length = size at h
    generalize headerByteCount size = hb at h
    have := writeBytes_steady _ _ a t h
    exact this

theorem insertWalk_steady (bs : List Bool) (p : NodeIdx) : Steadies (insertWalk bs p) := by
  induction bs generalizing p with
  | nil => intro s a t h; cases h; exact ⟨rfl, rfl, rfl⟩
  | cons b bs ih =>
    intro s a t h
    unfold insertWalk at h
    split at h
    · cases h
    · cases h
    · split at h
      · exact ih _ s a t h
      · exact ih _ (addChild p _ b s) a t h

theorem treeInsert_steady (c : Symbol) (code : BitVec 32) (n : Nat) : Steadies (treeInsert c code n) := by
  intro s a t h
  unfold treeInsert at h
  split at h
  · cases h
  · obtain ⟨p, u, h1, h2⟩ := Res.bind_eq_ok.1 h
    have := insertWalk_steady _ _ s p u h1
    unfold storeSymbol at h2
    split at h2 <;> cases h2
    exact this

theorem readEntries_steady (k : Nat) : Steadies (readEntries k) := by
  induction k with
  | zero => intro s a t h; cases h; exact ⟨rfl, rfl, rfl⟩
  | succ k ih =>
    exact (readExact_steady 4).bind fun c => (readExact_steady 1).bind fun n => (readExact_steady 1).bind fun x =>
      (treeInsert_steady _ _ _).bind fun _ => ih

theorem decHeader_steady : Steadies decHeader := by
  intro s a t h
  obtain ⟨_, u, h1, h2⟩ := Res.bind_eq_ok.1 h
  cases h1
  obtain ⟨v, w, h3, h4⟩ := Res.bind_eq_ok.1 h2
  have e1 := readExact_steady 4 _ v w h3
  obtain ⟨v', w', h5, h6⟩ := Res.bind_eq_ok.1 h4
  have e2 := readExact_steady 4 _ v' w' h5
  dsimp only at h6
  split at h6
  · cases h6
  · have e3 := readEntries_steady _ _ a t h6
    exact Steady.trans (Steady.trans (t := w) e1 (Steady.trans (t := w') e2 e3)) ⟨rfl, rfl, rfl⟩

theorem decStep_steady : Steadies decStep := by
  intro s a t h
  unfold decStep at h
  split at h
  · cases h; exact ⟨rfl, rfl, rfl⟩
  · obtain ⟨r, u, h1, h2⟩ := Res.bind_eq_ok.1 h
    have e1 := readBit_steady s r u h1
    rcases r with _ | b
    · cases h2
    · refine e1.trans ?_
      unfold walkBit at h2
      dsimp only at h2
      split at h2
      · cases h2
      · split at h2
        · cases h2
        · split at h2
          · cases h2
          · obtain ⟨_, v, h3, h4⟩ := Res.bind_eq_ok.1 h2
            have e2 := snkByte_steady _ _ _ v h3
            cases h4
            exact e2
          · cases h2; exact ⟨rfl, rfl, rfl⟩

theorem decSteps_steady (k : Nat) : Steadies (decSteps k) := by
  induction k with
  | zero => intro s a t h; cases h; exact ⟨rfl, rfl, rfl⟩
  | succ k ih => exact decStep_steady.bind fun _ => ih

theorem decPayload_steady : Steadies decPayload := fun s a t h => decSteps_steady _ s a t h

end Sys2Proof.Machine
end

