-- ==== Sys2Proof/Laws/Rebuild.lean ====
section
/-! SUPPORT. Runs of commands that end well, and the tree rebuilt by TR_INSERT from a good table (42_code_tree.md R168,
R169, R171). -/

namespace Sys2Proof.Machine

/-- The first command of a run that answers `done` answered `done` itself, and the rest ran from there (R12). -/
theorem runCommands_ended {i : Instr} {is : List Instr} {ready : State → Bool} {body : State → Res Unit} {s t : State}
    (hi : exec i s = command i ready body s) (h : runCommands (i :: is) s = .next t) (ht : t.answer = some .done) :
    ∃ u, body s = .ok () u ∧ runCommands is (u.answered .done) = .next t := by
  unfold runCommands at h
  rw [hi] at h
  split at h
  · rename_i v hv
    split at h
    · rename_i hd
      obtain ⟨u, h1, h2⟩ := command_ended hv hd
      exact ⟨u, h1, by rw [← h2]; exact h⟩
    · rename_i hd
      cases h
      exact absurd ht hd
  · cases h
  · cases h

/-- A command whose pseudocode runs to its end answers `done`, and the run goes on (R10, R12). -/
theorem runCommands_ok {i : Instr} {is : List Instr} {ready : State → Bool} {body : State → Res Unit} {s u : State}
    (hi : exec i s = command i ready body s) (hf : s.faulted = false) (hw : i.wellFormed = true) (hr : ready s = true)
    (hb : body s = .ok () u) : runCommands (i :: is) s = runCommands is (u.answered .done) := by
  rw [runCommands, hi]
  simp [command, hf, hw, hr, hb, finish, State.answered]

/-- TR_INSERT of every entry of a good table, in any order, into a tree whose codes the table does not meet (R168,
R171). -/
theorem insertAll_ok (es : List Entry) {s : State} (hf : s.faulted = false) (hd : s.answer = some .done)
    (h : TreeInv s) (hcap : s.nodes.length + 32 * es.length ≤ Config.nodeCap)
    (hlen : ∀ e ∈ es, 1 ≤ e.len.toNat ∧ e.len.toNat ≤ 32) (hpf : PrefixFree (es.map Entry.bits))
    (hfree : ∀ e ∈ es, PathFree s e.bits) :
    ∃ ns, runCommands (es.map fun e => .trInsert e.sym e.len e.code) s = .next (withNodes s ns) ∧
      TreeShape ns s.root s.cur ∧
      ∀ q d g, HasLeaf ns s.root q d g ↔
        (∃ e ∈ es, q = e.bits ∧ d = e.sym ∧ g = 0) ∨ HasLeaf s.nodes s.root q d g := by
  induction es generalizing s with
  | nil => exact ⟨s.nodes, rfl, h, fun q d g => by simp⟩
  | cons e es ih =>
    simp only [List.length_cons] at hcap
    obtain ⟨hl1, hl2⟩ := hlen e (by simp)
    rcases treeInsert_spec e.sym e.code e.len.toNat h (by omega) hl1 hl2 with
      ⟨-, ns, hok, hshape, hgrow, hleaves⟩ | ⟨hnot, -⟩
    · have hleaves' : ∀ q d g, HasLeaf ns s.root q d g ↔
          (q = e.bits ∧ d = e.sym ∧ g = 0) ∨ HasLeaf s.nodes s.root q d g := hleaves
      simp only [PrefixFree, List.map_cons, List.pairwise_cons] at hpf
      have hb : trInsert e.sym e.len.toNat e.code s = .ok () (withNodes s ns) := by
        unfold trInsert
        rw [if_neg (by omega), hok]
        rfl
      have hans : (withNodes s ns).answered .done = withNodes s ns := by
        simp only [State.answered, withNodes, ← hd]
      obtain ⟨ns', g1, g2, g3⟩ := ih (s := withNodes s ns) hf hd hshape
        (by show ns.length + _ ≤ _; omega) (fun e' he' => hlen e' (by simp [he'])) hpf.2
        (by
          intro e' he' q d hq
          obtain ⟨g, hg⟩ := leafSymbol_eq_some.1 hq
          rcases (hleaves' q d g).1 hg with ⟨rfl, -, -⟩ | hold
          · exact hpf.1 e'.bits (List.mem_map.2 ⟨e', he', rfl⟩)
          · exact hfree e' (by simp [he']) q d (leafSymbol_eq hold))
      refine ⟨ns', ?_, g2, fun q d g => ?_⟩
      · rw [List.map_cons, runCommands_ok (exec_trInsert _ _ _ _) hf rfl rfl hb, hans, g1]
        rfl
      · refine (g3 q d g).trans ?_
        have : (withNodes s ns).nodes = ns := rfl
        have : (withNodes s ns).root = s.root := rfl
        rw [‹(withNodes s ns).nodes = ns›, ‹(withNodes s ns).root = s.root›, hleaves']
        simp only [List.mem_cons, exists_eq_or_imp]
        constructor
        · rintro (h | h | h)
          exacts [.inl (.inr h), .inl (.inl h), .inr h]
        · rintro ((h | h) | h)
          exacts [.inr (.inl h), .inl h, .inr (.inr h)]
    · exact absurd (hfree e (by simp)) hnot

/-- The empty root has no LEAF (R167). -/
theorem emptyTree_noLeaf (q : List Bool) (d : Symbol) (g : BitVec 40) : ¬ HasLeaf [Node.emptyInner] 0 q d g := by
  rintro ⟨x, -, hx⟩
  rcases hx' : x.toNat with _ | n <;> rw [hx'] at hx <;> simp [Node.emptyInner] at hx

/-- TR_CLEAR and then TR_INSERT of every entry of a good table rebuilds its tree (R167, R168, R171). -/
theorem rebuild_ok {es : List Entry} (hg : GoodTable es) {s : State} (hf : s.faulted = false) :
    ∃ ns, runCommands (.trClear :: es.map fun e => .trInsert e.sym e.len e.code) s =
        .next { s with nodes := ns, root := 0, cur := 0, answer := some .done } ∧ TreeShape ns 0 0 ∧
      ∀ q d g, HasLeaf ns 0 q d g ↔ ∃ e ∈ es, q = e.bits ∧ d = e.sym ∧ g = 0 := by
  have hsize := hg.size
  obtain ⟨ns, g1, g2, g3⟩ := insertAll_ok es
    (s := { s with nodes := [Node.emptyInner], root := 0, cur := 0, answer := some .done }) hf rfl emptyTree_shape
    (by show 1 + 32 * es.length ≤ 8193; omega) hg.lengths hg.prefixFree
    (by
      intro e _ q d hq
      obtain ⟨g, hg'⟩ := leafSymbol_eq_some.1 hq
      exact absurd hg' (emptyTree_noLeaf q d g))
  refine ⟨ns, ?_, g2, fun q d g => (g3 q d g).trans ⟨fun h => h.elim id fun h => absurd h (emptyTree_noLeaf q d g), .inl⟩⟩
  rw [runCommands_ok (exec_trClear s) hf rfl rfl rfl]
  exact g1

/-- TR_BUILD always runs to its end (R165). -/
theorem treeBuild_built (s : State) : treeBuild s = .ok () (built s) := rfl

/-- A permutation of a good table is good. -/
theorem GoodTable.perm {es es' : List Entry} (h : GoodTable es) (hp : es'.Perm es) : GoodTable es' where
  size := by rw [hp.length_eq]; exact h.size
  lengths e he := h.lengths e (hp.mem_iff.1 he)
  prefixFree := ((hp.map Entry.bits).pairwise_iff fun {_ _} h => ⟨h.2, h.1⟩).2 h.prefixFree

end Sys2Proof.Machine
end

