-- ==== Sys2Proof/Machine/Assembler.lean ====
section
/-! DEFINITION. The assembler syntax of a line (30_encoding.md R97) and the pseudo-commands (R98). Text only: the
block executes the words that `encodeWord` gives for the commands a line assembles to. -/

namespace Sys2Proof.Machine

/-- What a line is made of. -/
inductive Token where
  /-- A mnemonic or a number. -/
  | text (cs : List Char)
  /-- A character in single quotes. -/
  | quoted (c : Char)
  | comma
  deriving DecidableEq, Repr

/-- The piece of text gathered so far, last character first, as a token if it is not empty. -/
def endText (acc : List Char) (rest : List Token) : List Token :=
  if acc = [] then rest else .text acc.reverse :: rest

/-- A line as tokens. A `;` that is not itself a quoted character starts a comment (log entry 13). -/
def tokens (acc : List Char) : List Char → List Token
  | [] => endText acc []
  | '\'' :: c :: '\'' :: rest => endText acc (.quoted c :: tokens [] rest)
  | c :: rest =>
    if c = ';' then endText acc []
    else if c = ',' then endText acc (.comma :: tokens [] rest)
    else if c.isWhitespace then endText acc (tokens [] rest)
    else tokens (c :: acc) rest

/-- The value of a hexadecimal digit, in either case. -/
def hexDigit (c : Char) : Option Nat :=
  if c.isDigit then some (c.toNat - '0'.toNat)
  else if 'a' ≤ c ∧ c ≤ 'f' then some (c.toNat - 'a'.toNat + 10)
  else if 'A' ≤ c ∧ c ≤ 'F' then some (c.toNat - 'A'.toNat + 10)
  else none

/-- Digits in a base, most significant first, after the value read so far. -/
def digits (base : Nat) (value : Nat) : List Char → Option Nat
  | [] => some value
  | c :: cs =>
    match hexDigit c with
    | some d => if d < base then digits base (base * value + d) cs else none
    | none => none

/-- A number: decimal, or hexadecimal behind `0x` (R97). -/
def number : List Char → Option Nat
  | '0' :: 'x' :: c :: cs => digits 16 0 (c :: cs)
  | c :: cs => digits 10 0 (c :: cs)
  | [] => none

/-- An operand as written: a number, or a character in quotes, which a symbol may be (R97), and the byte of `WR_BYTE`
(log entry 13). -/
inductive Operand where
  | num (n : Nat)
  | chr (c : Char)
  deriving DecidableEq, Repr

/-- One operand from its token. -/
def operand : Token → Option Operand
  | .text cs => (number cs).map .num
  | .quoted c => some (.chr c)
  | .comma => none

/-- The operands, separated by commas (R97). -/
def operands : List Token → Option (List Operand)
  | [] => some []
  | [t] => (operand t).map (fun x => [x])
  | t :: .comma :: u :: rest => do
    let x ← operand t
    let xs ← operands (u :: rest)
    return x :: xs
  | _ => none

/-- A number that fits a field of `w` bits (R91). -/
def fieldOf (w n : Nat) : Option (BitVec w) := if n < 2 ^ w then some (BitVec.ofNat w n) else none

/-- A symbol: a number, or the code of a character in quotes (R97). -/
def symbolOf : Operand → Option Symbol
  | .num n => fieldOf 8 n
  | .chr c => fieldOf 8 c.toNat

/-- The operand `v` of `WR_BYTE`: a number, or the code of a character in quotes. DESIGN CHOICE (log entry 13): R97 lets a
symbol be quoted and calls this operand `v`, while the program P2 of 95_test_vectors.md writes `WR_BYTE 'a'`. -/
def byteOperand : Operand → Option (BitVec 32)
  | .num n => fieldOf 32 n
  | .chr c => (symbolOf (.chr c)).map (BitVec.setWidth 32)

/-- The commands without operands (R92, R97). -/
def plainCommand (mnemonic : String) : Option Instr :=
  match mnemonic with
  | "NOP" => some .nop
  | "SRESET" => some .sreset
  | "RD_OPEN" => some .rdOpen
  | "RD_CLOSE" => some .rdClose
  | "RD_BIT" => some .rdBit
  | "RD_BYTE" => some .rdByte
  | "WR_OPEN" => some .wrOpen
  | "WR_CLOSE" => some .wrClose
  | "FQ_CLEAR" => some .fqClear
  | "FQ_SCAN" => some .fqScan
  | "TR_CLEAR" => some .trClear
  | "TR_BUILD" => some .trBuild
  | "TR_LEN" => some .trLen
  | "TB_CLEAR" => some .tbClear
  | "TB_BUILD" => some .tbBuild
  | "ENC_HEADER" => some .encHeader
  | "ENC_PAYLOAD" => some .encPayload
  | "ENCODE" => some .encode
  | "DEC_HEADER" => some .decHeader
  | "DEC_STEP" => some .decStep
  | "DEC_PAYLOAD" => some .decPayload
  | "DECODE" => some .decode
  | _ => none

/-- The operand lists of the other commands (R97) and the expansions of the pseudo-commands (R98). A quoted character
stands for an operand `s`, and for the `v` of `WR_BYTE`, alone (log entry 13). -/
def assembleLine (mnemonic : String) (ops : List Operand) : Option (List Instr) :=
  match mnemonic, ops with
  | "REWIND", [] => some [.rdClose, .rdOpen]
  | "RD_U32", [] => some [.rdExact 4]
  | m, [] => (plainCommand m).map (fun i => [i])
  | "RD_EXACT", [.num n] => (fieldOf 8 n).map (fun n => [.rdExact n])
  | "WR_BIT", [.num b] => (fieldOf 32 b).map (fun b => [.wrBit b])
  | "WR_BYTE", [v] => (byteOperand v).map (fun v => [.wrByte v])
  | "WR_SYM", [s] => (symbolOf s).map (fun s => [.wrSym s])
  | "FQ_INC", [s] => (symbolOf s).map (fun s => [.fqInc s])
  | "WR_U32", [.num v] => (fieldOf 32 v).map (fun v => [.wrExact 4 v])
  | "WR_EXACT", [.num n, .num v] => do return [.wrExact (← fieldOf 8 n) (← fieldOf 32 v)]
  | "FQ_SET", [s, .num v] => do return [.fqSet (← symbolOf s) (← fieldOf 32 v)]
  | "TR_INSERT", [s, .num n, .num c] => do return [.trInsert (← symbolOf s) (← fieldOf 8 n) (← fieldOf 32 c)]
  | "TB_SET", [s, .num n, .num c] => do return [.tbSet (← symbolOf s) (← fieldOf 8 n) (← fieldOf 32 c)]
  | "WR_ENTRY", [s, .num n, .num c] => do
    let s ← symbolOf s
    return [.wrExact 4 (← fieldOf 32 c), .wrByte (← fieldOf 32 n), .wrByte (s.setWidth 32)]
  | _, _ => none

/-- The commands that one line of assembler text stands for: none for an empty line or a comment, one for a command,
several for a pseudo-command; no answer for a line that R97 does not give. -/
def assembleText (line : String) : Option (List Instr) :=
  match tokens [] line.toList with
  | [] => some []
  | .text m :: rest => (operands rest).bind (assembleLine (String.ofList m))
  | .quoted _ :: _ | .comma :: _ => none

end Sys2Proof.Machine
end

