-- ==== Sys2Proof/Tests/Slice0.lean ====
section
/-! SUPPORT. Tests of the model against values written in the spec (95_test_vectors.md and the rules cited), and a
witness for the hypotheses of every statement. -/

open Sys2Proof Sys2Proof.Machine

namespace Sys2Proof.Tests

set_option Elab.async false

/-! ### Helpers -/

/-- The next state, where there is one. -/
def nextOf : Host.Outcome State Fault Refusal → Option State
  | .next s => some s
  | .fault _ | .refused _ => none

/-- What `f` reads of the state after one command. -/
def after {α : Type} (i : Instr) (s : State) (f : State → α) : Option α := (nextOf (exec i s)).map f

/-- The block with the reader open on the given bytes, on a working medium. -/
def reading (src : List Byte) : State :=
  { State.reset with ropen := true, mem := { State.reset.mem with src := src }, draws := List.replicate 32 .served }

/-- The block with the writer open on an empty SNK, on a working medium. -/
def writing : State :=
  { State.reset with
    wopen := true, mem := { State.reset.mem with snkOpen := true }, draws := List.replicate 32 .served }

/-- Both streams open. -/
def copying (src : List Byte) : State := { reading src with wopen := true, mem := { src := src, snk := [], snkOpen := true } }

/-- Both streams closed, the given bytes behind SRC, on a working medium with `k` answers. -/
def holding (k : Nat) (src : List Byte) : State :=
  { State.reset with mem := { State.reset.mem with src := src }, draws := List.replicate k .served }

/-- The bytes of a file. -/
def bytes (ns : List Nat) : List Byte := ns.map (BitVec.ofNat 8)

/-- A faulted block. -/
def broken : State := { State.reset with err := 4, errinfo := 0x32, errcmd := 0x12 }

/-- The stream and fault flags, as STATUS shows them (10_state.md R23), and the fault registers. -/
def flags (s : State) : List Nat := [s.status.toNat, s.err.toNat, s.errinfo.toNat, s.errcmd.toNat]

/-- The tree of the file of E8: `b` on the left, `a` on the right. -/
def smallTree : List Node := [.inner (some 1) (some 2) 0, .leaf 0x62 0, .leaf 0x61 0]

/-! ### Operand constraints: one ill-formed term for each check of R92 -/

theorem test_wf_rdExact : (Instr.rdExact 5).wellFormed = false ∧ (Instr.rdExact 4).wellFormed = true := by decide
theorem test_wf_wrBit : (Instr.wrBit 2).wellFormed = false ∧ (Instr.wrBit 1).wellFormed = true := by decide
theorem test_wf_wrByte : (Instr.wrByte 0x100).wellFormed = false ∧ (Instr.wrByte 0xFF).wellFormed = true := by decide
theorem test_wf_wrExact_len : (Instr.wrExact 5 0).wellFormed = false := by decide
theorem test_wf_wrExact_val : (Instr.wrExact 1 0x100).wellFormed = false := by decide
theorem test_wf_wrExact_none : (Instr.wrExact 0 1).wellFormed = false ∧ (Instr.wrExact 0 0).wellFormed = true := by decide
theorem test_wf_tbSet_len : (Instr.tbSet 0 33 0).wellFormed = false := by decide
theorem test_wf_tbSet_val : (Instr.tbSet 0 2 4).wellFormed = false ∧ (Instr.tbSet 0 2 3).wellFormed = true := by decide

/-! ### Decoding: a word of every command, written out from the fields of R90 and the opcodes of R92 -/

theorem test_decode_nop : decodeTableWord 64 0x0000000000000000 = some .nop := by decide
theorem test_decode_sreset : decodeTableWord 64 0x0100000000000000 = some .sreset := by decide
theorem test_decode_rdOpen : decodeTableWord 64 0x1000000000000000 = some .rdOpen := by decide
theorem test_decode_rdClose : decodeTableWord 64 0x1100000000000000 = some .rdClose := by decide
theorem test_decode_rdBit : decodeTableWord 64 0x1200000000000000 = some .rdBit := by decide
theorem test_decode_rdByte : decodeTableWord 64 0x1300000000000000 = some .rdByte := by decide
theorem test_decode_rdExact : decodeTableWord 64 0x1400040000000000 = some (.rdExact 4) := by decide
theorem test_decode_wrOpen : decodeTableWord 64 0x2000000000000000 = some .wrOpen := by decide
theorem test_decode_wrClose : decodeTableWord 64 0x2100000000000000 = some .wrClose := by decide
theorem test_decode_wrBit : decodeTableWord 64 0x2200000000000001 = some (.wrBit 1) := by decide
theorem test_decode_wrByte : decodeTableWord 64 0x23000000000000AA = some (.wrByte 0xAA) := by decide
theorem test_decode_wrExact : decodeTableWord 64 0x240002000000BEEF = some (.wrExact 2 0xBEEF) := by decide
theorem test_decode_wrSym : decodeTableWord 64 0x2562000000000000 = some (.wrSym 0x62) := by decide
theorem test_decode_fqClear : decodeTableWord 64 0x3000000000000000 = some .fqClear := by decide
theorem test_decode_fqSet : decodeTableWord 64 0x31610000FFFFFFFF = some (.fqSet 0x61 0xFFFFFFFF) := by decide
theorem test_decode_fqInc : decodeTableWord 64 0x3262000000000000 = some (.fqInc 0x62) := by decide
theorem test_decode_fqScan : decodeTableWord 64 0x3300000000000000 = some .fqScan := by decide
theorem test_decode_trClear : decodeTableWord 64 0x3800000000000000 = some .trClear := by decide
theorem test_decode_trInsert : decodeTableWord 64 0x39610200FFFFFFFD = some (.trInsert 0x61 2 0xFFFFFFFD) := by decide
theorem test_decode_trBuild : decodeTableWord 64 0x3A00000000000000 = some .trBuild := by decide
theorem test_decode_trLen : decodeTableWord 64 0x3B00000000000000 = some .trLen := by decide
theorem test_decode_tbClear : decodeTableWord 64 0x4000000000000000 = some .tbClear := by decide
theorem test_decode_tbSet : decodeTableWord 64 0x417A050000000011 = some (.tbSet 0x7A 5 17) := by decide
theorem test_decode_tbBuild : decodeTableWord 64 0x4200000000000000 = some .tbBuild := by decide
theorem test_decode_encHeader : decodeTableWord 64 0x5000000000000000 = some .encHeader := by decide
theorem test_decode_encPayload : decodeTableWord 64 0x5100000000000000 = some .encPayload := by decide
theorem test_decode_encode : decodeTableWord 64 0x5200000000000000 = some .encode := by decide
theorem test_decode_decHeader : decodeTableWord 64 0x5800000000000000 = some .decHeader := by decide
theorem test_decode_decStep : decodeTableWord 64 0x5900000000000000 = some .decStep := by decide
theorem test_decode_decPayload : decodeTableWord 64 0x5A00000000000000 = some .decPayload := by decide
theorem test_decode_decode : decodeTableWord 64 0x5B00000000000000 = some .decode := by decide

/-- V-SY1: words that are no command. -/
theorem test_decode_badOpcode :
    decodeWord 0x0200000000000000 = .badOpcode ∧ decodeWord 0xFF00000000000000 = .badOpcode ∧
      decodeWord 0x0300FF0000000000 = .badOpcode := by decide
theorem test_decode_badField :
    decodeWord 0x0000000000000001 = .badField ∧ decodeWord 0x1000000100000000 = .badField ∧
      decodeWord 0x2200000000000002 = .badField ∧ decodeWord 0x2400010000000100 = .badField ∧
      decodeWord 0x4100020000000004 = .badField ∧ decodeWord 0x1100000000000001 = .badField := by decide

/-! ### Assembler text (30_encoding.md R96 to R98; the program of 95_test_vectors.md) -/

theorem test_assemble_trInsert :
    assembleText "  TR_INSERT 'a', 3, 0x5 ; R96" = some [.trInsert 0x61 3 5] ∧
      encodeWord (.trInsert 0x61 3 5) = 0x3961030000000005 := by decide

theorem test_assemble_pseudo :
    assembleText "REWIND" = some [.rdClose, .rdOpen] ∧ assembleText "RD_U32" = some [.rdExact 4] ∧
      assembleText "WR_U32 7" = some [.wrExact 4 7] ∧
        assembleText "WR_ENTRY 'a', 1, 1" = some [.wrExact 4 1, .wrByte 1, .wrByte 97] ∧
          assembleText "WR_BYTE 'a'" = some [.wrByte 0x61] := by decide

theorem test_assemble_refuses :
    assembleText "; only a comment" = some [] ∧ assembleText "FQ_INC 256" = none ∧
      assembleText "WR_BIT 'a'" = none ∧ assembleText "nop" = none ∧ assembleText "FQ_SET 'a' 1" = none := by decide

/-! ### The step -/

/-- V-SY1: `0300FF0000000000` faults with BAD_OPCODE and its own opcode. -/
theorem test_step_badOpcode :
    (nextOf (step (State.reset.withFetchWord 64 0x0300FF0000000000))).map flags = some [8, 4, 0x30, 3] := by decide +kernel
/-- V-SY1: BAD_FIELD comes before STREAM_STATE. -/
theorem test_step_badField :
    (nextOf (step (State.reset.withFetchWord 64 0x2200000000000002))).map flags = some [8, 4, 0x31, 0x22] := by decide +kernel

/-! ### One command -/

/-- V-SY2: a faulted block rejects NOP. -/
theorem test_nop_rejected : after .nop broken (fun t => (t.answer, flags t)) = some (some .rejected, [8, 4, 0x32, 0x12]) := by
  decide +kernel
theorem test_nop_done : after .nop State.reset (fun t => (t.answer, flags t)) = some (some .done, [0, 0, 0, 0]) := by
  decide +kernel

/-- V-SY4: SRESET appends the two pending bits as one byte and closes. -/
theorem test_sreset_flushes :
    after .sreset { writing with wacc := 3, wcnt := 2 } (fun t => (t.mem.snk, t.mem.snkOpen, t.opos, flags t)) =
      some ([3], false, 0, [0, 0, 0, 0]) := by decide +kernel
/-- V-SY2: SRESET leaves the faulted state and empties FREQ. -/
theorem test_sreset_clears :
    after .sreset (broken.setFreq 7 9) (fun t => (t.answer, t.getFreq 7, t.nodes.length, flags t)) =
      some (some .done, 0, 1, [0, 0, 0, 0]) := by decide +kernel

/-- E5, V-RD5: RD_OPEN; the second one faults and releases the reader. -/
theorem test_rdOpen : after .rdOpen { State.reset with ipos := 9, eos := true } (fun t => (t.ipos, flags t)) =
    some (0, [1, 0, 0, 0]) := by decide +kernel
theorem test_rdOpen_twice : after .rdOpen (reading []) flags = some [8, 4, 0x32, 0x10] := by decide +kernel

/-- E5: RD_CLOSE keeps EOS; buffered bits are dropped (R123). -/
theorem test_rdClose :
    after .rdClose { reading [1] with eos := true, rbuf := 5, rcnt := 3 } (fun t => (t.rbuf, t.rcnt, flags t)) =
      some (0, 0, [4, 0, 0, 0]) := by decide +kernel

/-- V-RD2, first RD_BIT of `A5`. -/
theorem test_rdBit : after .rdBit (reading (bytes [0xA5, 0x3C])) (fun t => (t.res, t.ipos, t.rbuf, t.rcnt, flags t)) =
    some (1, 1, 0x52, 7, [1, 0, 0, 0]) := by decide +kernel
/-- E5: end-of-stream is no error. -/
theorem test_rdBit_eos : after .rdBit { reading [] with res := 7 } (fun t => (t.res, t.ipos, flags t)) =
    some (0, 0, [5, 0, 0, 0]) := by decide +kernel

/-- V-RD2: RD_BYTE takes the next byte, whatever bits are buffered. -/
theorem test_rdByte :
    after .rdByte { reading (bytes [0xA5, 0x3C]) with ipos := 1, rbuf := 0x52, rcnt := 7 }
      (fun t => (t.res, t.ipos, t.rbuf, t.rcnt)) = some (0x3C, 2, 0x52, 7) := by decide +kernel
/-- V-SY6 (a), for one access: the fault of a failing SRC. -/
theorem test_rdByte_io : after .rdByte { reading [1] with draws := [.ioErr] } (fun t => (t.ipos, flags t)) =
    some (0, [8, 1, 1, 0x13]) := by decide +kernel

/-- V-RD4: three bytes, least significant first. -/
theorem test_rdExact : after (.rdExact 3) (reading (bytes [0x11, 0x22, 0x33])) (fun t => (t.res, t.ipos)) =
    some (0x332211, 3) := by decide +kernel
/-- V-RD3: one byte left for RD_EXACT 2. -/
theorem test_rdExact_short :
    after (.rdExact 2) { reading (bytes [0x2A, 0, 0, 0, 6]) with ipos := 4, res := 0x2A }
      (fun t => (t.res, t.ipos, flags t)) = some (0, 5, [0x0C, 2, 0x11, 0x14]) := by decide +kernel

/-- E4: WR_OPEN empties SNK. -/
theorem test_wrOpen :
    after .wrOpen { State.reset with mem := { src := [], snk := [1, 2], snkOpen := false }, opos := 2 }
      (fun t => (t.mem.snk, t.mem.snkOpen, t.opos, flags t)) = some ([], true, 0, [2, 0, 0, 0]) := by decide +kernel

/-- E4: WR_CLOSE puts the bits 1, 0, 1 out as `05`. -/
theorem test_wrClose :
    after .wrClose { writing with wacc := 5, wcnt := 3 } (fun t => (t.mem.snk, t.mem.snkOpen, t.opos, t.wacc, t.wcnt)) =
      some ([5], false, 1, 0, 0) := by decide +kernel
/-- E4: with no pending bits nothing is appended. -/
theorem test_wrClose_empty : after .wrClose writing (fun t => (t.mem.snk, t.opos, flags t)) = some ([], 0, [0, 0, 0, 0]) := by
  decide +kernel

/-- V-WR1: the eighth bit of `A5`. -/
theorem test_wrBit_eighth :
    after (.wrBit 1) { writing with wacc := 0x25, wcnt := 7 } (fun t => (t.mem.snk, t.opos, t.wacc, t.wcnt)) =
      some ([0xA5], 1, 0, 0) := by decide +kernel
/-- E4: the third bit. -/
theorem test_wrBit : after (.wrBit 1) { writing with wacc := 1, wcnt := 2 } (fun t => (t.mem.snk, t.wacc, t.wcnt)) =
    some ([], 5, 3) := by decide +kernel

/-- V-WR2: a raw byte overtakes the pending bit. -/
theorem test_wrByte :
    after (.wrByte 0xAA) { writing with wacc := 1, wcnt := 1 } (fun t => (t.mem.snk, t.opos, t.wacc, t.wcnt)) =
      some ([0xAA], 1, 1, 1) := by decide +kernel
/-- 41_bitstream_writer.md R140: at position 2^32 - 1 the byte is not written. -/
theorem test_wrByte_full : after (.wrByte 1) { writing with opos := 0xFFFFFFFF } (fun t => (t.mem.snk, flags t)) =
    some ([], [8, 3, 0x23, 0x23]) := by decide +kernel

/-- V-WR2: WR_EXACT 2, 0xBEEF. -/
theorem test_wrExact : after (.wrExact 2 0xBEEF) writing (fun t => (t.mem.snk, t.opos)) = some ([0xEF, 0xBE], 2) := by
  decide +kernel
/-- V-WR5: WR_EXACT 0, 0 writes nothing. -/
theorem test_wrExact_none : after (.wrExact 0 0) writing (fun t => (t.mem.snk, t.answer)) = some ([], some .done) := by
  decide +kernel

/-- V-WR3: 'b' = (3, 3) after six zero bits. -/
theorem test_wrSym :
    after (.wrSym 0x62) (State.setEntry { writing with wcnt := 6 } 0x62 3 3)
      (fun t => (t.mem.snk, t.opos, t.wacc, t.wcnt)) = some ([0xC0], 1, 0, 1) := by decide +kernel
/-- V-WR4: a code of 32 ones after one zero bit. -/
theorem test_wrSym_long :
    after (.wrSym 0x41) (State.setEntry { writing with wcnt := 1 } 0x41 0xFFFFFFFF 32)
      (fun t => (t.mem.snk, t.wacc, t.wcnt)) = some (bytes [0xFE, 0xFF, 0xFF, 0xFF], 1, 1) := by decide +kernel

/-- V-FQ1: FQ_CLEAR. -/
theorem test_fqClear : after .fqClear (State.reset.setFreq 0x61 12) (fun t => (t.getFreq 0x61, t.getFreq 0)) = some (0, 0) := by
  decide +kernel
theorem test_fqSet : after (.fqSet 0x61 10) State.reset (fun t => (t.getFreq 0x61, t.getFreq 0x62)) = some (10, 0) := by
  decide +kernel
theorem test_fqInc : after (.fqInc 0x62) (State.reset.setFreq 0x61 10) (fun t => (t.getFreq 0x61, t.getFreq 0x62)) =
    some (10, 1) := by decide +kernel
/-- V-FQ2. -/
theorem test_fqInc_full :
    after (.fqInc 0x61) (State.reset.setFreq 0x61 0xFFFFFFFF) (fun t => (t.getFreq 0x61, flags t)) =
      some (0xFFFFFFFF, [8, 3, 0x20, 0x32]) := by decide +kernel
/-- V-FQ1: the scan accumulates. -/
theorem test_fqScan :
    after .fqScan (((reading (bytes [0x61, 0x61, 0x62])).setFreq 0x61 10).setFreq 0x62 1)
      (fun t => (t.getFreq 0x61, t.getFreq 0x62, t.ipos, t.res, flags t)) = some (12, 2, 3, 0, [5, 0, 0, 0]) := by
  decide +kernel
/-- V-FQ3. -/
theorem test_fqScan_full :
    after .fqScan ((reading (bytes [0x61, 0x62, 0x61, 0x62])).setFreq 0x62 0xFFFFFFFF)
      (fun t => (t.getFreq 0x61, t.getFreq 0x62, t.ipos, flags t)) = some (1, 0xFFFFFFFF, 2, [8, 3, 0x20, 0x33]) := by
  decide +kernel

theorem test_trClear :
    after .trClear { State.reset with nodes := smallTree, cur := 2, root := 1 } (fun t => (t.nodes, t.root, t.cur)) =
      some ([.inner none none 0], 0, 0) := by decide +kernel

/-- V-TR4, the second insertion. -/
theorem test_trInsert :
    after (.trInsert 0x62 3 3) { State.reset with nodes := [.inner (some 1) none 0, .leaf 0x61 0] } (fun t => t.nodes) =
      some [.inner (some 1) (some 2) 0, .leaf 0x61 0, .inner none (some 3) 0, .inner (some 4) none 0, .leaf 0x62 0] := by
  decide +kernel
/-- V-TR5, the path through a LEAF. -/
theorem test_trInsert_conflict :
    after (.trInsert 0x62 2 2) { State.reset with nodes := [.inner (some 1) none 0, .leaf 0x61 0] }
      (fun t => (t.nodes.length, flags t)) = some (2, [8, 2, 0x15, 0x39]) := by decide +kernel

/-- V-TR2: a leaf goes before a merged node of equal frequency. -/
theorem test_trBuild :
    after .trBuild (((State.reset.setFreq 0x41 1).setFreq 0x42 1).setFreq 0x43 2) (fun t => (t.nodes, t.root, t.cur)) =
      some ([.leaf 0x41 1, .leaf 0x42 1, .leaf 0x43 2, .inner (some 0) (some 1) 2, .inner (some 2) (some 3) 4], 4, 4) := by
  decide +kernel
/-- E2: one symbol. -/
theorem test_trBuild_single :
    after .trBuild (State.reset.setFreq 0x41 4) (fun t => (t.nodes, t.root)) =
      some ([.leaf 0x41 4, .inner (some 0) none 4], 1) := by decide +kernel

/-- E1: 42 bits. -/
theorem test_trLen :
    after .trLen { State.reset with
      root := 10
      nodes := [.leaf 1 6, .leaf 2 6, .leaf 3 2, .leaf 4 2, .leaf 5 1, .leaf 6 1] ++
        [.inner (some 4) (some 5) 2, .inner (some 2) (some 3) 4, .inner (some 6) (some 7) 6] ++
        [.inner (some 0) (some 1) 12, .inner (some 8) (some 9) 18] } (fun t => t.tlen) = some 42 := by decide +kernel
/-- V-TR4: a reconstructed tree has frequencies 0. -/
theorem test_trLen_zero : after .trLen { State.reset with nodes := smallTree, tlen := 7 } (fun t => t.tlen) = some 0 := by
  decide +kernel

theorem test_tbClear :
    after .tbClear (State.reset.setEntry 0x7A 17 5) (fun t => (t.getCode 0x7A, t.getLen 0x7A)) = some (0, 0) := by
  decide +kernel
/-- V-TB3. -/
theorem test_tbSet : after (.tbSet 0x41 3 5) State.reset (fun t => (t.getCode 0x41, t.getLen 0x41)) = some (5, 3) := by
  decide +kernel
theorem test_tbSet_bad : after (.tbSet 0 2 4) State.reset (fun t => (t.getLen 0, flags t)) = some (0, [8, 4, 0x31, 0x41]) := by
  decide +kernel
/-- V-TR2, V-TB2: the codes of that tree, and a stale entry cleared. -/
theorem test_tbBuild :
    after .tbBuild (State.setEntry { State.reset with
      root := 4
      nodes := [.leaf 0x41 1, .leaf 0x42 1, .leaf 0x43 2, .inner (some 0) (some 1) 2, .inner (some 2) (some 3) 4] } 0x7A 17 5)
      tableEntries = some [⟨0x41, 1, 2⟩, ⟨0x42, 3, 2⟩, ⟨0x43, 0, 1⟩] := by decide +kernel

/-- V-AR1: the largest CODE_LEN. -/
theorem test_encHeader :
    after .encHeader ((((writing.setFreq 0x61 0x7FFFFFFF).setEntry 0x61 1 2).setFreq 0x62 1).setEntry 0x62 0 1)
      (fun t => (t.codeLen, t.tableSize, t.hdrBytes, t.mem.snk)) =
      some (0xFFFFFFFF, 2, 20,
        bytes [0xFF, 0xFF, 0xFF, 0xFF, 2, 0, 0, 0, 1, 0, 0, 0, 2, 0x61, 0, 0, 0, 0, 1, 0x62]) := by decide +kernel
/-- P1, line 10. -/
theorem test_encPayload :
    after .encPayload (((copying (bytes [0x61, 0x61, 0x62])).setEntry 0x61 1 1).setEntry 0x62 0 1)
      (fun t => (t.ipos, t.wacc, t.wcnt, t.opos, flags t)) = some (3, 3, 3, 0, [7, 0, 0, 0]) := by decide +kernel

/-- V-SY6 (c): the third SRC access fails, and fault entry flushes the two bits written. -/
theorem test_encPayload_io :
    after .encPayload (((({ copying (bytes [0x61, 0x61, 0x62]) with draws := [.served, .served, .ioErr, .served] } :
      State)).setEntry 0x61 1 1).setEntry 0x62 0 1)
      (fun t => (t.mem.snk, t.ipos, t.opos, flags t)) = some ([3], 2, 1, [8, 1, 1, 0x51]) := by decide +kernel

/-- E7: the input `61 61 62`. -/
theorem test_encode :
    after .encode (holding 64 (bytes [0x61, 0x61, 0x62]))
      (fun t => (t.mem.snk, t.codeLen, t.tableSize, t.origBytes, t.payloadBytes, t.hdrBytes)) =
      some (bytes [3, 0, 0, 0, 2, 0, 0, 0, 1, 0, 0, 0, 1, 0x61, 0, 0, 0, 0, 1, 0x62, 3], 3, 2, 3, 1, 20) := by
  decide +kernel
/-- V-TR4, E8: two entries read. -/
theorem test_decHeader :
    after .decHeader (reading (bytes [3, 0, 0, 0, 2, 0, 0, 0, 0, 0, 0, 0, 1, 0x62, 1, 0, 0, 0, 1, 0x61, 3]))
      (fun t => (t.codeLen, t.tableSize, t.nodes, t.ipos)) = some (3, 2, smallTree, 20) := by decide +kernel
/-- V-AR7: BAD_TABLE_SIZE. -/
theorem test_decHeader_size :
    after .decHeader (reading (bytes [0, 0, 0, 0, 1, 1, 0, 0])) (fun t => (t.tableSize, t.ipos, flags t)) =
      some (257, 8, [8, 2, 0x14, 0x58]) := by decide +kernel

/-- R204: one edge, to a LEAF. -/
theorem test_decStep :
    after .decStep { copying [3] with nodes := smallTree, codeLen := 3 }
      (fun t => (t.mem.snk, t.bitsDone, t.outcnt, t.cur, t.rcnt)) = some ([0x61], 1, 1, 0, 7) := by decide +kernel
/-- V-AR7, last row: the empty tree has no child. -/
theorem test_decStep_missing :
    after .decStep { copying [0] with codeLen := 1 } (fun t => (t.bitsDone, t.ipos, flags t)) =
      some (1, 1, [8, 2, 0x10, 0x59]) := by decide +kernel

/-- V-AR2: the padding of `FB` is not looked at. -/
theorem test_decPayload :
    after .decPayload { copying [0xFB] with nodes := smallTree, codeLen := 3 }
      (fun t => (t.mem.snk, t.bitsDone, t.outcnt, t.ipos)) = some (bytes [0x61, 0x61, 0x62], 3, 3, 1) := by decide +kernel

/-- V-AR2: DECODE of that file. -/
theorem test_decode :
    after .decode (holding 64
        (bytes [3, 0, 0, 0, 2, 0, 0, 0, 1, 0, 0, 0, 1, 0x61, 0, 0, 0, 0, 1, 0x62, 0xFB, 0xDE, 0xAD]))
      (fun t => (t.mem.snk, t.ipos, t.bitsDone, t.origBytes, t.payloadBytes, t.hdrBytes)) =
      some (bytes [0x61, 0x61, 0x62], 21, 3, 3, 1, 20) := by decide +kernel
/-- E6: a missing child. -/
theorem test_decode_corrupt :
    after .decode (holding 64 (bytes [4, 0, 0, 0, 1, 0, 0, 0, 0, 0, 0, 0, 1, 0x41, 4]))
      (fun t => (t.mem.snk, t.ipos, t.bitsDone, t.outcnt, flags t)) = some (bytes [0x41, 0x41], 15, 3, 2, [8, 2, 0x10, 0x5B]) := by
  decide +kernel

/-! ### Witnesses: states and operands that meet the hypotheses of each statement, clause by clause -/

/-- A command that runs to a next state, as an equation. -/
theorem next_of {o : Host.Outcome State Fault Refusal} {p : State → Bool} (h : (nextOf o).any p = true) :
    ∃ t, o = .next t ∧ p t = true := by
  cases o with
  | next t => exact ⟨t, rfl, h⟩
  | fault f => cases h
  | refused r => cases h

/-- A fresh block with the given next acts of the host. -/
def hosted (acts : List HostAct) : State := { State.reset with host := acts }

/-- An open writer with two pending bits at position `p`, and the given answers. -/
def pending (p : BitVec 32) (ds : List EnvAnswer) : State := { writing with wacc := 3, wcnt := 2, opos := p, draws := ds }

/-- An open writer one bit short of a byte. -/
def almost (p : BitVec 32) (ds : List EnvAnswer) : State := { writing with wacc := 0x25, wcnt := 7, opos := p, draws := ds }

/-- A reader or copier whose next access has the given answer. -/
def answered (ds : List EnvAnswer) (s : State) : State := { s with draws := ds }

/-- The small tree is a tree. -/
theorem smallTree_shape : TreeShape smallTree 0 0 := by
  have hl : ∀ p b q, Link smallTree p b q → p = 0 ∧ q = (if b then 2 else 1) := by
    rintro p b q ⟨n, hn, hc⟩
    rcases p with _ | _ | _ | p <;> simp only [smallTree, List.getElem?_cons_zero, List.getElem?_cons_succ,
      List.getElem?_nil, Option.some.injEq, reduceCtorEq] at hn
    · subst hn
      cases b <;> (cases hc; exact ⟨rfl, rfl⟩)
    · subst hn; cases hc
    · subst hn; cases hc
  refine ⟨by decide, ⟨_, _, _, rfl⟩, ⟨_, _, _, rfl⟩, fun p b q h => ?_, fun p p' b b' q h h' => ?_, fun p b h => ?_,
    fun q hq => ?_, fun p f h => ?_⟩
  · obtain ⟨-, rfl⟩ := hl p b q h
    cases b <;> decide
  · obtain ⟨rfl, h1⟩ := hl p b q h
    obtain ⟨rfl, h2⟩ := hl p' b' q h'
    refine ⟨rfl, ?_⟩
    rw [h1] at h2
    cases b <;> cases b' <;> first | rfl | exact absurd h2 (by decide)
  · obtain ⟨-, h1⟩ := hl p b 0 h
    cases b <;> exact absurd h1 (by decide)
  · have hq' : q.toNat < 3 := hq
    have : q = 0 ∨ q = 1 ∨ q = 2 := by
      have e : q = BitVec.ofNat 14 q.toNat := by simp
      have : q.toNat = 0 ∨ q.toNat = 1 ∨ q.toNat = 2 := by omega
      rcases this with h | h | h <;> rw [h] at e <;> simp [e]
    rcases this with rfl | rfl | rfl
    · exact ⟨[], rfl⟩
    · exact ⟨[false], rfl⟩
    · exact ⟨[true], rfl⟩
  · rcases p with _ | _ | _ | p <;> simp [smallTree] at h

/-- A tree with one LEAF at the end of a path of any length. -/
theorem deepTree (n : Nat) (h1 : 1 ≤ n) (hn : n + 1 ≤ 8193) :
    ∃ s : State, s.faulted = false ∧ TreeInv s ∧ s.nodes.length = n + 1 ∧
      leafSymbol s (List.replicate n false) = some 0x61 := by
  obtain ⟨p', ns', f', hw, hs, hn', hf, hl, hlk, hleaf, -⟩ := insertWalk_fresh (List.replicate n false)
    (s := State.reset) (p := 0) (f := 0) (pre := []) emptyTree_shape.but rfl rfl
    (by show 1 + _ ≤ 8193; rw [List.length_replicate]; omega)
  have hl' : ns'.length = n + 1 := by
    rw [hl, List.length_replicate]
    show 1 + n = n + 1
    omega
  have hp : p' ≠ 0 := by
    rintro rfl
    have := hs.path_unique hf (show follow ns' State.reset.root [] = some 0 from rfl)
    have := congrArg List.length this
    simp at this
    omega
  refine ⟨{ State.reset with nodes := ns'.set p'.toNat (.leaf 0x61 f') }, rfl, hs.store 0x61 hn' hp hp, by simp [hl'], ?_⟩
  have ht := hs.store 0x61 hn' hp hp
  have := (store_leaves (ns := [Node.emptyInner]) (bits := List.replicate n false) emptyTree_shape ht hn' hf
    (fun i b q h => ?_) (fun i d g => ?_) (List.replicate n false) 0x61 f').2 (.inl ⟨rfl, rfl, rfl⟩)
  · exact leafSymbol_eq this
  · exact hlk i b q h
  · exact hleaf i d g


/-! #### The command word and the step -/

theorem witness_DecodeOfEncode : (Instr.tbSet 0xFF 32 0xFFFFFFFF).wellFormed = true := by decide

theorem witness_EncodeOfDecode : decodeWord 0x24000400FFFFFFFF = .command (.wrExact 4 0xFFFFFFFF) := by decide

theorem witness_IllegalWordsAreRejectedByName :
    State.reset.faulted = false ∧ decodeWord 0xFF00000000000000 = .badOpcode ∧
      decodeWord 0x0000000000000001 = .badField := by decide

theorem witness_StepRunsTheDecodedCommand :
    (hosted [.issue 0x1000000000000000 [.served], .hwReset]).host = .issue 0x1000000000000000 [.served] :: [.hwReset] ∧
      decodeWord 0x1000000000000000 = .command .rdOpen ∧
      decodeTableWord 64 0x2400040000000000 = some (.wrExact 4 0) := by decide

theorem witness_StepOfTheOtherHostActs :
    (hosted []).host = [] ∧ (hosted [.hwReset]).host = .hwReset :: [] ∧
      (hosted [.supply [1]]).host = .supply [1] :: [] ∧ (hosted [.supply [1]]).ropen = false ∧ [(1 : Byte)].length < 2 ^ 32 ∧
      (reading []).ropen = true := by decide

/-- The clause of an SRC that is too long, at its boundary. -/
theorem witness_StepOfTheOtherHostActs_long :
    (hosted [.supply (List.replicate (2 ^ 32) 0)]).host = .supply (List.replicate (2 ^ 32) 0) :: [] ∧
      (hosted [.supply (List.replicate (2 ^ 32) 0)]).ropen = false ∧
      2 ^ 32 ≤ (List.replicate (2 ^ 32) (0 : Byte)).length :=
  ⟨rfl, rfl, by rw [List.length_replicate]⟩

/-! #### Faults -/

theorem witness_FaultEntrySequence_plain :
    State.reset.wopen = false ∧ writing.wcnt = 0 ∧ (pending 0xFFFFFFFF []).opos.toNat = 2 ^ 32 - 1 := by decide

theorem witness_FaultEntrySequence_flush :
    ∀ ds : List EnvAnswer, ds = [] ∨ ds = [.served] ∨ ds = [.ioErr] ∨ ds = [.hwReset] →
      (pending 0xFFFFFFFE ds).wopen = true ∧ (pending 0xFFFFFFFE ds).wcnt ≠ 0 ∧ Cause.shortRead ≠ .ioSnk ∧
        (pending 0xFFFFFFFE ds).opos.toNat ≠ 2 ^ 32 - 1 ∧ (pending 0xFFFFFFFE ds).draws = ds := by
  rintro ds (rfl | rfl | rfl | rfl) <;> decide

theorem witness_FaultRecordsItsCause : (faultEntry 0x12 .streamState State.reset).answer = some .fault := by decide +kernel

theorem witness_WrongStreamStateFaults :
    State.reset.faulted = false ∧ Instr.encPayload.wellFormed = true ∧ requires .encPayload State.reset = false := by decide

theorem witness_OperandOutOfRangeFaults : State.reset.faulted = false ∧ (Instr.wrBit 2).wellFormed = false := by decide

theorem witness_FaultedBlockRejectsEveryOtherWord : broken.err ≠ 0 ∧ (0x0100000000000001 : Word) ≠ 0x0100000000000000 := by
  decide

theorem witness_FaultIsSticky :
    broken.err ≠ 0 ∧ (∃ t, step broken = .next t) ∧
      (∃ t, step { broken with host := [.issue 0x0100000000000000 []] } = .next t) ∧
      ∃ t, step { broken with host := [.hwReset] } = .next t :=
  ⟨by decide, ⟨_, rfl⟩, ⟨_, rfl⟩, ⟨_, rfl⟩⟩

/-! #### System commands, reset and the read port -/

theorem witness_NopChangesNothing :
    State.reset.faulted = false ∧ broken.faulted = true ∧ (0x00FF000000000000 : Word) >>> 56 = 0 ∧
      (0x00FF000000000000 : Word) ≠ 0 := by decide

theorem witness_SresetResetsEveryRegister :
    State.reset.wopen = false ∧ writing.wcnt = 0 ∧ (pending 0xFFFFFFFF []).opos.toNat = 2 ^ 32 - 1 ∧
      (0x0100000000000001 : Word) >>> 56 = 1 ∧ (0x0100000000000001 : Word) ≠ 0x0100000000000000 ∧
      State.reset.faulted = false ∧ broken.faulted = true := by decide

theorem witness_SresetResetsEveryRegister_flush :
    ∀ ds : List EnvAnswer, ds = [] ∨ ds = [.served] ∨ ds = [.ioErr] ∨ ds = [.hwReset] →
      (pending 0xFFFFFFFE ds).wopen = true ∧ (pending 0xFFFFFFFE ds).wcnt ≠ 0 ∧
        (pending 0xFFFFFFFE ds).opos.toNat ≠ 2 ^ 32 - 1 ∧ (pending 0xFFFFFFFE ds).draws = ds := by
  rintro ds (rfl | rfl | rfl | rfl) <;> decide

/-- V-SY7, and both ends of each unmapped range: the clauses do not overlap. -/
theorem witness_RegisterReadPortMap :
    [0x00, 0x01, 0x0F, 0x13, 0xFF, 0x400, 0xFFFF, 0x10000, 0x10001, 0x10002, 0x10003, 0x10004, 0x18003, 0x18004].map
        (fun a => readPort State.reset (BitVec.ofNat 32 a)) =
      [0x48554607, 0, 1, 0, 0, 0, 0, 0, 0x3FFF, 0x3FFF, 0, 0, 0, 0] ∧
      0x10000 + 4 * 8192 + 3 = 0x18003 := by decide +kernel

/-! #### The reader -/

theorem witness_ReaderOpensAndCloses :
    State.reset.faulted = false ∧ State.reset.ropen = false ∧ (reading []).faulted = false ∧ (reading []).ropen = true := by
  decide

theorem witness_ReadBitResult :
    (∃ t, BitRead { reading [] with rbuf := 1, rcnt := 1 } true t) ∧ (∃ t, BitRead (reading [0xA5]) true t) ∧
      ((reading []).rcnt = 0 ∧ (reading []).mem.src.length ≤ (reading []).ipos.toNat ∧ Served 1 (reading [])) ∧
      (State.reset.ropen = false ∧ (answered [.ioErr] (reading [1])).rcnt = 0 ∧
        (answered [.ioErr] (reading [1])).draws = .ioErr :: []) :=
  ⟨⟨_, .inl ⟨by decide, by decide, rfl⟩⟩, ⟨_, .inr ⟨rfl, by decide, 0xA5, rfl, by decide, rfl⟩⟩,
    by decide, by decide⟩

theorem witness_ReadBitDeliversTheStreamInOrder :
    (reading [5]).faulted = false ∧ (reading [5]).ropen = true ∧ (reading [5]).mem.src.length < 2 ^ 32 ∧
      Served 1 (reading [5]) ∧ unreadBits (reading [5]) = true :: [false, true, false, false, false, false, false] := by decide

theorem witness_ReadByteResult :
    (reading [7]).mem.src[(reading [7]).ipos.toNat]? = some 7 ∧ Served 1 (reading [7]) ∧
      (reading []).mem.src.length ≤ (reading []).ipos.toNat ∧
      (answered [.ioErr] (reading [7])).draws = .ioErr :: [] ∧ (answered [.hwReset] (reading [7])).draws = .hwReset :: [] ∧
      (answered [] (reading [7])).draws = [] := by decide

theorem witness_ReadExactResult :
    ∀ n : Nat, n = 0 ∨ n = 4 → (reading (List.replicate n 9)).faulted = false ∧
      (reading (List.replicate n 9)).ropen = true ∧ (BitVec.ofNat 8 n).toNat ≤ 4 ∧
      (reading (List.replicate n 9)).mem.src.length < 2 ^ 32 ∧
      (reading (List.replicate n 9)).mem.src.drop (reading (List.replicate n 9)).ipos.toNat = List.replicate n 9 ++ [] ∧
      (List.replicate n (9 : Byte)).length = (BitVec.ofNat 8 n).toNat ∧
      Served (BitVec.ofNat 8 n).toNat (reading (List.replicate n 9)) := by
  rintro n (rfl | rfl) <;> decide

theorem witness_ReadExactComesUpShort :
    ((reading []).ropen = true ∧ (1 : BitVec 8).toNat ≤ 4 ∧ (reading []).mem.src.drop (reading []).ipos.toNat = [] ∧
      ([] : List Byte).length < (1 : BitVec 8).toNat ∧ Served 1 (reading [])) ∧
    ((4 : BitVec 8).toNat ≤ 4 ∧ (reading [1, 2, 3]).mem.src.length < 2 ^ 32 ∧
      (reading [1, 2, 3]).mem.src.drop (reading [1, 2, 3]).ipos.toNat = [1, 2, 3] ∧
      [(1 : Byte), 2, 3].length < (4 : BitVec 8).toNat ∧ Served 4 (reading [1, 2, 3])) ∧ 4 < (5 : BitVec 8).toNat := by decide

theorem witness_ReaderCommandsFrame :
    (reading []).faulted = false ∧ (∃ t, exec .rdBit (reading []) = .next t ∧ (t.answer == some .done) = true) ∧
      ∃ t, exec (.rdExact 1) (reading []) = .next t ∧ (t.faulted && t.errinfo == 0x11) = true :=
  ⟨rfl, next_of (by decide +kernel), next_of (by decide +kernel)⟩

/-! #### The writer -/

theorem witness_WriterOpensAndCloses :
    State.reset.faulted = false ∧ State.reset.wopen = false ∧ writing.faulted = false ∧ writing.wopen = true ∧
      writing.wcnt = 0 ∧ (pending 0xFFFFFFFE [.served]).wcnt ≠ 0 ∧
      (pending 0xFFFFFFFE [.served]).opos.toNat ≠ 2 ^ 32 - 1 ∧ Served 1 (pending 0xFFFFFFFE [.served]) ∧
      (pending 0xFFFFFFFF []).opos.toNat = 2 ^ 32 - 1 ∧ (pending 0xFFFFFFFE [.ioErr]).draws = .ioErr :: [] := by decide

theorem witness_WriteBitResult :
    writing.faulted = false ∧ writing.wopen = true ∧ { writing with wcnt := 6 }.wcnt ≠ 7 ∧
      (almost 0xFFFFFFFE [.served]).wcnt = 7 ∧ (almost 0xFFFFFFFE [.served]).opos.toNat ≠ 2 ^ 32 - 1 ∧
      Served 1 (almost 0xFFFFFFFE [.served]) ∧ (almost 0xFFFFFFFF []).opos.toNat = 2 ^ 32 - 1 ∧
      (almost 0xFFFFFFFE [.ioErr]).draws = .ioErr :: [] := by decide

theorem witness_WriteBytesResult :
    writing.faulted = false ∧ writing.wopen = true ∧ (pending 0xFFFFFFFE [.served]).opos.toNat ≠ 2 ^ 32 - 1 ∧
      Served 1 (pending 0xFFFFFFFE [.served]) ∧ (pending 0xFFFFFFFF []).opos.toNat = 2 ^ 32 - 1 ∧
      (pending 0 [.ioErr]).draws = .ioErr :: [] := by decide

theorem witness_WriteBytesResult_exact :
    ((0 : BitVec 8).toNat ≤ 4 ∧ (0 : BitVec 32).toNat < 2 ^ (8 * (0 : BitVec 8).toNat) ∧
      (pending 0xFFFFFFFF []).opos.toNat + (0 : BitVec 8).toNat ≤ 2 ^ 32 - 1 ∧ Served 0 (pending 0xFFFFFFFF [])) ∧
    ((4 : BitVec 8).toNat ≤ 4 ∧ (0xFFFFFFFF : BitVec 32).toNat < 2 ^ (8 * (4 : BitVec 8).toNat) ∧
      (pending 0xFFFFFFFB (List.replicate 4 .served)).opos.toNat + (4 : BitVec 8).toNat ≤ 2 ^ 32 - 1 ∧
      Served 4 (pending 0xFFFFFFFB (List.replicate 4 .served))) ∧
    ((0 < (1 : BitVec 8).toNat ∧ (pending 0xFFFFFFFF []).opos.toNat + 0 = 2 ^ 32 - 1 ∧ Served 0 (pending 0xFFFFFFFF [])) ∧
      (3 < (4 : BitVec 8).toNat ∧ (pending 0xFFFFFFFC (List.replicate 3 .served)).opos.toNat + 3 = 2 ^ 32 - 1 ∧
        Served 3 (pending 0xFFFFFFFC (List.replicate 3 .served)))) ∧
    (3 < (4 : BitVec 8).toNat ∧ (pending 0xFFFFFFFB (List.replicate 3 .served ++ [.ioErr])).opos.toNat + 3 < 2 ^ 32 - 1 ∧
      (pending 0xFFFFFFFB (List.replicate 3 .served ++ [.ioErr])).draws = List.replicate 3 .served ++ .ioErr :: []) := by
  decide

/-- An absent symbol, and a code of 32 bits. -/
theorem witness_WriteSymbolAppendsItsCode :
    writing.faulted = false ∧ writing.wopen = true ∧ WriterInv writing ∧
      Served ((writing.wcnt.toNat + (writing.getLen 0x7A).toNat) / 8) writing ∧
      writing.opos.toNat + (writing.wcnt.toNat + (writing.getLen 0x7A).toNat) / 8 ≤ 2 ^ 32 - 1 ∧
      Served (((writing.setEntry 0x41 0xFFFFFFFF 32).wcnt.toNat +
        ((writing.setEntry 0x41 0xFFFFFFFF 32).getLen 0x41).toNat) / 8) (writing.setEntry 0x41 0xFFFFFFFF 32) :=
  ⟨rfl, rfl, emptyBuffer, by decide +kernel, by decide +kernel, by decide +kernel⟩

theorem witness_CloseCompletesTheWrittenBits :
    (pending 5 [.served]).faulted = false ∧ (pending 5 [.served]).wopen = true ∧ WriterInv (pending 5 [.served]) ∧
      (pending 5 [.served]).opos.toNat ≠ 2 ^ 32 - 1 ∧ Served 1 (pending 5 [.served]) :=
  ⟨rfl, rfl, ⟨by decide, by decide⟩, by decide, by decide⟩

/-! #### Frequencies -/

theorem witness_FrequencyTableCommands :
    State.reset.faulted = false ∧ (State.reset.getFreq 0).toNat ≠ 2 ^ 32 - 1 ∧
      ((State.reset.setFreq 0xFF 0xFFFFFFFF).getFreq 0xFF).toNat = 2 ^ 32 - 1 := by decide +kernel

theorem witness_ScanCountsTheRestOfTheSource :
    (reading [3]).faulted = false ∧ (reading [3]).ropen = true ∧ (reading [3]).mem.src.length < 2 ^ 32 ∧
      Served 2 (reading [3]) ∧ (∀ c, ((reading [3]).getFreq c).toNat + [3].count c ≤ 2 ^ 32 - 1) ∧
      (reading [3]).mem.src.drop (reading [3]).ipos.toNat = [3] := by
  refine ⟨rfl, rfl, by decide, by decide, fun c => ?_, rfl⟩
  have h : (reading [3]).getFreq c = 0 := by simp [reading, State.reset, State.getFreq]
  have := List.count_le_length (a := c) (l := [3])
  rw [h]
  simp at *
  omega

theorem witness_ScanCountsTheRestOfTheSource_full :
    ∃ s : State, s.faulted = false ∧ s.ropen = true ∧ s.mem.src.length < 2 ^ 32 ∧ Served (([] : List Byte).length + 1) s ∧
      (∀ c, (s.getFreq c).toNat + ([] : List Byte).count c ≤ 2 ^ 32 - 1) ∧
      s.mem.src.drop s.ipos.toNat = [] ++ 3 :: [4] ∧ (s.getFreq 3).toNat + ([] : List Byte).count 3 = 2 ^ 32 - 1 := by
  refine ⟨{ reading [3, 4] with freq := Vector.replicate 256 0xFFFFFFFF }, rfl, rfl, by decide, by decide, fun c => ?_, rfl, ?_⟩
  · simp [State.getFreq]
  · simp [State.getFreq]

/-! #### The code tree -/

theorem witness_TreeClearLeavesTheEmptyRoot : { State.reset with nodes := smallTree }.faulted = false := by decide

/-- Room for fewer than 32 nodes. -/
theorem witness_TreeInsertResult_full : ∃ s : State, s.faulted = false ∧ TreeInv s ∧ 8193 < s.nodes.length + 32 := by
  obtain ⟨s, h1, h2, h3, -⟩ := deepTree 8161 (by omega) (by omega)
  exact ⟨s, h1, h2, by omega⟩

theorem witness_TreeInsertResult :
    State.reset.faulted = false ∧ TreeInv State.reset ∧ State.reset.nodes.length + 32 ≤ 8193 ∧
      (0 : BitVec 8).toNat < 1 ∧ 32 < (33 : BitVec 8).toNat ∧ 1 ≤ (32 : BitVec 8).toNat ∧ (32 : BitVec 8).toNat ≤ 32 ∧
      PathFree State.reset ((List.range 32).map (0xFFFFFFFF : BitVec 32).getLsbD) := by
  refine ⟨rfl, emptyTree_shape, by decide, by decide, by decide, by decide, by decide, fun p c h => ?_⟩
  obtain ⟨f, hf⟩ := leafSymbol_eq_some.1 h
  exact absurd hf (emptyTree_noLeaf p c f)

/-- A path that ends at a LEAF (R168 (b)). -/
theorem witness_TreeInsertResult_conflict :
    TreeInv { State.reset with nodes := smallTree } ∧
      ¬ PathFree { State.reset with nodes := smallTree } ((List.range 1).map (1 : BitVec 32).getLsbD) :=
  ⟨smallTree_shape, fun h => (h [true] 0x61 (by decide)).1 (by decide)⟩

theorem witness_TreeBuildMergesTheTwoLeast :
    State.reset.faulted = false ∧ countedSymbols State.reset = [] ∧ countedSymbols (State.reset.setFreq 0xFF 1) = [0xFF] ∧
      2 ≤ (countedSymbols ((State.reset.setFreq 0 1).setFreq 0xFF 1)).length := by decide +kernel

theorem witness_TreeBuildCompletes : (State.reset.setFreq 0xFF 1).faulted = false := rfl

theorem witness_TreeBuildLeaves :
    (State.reset.setFreq 0xFF 1).faulted = false ∧ (∃ t, exec .trBuild (State.reset.setFreq 0xFF 1) = .next t) ∧
      (State.reset.setFreq 0xFF 1).getFreq 0xFF ≠ 0 :=
  ⟨rfl, ⟨_, rfl⟩, by decide +kernel⟩

theorem witness_TreeLengthIsTheWeightedDepthSum :
    { State.reset with nodes := smallTree }.faulted = false ∧ TreeInv { State.reset with nodes := smallTree } :=
  ⟨rfl, smallTree_shape⟩

/-- Pseudocode that runs to its end makes a command that answers `done`. -/
theorem exec_ends {i : Instr} {ready : State → Bool} {body : State → Res Unit} {s u : State}
    (hi : exec i s = command i ready body s) (hf : s.faulted = false) (hw : i.wellFormed = true) (hr : ready s = true)
    (hb : body s = .ok () u) : ∃ t, exec i s = .next t ∧ t.answer = some .done :=
  ⟨_, hi.trans (command_done hf hw hr hb), rfl⟩

/-- The same for the last command of a run. -/
theorem run_ends {i : Instr} {ready : State → Bool} {body : State → Res Unit} {s u : State}
    (hi : exec i s = command i ready body s) (hf : s.faulted = false) (hw : i.wellFormed = true) (hr : ready s = true)
    (hb : body s = .ok () u) : ∃ t, runCommands [i] s = .next t ∧ t.answer = some .done :=
  ⟨_, runCommands_ok (is := []) hi hf hw hr hb, rfl⟩

/-- A completed table build, from any unfaulted state with at most 33 symbols. -/
theorem tables_built {s : State} (hf : s.faulted = false) (hk : (countedSymbols s).length ≤ 33) :
    ∃ t, runCommands [.trBuild, .tbBuild] s = .next t ∧ t.answer = some .done := by
  obtain ⟨code, len, h1, -, -⟩ := built_ok (s := s.answered .done) hk
  rw [runCommands_ok (exec_trBuild s) hf rfl rfl (treeBuild_built s)]
  exact run_ends (exec_tbBuild ((built s).answered .done)) hf rfl rfl h1

theorem witness_TheTwoTreeConstructionsAgree :
    State.reset.faulted = false ∧ ∃ t, runCommands [.trBuild, .tbBuild] State.reset = .next t ∧ t.answer = some .done ∧
      (tableEntries t).Perm (tableEntries t) := by
  obtain ⟨t, h1, h2⟩ := tables_built (s := State.reset) rfl (by decide +kernel)
  exact ⟨rfl, t, h1, h2, .refl _⟩

/-! #### The code table -/

theorem witness_CodeTableCommands :
    State.reset.faulted = false ∧ (32 : BitVec 8).toNat ≤ 32 ∧ (0xFFFFFFFF : BitVec 32).toNat < 2 ^ (32 : BitVec 8).toNat ∧
      (0 : BitVec 32).toNat < 2 ^ (0 : BitVec 8).toNat ∧ 32 < (33 : BitVec 8).toNat ∧
      2 ^ (2 : BitVec 8).toNat ≤ (4 : BitVec 32).toNat := by decide

theorem smallTree_depth (p : List Bool) (c : Symbol) (h : leafSymbol { State.reset with nodes := smallTree } p = some c) :
    p.length ≤ 32 := by
  obtain ⟨f, q, hq, -⟩ := leafSymbol_eq_some.1 h
  have := (smallTree_shape.but (x := fun _ => False)).path_length hq
  have h3 : smallTree.length = 3 := rfl
  omega

theorem witness_TableBuildRecordsThePaths :
    { State.reset with nodes := smallTree }.faulted = false ∧ TreeInv { State.reset with nodes := smallTree } ∧
      ∀ p c, leafSymbol { State.reset with nodes := smallTree } p = some c → p.length ≤ 32 :=
  ⟨rfl, smallTree_shape, smallTree_depth⟩

theorem witness_TableBuildRejectsDeepTrees :
    ∃ s : State, s.faulted = false ∧ TreeInv s ∧ leafSymbol s (List.replicate 33 false) = some 0x61 ∧
      32 < (List.replicate 33 false).length := by
  obtain ⟨s, h1, h2, -, h4⟩ := deepTree 33 (by omega) (by omega)
  exact ⟨s, h1, h2, h4, by decide⟩

theorem witness_BuiltTableIsPrefixFree :
    ∃ t, exec .tbBuild { State.reset with nodes := smallTree } = .next t ∧ t.answer = some .done ∧
      TreeInv { State.reset with nodes := smallTree } := by
  obtain ⟨code, len, h, -⟩ := tableBuild_ok (s := { State.reset with nodes := smallTree }) smallTree_shape smallTree_depth
  obtain ⟨t, h1, h2⟩ := exec_ends (exec_tbBuild _) rfl rfl rfl h
  exact ⟨t, h1, h2, smallTree_shape⟩

theorem length_built {s : State} (hf : s.faulted = false) (hk : (countedSymbols s).length ≤ 33) :
    ∃ t, runCommands [.trBuild, .tbBuild, .trLen] s = .next t ∧ t.answer = some .done := by
  obtain ⟨code, len, h1, -, -⟩ := built_ok (s := s.answered .done) hk
  obtain ⟨ps, -, -, h2⟩ := treeLen_ok (s := ({ built (s.answered .done) with code := code, len := len }).answered .done)
    (built_tree _)
  rw [runCommands_ok (exec_trBuild s) hf rfl rfl (treeBuild_built s),
    runCommands_ok (exec_tbBuild ((built s).answered .done)) hf rfl rfl h1]
  exact run_ends (exec_trLen _) hf rfl rfl h2

theorem witness_TreeLengthIsThePayloadLength :
    State.reset.faulted = false ∧ ∃ t, runCommands [.trBuild, .tbBuild, .trLen] State.reset = .next t ∧
      t.answer = some .done := ⟨rfl, length_built rfl (by decide +kernel)⟩

/-! #### The archiver -/

theorem witness_EncodeHeaderWritesTheTable :
    writing.faulted = false ∧ writing.wopen = true ∧
      (symbols.map fun c => (writing.getFreq c).toNat * (writing.getLen c).toNat).sum < 2 ^ 32 ∧
      Served (8 + 6 * (tableEntries writing).length) writing ∧
      writing.opos.toNat + (8 + 6 * (tableEntries writing).length) ≤ 2 ^ 32 - 1 := by
  have hl : ∀ c, writing.getLen c = 0 := fun c => by simp [writing, State.reset, State.getLen]
  have ht : tableEntries writing = [] := by simp [tableEntries, hl]
  refine ⟨rfl, rfl, by simp [hl], by rw [ht]; decide, by rw [ht]; decide⟩

theorem witness_EncodeHeaderWritesTheTable_overflow :
    ∃ s : State, s.faulted = false ∧ s.wopen = true ∧
      2 ^ 32 ≤ (symbols.map fun c => (s.getFreq c).toNat * (s.getLen c).toNat).sum :=
  ⟨{ writing with freq := Vector.replicate 256 0x80000000, len := Vector.replicate 256 2 }, rfl, rfl,
    List.le_sum_of_mem (List.mem_map.2 ⟨0, mem_symbols 0, by simp [State.getFreq, State.getLen]⟩)⟩

theorem witness_EncodePayloadAppendsTheCodes :
    ∃ s : State, s.faulted = false ∧ s.ropen = true ∧ s.wopen = true ∧ WriterInv s ∧ s.mem.src.length < 2 ^ 32 ∧
      s.mem.src.drop s.ipos.toNat = [0x41] ∧ ([(0x41 : Byte)].flatMap (symbolBits s)).length = 8 ∧
      Served ([(0x41 : Byte)].length + 1 + (s.wcnt.toNat + ([(0x41 : Byte)].flatMap (symbolBits s)).length) / 8) s ∧
      s.opos.toNat + (s.wcnt.toNat + ([(0x41 : Byte)].flatMap (symbolBits s)).length) / 8 ≤ 2 ^ 32 - 1 :=
  ⟨(copying [0x41]).setEntry 0x41 0xA5 8, rfl, rfl, rfl, emptyBuffer, by decide +kernel, by decide +kernel,
    by decide +kernel, by decide +kernel, by decide +kernel⟩

/-- A table of two codes. -/
def smallTable : List Entry := [⟨0x62, 0, 1⟩, ⟨0x61, 1, 1⟩]

theorem smallTable_good : GoodTable smallTable := ⟨by decide, by decide, by unfold PrefixFree; decide⟩

theorem witness_DecodeHeaderRebuildsTheTree :
    (reading (fileHeader 3 smallTable ++ [3])).faulted = false ∧ (reading (fileHeader 3 smallTable ++ [3])).ropen = true ∧
      GoodTable smallTable ∧ (reading (fileHeader 3 smallTable ++ [3])).mem.src.length < 2 ^ 32 ∧
      (reading (fileHeader 3 smallTable ++ [3])).mem.src.drop (reading (fileHeader 3 smallTable ++ [3])).ipos.toNat =
        fileHeader 3 smallTable ++ [3] ∧
      Served (8 + 6 * smallTable.length) (reading (fileHeader 3 smallTable ++ [3])) :=
  ⟨rfl, rfl, smallTable_good, by decide, by decide, by decide⟩

/-- The largest table size that is too large by one, and both lengths cut short by one byte. -/
theorem witness_DecodeHeaderFaults :
    256 < (257 : BitVec 32).toNat ∧ (reading (word32 1 ++ word32 257 ++ [])).mem.src.drop 0 = word32 1 ++ word32 257 ++ [] ∧
      Served 8 (reading (word32 1 ++ word32 257 ++ [])) ∧
      (reading [1, 2, 3]).mem.src.drop (reading [1, 2, 3]).ipos.toNat = [1, 2, 3] ∧ [(1 : Byte), 2, 3].length < 4 ∧
      Served 4 (reading [1, 2, 3]) ∧
      (reading (word32 1 ++ [1, 2, 3])).mem.src.drop 0 = word32 1 ++ [1, 2, 3] ∧
      Served 8 (reading (word32 1 ++ [1, 2, 3])) := by decide

/-- One good entry, 0 in one bit. -/
def oneEntry : List Entry := [⟨0x61, 0, 1⟩]

theorem oneEntry_good : GoodTable oneEntry := ⟨by decide, by decide, List.pairwise_singleton _ _⟩

/-- Behind a good entry: lengths 0 and 33, a code that begins with the good one, and SRC at its end or one byte short. -/
theorem witness_DecodeHeaderFaults_table :
    GoodTable oneEntry ∧ oneEntry.length < (2 : BitVec 32).toNat ∧ (256 : BitVec 32).toNat ≤ 256 ∧
      (∀ e : Entry, ∃ s : State, s.faulted = false ∧ s.ropen = true ∧ s.mem.src.length < 2 ^ 32 ∧
        s.mem.src.drop s.ipos.toNat = word32 1 ++ word32 2 ++ oneEntry.flatMap Entry.bytes ++ e.bytes ++ [] ∧
        Served (8 + 6 * (oneEntry.length + 1)) s) ∧
      ((⟨0x62, 0, 0⟩ : Entry).len.toNat < 1 ∧ 32 < (⟨0x62, 0, 33⟩ : Entry).len.toNat) ∧
      ¬ PrefixFree ((oneEntry ++ [(⟨0x62, 2, 2⟩ : Entry)]).map Entry.bits) ∧
      ∀ vs ∈ [[], [(1 : Byte), 2, 3, 4, 5]], vs.length < 6 ∧ ∃ s : State, s.faulted = false ∧ s.ropen = true ∧
        s.mem.src.drop s.ipos.toNat = word32 1 ++ word32 2 ++ oneEntry.flatMap Entry.bytes ++ vs ∧
        Served (8 + 6 * oneEntry.length + vs.length + 1) s := by
  refine ⟨oneEntry_good, by decide, by decide, fun e => ?_, by decide, ?_, ?_⟩
  · exact ⟨reading (word32 1 ++ word32 2 ++ oneEntry.flatMap Entry.bytes ++ e.bytes ++ []), rfl, rfl,
      by simp [reading, word32, oneEntry, Entry.bytes], rfl, rfl⟩
  · intro h
    exact (List.rel_of_pairwise_cons h (List.mem_singleton_self _)).1 (by decide)
  · intro vs hvs
    simp only [List.mem_cons, List.not_mem_nil, or_false] at hvs
    rcases hvs with rfl | rfl
    · exact ⟨by decide, reading (word32 1 ++ word32 2 ++ oneEntry.flatMap Entry.bytes ++ []), rfl, rfl, rfl, rfl⟩
    · exact ⟨by decide, reading (word32 1 ++ word32 2 ++ oneEntry.flatMap Entry.bytes ++ [1, 2, 3, 4, 5]), rfl, rfl, rfl,
        rfl⟩

theorem witness_DecodeStepWalksOneEdge :
    (copying [3]).faulted = false ∧ (copying [3]).ropen = true ∧ (copying [3]).wopen = true ∧
      (copying [3]).codeLen.toNat ≤ (copying [3]).bitsDone.toNat ∧
      { copying [] with codeLen := 1 }.bitsDone.toNat < { copying [] with codeLen := 1 }.codeLen.toNat ∧
      (copying []).rcnt = 0 ∧ (copying []).mem.src.length ≤ (copying []).ipos.toNat ∧ Served 1 (copying []) ∧
      (∃ t, BitRead { copying [3] with codeLen := 1 } true t ∧ t.opos.toNat ≠ 2 ^ 32 - 1 ∧ Served 1 t) ∧
      (State.reset.nodes[State.reset.cur.toNat]? = some (.inner none none 0) ∧
        (Node.inner none none 0).child true = none) ∧
      (Link smallTree 0 true 2 ∧ smallTree[(2 : NodeIdx).toNat]? = some (.leaf 0x61 0)) ∧
      (Link [.inner (some 1) none 0, .inner none (some 2) 0, .leaf 0x61 0] 0 false 1 ∧
        IsInner [.inner (some 1) none 0, .inner none (some 2) 0, .leaf 0x61 0] 1) ∧
      { copying [3] with opos := 0xFFFFFFFF }.opos.toNat = 2 ^ 32 - 1 :=
  ⟨rfl, rfl, rfl, by decide, by decide, rfl, by decide, by decide,
    ⟨_, .inr ⟨rfl, by decide, 3, rfl, by decide, rfl⟩, by decide, by decide⟩, by decide,
    ⟨⟨_, rfl, rfl⟩, rfl⟩, ⟨⟨_, rfl, rfl⟩, ⟨_, _, _, rfl⟩⟩, by decide⟩

theorem witness_DecodePayloadEmitsTheMessage :
    ∃ s : State, s.faulted = false ∧ s.ropen = true ∧ s.wopen = true ∧ TreeInv s ∧ s.cur = s.root ∧
      s.mem.src.length < 2 ^ 32 ∧ (∀ m ∈ [([true], (0x61 : Symbol)), ([false], 0x62)], leafSymbol s m.1 = some m.2) ∧
      unreadBits s = [([true], (0x61 : Symbol)), ([false], 0x62)].flatMap Prod.fst ++ List.replicate 6 false ∧
      s.codeLen.toNat = s.bitsDone.toNat + 2 ∧ Served (2 + 2) s ∧ s.opos.toNat + 2 ≤ 2 ^ 32 - 1 :=
  ⟨{ copying [1] with nodes := smallTree, codeLen := 2 }, rfl, rfl, rfl, smallTree_shape, rfl, by decide, by decide,
    by decide, by decide, by decide, by decide⟩

theorem witness_DecodePayloadIsDecodeSteps :
    (copying [3]).faulted = false ∧ (copying [3]).ropen = true ∧ (copying [3]).wopen = true ∧
      { copying [3] with codeLen := 1 }.bitsDone.toNat < { copying [3] with codeLen := 1 }.codeLen.toNat := by decide

theorem witness_EncodeIsItsTwelveCommands :
    (holding 9 [1]).faulted = false ∧ (holding 9 [1]).ropen = false ∧ (holding 9 [1]).wopen = false := by decide

theorem witness_DecodeIsItsSixCommands :
    (holding 9 [1]).faulted = false ∧ (holding 9 [1]).ropen = false ∧ (holding 9 [1]).wopen = false := by decide

theorem witness_EncodeWritesTheFile :
    (holding 318 [1, 2, 1]).faulted = false ∧ (holding 318 [1, 2, 1]).ropen = false ∧
      (holding 318 [1, 2, 1]).wopen = false ∧ (holding 318 [1, 2, 1]).mem.src.length ≤ 2 ^ 26 ∧
      (symbols.filter fun c => (holding 318 [1, 2, 1]).mem.src.contains c).length ≤ 33 ∧
      Served (6 * (holding 318 [1, 2, 1]).mem.src.length + 300) (holding 318 [1, 2, 1]) := by decide +kernel

theorem witness_DecodeReadsTheFile :
    ∃ s : State, s.faulted = false ∧ s.ropen = false ∧ s.wopen = false ∧ GoodTable smallTable ∧
      (∀ e ∈ [(⟨0x61, 1, 1⟩ : Entry), ⟨0x62, 0, 1⟩], e ∈ smallTable) ∧
      ([(⟨0x61, 1, 1⟩ : Entry), ⟨0x62, 0, 1⟩].flatMap Entry.bits).length = 2 ∧
      Packs [1] ([(⟨0x61, 1, 1⟩ : Entry), ⟨0x62, 0, 1⟩].flatMap Entry.bits) ∧
      s.mem.src = fileHeader (BitVec.ofNat 32 2) smallTable ++ [1] ++ [0xDE] ∧ s.mem.src.length < 2 ^ 32 ∧
      Served (8 + 6 * smallTable.length + (2 + 2)) s :=
  ⟨holding 24 (fileHeader (BitVec.ofNat 32 2) smallTable ++ [1] ++ [0xDE]), rfl, rfl, rfl, smallTable_good, by decide,
    by decide, ⟨6, by decide, by decide⟩, rfl, by decide, by decide⟩

theorem roundTrip_ready {s : State} {D : Nat} (hf : s.faulted = false) (hr : s.ropen = false) (hw : s.wopen = false)
    (hwf : s.mem.src.length < 2 ^ 32) (hk : distinct s.mem.src ≤ 33) (hD : max 1 (distinct s.mem.src - 1) ≤ D)
    (hB : D * s.mem.src.length < 2 ^ 32)
    (hs : Served (2 * s.mem.src.length + 10 + 6 * distinct s.mem.src + (D * s.mem.src.length + 7) / 8) s) :
    ∃ t u, exec .encode s = .next t ∧ t.answer = some .done ∧ u.faulted = false ∧ u.ropen = false ∧ u.wopen = false ∧
      u.mem.src = t.mem.snk ∧ Served (8 + 6 * t.tableSize.toNat + (t.codeLen.toNat + s.mem.src.length)) u := by
  obtain ⟨u, hu⟩ := encodeFile_ok hwf hk hD hB hs
  obtain ⟨t, h1, h2⟩ := exec_ends (exec_encode s) hf rfl (by simp [bothClosed, hr, hw]) hu
  refine ⟨t, holding (8 + 6 * t.tableSize.toNat + (t.codeLen.toNat + s.mem.src.length)) t.mem.snk, h1, h2, rfl, rfl, rfl,
    rfl, ?_⟩
  show (List.replicate _ _).take _ = _
  rw [List.take_replicate]
  exact congrArg (List.replicate · _) (Nat.min_self _)

theorem witness_RoundTrip :
    (holding 40 [1, 2, 1]).faulted = false ∧ (holding 40 [1, 2, 1]).ropen = false ∧ (holding 40 [1, 2, 1]).wopen = false ∧
      (holding 40 [1, 2, 1]).mem.src.length < 2 ^ 32 ∧
      ∃ t u, exec .encode (holding 40 [1, 2, 1]) = .next t ∧ t.answer = some .done ∧ u.faulted = false ∧
        u.ropen = false ∧ u.wopen = false ∧ u.mem.src = t.mem.snk ∧
        Served (8 + 6 * t.tableSize.toNat + (t.codeLen.toNat + (holding 40 [1, 2, 1]).mem.src.length)) u :=
  ⟨rfl, rfl, rfl, by decide, roundTrip_ready (D := 1) rfl rfl rfl (by decide) (by decide +kernel) (by decide +kernel)
    (by decide) (by decide +kernel)⟩

theorem witness_EncodeWritesTheFile_done :
    (holding 40 [1, 2, 1]).faulted = false ∧ (holding 40 [1, 2, 1]).mem.src.length < 2 ^ 32 ∧
      ∃ t, exec .encode (holding 40 [1, 2, 1]) = .next t ∧ t.answer = some .done := by
  obtain ⟨-, -, -, h, t, u, h1, h2, -⟩ := witness_RoundTrip
  exact ⟨rfl, h, t, h1, h2⟩

/-- A SRC with the counts that FREQ holds. -/
def spelled (u : State) : List Byte := symbols.flatMap fun c => List.replicate (u.getFreq c).toNat c

theorem spelled_count (u : State) (c : Symbol) : (u.getFreq c).toNat = (spelled u).count c := by
  unfold spelled
  rw [List.count_flatMap]
  have : List.count c ∘ (fun d : Symbol => List.replicate (u.getFreq d).toNat d) =
      fun d => if c = d then (u.getFreq d).toNat else 0 := by
    funext d
    simp only [Function.comp, List.count_replicate]
    by_cases h : c = d
    · simp [h]
    · simp [h, Ne.symm h]
  rw [this, sum_indicator symbols_nodup (mem_symbols c)]

theorem spelled_length (u : State) : (spelled u).length = totalFreq u := by
  unfold spelled totalFreq
  rw [List.length_flatMap]
  congr 1
  exact List.map_congr_left fun c _ => List.length_replicate ..

/-- The hypotheses hold for a SRC with any counts of less than 2^32 bytes in all. -/
theorem encode_hypotheses {u : State} (hu : u.faulted = false) (ht : totalFreq u < 2 ^ 32) :
    ∃ s v ls, s.faulted = false ∧ s.ropen = false ∧ s.wopen = false ∧ s.mem.src.length < 2 ^ 32 ∧
      (∀ c, (u.getFreq c).toNat = s.mem.src.count c) ∧ runCommands [.trBuild, .trLen] u = .next v ∧
      Served (2 * s.mem.src.length + 1600 + min v.tlen.toNat (2 ^ 32) / 8) s ∧
      (∀ p, leafSymbol v p = leafSymbol (built u) p) ∧ treeLeaves (built u) = .ok ls ∧
      v.tlen = BitVec.ofNat 48 (weightedLength ls) := by
  obtain ⟨ls, hl⟩ := treeLeaves_ok (built_tree u)
  have h2 : treeLen ((built u).answered .done) =
      .ok () { (built u).answered .done with tlen := BitVec.ofNat 48 (weightedLength ls) } := by
    have : treeLeaves ((built u).answered .done) = .ok ls := hl
    unfold treeLen
    rw [this]
  have hrun : runCommands [.trBuild, .trLen] u =
      .next (({ (built u).answered .done with tlen := BitVec.ofNat 48 (weightedLength ls) } : State).answered .done) := by
    rw [runCommands_ok (exec_trBuild u) hu rfl rfl (treeBuild_built u),
      runCommands_ok (exec_trLen ((built u).answered .done)) hu rfl rfl h2]
    rfl
  generalize hv : (({ (built u).answered .done with tlen := BitVec.ofNat 48 (weightedLength ls) } : State).answered
    .done) = v at hrun
  refine ⟨holding (2 * (spelled u).length + 1600 + min v.tlen.toNat (2 ^ 32) / 8) (spelled u), v, ls, rfl, rfl, rfl,
    by show (spelled u).length < _; rw [spelled_length]; exact ht, spelled_count u, hrun, ?_,
    fun p => by rw [← hv]; rfl, hl, by rw [← hv]; rfl⟩
  show (List.replicate _ _).take _ = _
  rw [List.take_replicate]
  exact congrArg (List.replicate · _) (Nat.min_self _)

/-- Fresh counters, and those given. -/
def counters (fs : List Nat) : State :=
  { State.reset with freq := Vector.ofFn fun i => BitVec.ofNat 32 (fs.getD i.val 0) }

/-- V-TB4: the Fibonacci numbers, 34 of them. -/
def fibonacci : List Nat :=
  [1, 1, 2, 3, 5, 8, 13, 21, 34, 55, 89, 144, 233, 377, 610, 987, 1597, 2584, 4181, 6765] ++
    [10946, 17711, 28657, 46368, 75025, 121393, 196418, 317811, 514229, 832040, 1346269, 2178309, 3524578, 5702887]

/-- With `encode_hypotheses`, three counts: the tree is shallow and the payload short; shallow and the payload of 2^32 bits and more; a LEAF at depth 33. -/
theorem witness_EncodeEndsDoneExactlyWhen :
    (totalFreq (counters [1, 1, 2]) < 2 ^ 32 ∧ (treeLeaves (built (counters [1, 1, 2]))).toOption.any
      fun ls => ls.all (fun l => decide (l.depth ≤ 32)) && decide (weightedLength ls < 2 ^ 32)) ∧
    (totalFreq (counters [2 ^ 30, 2 ^ 30, 2 ^ 30]) < 2 ^ 32 ∧
      (treeLeaves (built (counters [2 ^ 30, 2 ^ 30, 2 ^ 30]))).toOption.any
        fun ls => ls.all (fun l => decide (l.depth ≤ 32)) && decide (2 ^ 32 ≤ weightedLength ls)) ∧
    (totalFreq (counters fibonacci) < 2 ^ 32 ∧
      leafSymbol (built (counters fibonacci)) (List.replicate 32 true ++ [false]) = some 0) := by decide +kernel

theorem witness_EmptyInputGivesEightZeroBytes :
    (holding 10 []).faulted = false ∧ (holding 10 []).ropen = false ∧ (holding 10 []).wopen = false ∧
      (holding 10 []).mem.src = [] ∧ Served 10 (holding 10 []) ∧
      (holding 8 (List.replicate 8 0)).mem.src = List.replicate 8 0 ∧ Served 8 (holding 8 (List.replicate 8 0)) := by decide

theorem witness_SingleSymbolInput :
    (holding 23 [0x5A]).faulted = false ∧ (holding 23 [0x5A]).ropen = false ∧ (holding 23 [0x5A]).wopen = false ∧
      1 ≤ 1 ∧ 1 < 2 ^ 32 ∧ (holding 23 [0x5A]).mem.src = List.replicate 1 0x5A ∧ Served (3 * 1 + 20) (holding 23 [0x5A]) := by
  decide

/-! #### The whole machine -/

theorem witness_StepKeepsTheInvariants :
    Inv (hardwareReset (reading [1])) ∧ ∃ t, step (hardwareReset (reading [1])) = .next t :=
  ⟨hardwareReset_inv (by decide), _, rfl⟩

theorem witness_EveryStepCompletes : Inv (hardwareReset (reading [1])) := hardwareReset_inv (by decide)

end Sys2Proof.Tests
end

section
/-! PROOFS. What one step does with each act of the host, and that from every state that meets the invariants a step
gives a next state that meets them too, unless the host breaks its side of 20_memory.md R79. -/

namespace Sys2Proof.Machine

/-! ### A step, by the host's next act -/

/-- With no act of the host left the block is idle (60_exceptions.md R255). -/
theorem step_of_host_nil {s : State} (h : s.host = []) : step s = .next s := by
  simp [step, nextAct, h]

/-- A command word is issued with the environment's answers that come with it (log entries 1, 4). -/
theorem step_of_host_issue {s : State} {w : Word} {ds : List EnvAnswer} {rest : List HostAct}
    (h : s.host = .issue w ds :: rest) : step s = issue w { s with host := rest, draws := ds } := by
  simp [step, nextAct, h, withAnswers]

theorem step_of_host_hwReset {s : State} {rest : List HostAct} (h : s.host = .hwReset :: rest) :
    step s = .next (hardwareReset { s with host := rest }) := by
  simp [step, nextAct, h]

theorem step_of_host_supply {s : State} {bytes : List Byte} {rest : List HostAct}
    (h : s.host = .supply bytes :: rest) : step s = supplySource bytes { s with host := rest } := by
  simp [step, nextAct, h]

/-! ### A command word, by what it decodes to -/

theorem issue_of_command {w : Word} {i : Instr} (h : decodeWord w = .command i) (s : State) :
    issue w s = exec i s := by
  simp [issue, h]

theorem issue_of_badOpcode {w : Word} (h : decodeWord w = .badOpcode) (s : State) :
    issue w s = .next (illegalWord w .badOpcode s) := by
  simp [issue, h]

theorem issue_of_badField {w : Word} (h : decodeWord w = .badField) (s : State) :
    issue w s = .next (illegalWord w .badField s) := by
  simp [issue, h]

/-- The host's view of the decoder names exactly the legal commands (30_encoding.md R94, R96). -/
theorem decodeTableWord_eq_some {nbits w : Nat} {i : Instr} :
    decodeTableWord nbits w = some i ↔ decodeWord (BitVec.ofNat 64 (w % 2 ^ nbits)) = .command i := by
  unfold decodeTableWord
  cases decodeWord (BitVec.ofNat 64 (w % 2 ^ nbits)) <;> simp

/-- A step whose act is a legal word is that command's execution (R93). -/
theorem step_of_host_command {s : State} {w : Word} {ds : List EnvAnswer} {rest : List HostAct} {i : Instr}
    (h : s.host = .issue w ds :: rest) (hw : decodeWord w = .command i) :
    step s = exec i { s with host := rest, draws := ds } :=
  (step_of_host_issue h).trans (issue_of_command hw _)

/-- Settles O5: both clauses are `step_of_host_command`, the second on the list that `withFetchWord` makes. -/
theorem stepRunsTheDecodedCommand : Obligations.StepRunsTheDecodedCommand := by
  unfold Obligations.StepRunsTheDecodedCommand
  constructor
  · intro s w ds rest i hhost hw
    exact step_of_host_command hhost hw
  · intro s w i hw
    exact step_of_host_command (s := s.withFetchWord 64 w) rfl (decodeTableWord_eq_some.1 hw)

/-! ### Every command completes -/

/-- The invariant holds the part of it that pseudocode keeps at every statement. -/
theorem Inv.sound {s : State} (h : Inv s) : Sound s := ⟨h.tree, h.table, h.writer, h.stream, h.count.1⟩

/-- `Keeps` with a weaker claim at the end alone. -/
theorem Res.Keeps.imp {α : Type} {P P' : α → State → Prop} {Q : State → Prop} {r : Res α} (h : r.Keeps P Q)
    (hP : ∀ a s, P a s → P' a s) : r.Keeps P' Q :=
  h.mono hP fun _ hq => hq

/-- A command that requires both streams open may rely on the writer's. -/
theorem wopen_of_bothOpen {s : State} (h : bothOpen s = true) : s.wopen = true := (Bool.and_eq_true_iff.1 h).2

/-- `command_inv` for a body that relies on its operands: an operand out of range takes BAD_FIELD instead (R93). -/
theorem command_inv_of_wellFormed {i : Instr} {ready : State → Bool} {body : State → Res Unit} {s : State} (h : Inv s)
    (hb : i.wellFormed = true → Good s → ready s = true → (body s).Keeps (fun _ t => Good t) Sound) :
    ∃ t, command i ready body s = .next t ∧ Inv t := by
  by_cases hw : i.wellFormed = true
  · exact command_inv h (hb hw)
  · by_cases hf : s.faulted = true
    · exact ⟨_, command_rejected hf, h.answered _⟩
    · exact ⟨_, command_badField (by simpa using hf) (by simpa using hw), faultEntry_inv _ _ h.sound⟩

/-- SRESET never stops, faulted or not (45_system.md R231). -/
theorem execSreset_inv {s : State} (h : Inv s) : ∃ t, execSreset s = .next t ∧ Inv t := by
  have hs := finalFlush_sound true h.sound
  unfold execSreset
  rcases hf : finalFlush true s with ⟨a, u⟩
  rw [hf] at hs
  have hu : Inv (hardwareReset u) := hardwareReset_inv hs.stream.wf
  cases a with
  | served => exact ⟨_, rfl, hu.answered _⟩
  | ioErr => exact ⟨_, rfl, hu.answered _⟩
  | hwReset => exact ⟨_, rfl, hu⟩

/-- Every command gives a next state, and one that meets the invariants: its pseudocode keeps them and meets none of the
model's own stops (00_scope.md R12, 70_reset_and_hazards.md R286). -/
theorem exec_inv (i : Instr) {s : State} (h : Inv s) : ∃ t, exec i s = .next t ∧ Inv t := by
  cases i with
  | nop => exact command_inv h fun hg _ => .ok hg
  | sreset => exact execSreset_inv h
  | rdOpen => exact command_inv h fun hg _ => (openReader_keeps hg).imp fun _ _ ht => ht.1
  | rdClose => exact command_inv h fun hg _ => (closeReader_keeps hg).imp fun _ _ ht => ht.1
  | rdBit => exact command_inv h fun hg _ => rdBit_keeps hg
  | rdByte => exact command_inv h fun hg _ => rdByte_keeps hg
  | rdExact len => exact command_inv h fun hg _ => rdExact_keeps len.toNat hg
  | wrOpen => exact command_inv h fun hg _ => (openWriter_keeps hg).imp fun _ _ ht => ht.1
  | wrClose => exact command_inv h fun hg hw => closeWriter_keeps hg hw
  | wrBit val => exact command_inv h fun hg hw => (writeBit_keeps _ hg hw).imp fun _ _ ht => ht.1.good
  | wrByte val => exact command_inv h fun hg hw => (snkByte_keeps _ hg hw).imp fun _ _ ht => ht.1.good
  | wrExact len val => exact command_inv h fun hg hw => (writeBytes_keeps _ hg hw).imp fun _ _ ht => ht.good
  | wrSym sym => exact command_inv h fun hg hw => (writeSymbol_keeps sym hg hw).imp fun _ _ ht => ht.1.good
  | fqClear => exact command_inv h fun hg _ => (clearFreq_keeps hg).imp fun _ _ ht => ht.good
  | fqSet sym val => rw [exec_fqSet]; exact command_inv h fun hg _ => .ok (setFreq_good hg sym val)
  | fqInc sym => exact command_inv h fun hg _ => (freqInc_keeps sym hg).imp fun _ _ ht => ht.1.good
  | fqScan => exact command_inv h fun hg _ => (scanFreq_keeps hg).imp fun _ _ ht => ht.good
  | trClear => exact command_inv h fun hg _ => (treeClear_keeps hg).imp fun _ _ ht => ht.1
  | trInsert sym len val => exact command_inv h fun hg _ => trInsert_keeps sym len.toNat val hg
  | trBuild => exact command_inv h fun hg _ => (treeBuild_keeps hg).imp fun _ _ ht => ht.1
  | trLen => exact command_inv h fun hg _ => treeLen_keeps hg
  | tbClear => rw [exec_tbClear]; exact command_inv h fun hg _ => .ok (clearTable_good hg)
  | tbSet sym len val =>
    rw [exec_tbSet]
    refine command_inv_of_wellFormed h fun hw hg _ => .ok ?_
    obtain ⟨hlen, hval⟩ : len.toNat ≤ 32 ∧ val.toNat < 2 ^ len.toNat := by simpa [Instr.wellFormed] using hw
    exact setEntry_good hg sym val len hlen hval
  | tbBuild => exact command_inv h fun hg _ => (tableBuild_keeps hg).imp fun _ _ ht => ht.1
  | encHeader => exact command_inv h fun hg hw => (encHeader_keeps hg hw).imp fun _ _ ht => ht.1
  | encPayload =>
    exact command_inv h fun hg ho => (encPayload_keeps hg (wopen_of_bothOpen ho)).imp fun _ _ ht => ht.good
  | encode => exact command_inv h fun hg _ => encodeFile_keeps hg
  | decHeader => exact command_inv h fun hg _ => (decHeader_keeps hg).imp fun _ _ ht => ht.1
  | decStep => exact command_inv h fun hg ho => (decStep_keeps hg (wopen_of_bothOpen ho)).imp fun _ _ ht => ht.1
  | decPayload => exact command_inv h fun hg ho => (decPayload_keeps hg (wopen_of_bothOpen ho)).imp fun _ _ ht => ht.1
  | decode => exact command_inv h fun hg _ => decodeFile_keeps hg

/-! ### Every step completes -/

/-- A word that is no command is rejected or takes its fault (R93, 60_exceptions.md R248). -/
theorem illegalWord_inv (w : Word) (c : Cause) {s : State} (h : Inv s) : Inv (illegalWord w c s) := by
  unfold illegalWord
  split
  · exact h.answered _
  · exact faultEntry_inv _ _ h.sound

/-- Every one of the 2^64 words gives a next state that meets the invariants. -/
theorem issue_inv (w : Word) {s : State} (h : Inv s) : ∃ t, issue w s = .next t ∧ Inv t := by
  cases hw : decodeWord w with
  | command i => rw [issue_of_command hw]; exact exec_inv i h
  | badOpcode => exact ⟨_, issue_of_badOpcode hw s, illegalWord_inv w _ h⟩
  | badField => exact ⟨_, issue_of_badField hw s, illegalWord_inv w _ h⟩

/-- The host breaks its side of R79, and is refused by the name of the condition it breaks (log entry 7). -/
def SupplyRefused (bytes : List Byte) (s : State) : Prop :=
  (s.ropen = true ∧ supplySource bytes s = .refused .srcReplacedWhileOpen) ∨
    (Config.streamBound ≤ bytes.length ∧ supplySource bytes s = .refused .srcTooLong)

/-- A new SRC is put in place under the invariants, or refused (R79). -/
theorem supplySource_inv (bytes : List Byte) {s : State} (h : Inv s) :
    (∃ t, supplySource bytes s = .next t ∧ Inv t) ∨ SupplyRefused bytes s := by
  unfold SupplyRefused supplySource
  by_cases hr : s.ropen = true
  · exact .inr (.inl ⟨hr, if_pos hr⟩)
  rw [if_neg hr]
  by_cases hb : Config.streamBound ≤ bytes.length
  · exact .inr (.inr ⟨hb, if_pos hb⟩)
  have hS : StreamInv { s with mem := s.mem.supply bytes } :=
    ⟨Memory.supply_wf h.stream.wf (Nat.lt_of_not_le hb), fun ho => absurd ho hr, h.stream.opos, h.stream.flag,
      h.stream.closed, h.stream.rcnt⟩
  exact .inl ⟨_, if_neg hb, h.tree, h.table, h.writer, hS, h.fault, h.count⟩

/-- All that a step can do from a state that meets the invariants: a next state that meets them, or the refusal of a new
SRC against R79. -/
theorem step_inv_or_refused {s : State} (h : Inv s) :
    (∃ t, step s = .next t ∧ Inv t) ∨
      ∃ bytes rest, s.host = .supply bytes :: rest ∧ SupplyRefused bytes { s with host := rest } := by
  rcases hhost : s.host with _ | ⟨act, rest⟩
  · exact .inl ⟨s, step_of_host_nil hhost, h⟩
  cases act with
  | issue w ds => rw [step_of_host_issue hhost]; exact .inl (issue_inv w (h.inputs rest ds))
  | hwReset => exact .inl ⟨_, step_of_host_hwReset hhost, hardwareReset_inv h.stream.wf⟩
  | supply bytes =>
    rw [step_of_host_supply hhost]
    exact (supplySource_inv bytes (h.inputs rest s.draws)).imp_right fun hr => ⟨bytes, rest, rfl, hr⟩

/-- Settles O59: the next state or the refusal that `step_inv_or_refused` finds, by a split on the host's next act. -/
theorem everyStepCompletes : Obligations.EveryStepCompletes := by
  unfold Obligations.EveryStepCompletes
  intro s h
  rcases step_inv_or_refused h with ⟨t, ht, -⟩ | ⟨bytes, rest, hhost, hr⟩
  · exact .inl ⟨t, ht⟩
  · refine .inr ⟨bytes, rest, hhost, ?_⟩
    rw [step_of_host_supply hhost]
    exact hr

end Sys2Proof.Machine
end

section
/-! PROOFS. The state: the invariant at reset and over every step, what leaves the faulted state, the read port address
by address, the values after reset, and TR_INSERT. -/

namespace Sys2Proof.Machine

/-! ### The invariant -/

/-- Settles O57: a step that gives a next state is no refusal, so it is the one `step_inv_or_refused` speaks of. -/
theorem stepKeepsTheInvariants : Obligations.StepKeepsTheInvariants := by
  unfold Obligations.StepKeepsTheInvariants
  intro s t h hst
  rcases step_inv_or_refused h with ⟨u, hu, hinv⟩ | ⟨bytes, rest, hhost, hr⟩
  · rw [hst] at hu
    cases hu
    exact hinv
  · rw [step_of_host_supply hhost] at hst
    rcases hr with ⟨-, hr⟩ | ⟨-, hr⟩ <;> rw [hr] at hst <;> cases hst

/-- Hardware reset of the reset state changes nothing (10_state.md R52). -/
theorem hardwareReset_reset : hardwareReset State.reset = State.reset := rfl

/-- Settles O58: the reset state is its own hardware reset, which meets the invariant. -/
theorem resetMeetsTheInvariants : Obligations.ResetMeetsTheInvariants := by
  unfold Obligations.ResetMeetsTheInvariants
  rw [← hardwareReset_reset]
  exact hardwareReset_inv reset_mem_wf

/-! ### SRESET -/

/-- The final flush does not touch the host's acts or SRC; SNK gets the pending bits as one byte, or nothing (R246). -/
theorem finalFlush_streams (allowed : Bool) (s : State) :
    (finalFlush allowed s).2.host = s.host ∧ (finalFlush allowed s).2.mem.src = s.mem.src ∧
      ((finalFlush allowed s).2.mem.snk = s.mem.snk ∨
        s.wopen = true ∧ s.wcnt ≠ 0 ∧ (finalFlush allowed s).2.mem.snk = s.mem.snk ++ [s.wacc]) := by
  obtain ⟨ds, n, s', rfl, hc⟩ := finalFlush_cases allowed s
  rcases hc with hc | ⟨-, hw, hcnt, -, hc | hc | hc⟩ <;> rw [hc]
  · exact ⟨rfl, rfl, .inl rfl⟩
  · exact ⟨rfl, rfl, .inr ⟨hw, hcnt, rfl⟩⟩
  · exact ⟨rfl, rfl, .inl rfl⟩
  · exact ⟨rfl, rfl, .inl rfl⟩

/-- Hardware reset keeps the host's acts, SRC, SNK's bytes and the environment's answers, and nothing else (R270). -/
theorem hardwareReset_eq_resetWith {s u : State} (hhost : u.host = s.host) (hsrc : u.mem.src = s.mem.src) :
    hardwareReset u = resetWith s u.mem.snk u.draws u.freeDraws none := by
  simp [hardwareReset, resetWith, Memory.closeSink, hhost, hsrc, State.reset]

/-- SRESET is the final flush and then the reset state, answered unless the reset input came first (45_system.md
R231). -/
theorem exec_sreset (s : State) :
    exec .sreset s = .next (resetWith s (finalFlush true s).2.mem.snk (finalFlush true s).2.draws
      (finalFlush true s).2.freeDraws (if (finalFlush true s).1 = .hwReset then none else some .done)) := by
  obtain ⟨hhost, hsrc, -⟩ := finalFlush_streams true s
  have hreset := hardwareReset_eq_resetWith hhost hsrc
  show execSreset s = _
  unfold execSreset leaveBySreset
  rcases hf : finalFlush true s with ⟨d, u⟩
  rw [hf] at hreset
  dsimp only at hreset
  cases d <;> simp [hreset, State.answered, resetWith]

/-! ### The faulted state -/

/-- Only the opcode 0x01 with every other field 0 is SRESET (30_encoding.md R92, R93). -/
theorem decodeFields_sreset {f : Fields} (h : decodeFields f = .command .sreset) : f = ⟨0x01, 0, 0, 0, 0⟩ := by
  unfold decodeFields at h
  split at h
  case h_2 hop =>
    obtain ⟨-, hrsv, hsym, hlen, hval, -⟩ := checkFields_command h
    obtain ⟨op, sym, len, rsv, val⟩ := f
    obtain rfl : op = 0x01 := BitVec.eq_of_toNat_eq hop
    simp_all
  case h_32 => cases h
  all_goals exact nomatch (checkFields_command h).1

/-- SRESET has one word (R93). -/
theorem eq_sresetWord_of_decodeWord {w : Word} (h : decodeWord w = .command .sreset) : w = sresetWord := by
  have hf := decodeFields_sreset h
  rw [← assemble_fieldsOf (w := w) (by rw [hf]), hf]
  decide

/-- A faulted block rejects every word but SRESET's (60_exceptions.md R248). -/
theorem issue_rejected {s : State} {w : Word} (hs : s.faulted = true) (hw : w ≠ sresetWord) :
    issue w s = .next (rejected s) := by
  cases hd : decodeWord w with
  | command i =>
    have hi : i ≠ .sreset := by
      rintro rfl
      exact hw (eq_sresetWord_of_decodeWord hd)
    obtain ⟨body, hbody⟩ := exec_frame i hi s
    rw [issue_of_command hd, hbody, command_rejected hs]
  | badOpcode => rw [issue_of_badOpcode hd, illegalWord, if_pos hs]
  | badField => rw [issue_of_badField hd, illegalWord, if_pos hs]

/-- Settles O12: a split on the host's next act; SRESET and the reset input clear ERR, every other word is rejected. -/
theorem faultIsSticky : Obligations.FaultIsSticky := by
  unfold Obligations.FaultIsSticky
  intro s t herr hst
  rcases hhost : s.host with _ | ⟨act, rest⟩
  · rw [step_of_host_nil hhost] at hst
    cases hst
    exact .inl ⟨rfl, rfl, rfl⟩
  cases act with
  | hwReset =>
    rw [step_of_host_hwReset hhost] at hst
    cases hst
    exact .inr ⟨rfl, rest, .inl rfl⟩
  | supply bytes =>
    rw [step_of_host_supply hhost] at hst
    unfold supplySource at hst
    split at hst
    · cases hst
    split at hst
    · cases hst
    cases hst
    exact .inl ⟨rfl, rfl, rfl⟩
  | issue w ds =>
    rw [step_of_host_issue hhost] at hst
    by_cases hw : w = sresetWord
    · subst hw
      have hd : decodeWord sresetWord = .command .sreset := by decide
      rw [issue_of_command hd, exec_sreset] at hst
      cases hst
      exact .inr ⟨rfl, rest, .inr ⟨ds, rfl⟩⟩
    · rw [issue_rejected (by simpa [State.faulted] using herr) hw] at hst
      cases hst
      exact .inl ⟨rfl, rfl, rfl⟩

/-! ### The read port, by address (10_state.md R49) -/

theorem readPort_scalar {s : State} {ra : BitVec 32} (h : ra.toNat < 0x100) : readPort s ra = scalarWord s ra.toNat :=
  if_pos h

/-- A symbol is recovered from its offset in a register file. -/
theorem ofNat_offset (base : Nat) (c : Symbol) : BitVec.ofNat 8 (base + c.toNat - base) = c := by
  simp

theorem readPort_freq {s : State} {ra : BitVec 32} {c : Symbol} (h : ra.toNat = 0x100 + c.toNat) :
    readPort s ra = (s.getFreq c).setWidth 64 := by
  have hc := c.isLt
  unfold readPort
  rw [if_neg (by omega), if_pos (by omega), h, ofNat_offset]

theorem readPort_code {s : State} {ra : BitVec 32} {c : Symbol} (h : ra.toNat = 0x200 + c.toNat) :
    readPort s ra = (s.getCode c).setWidth 64 := by
  have hc := c.isLt
  unfold readPort
  rw [if_neg (by omega), if_neg (by omega), if_pos (by omega), h, ofNat_offset]

theorem readPort_len {s : State} {ra : BitVec 32} {c : Symbol} (h : ra.toNat = 0x300 + c.toNat) :
    readPort s ra = (s.getLen c).setWidth 64 := by
  have hc := c.isLt
  unfold readPort
  rw [if_neg (by omega), if_neg (by omega), if_neg (by omega), if_pos (by omega), h, ofNat_offset]

theorem readPort_node {s : State} {ra : BitVec 32} {i k : Nat} (h : ra.toNat = 0x10000 + 4 * i + k) (hi : i ≤ 8192)
    (hk : k < 4) : readPort s ra = (s.nodes[i]?.map (nodeWord · k)).getD 0 := by
  have hdiv : (ra.toNat - 0x10000) / 4 = i := by omega
  have hmod : (ra.toNat - 0x10000) % 4 = k := by omega
  unfold readPort
  rw [if_neg (by omega), if_neg (by omega), if_neg (by omega), if_neg (by omega), if_neg (by omega),
    if_pos (by omega), hdiv, hmod]
  cases s.nodes[i]? <;> rfl

/-- Above the scalar registers nothing is mapped. -/
theorem scalarWord_unmapped {s : State} {a : Nat} (h : 0x12 < a) : scalarWord s a = 0 := by
  unfold scalarWord
  split
  case h_20 => rfl
  all_goals omega

/-- The addresses of no register read as 0. -/
theorem readPort_unmapped {s : State} {ra : BitVec 32}
    (h : (0x12 < ra.toNat ∧ ra.toNat < 0x100) ∨ (0x400 ≤ ra.toNat ∧ ra.toNat < 0x10000) ∨ 0x18003 < ra.toNat) :
    readPort s ra = 0 := by
  rcases h with ⟨h, h'⟩ | ⟨h, h'⟩ | h
  · rw [readPort_scalar h', scalarWord_unmapped h]
  · unfold readPort
    rw [if_neg (by omega), if_neg (by omega), if_neg (by omega), if_neg (by omega), if_pos h']
  · unfold readPort
    rw [if_neg (by omega), if_neg (by omega), if_neg (by omega), if_neg (by omega), if_neg (by omega),
      if_neg (by omega)]

/-- The STATUS word as a number (R23). -/
theorem toNat_status (s : State) :
    s.status.toNat = s.ropen.toNat + 2 * s.wopen.toNat + 4 * s.eos.toNat + 8 * (s.err != 0).toNat +
      16 * (s.cur != s.root).toNat := by
  have bits : ∀ r w e f m : Bool, ((0 : BitVec 27) ++ BitVec.ofBool m ++ BitVec.ofBool f ++ BitVec.ofBool e ++
      BitVec.ofBool w ++ BitVec.ofBool r).toNat = r.toNat + 2 * w.toNat + 4 * e.toNat + 8 * f.toNat + 16 * m.toNat := by
    decide
  exact bits _ _ _ _ _

/-- The first word of a LEAF: the kind in bit 0, the symbol in bits 15:8 (R44). -/
theorem leafWord_eq (c : Symbol) : (c.setWidth 64 <<< 8) ||| 1 = BitVec.ofNat 64 (256 * c.toNat + 1) := by
  have hc := c.isLt
  refine BitVec.eq_of_toNat_eq ?_
  have hor := Nat.two_pow_add_eq_or_of_lt (i := 8) (b := 1) (by decide) c.toNat
  simp only [BitVec.toNat_or, BitVec.toNat_shiftLeft, BitVec.toNat_setWidth, BitVec.toNat_ofNat, Nat.shiftLeft_eq]
  rw [Nat.mod_eq_of_lt (a := c.toNat) (by omega), Nat.mod_eq_of_lt (a := c.toNat * 2 ^ 8) (by omega),
    Nat.mod_eq_of_lt (a := 256 * c.toNat + 1) (by omega), Nat.mul_comm c.toNat]
  exact hor.symm

/-- A link as the port shows it (R44). -/
theorem linkWord_eq (l : Option NodeIdx) : linkWord l = (l.getD 0x3FFF).setWidth 64 := by
  cases l <;> rfl

/-- Settles O16: the address ranges of the port one by one, each by its `readPort_` lemma. -/
theorem registerReadPortMap : Obligations.RegisterReadPortMap := by
  unfold Obligations.RegisterReadPortMap
  intro s
  have addr : ∀ a < 2 ^ 32, (BitVec.ofNat 32 a).toNat = a := fun a ha => by
    rw [BitVec.toNat_ofNat, Nat.mod_eq_of_lt ha]
  refine ⟨⟨rfl, ?_, rfl, rfl, rfl, rfl, rfl, rfl, rfl, rfl, rfl, rfl, rfl, rfl, rfl, ?_, rfl, rfl, rfl⟩, fun c => ?_,
    fun i hi k hk => ?_, fun ra h => readPort_unmapped h⟩
  · have hlt := s.status.isLt
    have hport : readPort s 0x01 = s.status.setWidth 64 := rfl
    rw [hport, BitVec.toNat_setWidth, Nat.mod_eq_of_lt (by omega), toNat_status]
  · have hlt := s.nnode.isLt
    have hport : readPort s 0x0F = s.nnode.setWidth 64 := rfl
    rw [hport, BitVec.toNat_setWidth, Nat.mod_eq_of_lt (by omega), State.nnode, BitVec.toNat_ofNat]
  · have hc := c.isLt
    exact ⟨readPort_freq (addr _ (by omega)), readPort_code (addr _ (by omega)), readPort_len (addr _ (by omega))⟩
  · rw [readPort_node (addr _ (by omega)) hi hk]
    obtain rfl | rfl | rfl | rfl : k = 0 ∨ k = 1 ∨ k = 2 ∨ k = 3 := by omega
    all_goals rcases s.nodes[i]? with _ | ⟨c, f⟩ | ⟨l, r, f⟩
    case inl.some.leaf => exact leafWord_eq c
    case inr.inl.some.inner => exact linkWord_eq l
    case inr.inr.inl.some.inner => exact linkWord_eq r
    all_goals rfl

/-! ### The values after reset -/

/-- No flag of STATUS is up after reset (10_state.md R23, R52). -/
theorem status_resetWith (s : State) (snk : List Byte) (ds : List EnvAnswer) (n : Nat) (a : Option Answer) :
    (resetWith s snk ds n a).status = 0 :=
  BitVec.eq_of_toNat_eq (by rw [toNat_status]; simp [resetWith, State.reset])

/-- The scalar registers after reset: ID and NNODE alone are not 0. -/
theorem scalarWord_resetWith (s : State) (snk : List Byte) (ds : List EnvAnswer) (n : Nat) (a : Option Answer)
    (i : Nat) : scalarWord (resetWith s snk ds n a) i = if i = 0 then 0x48554607 else if i = 0x0F then 1 else 0 := by
  unfold scalarWord
  split
  case h_2 => rw [status_resetWith]; rfl
  case h_20 => simp_all
  all_goals rfl

/-- The node words after reset: node 0 is the empty root, whose two links are NONE. -/
theorem nodeWord_resetWith (s : State) (snk : List Byte) (ds : List EnvAnswer) (n : Nat) (a : Option Answer)
    (i : Nat) {k : Nat} (hk : k < 4) : ((resetWith s snk ds n a).nodes[i]?.map (nodeWord · k)).getD 0 =
      if i = 0 ∧ (k = 1 ∨ k = 2) then 0x3FFF else 0 := by
  have hnodes : (resetWith s snk ds n a).nodes = [Node.emptyInner] := rfl
  rw [hnodes]
  cases i with
  | zero =>
    obtain rfl | rfl | rfl | rfl : k = 0 ∨ k = 1 ∨ k = 2 ∨ k = 3 := by omega
    all_goals rfl
  | succ i => simp

@[simp] theorem getFreq_resetWith (s : State) (snk : List Byte) (ds : List EnvAnswer) (n : Nat) (a : Option Answer)
    (c : Symbol) : (resetWith s snk ds n a).getFreq c = 0 := by
  simp [resetWith, State.reset, State.getFreq]

@[simp] theorem getCode_resetWith (s : State) (snk : List Byte) (ds : List EnvAnswer) (n : Nat) (a : Option Answer)
    (c : Symbol) : (resetWith s snk ds n a).getCode c = 0 := by
  simp [resetWith, State.reset, State.getCode]

@[simp] theorem getLen_resetWith (s : State) (snk : List Byte) (ds : List EnvAnswer) (n : Nat) (a : Option Answer)
    (c : Symbol) : (resetWith s snk ds n a).getLen c = 0 := by
  simp [resetWith, State.reset, State.getLen]

/-- The reset state through the port (10_state.md R52): ID, NNODE 1, the two NONE links of node 0, and 0 elsewhere. -/
theorem readPort_resetWith (s : State) (snk : List Byte) (ds : List EnvAnswer) (n : Nat) (a : Option Answer)
    (ra : BitVec 32) : readPort (resetWith s snk ds n a) ra =
      if ra.toNat = 0 then 0x48554607 else if ra.toNat = 0x0F then 1
      else if ra.toNat = 0x10001 ∨ ra.toNat = 0x10002 then 0x3FFF else 0 := by
  have offset : ∀ base, base ≤ ra.toNat → ra.toNat < base + 256 → ∃ c : Symbol, ra.toNat = base + c.toNat :=
    fun base h h' => ⟨BitVec.ofNat 8 (ra.toNat - base), by rw [BitVec.toNat_ofNat]; omega⟩
  by_cases hscalar : ra.toNat < 0x100
  · rw [readPort_scalar hscalar, scalarWord_resetWith, if_neg (c := _ ∨ _) (by omega)]
  rw [if_neg (by omega), if_neg (by omega)]
  by_cases hnode : 0x10000 ≤ ra.toNat ∧ ra.toNat ≤ 0x18003
  · obtain ⟨i, k, hk, hra⟩ : ∃ i k, k < 4 ∧ ra.toNat = 0x10000 + 4 * i + k :=
      ⟨(ra.toNat - 0x10000) / 4, (ra.toNat - 0x10000) % 4, by omega, by omega⟩
    rw [readPort_node hra (by omega) hk, nodeWord_resetWith _ _ _ _ _ _ hk]
    exact if_congr (by omega) rfl rfl
  rw [if_neg (by omega)]
  by_cases hfreq : 0x100 ≤ ra.toNat ∧ ra.toNat < 0x200
  · obtain ⟨c, hc⟩ := offset 0x100 (by omega) (by omega)
    rw [readPort_freq hc, getFreq_resetWith]; rfl
  by_cases hcode : 0x200 ≤ ra.toNat ∧ ra.toNat < 0x300
  · obtain ⟨c, hc⟩ := offset 0x200 (by omega) (by omega)
    rw [readPort_code hc, getCode_resetWith]; rfl
  by_cases hlen : 0x300 ≤ ra.toNat ∧ ra.toNat < 0x400
  · obtain ⟨c, hc⟩ := offset 0x300 (by omega) (by omega)
    rw [readPort_len hc, getLen_resetWith]; rfl
  exact readPort_unmapped (by omega)

/-- Settles O15: the port by `readPort_resetWith`; SRESET is the final flush and then the reset state, by
`exec_sreset`. -/
theorem resetStateHasTheListedValues : Obligations.ResetStateHasTheListedValues := by
  unfold Obligations.ResetStateHasTheListedValues
  intro s snk ds n a
  refine ⟨fun ra => ?_, rfl, rfl, rfl, rfl, rfl, rfl, hardwareReset_eq_resetWith rfl rfl, _, exec_sreset s, ?_, ?_⟩
  · rw [readPort_resetWith]
    simp only [BitVec.toNat_eq]
    rfl
  · obtain ⟨-, -, hsnk | ⟨hw, hcnt, hsnk⟩⟩ := finalFlush_streams true s
    · exact .inl (by rw [hsnk]; rfl)
    · exact .inr ⟨hw, hcnt, by rw [hsnk]; rfl⟩
  · intro hw hcnt hpos hserved
    rw [finalFlush_served rfl hw hcnt (mt lastPos_iff.1 hpos) hserved]
    rfl

/-! ### TR_INSERT -/

/-- A path that leads to no LEAF has no leaf frequency. -/
theorem leafFreq_eq_zero {s : State} {p : List Bool} (h : ∀ d g, ¬ HasLeaf s.nodes s.root p d g) :
    leafFreq s p = 0 := by
  unfold leafFreq
  cases hp : follow s.nodes s.root p with
  | none => rfl
  | some q =>
    rcases hq : s.nodes[q.toNat]? with _ | ⟨d, g⟩ | ⟨l, r, g⟩
    · simp [hq]
    · exact absurd ⟨q, hp, hq⟩ (h d g)
    · simp [hq]

/-- What a path leads to depends only on the LEAF at its end. -/
theorem leaf_congr {s t : State} {p : List Bool}
    (h : ∀ d g, HasLeaf t.nodes t.root p d g ↔ HasLeaf s.nodes s.root p d g) :
    leafSymbol t p = leafSymbol s p ∧ leafFreq t p = leafFreq s p := by
  constructor
  · exact Option.ext fun d => by simp only [leafSymbol_eq_some, h]
  · by_cases hleaf : ∃ d g, HasLeaf s.nodes s.root p d g
    · obtain ⟨d, g, hg⟩ := hleaf
      rw [leafFreq_eq hg, leafFreq_eq ((h d g).2 hg)]
    · have hs : ∀ d g, ¬ HasLeaf s.nodes s.root p d g := fun d g hg => hleaf ⟨d, g, hg⟩
      rw [leafFreq_eq_zero hs, leafFreq_eq_zero fun d g hg => hs d g ((h d g).1 hg)]

/-- The lookups after a new LEAF with frequency 0 at the end of a path, every other LEAF kept. -/
theorem leaf_insert {s t : State} {bits : List Bool} {c : Symbol}
    (h : ∀ q d g, HasLeaf t.nodes t.root q d g ↔ (q = bits ∧ d = c ∧ g = 0) ∨ HasLeaf s.nodes s.root q d g)
    (p : List Bool) : leafSymbol t p = (if p = bits then some c else leafSymbol s p) ∧
      leafFreq t p = if p = bits then 0 else leafFreq s p := by
  by_cases hp : p = bits
  · have hnew := (h p c 0).2 (.inl ⟨hp, rfl, rfl⟩)
    rw [if_pos hp, if_pos hp]
    exact ⟨leafSymbol_eq hnew, leafFreq_eq hnew⟩
  · rw [if_neg hp, if_neg hp]
    exact leaf_congr fun d g => by simp only [h, hp, false_and, false_or]

/-- With room for 32 nodes TR_INSERT is `tree_insert` (42_code_tree.md R169). -/
theorem trInsert_of_room {s : State} (h : s.nodes.length + 32 ≤ Config.nodeCap) (c : Symbol) (n : Nat)
    (code : BitVec 32) : trInsert c n code s = treeInsert c code n s :=
  if_neg (by omega)

/-- Settles O32: without room or with a bad length by its test, otherwise by the two outcomes of `treeInsert_spec`. -/
theorem treeInsertResult : Obligations.TreeInsertResult := by
  unfold Obligations.TreeInsertResult
  refine ⟨fun c n v => fieldsOf_assemble _ _ _ _, fun s c n code hf h => ⟨fun hfull => ?_, fun hroom => ⟨fun hbad => ?_,
    fun h1 h32 => ⟨fun hnot => ?_, fun hfree => ?_⟩⟩⟩⟩
  · exact command_raises hf rfl rfl (if_pos hfull)
  · exact command_raises hf rfl rfl ((trInsert_of_room hroom ..).trans (if_pos hbad))
  · rcases treeInsert_spec c code n.toNat h hroom h1 h32 with ⟨hfree, -⟩ | ⟨-, hraise⟩
    · exact absurd hfree hnot
    · exact command_raises hf rfl rfl ((trInsert_of_room hroom ..).trans hraise)
  · rcases treeInsert_spec c code n.toNat h hroom h1 h32 with ⟨-, ns, hok, hshape, hlen, hleaves⟩ | ⟨hnot, -⟩
    · exact ⟨_, command_done hf rfl rfl ((trInsert_of_room hroom ..).trans hok), rfl, hshape, hlen,
        leaf_insert hleaves⟩
    · exact absurd hfree hnot

end Sys2Proof.Machine
end

section
/-! PROOFS. The family 20_memory.md: the host's acts that are no command word, the bits that the reader delivers, and
the bits that the writer puts into SNK. -/

namespace Sys2Proof.Machine

/-! ### The host's other acts -/

/-- A new SRC that the host may put in place: the reader closed and fewer than 2^32 bytes (20_memory.md R79). -/
theorem supplySource_accepted {s : State} {bytes : List Byte} (hr : s.ropen = false) (hlen : bytes.length < 2 ^ 32) :
    supplySource bytes s = .next { s with mem := { s.mem with src := bytes } } := by
  rw [supplySource, if_neg (by simp [hr]), if_neg (by exact Nat.not_le.2 hlen), Memory.supply]

theorem supplySource_whileOpen {s : State} (bytes : List Byte) (hr : s.ropen = true) :
    supplySource bytes s = .refused .srcReplacedWhileOpen :=
  if_pos hr

theorem supplySource_tooLong {s : State} {bytes : List Byte} (hr : s.ropen = false) (hlen : 2 ^ 32 ≤ bytes.length) :
    supplySource bytes s = .refused .srcTooLong := by
  rw [supplySource, if_neg (by simp [hr]), if_pos (by exact hlen)]

/-- Settles O6: a step with each of the host's acts, then what the reset input and `supplySource` do. -/
theorem stepOfTheOtherHostActs : Obligations.StepOfTheOtherHostActs := by
  unfold Obligations.StepOfTheOtherHostActs
  refine fun s rest => ⟨step_of_host_nil, fun h => ?_, fun bytes h => ⟨fun hr hlen => ?_, fun hr => ?_, fun hr hlen => ?_⟩⟩
  · rw [step_of_host_hwReset h, hardwareReset_eq_resetWith (s := { s with host := rest }) rfl rfl]
  · rw [step_of_host_supply h, supplySource_accepted (by exact hr) hlen]
  · rw [step_of_host_supply h, supplySource_whileOpen bytes (by exact hr)]
  · rw [step_of_host_supply h, supplySource_tooLong (by exact hr) hlen]

/-! ### The reader -/

/-- RD_BIT on a bit that `read_bit()` delivers puts it into RES (40_bitstream_reader.md R124). -/
theorem exec_rdBit_of_bitRead {s t : State} {b : Bool} (hf : s.faulted = false) (hr : s.ropen = true)
    (h : BitRead s b t) :
    exec .rdBit s = .next (({ t with res := bitValue b } : State).answered .done) :=
  command_done hf rfl hr (by rw [rdBit, readBit_ok h]; rfl)

theorem bitValue_eq (b : Bool) : bitValue b = if b then 1 else 0 := by
  cases b <;> rfl

/-- Settles O19: the first unread bit is the one `read_bit()` delivers (`bitRead_of_unread`), and RD_BIT shows it. -/
theorem readBitDeliversTheStreamInOrder : Obligations.ReadBitDeliversTheStreamInOrder := by
  unfold Obligations.ReadBitDeliversTheStreamInOrder
  intro s b rest hf hr hlen hs hbits
  obtain ⟨t, hread, hrest⟩ := bitRead_of_unread hs hlen hbits
  have hframe := hread.frame
  refine ⟨_, exec_rdBit_of_bitRead hf hr hread, rfl, bitValue_eq b, congrArg State.eos hframe, hrest, ?_⟩
  rw [hframe]
  rfl

/-! ### The writer -/

/-- Settles O27: WR_SYM writes the bits of the code one by one (`writeBits_ok`), and the buffer stays in form. -/
theorem writeSymbolAppendsItsCode : Obligations.WriteSymbolAppendsItsCode := by
  unfold Obligations.WriteSymbolAppendsItsCode
  intro s c hf hw hW hs hp
  have hlen : (symbolBits s c).length = (s.getLen c).toNat := by simp [symbolBits]
  rw [← hlen] at hs hp ⊢
  obtain ⟨snk, acc, cnt, hok, hcnt, hacc, hbits, hpre, hsnk⟩ := writeBits_ok (symbolBits s c) hW hs hp
  have hform : cnt.toNat ≤ 7 := by omega
  exact ⟨_, command_done hf rfl hw hok, rfl, hbits, ⟨hform, hacc⟩, hcnt, hpre, hsnk, rfl⟩

/-- Settles O28: below the last position WR_CLOSE on a served medium ends (`closeWriter_ok`), and what it has then
appended is the pending bits with zeros up to the byte boundary (`closeWriter_done`). -/
theorem closeCompletesTheWrittenBits : Obligations.CloseCompletesTheWrittenBits := by
  unfold Obligations.CloseCompletesTheWrittenBits
  intro s hf hw hW hp hs
  have hroom := opos_lt (mt lastPos_iff.1 hp)
  obtain ⟨t, hok⟩ : ∃ t, closeWriter s = .ok () t := by
    refine closeWriter_ok (hs.mono ?_) ?_ <;> split <;> omega
  obtain ⟨snk, ds, n, ht, hpacks, -⟩ := closeWriter_done hW hok
  refine ⟨_, command_done hf rfl hw hok, rfl, ?_⟩
  rw [ht]
  exact ⟨rfl, rfl, hpacks⟩

end Sys2Proof.Machine
end

section
/-! PROOFS. The family 30_encoding.md: the command word read back and its illegal forms, the checks made before a
command, and the archiver's commands on the encoded file. -/

namespace Sys2Proof.Machine

/-! ### The command word -/

/-- A row with the reserved field and every unused field 0 and the operands in range is its command (30_encoding.md
R93 (2)). -/
theorem checkFields_eq_command {op sym len : BitVec 8} {val : BitVec 32} {a b c : Bool} {i : Instr}
    (hw : i.wellFormed = true) (hsym : a = false → sym = 0) (hlen : b = false → len = 0) (hval : c = false → val = 0) :
    checkFields ⟨op, sym, len, 0, val⟩ a b c i = .command i := by
  refine if_pos ⟨rfl, ?_, ?_, ?_, hw⟩
  · cases a <;> simp [hsym]
  · cases b <;> simp [hlen]
  · cases c <;> simp [hval]

/-- Every well-formed command is read back from its word, by one argument for all rows: the fields that the row leaves
unused are 0 in the word. -/
theorem decodeWord_encodeWord {i : Instr} (hw : i.wellFormed = true) : decodeWord (encodeWord i) = .command i := by
  cases i <;> exact (congrArg decodeFields (fieldsOf_assemble _ _ _ _)).trans
    (checkFields_eq_command hw (by simp) (by simp) (by simp))

/-- Settles O1: by the command's row of the opcode map (`decodeWord_encodeWord`). -/
theorem decodeOfEncode : Obligations.DecodeOfEncode := by
  unfold Obligations.DecodeOfEncode
  exact fun _ hw => decodeWord_encodeWord hw

/-- A word that passes the checks of its opcode's row is the word of the row's command (R91, R92). -/
theorem encodeWord_of_checkFields {w : Word} {a b c : Bool} {i j : Instr}
    (h : checkFields (fieldsOf w) a b c i = .command j) (hop : (fieldsOf w).op = opcode i)
    (henc : encodeWord i = assemble (opcode i) (if a then (fieldsOf w).sym else 0) (if b then (fieldsOf w).len else 0)
      (if c then (fieldsOf w).val else 0)) : j.wellFormed = true ∧ encodeWord j = w := by
  obtain ⟨rfl, hrsv, hsym, hlen, hval, hw⟩ := checkFields_command h
  have hs : (if a then (fieldsOf w).sym else 0) = (fieldsOf w).sym := by cases a <;> simp [hsym]
  have hl : (if b then (fieldsOf w).len else 0) = (fieldsOf w).len := by cases b <;> simp [hlen]
  have hv : (if c then (fieldsOf w).val else 0) = (fieldsOf w).val := by cases c <;> simp [hval]
  exact ⟨hw, by rw [henc, hs, hl, hv, ← hop, assemble_fieldsOf hrsv]⟩

/-- A word that decodes to a command is the word of that command, which is well-formed: row by row of the map. -/
theorem encodeWord_of_decodeWord {w : Word} {i : Instr} (h : decodeWord w = .command i) :
    i.wellFormed = true ∧ encodeWord i = w := by
  unfold decodeWord decodeFields at h
  split at h
  case h_32 => cases h
  all_goals exact encodeWord_of_checkFields h (BitVec.eq_of_toNat_eq ‹_›) rfl

/-- Settles O2: by the row of the word's opcode (`encodeWord_of_decodeWord`). -/
theorem encodeOfDecode : Obligations.EncodeOfDecode := by
  unfold Obligations.EncodeOfDecode
  exact fun _ _ h => encodeWord_of_decodeWord h

/-! ### Illegal words -/

/-- BAD_OPCODE is the verdict on exactly the words whose top byte is none of the 31 opcodes (R93 (1), R94). -/
theorem decodeWord_eq_badOpcode {w : Word} : decodeWord w = .badOpcode ↔ (w >>> 56).toNat ∉ commandOpcodes := by
  rw [← opField_shift]
  exact decodeFields_badOpcode (fieldsOf w)

/-- BAD_FIELD is the verdict on exactly the words with a defined opcode that are no well-formed command's word (R93 (2),
R94). -/
theorem decodeWord_eq_badField {w : Word} : decodeWord w = .badField ↔
    (w >>> 56).toNat ∈ commandOpcodes ∧ ∀ i : Instr, i.wellFormed = true → encodeWord i ≠ w := by
  constructor
  · intro h
    refine ⟨by_contra fun hop => ?_, ?_⟩
    · rw [decodeWord_eq_badOpcode.2 hop] at h
      cases h
    · rintro i hw rfl
      rw [decodeWord_encodeWord hw] at h
      cases h
  · rintro ⟨hop, hno⟩
    cases h : decodeWord w with
    | command i =>
      obtain ⟨hw, henc⟩ := encodeWord_of_decodeWord h
      exact absurd henc (hno i hw)
    | badOpcode => exact absurd hop (decodeWord_eq_badOpcode.1 h)
    | badField => rfl

/-- On a block that is not faulted an illegal word is exactly fault entry with the word's top byte (R94). -/
theorem illegalWord_of_not_faulted {s : State} (hf : s.faulted = false) (w : Word) (c : Cause) :
    illegalWord w c s = faultEntry (opField w) c s :=
  if_neg (by simp [hf])

/-- Settles O3: the two verdicts by `decodeWord_eq_badOpcode` and `decodeWord_eq_badField`, and what an illegal word
does by `illegalWord_of_not_faulted`. -/
theorem illegalWordsAreRejectedByName : Obligations.IllegalWordsAreRejectedByName := by
  unfold Obligations.IllegalWordsAreRejectedByName
  refine ⟨rfl, fun w => ⟨decodeWord_eq_badOpcode, decodeWord_eq_badField, fun s hf => ⟨fun h => ?_, fun h => ?_⟩⟩⟩
  · rw [issue_of_badOpcode h, illegalWord_of_not_faulted hf, opField]
  · rw [issue_of_badField h, illegalWord_of_not_faulted hf, opField]

/-- Settles O4: the decoder evaluated on the twelve words. -/
theorem sampleWordsDecode : Obligations.SampleWordsDecode := by
  unfold Obligations.SampleWordsDecode
  decide

/-! ### The checks before a command -/

/-- Settles O9: every command but SRESET, which requires nothing, runs in the common frame (`exec_frame`). -/
theorem wrongStreamStateFaults : Obligations.WrongStreamStateFaults := by
  unfold Obligations.WrongStreamStateFaults
  intro i s hf hw hr
  have hi : i ≠ .sreset := by
    rintro rfl
    cases hr
  obtain ⟨body, hbody⟩ := exec_frame i hi s
  rw [hbody, command_streamState hf hw hr]

/-- Settles O10: every command but SRESET, which has no operand, runs in the common frame (`exec_frame`). -/
theorem operandOutOfRangeFaults : Obligations.OperandOutOfRangeFaults := by
  unfold Obligations.OperandOutOfRangeFaults
  intro i s hf hw
  have hi : i ≠ .sreset := by
    rintro rfl
    cases hw
  obtain ⟨body, hbody⟩ := exec_frame i hi s
  rw [hbody, command_badField hf hw]

/-! ### The encoded file as numbers -/

/-- STATUS.FAULT is ERR (10_state.md R23). -/
theorem faulted_eq_false {s : State} : s.faulted = false ↔ s.err = 0 := by
  simp [State.faulted]

/-- The report counts the payload in bytes (00_scope.md R9 (5)). -/
theorem toNat_payloadByteCount (n : BitVec 32) : (payloadByteCount n).toNat = (n.toNat + 7) / 8 := by
  have hn := n.isLt
  rw [payloadByteCount, BitVec.toNat_ofNat, Nat.mod_eq_of_lt (by omega)]

/-- The report counts the header and the table in bytes (00_scope.md R9 (6)). -/
theorem toNat_headerByteCount {n : BitVec 32} (h : n.toNat ≤ 256) : (headerByteCount n).toNat = 8 + 6 * n.toNat := by
  rw [headerByteCount, BitVec.toNat_ofNat, Nat.mod_eq_of_lt (by omega)]

/-- Packed bits take as few bytes as hold them (R103). -/
theorem Packs.length_eq {vs : List Byte} {bits : List Bool} (h : Packs vs bits) :
    vs.length = (bits.length + 7) / 8 := by
  obtain ⟨pad, hpad, h⟩ := h
  have hl := congrArg List.length h
  rw [streamBits_length, List.length_append, List.length_replicate] at hl
  omega

/-! ### The archiver's requirement -/

theorem bothOpen_of_open {s : State} (hr : s.ropen = true) (hw : s.wopen = true) : bothOpen s = true := by
  simp [bothOpen, hr, hw]

theorem bothClosed_of_closed {s : State} (hr : s.ropen = false) (hw : s.wopen = false) : bothClosed s = true := by
  simp [bothClosed, hr, hw]

/-! ### Encoding -/

/-- Settles O42: `encHeader_ok` and `encHeader_overflow`; the bytes written are the file's header by its length. -/
theorem encodeHeaderWritesTheTable : Obligations.EncodeHeaderWritesTheTable := by
  unfold Obligations.EncodeHeaderWritesTheTable
  intro s hf hw
  refine ⟨fun hlt hs hp => ?_, fun hge => command_raises hf rfl hw (encHeader_overflow hge)⟩
  refine ⟨_, command_done hf rfl hw (encHeader_ok hlt hs hp), ?_, ?_⟩
  · exact (BitVec.toNat_ofNat ..).trans (Nat.mod_eq_of_lt hlt)
  · simp only [appended, State.answered, fileHeader_length]

/-- Settles O43: `encPayload_ok`, its bit buffer being in form. -/
theorem encodePayloadAppendsTheCodes : Obligations.EncodePayloadAppendsTheCodes := by
  unfold Obligations.EncodePayloadAppendsTheCodes
  rintro s vs m hf hr hw hW hwf hd rfl hs hp
  obtain ⟨snk, acc, cnt, hok, hcnt, hacc, hbits, hpre, hlen⟩ := encPayload_ok vs hd hwf hW hs hp
  have hform : cnt.toNat ≤ 7 := by omega
  exact ⟨_, command_done hf rfl (bothOpen_of_open hr hw) hok, hbits, ⟨hform, hacc⟩, hpre, hlen, rfl⟩

/-- Settles O51: `encodeFile_done` says what a completed ENCODE leaves, and with at most 33 distinct values no code is
longer than 32 bits, so `encodeFile_ok` ends it. -/
theorem encodeWritesTheFile : Obligations.EncodeWritesTheFile := by
  unfold Obligations.EncodeWritesTheFile
  intro s hf hr hw hwf
  refine ⟨fun t ht hdone => ?_, fun hsize hdist hs => ?_⟩
  · obtain ⟨u, hu, rfl⟩ := command_ended ht hdone
    have h := encodeFile_done hwf hu
    obtain ⟨payload, hpk, hmem⟩ := h.file
    have hhdr : u.hdrBytes.toNat = 8 + 6 * u.tableSize.toNat := by
      rw [h.hdrBytes, toNat_headerByteCount (h.tableSize.trans_le h.table.size)]
    have hpay : u.payloadBytes.toNat = (u.codeLen.toNat + 7) / 8 := by
      rw [h.payloadBytes, toNat_payloadByteCount]
    refine ⟨payload, ⟨h.err.trans (faulted_eq_false.1 hf), h.ropen, h.wopen⟩, h.freq, h.table, h.present, hmem, hpk,
      h.codeLen, h.tableSize, h.origBytes, hpay, hhdr, ?_⟩
    show u.mem.snk.length = u.hdrBytes.toNat + u.payloadBytes.toNat
    rw [hmem, List.length_append, fileHeader_length, hpk.length_eq, hhdr, hpay, h.tableSize, h.codeLen]
  · obtain ⟨t, ht⟩ := encodeFile_ok (D := 32) hwf hdist (by unfold distinct; omega) (by omega)
      (hs.mono (by unfold distinct; omega))
    exact ⟨_, command_done hf rfl (bothClosed_of_closed hr hw) ht, rfl⟩

/-! ### Decoding -/

/-- Settles O44: `decHeader_ok` on the header and the table. -/
theorem decodeHeaderRebuildsTheTree : Obligations.DecodeHeaderRebuildsTheTree := by
  unfold Obligations.DecodeHeaderRebuildsTheTree
  intro s codeLen es ws hf hr hg hwf hd hs
  obtain ⟨ns, hok, hshape, hleaf⟩ := decHeader_ok codeLen es hg hd hwf hs
  refine ⟨_, command_done hf rfl hr hok, hshape, fun p c => ⟨fun hp => ?_, ?_⟩, ?_⟩
  · obtain ⟨f, hp⟩ := leafSymbol_eq_some.1 hp
    obtain ⟨e, he, rfl, rfl, -⟩ := (hleaf p c f).1 hp
    exact ⟨e, he, rfl, rfl⟩
  · rintro ⟨e, he, rfl, rfl⟩
    exact leafSymbol_eq ((hleaf _ _ 0).2 ⟨e, he, rfl, rfl, rfl⟩)
  · have h0 : 8 + 6 * es.length ≠ 0 := by omega
    simp only [headed, fetched, State.answered, if_neg h0]

/-- A walk from the root whose bits make up exactly what is still to consume ends at CODE_LEN (R206). -/
theorem decPayload_ok {s : State} {ms : List (List Bool × Symbol)} {rest : List Bool} (hT : TreeInv s)
    (hcur : s.cur = s.root) (hwf : s.mem.src.length < 2 ^ 32) (hleaf : ∀ m ∈ ms, leafSymbol s m.1 = some m.2)
    (hun : unreadBits s = ms.flatMap Prod.fst ++ rest)
    (hcl : s.codeLen.toNat = s.bitsDone.toNat + (ms.flatMap Prod.fst).length)
    (hs : Served ((ms.flatMap Prod.fst).length + ms.length) s) (hp : s.opos.toNat + ms.length ≤ 2 ^ 32 - 1) :
    ∃ rb rc ip e ds, decPayload s =
        .ok () (walked s (ms.flatMap Prod.fst).length (ms.map Prod.snd) rb rc ip e ds s.root) ∧
      unreadBits (walked s (ms.flatMap Prod.fst).length (ms.map Prod.snd) rb rc ip e ds s.root) = rest := by
  have hpath : ∀ m ∈ ms, ∃ f, HasLeaf s.nodes s.root m.1 m.2 f := fun m hm => leafSymbol_eq_some.1 (hleaf m hm)
  have hne : ∀ m ∈ ms, m.1 ≠ [] := fun m hm => (hpath m hm).elim fun _ hf => hT.path_pos hf
  obtain ⟨rb, rc, ip, e, ds, hok, hrest, -⟩ := decSteps_message ms hpath hne hcur hun hwf hs hcl.ge hp
  refine ⟨rb, rc, ip, e, ds, ?_, hrest⟩
  rw [decPayload, hcl, Nat.add_sub_cancel_left, hok]

/-- Settles O47: `decPayload_ok`, whose BITS_DONE is CODE_LEN. -/
theorem decodePayloadEmitsTheMessage : Obligations.DecodePayloadEmitsTheMessage := by
  unfold Obligations.DecodePayloadEmitsTheMessage
  intro s ms rest hf hr hw hT hcur hwf hleaf hun hcl hs hp
  obtain ⟨rb, rc, ip, e, ds, hok, hrest⟩ := decPayload_ok hT hcur hwf hleaf hun hcl hs hp
  have hdone : s.bitsDone + BitVec.ofNat 32 (ms.flatMap Prod.fst).length = s.codeLen :=
    BitVec.eq_of_toNat_eq (by rw [toNat_addNat (hcl ▸ s.codeLen.isLt), hcl])
  refine ⟨_, command_done hf rfl (bothOpen_of_open hr hw) hok, hrest, ?_⟩
  simp only [walked, State.answered, hdone, hcur, List.length_map]

/-- Settles O53: `decodeFile_ok` says what DECODE leaves, register by register. -/
theorem decodeReadsTheFile : Obligations.DecodeReadsTheFile := by
  unfold Obligations.DecodeReadsTheFile
  intro s es ms payload trail hf hr hw hg hm hlt hpk hsrc hwf hs
  obtain ⟨t, ht, h⟩ := decodeFile_ok hg hm hlt hpk hsrc hwf hs
  have hhdr : t.hdrBytes.toNat = 8 + 6 * t.tableSize.toNat := by
    rw [h.hdrBytes, toNat_headerByteCount (h.tableSize.trans_le hg.size)]
  have hpay : t.payloadBytes.toNat = (t.codeLen.toNat + 7) / 8 := by
    rw [h.payloadBytes, toNat_payloadByteCount]
  exact ⟨_, command_done hf rfl (bothClosed_of_closed hr hw) ht, rfl,
    ⟨h.err.trans (faulted_eq_false.1 hf), h.ropen, h.wopen⟩, h.mem, h.codeLen, h.tableSize, h.bitsDone, h.cur, h.ipos,
    h.origBytes, hpay, hhdr, h.tables⟩

end Sys2Proof.Machine
end

section
/-! PROOFS. The family 40_bitstream_reader.md: what each reader command answers in every case of the medium, and that
none of them touches anything but the reader's side of the state. -/

namespace Sys2Proof.Machine

/-! ### The accesses of a command -/

/-- A command abandoned by the reset input is the reset state, with no answer (70_reset_and_hazards.md R270). -/
theorem command_abandoned {i : Instr} {ready : State → Bool} {body : State → Res Unit} {s t : State}
    (hf : s.faulted = false) (hw : i.wellFormed = true) (hr : ready s = true) (hb : body s = .stop .hwReset t) :
    command i ready body s = .next (hardwareReset t) := by
  rw [command_runs hf hw hr, hb]; rfl

/-- With no answer supplied a source access inside SRC is a free draw: it delivers the byte or fails (20_memory.md R78,
log entry 4). -/
theorem srcByte_free {s : State} {v : Byte} (hd : s.draws = []) (hv : s.mem.src[s.ipos.toNat]? = some v) :
    srcByte s = .ok (some v) { s with freeDraws := s.freeDraws + 1, ipos := s.ipos + 1, eos := false } ∨
      srcByte s = raise .ioSrc { s with freeDraws := s.freeDraws + 1 } := by
  have hdraw : s.draw = (if Config.ioFail s.freeDraws then .ioErr else .served,
      { s with freeDraws := s.freeDraws + 1 }) := by simp [State.draw, hd]
  unfold srcByte memRead
  rw [hdraw]
  cases Config.ioFail s.freeDraws with
  | true => exact .inr rfl
  | false => left; simp [Memory.srcByte?, hv]

/-- RD_BYTE ends where its one access stops it: a raised fault or the reset input (40_bitstream_reader.md R125). -/
theorem rdByte_of_stop {s t : State} {w : Stop} (h : srcByte s = .stop w t) : rdByte s = .stop w t := by
  rw [rdByte, h]; rfl

theorem rdByte_of_byte {s t : State} {v : Byte} (h : srcByte s = .ok (some v) t) :
    rdByte s = .ok () { t with res := v.setWidth 32 } := by
  rw [rdByte, h]; rfl

theorem rdByte_of_end {s t : State} (h : srcByte s = .ok none t) : rdByte s = .ok () { t with res := 0 } := by
  rw [rdByte, h]; rfl

/-! ### Opening and closing -/

/-- Settles O17: each command runs its one assignment (`command_runs`), or fails its line "Requires"
(`command_streamState`). -/
theorem readerOpensAndCloses : Obligations.ReaderOpensAndCloses := by
  unfold Obligations.ReaderOpensAndCloses
  refine ⟨rfl, rfl, fun s hf => ?_⟩
  rw [exec_rdOpen, exec_rdClose]
  refine ⟨fun hr => ?_, fun hr => ?_, fun hr => ?_, fun hr => ?_⟩
  · exact (command_runs hf rfl (by simp [readerClosed, hr])).trans rfl
  · exact command_streamState hf rfl (by simp [readerClosed, hr])
  · exact (command_runs hf rfl hr).trans rfl
  · exact command_streamState hf rfl hr

/-! ### RD_BIT and RD_BYTE -/

/-- A bit that needs a fetch meets a failing medium (R121, R124). -/
theorem rdBit_io {s : State} {ds : List EnvAnswer} (hr : s.rcnt = 0) (hd : s.draws = .ioErr :: ds) :
    rdBit s = raise .ioSrc { s with draws := ds } := by
  rw [rdBit, readBit, if_pos hr, srcByte_io hd]; rfl

/-- RD_BIT shows end-of-stream as RES 0 and EOS 1 (R124). -/
theorem rdBit_end {s : State} (hr : s.rcnt = 0) (hs : Served 1 s) (hend : s.mem.src.length ≤ s.ipos.toNat) :
    rdBit s = .ok () { s with draws := s.draws.drop 1, eos := true, res := 0 } := by
  rw [rdBit, readBit_end hr hs hend]; rfl

/-- Settles O18: RD_BIT on a delivered bit by `exec_rdBit_of_bitRead`, at the end by `rdBit_end`, on a failing medium by
`rdBit_io`. -/
theorem readBitResult : Obligations.ReadBitResult := by
  unfold Obligations.ReadBitResult
  refine ⟨rfl, fun s hf => ⟨fun hr => ?_, fun hr => ⟨fun b t h => ?_, fun hc hend hs => ?_, fun ds hc hd => ?_⟩⟩⟩
  · exact (exec_rdBit s).trans (command_streamState hf rfl hr)
  · rw [exec_rdBit_of_bitRead hf hr h, bitValue_eq]
    rfl
  · exact (exec_rdBit s).trans (command_done hf rfl hr (rdBit_end hc hs hend))
  · exact (exec_rdBit s).trans (command_raises hf rfl hr (rdBit_io hc hd))

/-- Settles O20: the five outcomes of the one source access (the `srcByte_` lemmas), each carried through RD_BYTE. -/
theorem readByteResult : Obligations.ReadByteResult := by
  unfold Obligations.ReadByteResult
  refine ⟨rfl, fun s hf => ?_⟩
  rw [exec_rdByte]
  refine ⟨fun hr => command_streamState hf rfl hr, fun hr => ⟨fun v hv hs => ?_, fun hend hs => ?_, fun ds hd => ?_,
    fun ds hd => ?_, fun v hv hd => ?_⟩⟩
  · exact command_done hf rfl hr (rdByte_of_byte (srcByte_served hs hv))
  · exact command_done hf rfl hr (rdByte_of_end (srcByte_end hs hend))
  · exact command_raises hf rfl hr (rdByte_of_stop (srcByte_io hd))
  · have hreset := hardwareReset_eq_resetWith (s := s) (u := { s with draws := ds }) rfl rfl
    exact (command_abandoned hf rfl hr (rdByte_of_stop (srcByte_hw hd))).trans (congrArg _ hreset)
  · exact (srcByte_free hd hv).imp (fun h => command_done hf rfl hr (rdByte_of_byte h))
      fun h => command_raises hf rfl hr (rdByte_of_stop h)

/-! ### RD_EXACT -/

/-- RD_EXACT n is well-formed for n up to 4 and for no other n (30_encoding.md R92). -/
theorem wellFormed_rdExact {n : BitVec 8} : (Instr.rdExact n).wellFormed = true ↔ n.toNat ≤ 4 := decide_eq_true_iff

/-- Settles O21: `readExact_ok` from the state with RES 0, in which RD_EXACT reads. -/
theorem readExactResult : Obligations.ReadExactResult := by
  unfold Obligations.ReadExactResult
  intro s n vs ws hf hr hn hlen hsrc hvs hs
  have hread : readExact n.toNat { s with res := 0 } =
      .ok (BitVec.ofNat 32 (littleEndian vs)) (fetched { s with res := 0 } n.toNat) := by
    rw [← hvs] at hn hs ⊢
    exact readExact_ok vs hn hsrc hlen hs
  have hzero : n = 0 ↔ n.toNat = 0 := BitVec.toNat_eq
  rw [exec_rdExact, command_done hf (wellFormed_rdExact.2 hn) (by exact hr) (by rw [rdExact, hread]; rfl)]
  simp only [fetched, State.answered, hzero]

/-- Settles O22: `readBytes_short` from the state with RES 0; n above 4 is no well-formed operand. -/
theorem readExactComesUpShort : Obligations.ReadExactComesUpShort := by
  unfold Obligations.ReadExactComesUpShort
  intro s n vs hf
  rw [exec_rdExact]
  refine ⟨fun hr hn hlen hsrc hvs hs => ?_, fun hn => ?_⟩
  · have hread : readExact n.toNat { s with res := 0 } = raise .shortRead (metEnd { s with res := 0 } vs.length) :=
      readBytes_short vs hsrc hvs hlen hs
    exact command_raises hf (wellFormed_rdExact.2 hn) hr (by rw [rdExact, hread]; rfl)
  · exact command_badField hf (Bool.eq_false_iff.2 (mt wellFormed_rdExact.1 (by omega)))

/-! ### What no reader command does -/

/-- The state without the reader's registers, RES, EOS, the environment's answers and the command port's answer: what no
reader command that ends `done` changes (R127). -/
def State.sansReader (s : State) : State :=
  { s with
    ropen := false, eos := false, res := 0, ipos := 0, rbuf := 0, rcnt := 0, draws := [], freeDraws := 0, answer := none }

/-- Two states that agree outside the reader's side differ in the reader's fields only. -/
theorem eq_of_sansReader {s t : State} (h : t.sansReader = s.sansReader) : t = { s with
    ropen := t.ropen, eos := t.eos, res := t.res, ipos := t.ipos, rbuf := t.rbuf, rcnt := t.rcnt,
    draws := t.draws, freeDraws := t.freeDraws, answer := t.answer } :=
  congrArg (fun u : State => { u with
    ropen := t.ropen, eos := t.eos, res := t.res, ipos := t.ipos, rbuf := t.rbuf, rcnt := t.rcnt,
    draws := t.draws, freeDraws := t.freeDraws, answer := t.answer }) h

theorem faulted_of_sansReader {s t : State} (h : t.sansReader = s.sansReader) : t.faulted = s.faulted := by
  show t.sansReader.faulted = s.sansReader.faulted
  rw [h]

/-- An outcome of reader pseudocode begun in `s`: at its end only the reader's side has changed, and SHORT_READ is raised
only where `short` allows it. -/
def Res.ReadsFrom {α : Type} (s : State) (short : Prop) : Res α → Prop
  | .ok _ t => t.sansReader = s.sansReader
  | .stop w _ => w = .raise .shortRead → short

/-- The rule of sequencing for `ReadsFrom`. -/
theorem Res.ReadsFrom.bind {α β : Type} {s : State} {short : Prop} {r : Res α} {f : α → State → Res β}
    (h : r.ReadsFrom s short) (hf : ∀ a t, t.sansReader = s.sansReader → (f a t).ReadsFrom s short) :
    (r.bind f).ReadsFrom s short := by
  cases r with
  | ok a t => exact hf a t h
  | stop w t => exact h

theorem openReader_readsFrom (s : State) {short : Prop} : (openReader s).ReadsFrom s short :=
  (rfl : ({ s with ipos := 0, rbuf := 0, rcnt := 0, eos := false, ropen := true } : State).sansReader = s.sansReader)

theorem closeReader_readsFrom (s : State) {short : Prop} : (closeReader s).ReadsFrom s short :=
  (rfl : ({ s with ropen := false, rbuf := 0, rcnt := 0 } : State).sansReader = s.sansReader)

theorem srcByte_readsFrom {s₀ s : State} {short : Prop} (h : s.sansReader = s₀.sansReader) :
    (srcByte s).ReadsFrom s₀ short := by
  obtain ⟨ds, n, s', rfl, ⟨-, hc⟩ | ⟨v, -, hc⟩ | hc | hc⟩ := srcByte_cases s <;> rw [hc]
  · exact h
  · exact h
  · exact nofun
  · exact nofun

theorem readBit_readsFrom {s₀ s : State} {short : Prop} (h : s.sansReader = s₀.sansReader) :
    (readBit s).ReadsFrom s₀ short := by
  unfold readBit
  split
  · refine (srcByte_readsFrom h).bind fun r t ht => ?_
    cases r with
    | none => exact ht
    | some v => exact ht
  · exact h

theorem rdBit_readsFrom (s : State) {short : Prop} : (rdBit s).ReadsFrom s short := by
  refine (readBit_readsFrom rfl).bind fun r t ht => ?_
  cases r with
  | none => exact ht
  | some b => exact ht

theorem rdByte_readsFrom (s : State) {short : Prop} : (rdByte s).ReadsFrom s short := by
  refine (srcByte_readsFrom rfl).bind fun r t ht => ?_
  cases r with
  | none => exact ht
  | some v => exact ht

/-- The loop of `read_exact` is where end-of-stream is a fault (R126). -/
theorem readBytes_readsFrom (n k : Nat) (acc : BitVec 32) {s₀ s : State} {short : Prop} (hshort : short)
    (h : s.sansReader = s₀.sansReader) : (readBytes n k acc s).ReadsFrom s₀ short := by
  induction n generalizing k acc s with
  | zero => exact h
  | succ n ih =>
    refine (srcByte_readsFrom h).bind fun r t ht => ?_
    cases r with
    | none => exact fun _ => hshort
    | some v => exact ih _ _ ht

theorem rdExact_readsFrom (n : Nat) (s : State) {short : Prop} (hshort : short) : (rdExact n s).ReadsFrom s short :=
  (readBytes_readsFrom n 0 0 (s := { s with res := 0 }) hshort rfl).bind fun _ _ ht => ht

/-- A block that fault entry leaves faulted shows the cause in ERRINFO (60_exceptions.md R246). -/
theorem faultEntry_errinfo {op : BitVec 8} {c : Cause} {s : State} (h : (faultEntry op c s).faulted = true) :
    (faultEntry op c s).errinfo = c.info := by
  rcases faultEntry_cases op c s with ⟨t, ht, -, hinfo, -⟩ | ⟨t, ht⟩
  · rw [ht]
    simpa using hinfo
  · rw [ht] at h
    cases h

/-- ERRINFO 0x11 names SHORT_READ alone (60_exceptions.md R242). -/
theorem eq_shortRead_of_info {c : Cause} (h : c.info = 0x11) : c = .shortRead := by
  cases c
  case shortRead => rfl
  all_goals exact absurd h (by decide)

/-- What the common frame makes of reader pseudocode. -/
theorem command_readsFrom {i : Instr} {ready : State → Bool} {body : State → Res Unit} {s t : State} {short : Prop}
    (hf : s.faulted = false) (hb : (body s).ReadsFrom s short) (h : command i ready body s = .next t) :
    (t.answer = some .done → t.sansReader = s.sansReader) ∧ (t.faulted = true → t.errinfo = 0x11 → short) := by
  obtain ⟨r, hr, hreads⟩ : ∃ r : Res Unit, finish (opcode i) r = .next t ∧ r.ReadsFrom s short := by
    unfold command at h
    rw [if_neg (by simp [hf])] at h
    split at h
    · exact ⟨_, h, nofun⟩
    split at h
    · exact ⟨_, h, nofun⟩
    exact ⟨_, h, hb⟩
  match r, hr, hreads with
  | .ok _ u, rfl, hu =>
    have hnot : u.faulted = false := (faulted_of_sansReader hu).trans hf
    exact ⟨fun _ => hu, fun ht => absurd (hnot.symm.trans ht) nofun⟩
  | .stop (.raise c) u, rfl, hc =>
    exact ⟨fun ha => absurd ha (faultEntry_answer _ _ _),
      fun ht hinfo => hc (congrArg Stop.raise <| eq_shortRead_of_info ((faultEntry_errinfo ht).symm.trans hinfo))⟩
  | .stop .hwReset u, rfl, _ => exact ⟨nofun, nofun⟩

/-- Settles O23: each reader command's pseudocode by its `readsFrom` lemma, in the common frame. -/
theorem readerCommandsFrame : Obligations.ReaderCommandsFrame := by
  unfold Obligations.ReaderCommandsFrame
  intro i s t hf hi h
  have hframe : (t.answer = some .done → t.sansReader = s.sansReader) ∧
      (t.faulted = true → t.errinfo = 0x11 → ∃ n, i = .rdExact n) := by
    rcases hi with rfl | rfl | rfl | rfl | ⟨n, rfl⟩
    · exact command_readsFrom hf (openReader_readsFrom s) h
    · exact command_readsFrom hf (closeReader_readsFrom s) h
    · exact command_readsFrom hf (rdBit_readsFrom s) h
    · exact command_readsFrom hf (rdByte_readsFrom s) h
    · exact command_readsFrom hf (rdExact_readsFrom n.toNat s ⟨n, rfl⟩) h
  exact hframe.imp_left fun hdone ha => eq_of_sansReader (hdone ha)

end Sys2Proof.Machine
end

section
/-! PROOFS. The family 41_bitstream_writer.md: what opening, closing, a bit and raw bytes do to the writer in every case
of the position and of the medium. -/

namespace Sys2Proof.Machine

/-- The state with the writer's bit buffer emptied, in which WR_CLOSE and the eighth bit of WR_BIT append their byte
(41_bitstream_writer.md R141, R147). -/
def State.drained (s : State) : State := { s with wacc := 0, wcnt := 0 }

/-! ### Opening and closing -/

/-- With no pending bit the writer is closed without an access (R147). -/
theorem closeWriter_of_empty {s : State} (hc : s.wcnt = 0) : closeWriter s = shutWriter s := if_neg (not_not.2 hc)

/-- Pending bits leave the buffer and go out as one byte before the writer is closed (R147). -/
theorem closeWriter_of_pending {s : State} (hc : s.wcnt ≠ 0) :
    closeWriter s = (snkByte s.wacc s.drained).bind fun _ t => shutWriter t := if_pos hc

/-- The byte of the pending bits is appended, and the writer closed. -/
theorem closeWriter_of_ok {s t : State} (hc : s.wcnt ≠ 0) (h : snkByte s.wacc s.drained = .ok () t) :
    closeWriter s = shutWriter t := by
  rw [closeWriter_of_pending hc, h, Res.bind_ok]

/-- Where the byte of the pending bits cannot be appended, WR_CLOSE ends with the writer still open. -/
theorem closeWriter_of_raise {s t : State} {c : Cause} (hc : s.wcnt ≠ 0)
    (h : snkByte s.wacc s.drained = raise c t) : closeWriter s = raise c t := by
  rw [closeWriter_of_pending hc, h, Res.bind_raise]

/-- Settles O24: WR_OPEN is its one assignment; WR_CLOSE is split on the pending bits, and the byte they make on what
`snkByte` does with it. -/
theorem writerOpensAndCloses : Obligations.WriterOpensAndCloses := by
  unfold Obligations.WriterOpensAndCloses
  refine ⟨rfl, rfl, fun s hf => ?_⟩
  rw [exec_wrOpen, exec_wrClose]
  refine ⟨fun hw => ?_, fun hw => ?_, fun hw => ?_, fun hw hc => ?_, fun hw hc hp hs => ?_, fun hw hc hp => ?_,
    fun ds hw hc hp hd => ?_⟩
  · exact (command_runs hf rfl (by simp [writerClosed, hw])).trans rfl
  · exact command_streamState hf rfl (by simp [writerClosed, hw])
  · exact command_streamState hf rfl hw
  · exact command_done hf rfl hw (closeWriter_of_empty hc)
  · exact command_done hf rfl hw (closeWriter_of_ok hc (snkByte_served s.wacc hs (mt lastPos_iff.1 hp)))
  · exact command_raises hf rfl hw (closeWriter_of_raise hc (snkByte_full (lastPos_iff.2 hp)))
  · exact command_raises hf rfl hw (closeWriter_of_raise hc (snkByte_io hd (mt lastPos_iff.1 hp)))

/-! ### WR_BIT -/

/-- WR_BIT v is well-formed for the operands 0 and 1 only (30_encoding.md R92). -/
theorem wellFormed_wrBit {v : BitVec 32} : (Instr.wrBit v).wellFormed = true ↔ v.toNat ≤ 1 := decide_eq_true_iff

theorem wellFormed_wrBit_bit (b : Bool) : (Instr.wrBit (if b then 1 else 0)).wellFormed = true := by
  cases b <;> rfl

/-- WR_BIT takes its bit from position 0 of the operand (R144). -/
theorem exec_wrBit_bit (b : Bool) (s : State) :
    exec (.wrBit (if b then 1 else 0)) s = command (.wrBit (if b then 1 else 0)) writerOpen (writeBit b) s := by
  cases b <;> rfl

/-- The buffer with one more bit, as the statements write it (R141). -/
theorem putBit_eq (acc : Byte) (b : Bool) (k : BitVec 4) :
    putBit acc b k = acc ||| ((if b then 1 else 0) <<< k.toNat) := by
  cases b <;> rfl

/-- A bit that does not fill the buffer changes WACC and WCNT only (R141). -/
theorem writeBit_of_room {s : State} (b : Bool) (hc : s.wcnt ≠ 7) : writeBit b s =
    .ok () { s with wacc := s.wacc ||| ((if b then 1 else 0) <<< s.wcnt.toNat), wcnt := s.wcnt + 1 } := by
  have hroom : s.wcnt + 1 ≠ 8 := by bv_omega
  rw [← putBit_eq]
  exact if_neg hroom

/-- The eighth bit empties the buffer, and the byte it completes goes to SNK (R141). -/
theorem writeBit_eighth {s : State} (b : Bool) (hc : s.wcnt = 7) :
    writeBit b s = snkByte (s.wacc ||| ((if b then 1 else 0) <<< 7)) s.drained := by
  have hbyte := putBit_eq s.wacc b 7
  rw [writeBit, hc, hbyte]
  rfl

/-- Settles O25: the operand and the stream state by the common frame; then a bit with room left (`writeBit_of_room`) or
the eighth (`writeBit_eighth`), whose byte `snkByte` appends or does not. -/
theorem writeBitResult : Obligations.WriteBitResult := by
  unfold Obligations.WriteBitResult
  refine ⟨⟨rfl, rfl⟩, fun s v hf => ?_, fun s b hf hw => ?_⟩
  · rw [exec_wrBit]
    refine ⟨fun hv => ?_, fun hv hw => ?_⟩
    · exact command_badField hf (Bool.eq_false_iff.2 (mt wellFormed_wrBit.1 (by omega)))
    · exact command_streamState hf (wellFormed_wrBit.2 hv) hw
  · have hwf := wellFormed_wrBit_bit b
    rw [exec_wrBit_bit]
    refine ⟨fun hc => ?_, fun hc hp hs => ?_, fun hc hp => ?_, fun ds hc hp hd => ?_⟩
    · exact command_done hf hwf hw (writeBit_of_room b hc)
    · exact command_done hf hwf hw ((writeBit_eighth b hc).trans (snkByte_served _ hs (mt lastPos_iff.1 hp)))
    · exact command_raises hf hwf hw ((writeBit_eighth b hc).trans (snkByte_full (lastPos_iff.2 hp)))
    · exact command_raises hf hwf hw ((writeBit_eighth b hc).trans (snkByte_io hd (mt lastPos_iff.1 hp)))

/-! ### WR_BYTE and WR_EXACT -/

/-- WR_BYTE of a byte's operand is well-formed (30_encoding.md R92). -/
theorem wellFormed_wrByte_byte (v : Byte) : (Instr.wrByte (v.setWidth 32)).wellFormed = true :=
  decide_eq_true (by have := v.isLt; rw [BitVec.toNat_setWidth]; omega)

/-- WR_BYTE appends the low byte of its operand (R145). -/
theorem exec_wrByte_byte (v : Byte) (s : State) :
    exec (.wrByte (v.setWidth 32)) s = command (.wrByte (v.setWidth 32)) writerOpen (snkByte v) s := by
  have hlow : lowByte (v.setWidth 32) = v := BitVec.setWidth_setWidth_of_le v (by decide)
  rw [exec_wrByte, hlow]

theorem wellFormed_wrExact {n : BitVec 8} {v : BitVec 32} (hn : n.toNat ≤ 4) (hv : v.toNat < 2 ^ (8 * n.toNat)) :
    (Instr.wrExact n v).wellFormed = true := by
  simp [Instr.wellFormed, hn, hv]

@[simp] theorem bytesOf_length (n : Nat) (v : BitVec 32) : (bytesOf n v).length = n := by simp [bytesOf]

/-- The state after the `n` low bytes of a value, which are the first `n` of its four (20_memory.md R66). -/
theorem appended_bytesOf {n : Nat} (hn : n ≤ 4) (v : BitVec 32) (s : State) : appended s (bytesOf n v) = { s with
    draws := s.draws.drop n, mem := { s.mem with snk := s.mem.snk ++ (word32 v).take n },
    opos := s.opos + BitVec.ofNat 32 n } := by
  have htake : (word32 v).take n = bytesOf n v := by
    rw [← bytesOf_word32, bytesOf, bytesOf, ← List.map_take, List.take_range, Nat.min_eq_left hn]
  rw [appended, htake, bytesOf_length]

/-- Byte `k` stands among the `n` low bytes behind the `k` lower ones. -/
theorem bytesOf_split {k n : Nat} (hk : k < n) (v : BitVec 32) :
    ∃ w ws, bytesOf n v = bytesOf k v ++ w :: ws := by
  obtain ⟨m, rfl⟩ := Nat.exists_eq_add_of_lt hk
  refine ⟨byteOf v k, ((List.range m).map (k + 1 + ·)).map (byteOf v), ?_⟩
  rw [Nat.add_right_comm, bytesOf, List.range_add, List.range_succ]
  simp [bytesOf]

/-- The accesses before the first failure are served (20_memory.md R78). -/
theorem served_of_draws {k : Nat} {s : State} {ds : List EnvAnswer} (hd : s.draws = List.replicate k .served ++ ds) :
    Served k s := by
  rw [Served, hd, List.take_left' (List.length_replicate ..)]

/-- Raw writes one part after the other. -/
theorem writeBytes_append (vs ws : List Byte) (s : State) :
    writeBytes (vs ++ ws) s = (writeBytes vs s).bind fun _ t => writeBytes ws t := by
  induction vs generalizing s with
  | nil => rfl
  | cons v vs ih => simp only [List.cons_append, writeBytes, ih, Res.bind_assoc]

/-- Raw writes that meet a failing medium below the last position: the bytes before it are appended (R140, R146). -/
theorem writeBytes_io (vs : List Byte) {w : Byte} {ws : List Byte} {s : State} {ds : List EnvAnswer}
    (hd : s.draws = List.replicate vs.length .served ++ .ioErr :: ds) (hp : s.opos.toNat + vs.length < 2 ^ 32 - 1) :
    writeBytes (vs ++ w :: ws) s = raise .ioSnk { appended s vs with draws := ds } := by
  have hdraws : (appended s vs).draws = .ioErr :: ds := by
    show s.draws.drop vs.length = _
    rw [hd, List.drop_left' (List.length_replicate ..)]
  have hpos : (appended s vs).opos ≠ lastPos := by
    have hopos : (appended s vs).opos.toNat = s.opos.toNat + vs.length := toNat_addNat (by omega)
    rw [Ne, lastPos_iff]
    omega
  rw [writeBytes_append, writeBytes_ok vs (served_of_draws hd) (by omega), Res.bind_ok, writeBytes,
    snkByte_io hdraws hpos, Res.bind_raise]

/-- WR_EXACT with every access served and room for its bytes appends them all (R146). -/
theorem writeExact_ok {n : Nat} {v : BitVec 32} {s : State} (hs : Served n s) (hp : s.opos.toNat + n ≤ 2 ^ 32 - 1) :
    writeExact n v s = .ok () (appended s (bytesOf n v)) :=
  writeBytes_ok _ (by rwa [bytesOf_length]) (by rwa [bytesOf_length])

/-- WR_EXACT whose byte `k` is at the last position has appended the `k` lower bytes (R140, R146). -/
theorem writeExact_full {k n : Nat} {v : BitVec 32} {s : State} (hk : k < n) (hs : Served k s)
    (hp : s.opos.toNat + k = 2 ^ 32 - 1) : writeExact n v s = raise .posOverflow (appended s (bytesOf k v)) := by
  obtain ⟨w, ws, hsplit⟩ := bytesOf_split hk v
  rw [writeExact, hsplit]
  exact writeBytes_full _ (by rwa [bytesOf_length]) (by rwa [bytesOf_length])

/-- WR_EXACT whose byte `k` meets a failing medium has appended the `k` lower bytes (R146, 60_exceptions.md R251). -/
theorem writeExact_io {k n : Nat} {v : BitVec 32} {s : State} {ds : List EnvAnswer} (hk : k < n)
    (hd : s.draws = List.replicate k .served ++ .ioErr :: ds) (hp : s.opos.toNat + k < 2 ^ 32 - 1) :
    writeExact n v s = raise .ioSnk { appended s (bytesOf k v) with draws := ds } := by
  obtain ⟨w, ws, hsplit⟩ := bytesOf_split hk v
  rw [writeExact, hsplit]
  exact writeBytes_io _ (by rwa [bytesOf_length]) (by rwa [bytesOf_length])

/-- Settles O26: WR_BYTE is one `snkByte`; WR_EXACT appends all its bytes (`writeExact_ok`), or the last position
(`writeExact_full`) or a failing medium (`writeExact_io`) ends it behind the `k` lower ones. -/
theorem writeBytesResult : Obligations.WriteBytesResult := by
  unfold Obligations.WriteBytesResult
  intro s hf hw
  have hopen : writerOpen s = true := hw
  refine ⟨fun v hp hs => ?_, fun v hp => ?_, fun v ds hp hd => ?_, fun n v hn hv => ?_⟩
  · exact (exec_wrByte_byte v s).trans
      (command_done hf (wellFormed_wrByte_byte v) hw (snkByte_served v hs (mt lastPos_iff.1 hp)))
  · exact (exec_wrByte_byte v s).trans
      (command_raises hf (wellFormed_wrByte_byte v) hw (snkByte_full (lastPos_iff.2 hp)))
  · exact (exec_wrByte_byte v s).trans
      (command_raises hf (wellFormed_wrByte_byte v) hw (snkByte_io hd (mt lastPos_iff.1 hp)))
  have hwf := wellFormed_wrExact hn hv
  rw [exec_wrExact]
  refine ⟨fun hp hs => ?_, fun k hk hp hs => ?_, fun k ds hk hp hd => ?_⟩
  · rw [command_done hf hwf hopen (writeExact_ok hs hp), appended_bytesOf hn]
    rfl
  · rw [command_raises hf hwf hopen (writeExact_full hk hs hp), appended_bytesOf (hk.le.trans hn)]
    rfl
  · rw [command_raises hf hwf hopen (writeExact_io hk hd hp), appended_bytesOf (hk.le.trans hn)]
    rfl

end Sys2Proof.Machine
end

section
/-! PROOFS. The family 42_code_tree.md: the frequency table, the tree that TR_BUILD makes, and how the code table and the
weighted length read off that tree agree with it. -/

namespace Sys2Proof.Machine

/-! ### Frequencies -/

/-- The counter of every symbol after one counter is written (42_code_tree.md R161). -/
theorem State.getFreq_setFreq (s : State) (c d : Symbol) (v : BitVec 32) :
    (s.setFreq c v).getFreq d = if d = c then v else s.getFreq d := by
  split
  · next h => rw [h, State.getFreq_setFreq_self]
  · next h => exact State.getFreq_setFreq_ne s v h

/-- Below 2^32 - 1 a counter goes up by one (R162). -/
theorem freqInc_of_room {s : State} {c : Symbol} (h : (s.getFreq c).toNat ≠ 2 ^ 32 - 1) :
    freqInc c s = .ok () (s.setFreq c (s.getFreq c + 1)) :=
  if_neg (mt lastPos_iff.1 h)

/-- At 2^32 - 1 the counter is kept (R162). -/
theorem freqInc_of_full {s : State} {c : Symbol} (h : (s.getFreq c).toNat = 2 ^ 32 - 1) :
    freqInc c s = raise .freqOverflow s :=
  if_pos (lastPos_iff.2 h)

/-- The counters after an increment below 2^32 - 1, as numbers (R162). -/
theorem toNat_getFreq_incremented {s : State} {c : Symbol} (h : (s.getFreq c).toNat ≠ 2 ^ 32 - 1) (d : Symbol) :
    ((s.setFreq c (s.getFreq c + 1)).getFreq d).toNat = (s.getFreq d).toNat + if d = c then 1 else 0 := by
  rw [State.getFreq_setFreq]
  split
  · next hd =>
    have hroom : (s.getFreq c).toNat + 1 < 2 ^ 32 := by have := (s.getFreq c).isLt; omega
    rw [hd]
    exact toNat_addNat (n := 1) hroom
  · rfl

/-- Settles O29: each command runs its one assignment; FQ_INC is split on the full counter (`freqInc_of_room`,
`freqInc_of_full`). -/
theorem frequencyTableCommands : Obligations.FrequencyTableCommands := by
  unfold Obligations.FrequencyTableCommands
  refine ⟨⟨rfl, fun c v => ⟨fieldsOf_assemble _ _ _ _, fieldsOf_assemble _ _ _ _⟩⟩, fun s hf =>
    ⟨⟨_, command_done hf rfl rfl rfl, rfl, fun d => ?_⟩, fun c v => ?_, fun c => ⟨fun hroom => ?_, fun hfull => ?_⟩⟩⟩
  · simp [State.getFreq, State.answered]
  · exact ⟨_, (exec_fqSet c v s).trans (command_done hf rfl rfl rfl), rfl, fun d => State.getFreq_setFreq s c d v⟩
  · exact ⟨_, command_done hf rfl rfl (freqInc_of_room hroom), rfl, toNat_getFreq_incremented hroom⟩
  · exact command_raises hf rfl rfl (freqInc_of_full hfull)

/-- Settles O30: `scanFreq_ok` where every counter has room, `scanSource_full` where one is full. -/
theorem scanCountsTheRestOfTheSource : Obligations.ScanCountsTheRestOfTheSource := by
  unfold Obligations.ScanCountsTheRestOfTheSource
  intro s vs hf hr hlen hs hc
  refine ⟨fun hsrc => ?_, fun v ws hsrc hv => ?_⟩
  · obtain ⟨freq, hok, hcount⟩ := scanFreq_ok vs hsrc hlen hs hc
    exact ⟨_, command_done hf rfl hr hok, hcount, rfl⟩
  · have hbound : vs.length < scanBound s := by
      rw [scanBound, ← List.length_drop, hsrc, List.length_append]
      omega
    obtain ⟨u, hraise, hcount, hu⟩ := scanSource_full vs hsrc hlen hbound hs hc hv
    exact ⟨u, command_raises hf rfl hr hraise, hcount, hu⟩

/-! ### TR_CLEAR and TR_LEN -/

/-- Settles O31: TR_CLEAR is its one assignment. -/
theorem treeClearLeavesTheEmptyRoot : Obligations.TreeClearLeavesTheEmptyRoot := by
  unfold Obligations.TreeClearLeavesTheEmptyRoot
  exact ⟨rfl, fun s hf => (command_runs (body := treeClear) hf rfl rfl).trans rfl⟩

/-- Settles O35: `treeLen_ok` with the paths of the walk over the leaves. -/
theorem treeLengthIsTheWeightedDepthSum : Obligations.TreeLengthIsTheWeightedDepthSum := by
  unfold Obligations.TreeLengthIsTheWeightedDepthSum
  refine ⟨rfl, fun s hf h => ?_⟩
  obtain ⟨ps, hnodup, hmem, hok⟩ := treeLen_ok h
  exact ⟨ps, hnodup, hmem, (exec_trLen s).trans (command_done hf rfl rfl hok)⟩

/-! ### TR_BUILD -/

/-- TR_BUILD answers `done` with the built tree in place (R165). -/
theorem exec_trBuild_done {s : State} (hf : s.faulted = false) :
    exec .trBuild s = .next ((built s).answered .done) :=
  (exec_trBuild s).trans (command_done hf rfl rfl (treeBuild_built s))

/-- There is a LEAF for every counted symbol (R165). -/
theorem freqLeaves_length_eq (s : State) : (freqLeaves s).length = (countedSymbols s).length := by
  rw [freqLeaves_eq, List.length_map]

/-- Two symbols or more: the built nodes are the forest that the merge ends in, its one candidate the last node, which is
the root (R165). -/
theorem built_forest {s : State} (h2 : 2 ≤ (countedSymbols s).length) :
    Forest (countedSymbols s).length (built s).nodes [(built s).nodes.length - 1] ∧
      freqLeaves s <+: (built s).nodes ∧ (built s).nodes.length = 2 * (countedSymbols s).length - 1 ∧
      (built s).root.toNat = 2 * (countedSymbols s).length - 2 := by
  have hsum : ((freqLeaves s).map fun n => n.freq.toNat).sum < 2 ^ 40 := by
    rw [freqLeaves_sum]; exact totalFreq_lt s
  rw [← freqLeaves_length_eq] at h2 ⊢
  obtain ⟨ns, hbuild, hforest, hleaves, hlen, -⟩ :=
    buildTree_many h2 (freqLeaves_leaf s) (freqLeaves_length s) hsum
  have hsmall := freqLeaves_length s
  have hnodes : (built s).nodes = ns := congrArg Prod.fst hbuild
  have hroot : (built s).root = idx (ns.length - 1) := congrArg (fun b : List Node × Nat => idx b.2) hbuild
  rw [hnodes, hroot, toNat_idx (by omega)]
  exact ⟨hforest, hleaves, hlen, by omega⟩

/-- Settles O33: no symbol and one symbol by `buildTree`'s first two cases, more by `built_forest`, in which every node
behind the leaves merged the two least. -/
theorem treeBuildMergesTheTwoLeast : Obligations.TreeBuildMergesTheTwoLeast := by
  unfold Obligations.TreeBuildMergesTheTwoLeast
  intro s hf
  refine ⟨_, exec_trBuild_done hf, rfl, fun h0 => ?_, fun c h1 => ?_, fun h2 => ?_⟩
  · have hleaves : freqLeaves s = [] := by rw [freqLeaves_eq, h0]; rfl
    simp [State.answered, built, hleaves, buildTree, Node.emptyInner, idx]
  · have hleaves : freqLeaves s = [.leaf c ((s.getFreq c).setWidth 40)] := by rw [freqLeaves_eq, h1]; rfl
    simp [State.answered, built, hleaves, buildTree, Node.freq, idx]
  · obtain ⟨hforest, ⟨rest, hrest⟩, hlen, hroot⟩ := built_forest h2
    refine ⟨hlen, hroot, fun i c hi => ?_, hforest.least⟩
    have hleaf : (freqLeaves s)[i]? = some (.leaf c ((s.getFreq c).setWidth 40)) := by
      rw [freqLeaves_eq, List.getElem?_map, hi]; rfl
    show (built s).nodes[i]? = _
    rw [← hrest, List.getElem?_append_left (List.getElem?_eq_some_iff.1 hleaf).1, hleaf]

/-- Settles O34: the leaves by `treeBuild_leaves`, their depth by `treeBuild_depth`, the sum by `buildTree_rootFreq`. -/
theorem treeBuildLeaves : Obligations.TreeBuildLeaves := by
  unfold Obligations.TreeBuildLeaves
  intro s t hf hexec
  rw [exec_trBuild_done hf] at hexec
  cases hexec
  obtain ⟨hcounted, hexists, hunique⟩ := treeBuild_leaves (s := s) (t := (built s).answered .done) rfl rfl
  refine ⟨fun p c hp => ?_, fun c hc => ?_, ?_⟩
  · obtain ⟨f, hleaf⟩ := leafSymbol_eq_some.1 hp
    obtain ⟨hc, hfreq⟩ := hcounted p c f hleaf
    exact ⟨hc, (leafFreq_eq hleaf).trans hfreq, treeBuild_depth rfl rfl hleaf⟩
  · obtain ⟨p, f, hleaf⟩ := hexists c hc
    refine ⟨p, leafSymbol_eq hleaf, fun q hq => ?_⟩
    obtain ⟨g, hleaf'⟩ := leafSymbol_eq_some.1 hq
    exact hunique q p c g f hleaf' hleaf
  · have hsum := freqLeaves_sum s
    exact (buildTree_rootFreq (freqLeaves_leaf s) (freqLeaves_length s) (hsum.trans_lt (totalFreq_lt s))).trans hsum

/-- The frequency read at an index that holds a node. -/
theorem freqAt_of_getElem? {ns : List Node} {i : Nat} {n : Node} (h : ns[i]? = some n) : freqAt ns i = n.freq.toNat := by
  rw [freqAt, h]

/-- A link leaves an INNER node for one of its two children, if it has them. -/
theorem Link.child_eq {ns : List Node} {p : Nat} {b : Bool} {q : NodeIdx} {l r : Option NodeIdx} {f : BitVec 40}
    (h : Link ns p b q) (hn : ns[p]? = some (.inner l r f)) : l = some q ∨ r = some q := by
  obtain ⟨n, hn', hc⟩ := h
  rw [hn] at hn'
  cases hn'
  cases b
  · exact .inl hc
  · exact .inr hc

/-- In a forest of the merge a parent has at least its child's frequency (R166 (5)). -/
theorem Forest.freqAt_child_le {k : Nat} {ns : List Node} {q : List Nat} (h : Forest k ns q) {p : Nat} {b : Bool}
    {c : NodeIdx} (hl : Link ns p b c) : freqAt ns c.toNat ≤ freqAt ns p := by
  have hcount := h.count
  have hsmall := h.small
  have hp := hl.lt
  have hk : k ≤ p := by
    by_contra hlt
    obtain ⟨l, r, f, hinner⟩ := hl.inner
    obtain ⟨d, g, hleaf⟩ := h.leaves p (by omega)
    rw [hinner] at hleaf
    cases hleaf
  obtain ⟨x, y, f, hn, ⟨hx, -⟩, ⟨hy, -⟩, hsum, -⟩ := h.least p hk hp
  have hfreq : freqAt ns p = freqAt ns x + freqAt ns y := (freqAt_of_getElem? hn).trans hsum
  rcases hl.child_eq hn with hc | hc
  · rw [← Option.some.inj hc, toNat_idx (by omega)]
    omega
  · rw [← Option.some.inj hc, toNat_idx (by omega)]
    omega

/-- In the tree of one LEAF the root has the LEAF's frequency (R165, R166 (5)). -/
theorem oneLeaf_freqAt_child_le {c : Symbol} {f : BitVec 40} {p : Nat} {b : Bool} {q : NodeIdx}
    (h : Link [.leaf c f, .inner (some 0) none f] p b q) :
    freqAt [.leaf c f, .inner (some 0) none f] q.toNat ≤ freqAt [.leaf c f, .inner (some 0) none f] p := by
  obtain ⟨l, r, g, hn⟩ := h.inner
  rcases p with _ | _ | p
  · cases hn
  · rcases h.child_eq (l := some 0) (r := none) rfl with hc | hc
    · cases hc
      exact le_rfl
    · cases hc
  · cases hn

/-- The built tree has at most 511 nodes, and no node a frequency below that of a child (R166 (5)). -/
theorem built_bounds (s : State) : (built s).nodes.length ≤ 511 ∧
    ∀ p b q, Link (built s).nodes p b q → freqAt (built s).nodes q.toNat ≤ freqAt (built s).nodes p := by
  rcases hcs : countedSymbols s with _ | ⟨c, _ | ⟨d, cs⟩⟩
  case nil =>
    have hnodes : (built s).nodes = [Node.emptyInner] := by rw [built, freqLeaves_eq, hcs]; rfl
    rw [hnodes]
    refine ⟨by simp, fun p b q hl => ?_⟩
    obtain rfl : p = 0 := Nat.lt_one_iff.1 hl.lt
    exact (hl.child_eq (l := none) (r := none) rfl).elim nofun nofun
  case cons.nil =>
    have hnodes : (built s).nodes =
        [.leaf c ((s.getFreq c).setWidth 40), .inner (some 0) none ((s.getFreq c).setWidth 40)] := by
      rw [built, freqLeaves_eq, hcs]; rfl
    rw [hnodes]
    exact ⟨by simp, fun p b q hl => oneLeaf_freqAt_child_le hl⟩
  case cons.cons =>
    obtain ⟨hforest, -, hlen, -⟩ := built_forest (s := s) (by simp [hcs])
    have := countedSymbols_length s
    exact ⟨by omega, fun p b q hl => hforest.freqAt_child_le hl⟩

/-- Settles O60: the tree by `built_tree`, its size and frequencies by `built_bounds`; CUR is set to ROOT. -/
theorem treeBuildCompletes : Obligations.TreeBuildCompletes := by
  unfold Obligations.TreeBuildCompletes
  refine ⟨rfl, fun s hf => ?_⟩
  obtain ⟨hsize, hfreq⟩ := built_bounds s
  exact ⟨_, exec_trBuild_done hf, rfl, built_tree s, hsize, bne_self_eq_false _, hfreq⟩

/-! ### The code table of a built tree -/

/-- The state after TR_BUILD and a TB_BUILD that made the given code table, both `done`. -/
def tabled (s : State) (code : Vector (BitVec 32) 256) (len : Vector (BitVec 8) 256) : State :=
  { built s with code := code, len := len, answer := some .done }

/-- A run that begins with TR_BUILD and TB_BUILD and ends `done` went on from a good table of the built tree's paths
(R165, 43_table_builder.md R192, R193). -/
theorem run_tabled {s t : State} {is : List Instr} (h : runCommands (.trBuild :: .tbBuild :: is) s = .next t)
    (ht : t.answer = some .done) :
    ∃ code len, runCommands is (tabled s code len) = .next t ∧ GoodTable (tableEntries (tabled s code len)) ∧
      ∀ c, Recorded (built s) (tabled s code len) c := by
  obtain ⟨u, hbuild, hrest⟩ := runCommands_ended (exec_trBuild s) h ht
  cases hbuild
  obtain ⟨v, htable, hrest⟩ := runCommands_ended (exec_tbBuild _) hrest ht
  obtain ⟨⟨code, len, rfl⟩, hrec⟩ := tableBuild_done (by exact built_tree s) htable
  exact ⟨code, len, hrest, tableBuild_good (by exact built_tree s) htable, hrec⟩

/-- The entries of the code table are the present symbols with their codes (30_encoding.md R102). -/
theorem exists_mem_tableEntries {t : State} {p : List Bool} {c : Symbol} :
    (∃ e ∈ tableEntries t, p = e.bits ∧ c = e.sym) ↔ t.getLen c ≠ 0 ∧ p = symbolBits t c := by
  constructor
  · rintro ⟨e, he, rfl, rfl⟩
    obtain ⟨hlen, heq⟩ := mem_tableEntries.1 he
    exact ⟨hlen, by rw [heq]; rfl⟩
  · rintro ⟨hlen, rfl⟩
    exact ⟨⟨c, t.getCode c, t.getLen c⟩, mem_tableEntries.2 ⟨hlen, rfl⟩, rfl, rfl⟩

/-- Settles O36: by `built_table` the LEAFs of the built tree are the entries of the table, and by `rebuild_ok` the
inserted entries, in any order, are the LEAFs of the rebuilt one. -/
theorem theTwoTreeConstructionsAgree : Obligations.TheTwoTreeConstructionsAgree := by
  unfold Obligations.TheTwoTreeConstructionsAgree
  intro s t es hf hrun ht hperm
  obtain ⟨code, len, hend, hgood, hrec⟩ := run_tabled hrun ht
  cases hend
  obtain ⟨ns, hok, -, hleaf⟩ := rebuild_ok (hgood.perm hperm) (s := tabled s code len) hf
  refine ⟨_, hok, rfl, fun p => Option.ext fun c => ?_⟩
  calc _ ↔ ∃ f, HasLeaf ns 0 p c f := leafSymbol_eq_some
    _ ↔ ∃ e ∈ tableEntries (tabled s code len), p = e.bits ∧ c = e.sym := by
      constructor
      · rintro ⟨f, hf'⟩
        obtain ⟨e, he, hbits, hsym, -⟩ := (hleaf p c f).1 hf'
        exact ⟨e, hperm.mem_iff.1 he, hbits, hsym⟩
      · rintro ⟨e, he, hbits, hsym⟩
        exact ⟨0, (hleaf p c 0).2 ⟨e, hperm.mem_iff.2 he, hbits, hsym, rfl⟩⟩
    _ ↔ (tabled s code len).getLen c ≠ 0 ∧ p = symbolBits (tabled s code len) c := exists_mem_tableEntries
    _ ↔ leafSymbol (built s) p = some c := (built_table hrec p c).2.symm

/-- Every length of a good table is at most 32, an absent symbol's being 0 (43_table_builder.md R193 (1)). -/
theorem GoodTable.getLen_le {t : State} (h : GoodTable (tableEntries t)) (c : Symbol) : (t.getLen c).toNat ≤ 32 := by
  by_cases hc : t.getLen c = 0
  · rw [hc]; exact Nat.zero_le _
  · exact (h.lengths ⟨c, t.getCode c, t.getLen c⟩ (mem_tableEntries.2 ⟨hc, rfl⟩)).2

/-- Settles O41: TR_LEN's depth sum is the payload sum of the table (`built_weighted`), which fits TLEN
(`payloadBits_lt`). -/
theorem treeLengthIsThePayloadLength : Obligations.TreeLengthIsThePayloadLength := by
  unfold Obligations.TreeLengthIsThePayloadLength
  intro s t _ hrun ht
  obtain ⟨code, len, hrun, hgood, hrec⟩ := run_tabled hrun ht
  obtain ⟨v, hlen, hend⟩ := runCommands_ended (exec_trLen _) hrun ht
  obtain ⟨ps, hnodup, hmem, hok⟩ := treeLen_ok (s := tabled s code len) (built_tree s)
  cases hok.symm.trans hlen
  cases hend
  refine ⟨?_, fun c => rfl⟩
  have hsum : (ps.map fun p => p.length * leafFreq (tabled s code len) p).sum = payloadBits (tabled s code len) :=
    built_weighted hrec hnodup hmem
  show (BitVec.ofNat 48 (ps.map fun p => p.length * leafFreq (tabled s code len) p).sum).toNat =
    payloadBits (tabled s code len)
  rw [hsum, BitVec.toNat_ofNat, Nat.mod_eq_of_lt (payloadBits_lt hgood.getLen_le)]

end Sys2Proof.Machine
end

section
/-! PROOFS. The family 43_table_builder.md: the commands of the code table, the table that TB_BUILD reads off the tree, and
the three ends of ENCODE on a served medium. -/

namespace Sys2Proof.Machine

/-! ### TB_CLEAR and TB_SET -/

/-- TB_SET is well-formed for lengths up to 32 and codes that fit their length (30_encoding.md R92). -/
theorem wellFormed_tbSet {c : Symbol} {n : BitVec 8} {v : BitVec 32} :
    (Instr.tbSet c n v).wellFormed = true ↔ n.toNat ≤ 32 ∧ v.toNat < 2 ^ n.toNat := by
  simp [Instr.wellFormed]

/-- The code of every symbol after one entry is written (43_table_builder.md R191). -/
theorem State.getCode_setEntry (s : State) (c d : Symbol) (v : BitVec 32) (n : BitVec 8) :
    (s.setEntry c v n).getCode d = if d = c then v else s.getCode d := by
  split
  · next h => rw [h, State.getCode_setEntry_self]
  · next h => exact State.getCode_setEntry_ne s v n h

/-- The length of every symbol after one entry is written (R191). -/
theorem State.getLen_setEntry (s : State) (c d : Symbol) (v : BitVec 32) (n : BitVec 8) :
    (s.setEntry c v n).getLen d = if d = c then n else s.getLen d := by
  split
  · next h => rw [h, State.getLen_setEntry_self]
  · next h => exact State.getLen_setEntry_ne s v n h

/-- Settles O37: TB_CLEAR and TB_SET run their one assignment; an operand that `wellFormed_tbSet` excludes takes
BAD_FIELD. -/
theorem codeTableCommands : Obligations.CodeTableCommands := by
  unfold Obligations.CodeTableCommands
  refine ⟨⟨rfl, fun c n v => fieldsOf_assemble _ _ _ _⟩, fun s hf => ⟨?_, fun c n v => ?_⟩⟩
  · exact ⟨_, (exec_tbClear s).trans (command_done hf rfl rfl rfl), rfl, fun d =>
      ⟨getCode_clearTable s d, getLen_clearTable s d⟩⟩
  rw [exec_tbSet]
  refine ⟨fun hn hv => ?_, fun hbad => ?_⟩
  · exact ⟨_, command_done hf (wellFormed_tbSet.2 ⟨hn, hv⟩) rfl rfl, rfl, fun d =>
      ⟨State.getCode_setEntry s c d v n, State.getLen_setEntry s c d v n⟩⟩
  · have hnot : ¬ (n.toNat ≤ 32 ∧ v.toNat < 2 ^ n.toNat) := by omega
    exact command_badField hf (Bool.eq_false_iff.2 (mt wellFormed_tbSet.1 hnot))

/-! ### TB_BUILD -/

/-- Settles O38: `tableBuild_ok` has recorded every symbol as `Recorded` says. -/
theorem tableBuildRecordsThePaths : Obligations.TableBuildRecordsThePaths := by
  unfold Obligations.TableBuildRecordsThePaths
  intro s hf hT hd
  obtain ⟨code, len, hok, hrec⟩ := tableBuild_ok hT hd
  exact ⟨_, (exec_tbBuild s).trans (command_done hf rfl rfl hok), rfl, hrec⟩

/-- Settles O39: by `tableBuild_deep` the fault is raised in the state whose table has been cleared. -/
theorem tableBuildRejectsDeepTrees : Obligations.TableBuildRejectsDeepTrees := by
  unfold Obligations.TableBuildRejectsDeepTrees
  intro s p c hf hT hp hd
  exact ⟨clearTable s, (exec_tbBuild s).trans (command_raises hf rfl rfl (tableBuild_deep hT hp hd)), rfl, fun d =>
    ⟨getCode_clearTable s d, getLen_clearTable s d⟩⟩

/-- Settles O40: a TB_BUILD that answers `done` ran to its end, so its table is good (`tableBuild_good`). -/
theorem builtTableIsPrefixFree : Obligations.BuiltTableIsPrefixFree := by
  unfold Obligations.BuiltTableIsPrefixFree
  intro s t _ hT hexec hdone
  obtain ⟨u, hok, rfl⟩ := command_ended ((exec_tbBuild s).symm.trans hexec) hdone
  show GoodTable (tableEntries u)
  exact tableBuild_good hT hok

/-! ### The tree of SRC's counts, measured -/

/-- The state after TR_BUILD and a TR_LEN that found the given weighted length, both `done` (42_code_tree.md R165, R170). -/
def measured (u : State) (n : Nat) : State := { built u with tlen := BitVec.ofNat 48 n, answer := some .done }

/-- TR_BUILD and TR_LEN measure the tree of the counters: the sum over its LEAF paths of depth times frequency. -/
theorem run_measured {u v : State} (hf : u.faulted = false) (h : runCommands [.trBuild, .trLen] u = .next v) :
    ∃ (ps : List (List Bool)) (n : Nat), ps.Nodup ∧ (∀ p, p ∈ ps ↔ (leafSymbol (built u) p).isSome = true) ∧
      (ps.map fun p => p.length * leafFreq (built u) p).sum = n ∧ v = measured u n := by
  obtain ⟨ps, hnodup, hmem, hok⟩ := treeLen_ok (s := (built u).answered .done) (built_tree u)
  refine ⟨ps, _, hnodup, hmem, rfl, ?_⟩
  rw [runCommands_ok (exec_trBuild u) hf rfl rfl (treeBuild_built u),
    runCommands_ok (exec_trLen ((built u).answered .done)) hf rfl rfl hok] at h
  cases h
  rfl

/-- The weighted length of a built tree whose LEAFs are at depth 32 at most fits TLEN (R170). -/
theorem built_weighted_lt {u : State} (hd : ∀ p c, leafSymbol (built u) p = some c → p.length ≤ 32)
    {ps : List (List Bool)} (hnodup : ps.Nodup) (hmem : ∀ p, p ∈ ps ↔ (leafSymbol (built u) p).isSome = true) :
    (ps.map fun p => p.length * leafFreq (built u) p).sum < 2 ^ 48 := by
  obtain ⟨code, len, -, hrec⟩ := tableBuild_ok (built_tree u) hd
  rw [built_weighted hrec hnodup hmem]
  exact payloadBits_lt (t := { built u with code := code, len := len }) (goodTable hrec hd).getLen_le

/-! ### The three ends of ENCODE -/

/-- There are 256 byte values. -/
theorem distinct_le (vs : List Byte) : distinct vs ≤ 256 :=
  (List.length_filter_le _ symbols).trans_eq symbols_length

/-- Fault entry with no bit pending in an open writer is made without a flush (60_exceptions.md R246). -/
theorem faultEntry_eq_faultLatched {op : BitVec 8} {c : Cause} {s : State} (h : s.wopen = false ∨ s.wcnt = 0) :
    faultEntry op c s = faultLatched op c s :=
  (faultEntry_noFlush (.inr (h.imp_right .inl))).trans (latched_eq op c s)

/-- With no LEAF deeper than 32, ENCODE on a served medium ends by the measured TLEN: it runs to its end below 2^32, and
ENC_HEADER faults with no bit written from 2^32 on (44_archiver.md R200, R209). -/
theorem encodeFile_of_measured {s u v : State} (hwf : s.mem.src.length < 2 ^ 32) (hu : u.faulted = false)
    (hfreq : ∀ c, (u.getFreq c).toNat = s.mem.src.count c) (hrun : runCommands [.trBuild, .trLen] u = .next v)
    (hs : Served (2 * s.mem.src.length + 1600 + min v.tlen.toNat (2 ^ 32) / 8) s)
    (hd : ∀ p c, leafSymbol v p = some c → p.length ≤ 32) :
    (v.tlen.toNat < 2 ^ 32 → ∃ t, encodeFile s = .ok () t) ∧
      (2 ^ 32 ≤ v.tlen.toNat → ∃ t, encodeFile s = raise .codeLenOverflow t ∧ t.wcnt = 0) := by
  obtain ⟨ps, n, hnodup, hmem, hsum, rfl⟩ := run_measured hu hrun
  have hfit : n < 2 ^ 48 := hsum ▸ built_weighted_lt hd hnodup hmem
  have hlen : (measured u n).tlen.toNat = n := (BitVec.toNat_ofNat ..).trans (Nat.mod_eq_of_lt hfit)
  have hdist := distinct_le s.mem.src
  rw [hlen] at hs ⊢
  exact encodeFile_cases hwf hfreq hnodup hmem hsum hd (hs.mono (by omega))

/-- With a LEAF deeper than 32, TB_BUILD stops ENCODE before the writer is opened (R192, R202). -/
theorem encodeFile_of_deep {s u v : State} (hwf : s.mem.src.length < 2 ^ 32) (hu : u.faulted = false)
    (hfreq : ∀ c, (u.getFreq c).toNat = s.mem.src.count c) (hrun : runCommands [.trBuild, .trLen] u = .next v)
    (hs : Served (s.mem.src.length + 1) s) {p : List Bool} {c : Symbol} (hp : leafSymbol v p = some c)
    (hd : 32 < p.length) :
    ∃ t, encodeFile s = raise .codeTooLong t ∧ t.wopen = s.wopen ∧ t.mem = s.mem := by
  obtain ⟨ps, n, -, -, -, rfl⟩ := run_measured hu hrun
  obtain ⟨freq, hraise⟩ := encodeFile_deep hwf hfreq hs hp hd
  exact ⟨_, hraise, rfl, rfl⟩

/-- Settles O52: by the depth of the measured tree and, where no LEAF is deeper than 32, by its TLEN
(`encodeFile_of_deep`, `encodeFile_of_measured`); neither fault has a bit to flush. -/
theorem encodeEndsDoneExactlyWhen : Obligations.EncodeEndsDoneExactlyWhen := by
  unfold Obligations.EncodeEndsDoneExactlyWhen
  intro s u v hf hr hw hwf hu hfreq hrun hs
  rw [exec_encode]
  have hclosed := bothClosed_of_closed hr hw
  by_cases hd : ∀ p c, leafSymbol v p = some c → p.length ≤ 32
  · obtain ⟨hfits, hover⟩ := encodeFile_of_measured hwf hu hfreq hrun hs hd
    have hdeep {p : List Bool} {c : Symbol} (hp : leafSymbol v p = some c) : ¬ 32 < p.length := (hd p c hp).not_gt
    rcases lt_or_ge v.tlen.toNat (2 ^ 32) with hlt | hge
    · obtain ⟨t, hok⟩ := hfits hlt
      exact ⟨_, command_done hf rfl hclosed hok, fun _ _ => rfl, fun _ hge => absurd hlt hge.not_gt,
        fun p c hp h => absurd h (hdeep hp)⟩
    · obtain ⟨t, hraise, hcnt⟩ := hover hge
      refine ⟨_, command_raises hf rfl hclosed hraise, fun _ hlt => absurd hlt hge.not_gt, fun _ _ => ?_,
        fun p c hp h => absurd h (hdeep hp)⟩
      rw [faultEntry_eq_faultLatched (.inr hcnt)]
      exact ⟨rfl, rfl, rfl, rfl⟩
  · simp only [not_forall, not_le] at hd
    obtain ⟨p, c, hp, hlong⟩ := hd
    obtain ⟨t, hraise, hwopen, hmem⟩ := encodeFile_of_deep hwf hu hfreq hrun (hs.mono (by omega)) hp hlong
    have hclosed' : t.wopen = false := hwopen.trans hw
    refine ⟨_, command_raises hf rfl hclosed hraise, fun h => absurd (h p c hp) hlong.not_ge,
      fun h => absurd (h p c hp) hlong.not_ge, fun _ _ _ _ => ?_⟩
    rw [faultEntry_eq_faultLatched (.inl hclosed')]
    refine ⟨rfl, rfl, rfl, rfl, ?_⟩
    simp [faultLatched, hclosed', hmem]

end Sys2Proof.Machine
end

section
/-! PROOFS. The family 44_archiver.md, whole pipelines: ENCODE, DECODE and DEC_PAYLOAD against the commands they stand for,
and DECODE of what ENCODE wrote. -/

namespace Sys2Proof.Machine

/-! ### Commands in order -/

/-- Pieces of pseudocode one after the other (00_scope.md R8). -/
def inOrder : List (State → Res Unit) → State → Res Unit
  | [], s => .ok () s
  | f :: fs, s => (f s).bind fun _ t => inOrder fs t

/-- A block that is not faulted, with the given stream state. -/
structure At (r w : Bool) (s : State) : Prop where
  notFaulted : s.faulted = false
  ropen : s.ropen = r
  wopen : s.wopen = w

theorem At.answered {r w : Bool} {s : State} (h : At r w s) (a : Answer) : At r w (s.answered a) :=
  ⟨h.notFaulted, h.ropen, h.wopen⟩

/-- A command that may be issued in the stream state `r`, `w` and, when its pseudocode ends, leaves `r'`, `w'`. -/
structure Stage (i : Instr) (body : State → Res Unit) (r w r' w' : Bool) : Prop where
  exec_eq : ∀ s, exec i s = command i (requires i) body s
  wellFormed : i.wellFormed = true
  ready : ∀ s, At r w s → requires i s = true
  blind : Blind body
  ends : ∀ s t, At r w s → body s = .ok () t → At r' w' t

/-- Commands each of which may be issued where the one before it ended, with their pseudocode. -/
inductive Pipeline : Bool → Bool → List Instr → List (State → Res Unit) → Prop
  | nil {r w : Bool} : Pipeline r w [] []
  | cons {r w r' w' : Bool} {i : Instr} {is : List Instr} {f : State → Res Unit} {fs : List (State → Res Unit)}
      (h : Stage i f r w r' w') (hs : Pipeline r' w' is fs) : Pipeline r w (i :: is) (f :: fs)

/-- Pseudocode in order is blind to the answer where each piece is. -/
theorem Pipeline.blind {r w : Bool} {is : List Instr} {fs : List (State → Res Unit)} (h : Pipeline r w is fs) :
    Blind (inOrder fs) := by
  induction h with
  | nil => exact fun _ _ => rfl
  | cons h _ ih => exact h.blind.bind fun _ => ih

/-- Commands issued one by one follow their pseudocode in order, after a `done` or when there is a first command (R12,
44_archiver.md R211). -/
theorem Pipeline.follows {r w : Bool} {is : List Instr} {fs : List (State → Res Unit)} (h : Pipeline r w is fs)
    {s : State} (hs : At r w s) (hfirst : is ≠ [] ∨ s.answer = some .done) :
    Follows (inOrder fs s) (runCommands is s) := by
  induction h generalizing s with
  | nil =>
    have hans : s.answered .done = s := by
      have := hfirst.resolve_left (· rfl)
      rw [State.answered, ← this]
    have hnil := Follows.nil s
    rwa [hans] at hnil
  | cons h hrest ih =>
    exact Follows.cons (h.exec_eq s) hs.notFaulted h.wellFormed (h.ready s hs) hrest.blind fun t ht =>
      ih ((h.ends s t hs ht).answered _) (.inr rfl)

/-- A command that keeps the stream state. -/
theorem Stage.of_steady {i : Instr} {body : State → Res Unit} {r w : Bool}
    (hexec : ∀ s, exec i s = command i (requires i) body s) (hw : i.wellFormed = true)
    (hready : ∀ s, At r w s → requires i s = true) (hblind : Blind body) (hsteady : Steadies body) :
    Stage i body r w r w where
  exec_eq := hexec
  wellFormed := hw
  ready := hready
  blind := hblind
  ends s t hs ht := by
    obtain ⟨hr, hw, he⟩ := hsteady s () t ht
    have hf : t.faulted = s.faulted := by rw [State.faulted, State.faulted, he]
    exact ⟨hf.trans hs.notFaulted, hr.trans hs.ropen, hw.trans hs.wopen⟩

/-! ### The commands of ENCODE and DECODE -/

theorem stage_rdOpen (w : Bool) : Stage .rdOpen openReader false w true w where
  exec_eq := exec_rdOpen
  wellFormed := rfl
  ready s hs := by simp [requires, hs.ropen]
  blind := openReader_blind
  ends s t hs ht := by cases ht; exact ⟨hs.notFaulted, rfl, hs.wopen⟩

theorem stage_rdClose (w : Bool) : Stage .rdClose closeReader true w false w where
  exec_eq := exec_rdClose
  wellFormed := rfl
  ready s hs := hs.ropen
  blind := closeReader_blind
  ends s t hs ht := by cases ht; exact ⟨hs.notFaulted, rfl, hs.wopen⟩

theorem stage_wrOpen (r : Bool) : Stage .wrOpen openWriter r false r true where
  exec_eq := exec_wrOpen
  wellFormed := rfl
  ready s hs := by simp [requires, hs.wopen]
  blind := openWriter_blind
  ends s t hs ht := by cases ht; exact ⟨hs.notFaulted, hs.ropen, rfl⟩

theorem stage_wrClose (r : Bool) : Stage .wrClose closeWriter r true r false where
  exec_eq := exec_wrClose
  wellFormed := rfl
  ready s hs := hs.wopen
  blind := closeWriter_blind
  ends s t hs ht := by
    by_cases hc : s.wcnt = 0
    · rw [closeWriter_of_empty hc] at ht
      cases ht
      exact ⟨hs.notFaulted, hs.ropen, rfl⟩
    · rw [closeWriter_of_pending hc] at ht
      obtain ⟨_, u, hu, hshut⟩ := Res.bind_eq_ok.1 ht
      obtain ⟨-, ds, n, rfl⟩ := snkByte_done hu
      cases hshut
      exact ⟨hs.notFaulted, hs.ropen, rfl⟩

theorem stage_fqClear (r w : Bool) : Stage .fqClear clearFreq r w r w :=
  .of_steady exec_fqClear rfl (fun _ _ => rfl) clearFreq_blind fun s a t h => by cases h; exact ⟨rfl, rfl, rfl⟩

theorem stage_fqScan (w : Bool) : Stage .fqScan scanFreq true w true w :=
  .of_steady exec_fqScan rfl (fun _ hs => hs.ropen) scanFreq_blind scanFreq_steady

theorem stage_trBuild (r w : Bool) : Stage .trBuild treeBuild r w r w :=
  .of_steady exec_trBuild rfl (fun _ _ => rfl) treeBuild_blind fun s a t h => by cases h; exact ⟨rfl, rfl, rfl⟩

theorem stage_tbBuild (r w : Bool) : Stage .tbBuild tableBuild r w r w :=
  .of_steady exec_tbBuild rfl (fun _ _ => rfl) tableBuild_blind tableBuild_steady

theorem stage_encHeader (r : Bool) : Stage .encHeader encHeader r true r true :=
  .of_steady exec_encHeader rfl (fun _ hs => hs.wopen) encHeader_blind encHeader_steady

theorem stage_encPayload : Stage .encPayload encPayload true true true true :=
  .of_steady exec_encPayload rfl (fun _ hs => bothOpen_of_open hs.ropen hs.wopen) encPayload_blind encPayload_steady

theorem stage_decHeader (w : Bool) : Stage .decHeader decHeader true w true w :=
  .of_steady exec_decHeader rfl (fun _ hs => hs.ropen) decHeader_blind decHeader_steady

theorem stage_decStep : Stage .decStep decStep true true true true :=
  .of_steady exec_decStep rfl (fun _ hs => bothOpen_of_open hs.ropen hs.wopen) decStep_blind decStep_steady

theorem stage_decPayload : Stage .decPayload decPayload true true true true :=
  .of_steady exec_decPayload rfl (fun _ hs => bothOpen_of_open hs.ropen hs.wopen) decPayload_blind decPayload_steady

/-! ### DEC_PAYLOAD -/

theorem decSteps_eq_inOrder (k : Nat) (s : State) : decSteps k s = inOrder (List.replicate k decStep) s := by
  induction k generalizing s with
  | zero => rfl
  | succ k ih =>
    rw [decSteps, List.replicate_succ, inOrder]
    congr 1
    funext _ t
    exact ih t

theorem decSteps_pipeline (k : Nat) :
    Pipeline true true (List.replicate k .decStep) (List.replicate k decStep) := by
  induction k with
  | zero => exact .nil
  | succ k ih => exact .cons stage_decStep ih

/-- Settles O48: with no bit to consume nothing but the answer changes; otherwise the DEC_STEPs follow the loop
(`Pipeline.follows`). -/
theorem decodePayloadIsDecodeSteps : Obligations.DecodePayloadIsDecodeSteps := by
  unfold Obligations.DecodePayloadIsDecodeSteps
  intro s hf hr hw
  have hopen := bothOpen_of_open hr hw
  rw [exec_decPayload]
  rcases Nat.eq_zero_or_pos (s.codeLen.toNat - s.bitsDone.toNat) with h0 | hpos
  · have hok : decPayload s = .ok () s := by rw [decPayload, h0, decSteps]
    rw [command_done hf rfl hopen hok, h0]
    exact ⟨⟨rfl, fun h => absurd h (Bool.eq_false_iff.1 hf)⟩, fun hlt => by omega⟩
  · have hfol := (decSteps_pipeline (s.codeLen.toNat - s.bitsDone.toNat)).follows ⟨hf, hr, hw⟩
      (.inl (by simpa using Nat.pos_iff_ne_zero.1 hpos))
    rw [← decSteps_eq_inOrder] at hfol
    rcases Follows.whole (i := .decPayload) (body := decPayload) (g := id) hf rfl hopen
      (by rw [decPayload]; cases decSteps _ s <;> rfl) (fun _ _ => rfl) hfol with
      ⟨u, hrun, hdone, hcmd⟩ | ⟨t, u, hcmd, hrun, -, hsame, hans⟩ | ⟨f, hcmd, hrun⟩
    · obtain ⟨v, hok, rfl⟩ := command_ended hcmd hdone
      have hv := (stage_decPayload.ends s v ⟨hf, hr, hw⟩ hok).notFaulted
      rw [hcmd, hrun]
      exact ⟨⟨rfl, fun h => absurd h (Bool.eq_false_iff.1 hv)⟩, fun _ => rfl⟩
    · rw [hcmd, hrun]
      exact ⟨hsame, fun _ => hans⟩
    · rw [hcmd, hrun]

/-! ### ENCODE and DECODE -/

/-- The pseudocode of ENCODE's twelve commands (R202). -/
def encodeSteps : List (State → Res Unit) :=
  [openReader, clearFreq, scanFreq, closeReader, treeBuild, tableBuild, openWriter, encHeader, openReader, encPayload,
    closeReader, closeWriter]

/-- The pseudocode of DECODE's six commands (R207). -/
def decodeSteps : List (State → Res Unit) :=
  [openReader, openWriter, decHeader, decPayload, closeReader, closeWriter]

/-- The state with the report registers that ENCODE and DECODE set at their end (R208). -/
def reported (orig : State → BitVec 32) (s : State) : State :=
  { s with
    origBytes := orig s, payloadBytes := payloadByteCount s.codeLen, hdrBytes := headerByteCount s.tableSize }

theorem encodeFile_eq (s : State) : encodeFile s =
    (inOrder encodeSteps s).bind fun _ t => .ok () (reported (fun u => BitVec.ofNat 32 (totalFreq u)) t) := by
  simp only [encodeSteps, inOrder, Res.bind_assoc, Res.bind_ok]
  rfl

theorem decodeFile_eq (s : State) : decodeFile s =
    (inOrder decodeSteps s).bind fun _ t => .ok () (reported State.outcnt t) := by
  simp only [decodeSteps, inOrder, Res.bind_assoc, Res.bind_ok]
  rfl

theorem encode_pipeline : Pipeline false false [.rdOpen, .fqClear, .fqScan, .rdClose, .trBuild, .tbBuild, .wrOpen,
    .encHeader, .rdOpen, .encPayload, .rdClose, .wrClose] encodeSteps :=
  .cons (stage_rdOpen _) <| .cons (stage_fqClear _ _) <| .cons (stage_fqScan _) <| .cons (stage_rdClose _) <|
  .cons (stage_trBuild _ _) <| .cons (stage_tbBuild _ _) <| .cons (stage_wrOpen _) <| .cons (stage_encHeader _) <|
  .cons (stage_rdOpen _) <| .cons stage_encPayload <| .cons (stage_rdClose _) <| .cons (stage_wrClose _) .nil

theorem decode_pipeline : Pipeline false false [.rdOpen, .wrOpen, .decHeader, .decPayload, .rdClose, .wrClose]
    decodeSteps :=
  .cons (stage_rdOpen _) <| .cons (stage_wrOpen _) <| .cons (stage_decHeader _) <| .cons stage_decPayload <|
  .cons (stage_rdClose _) <| .cons (stage_wrClose _) .nil

/-- What ENCODE or DECODE leaves, `o`, beside what its commands one by one leave, `o'`: the same and the report when they all
end `done`, and otherwise the same but for the opcode in ERRCMD (R211). -/
def AgreesWithRun (op : BitVec 8) (orig : State → BitVec 32) (o o' : Host.Outcome State Fault Refusal) : Prop :=
  match o, o' with
  | .next t, .next u =>
    (u.answer = some .done → t = reported orig u) ∧ (u.answer ≠ some .done → SameBut op t u ∧ t.answer = u.answer)
  | .fault f, .fault g => f = g
  | _, _ => False

/-- A command agrees with the pipeline of commands whose pseudocode its own is, but for the report (R202, R207, R211). -/
theorem Pipeline.agreesWithRun {i : Instr} {body : State → Res Unit} {is : List Instr} {fs : List (State → Res Unit)}
    {orig : State → BitVec 32} {s : State} (h : Pipeline false false is fs) (hne : is ≠ []) (hw : i.wellFormed = true)
    (hs : At false false s) (hbody : body s = (inOrder fs s).bind fun _ t => .ok () (reported orig t))
    (horig : ∀ t a, orig (t.answered a) = orig t) :
    AgreesWithRun (opcode i) orig (command i bothClosed body s) (runCommands is s) := by
  have hg : ∀ t a, (reported orig t).answered a = reported orig (t.answered a) := fun t a => by
    simp only [reported, horig]; rfl
  rcases Follows.whole hs.notFaulted hw (bothClosed_of_closed hs.ropen hs.wopen) hbody hg (h.follows hs (.inl hne)) with
    ⟨u, hrun, hdone, hcmd⟩ | ⟨t, u, hcmd, hrun, hdone, hsame, hans⟩ | ⟨f, hcmd, hrun⟩ <;> rw [hcmd, hrun]
  · exact ⟨fun _ => rfl, fun h => absurd hdone h⟩
  · exact ⟨fun h => absurd h hdone, fun _ => ⟨hsame, hans⟩⟩
  · rfl

/-- Settles O49: ENCODE's pseudocode is that of its twelve commands and the report (`encodeFile_eq`). -/
theorem encodeIsItsTwelveCommands : Obligations.EncodeIsItsTwelveCommands := by
  unfold Obligations.EncodeIsItsTwelveCommands
  intro s hf hr hw
  exact encode_pipeline.agreesWithRun (i := .encode) (by simp) rfl ⟨hf, hr, hw⟩ (encodeFile_eq s) fun _ _ => rfl

/-- Settles O50: DECODE's pseudocode is that of its six commands and the report (`decodeFile_eq`). -/
theorem decodeIsItsSixCommands : Obligations.DecodeIsItsSixCommands := by
  unfold Obligations.DecodeIsItsSixCommands
  intro s hf hr hw
  exact decode_pipeline.agreesWithRun (i := .decode) (by simp) rfl ⟨hf, hr, hw⟩ (decodeFile_eq s) fun _ _ => rfl

/-! ### The round trip -/

/-- The table entry of a symbol (30_encoding.md R102). -/
def entryOf (t : State) (c : Symbol) : Entry := ⟨c, t.getCode c, t.getLen c⟩

theorem flatMap_entryOf (t : State) (vs : List Byte) :
    (vs.map (entryOf t)).flatMap Entry.bits = vs.flatMap (symbolBits t) := List.flatMap_map ..

/-- DECODE of what a completed ENCODE of SRC left in SNK (R209). -/
theorem decodeFile_of_encoded {s t u : State} (h : Encoded s t) (hsrc : u.mem.src = t.mem.snk)
    (hs : Served (8 + 6 * t.tableSize.toNat + (t.codeLen.toNat + s.mem.src.length)) u) :
    ∃ v payload, decodeFile u = .ok () v ∧
      DecodedFile u v (tableEntries t) (s.mem.src.map (entryOf t)) payload := by
  obtain ⟨payload, hpk, hmem⟩ := h.file
  have hlen : BitVec.ofNat 32 (s.mem.src.flatMap (symbolBits t)).length = t.codeLen := by
    rw [← h.codeLen, BitVec.ofNat_toNat, BitVec.setWidth_eq]
  have hentry : ∀ e ∈ s.mem.src.map (entryOf t), e ∈ tableEntries t := by
    intro e he
    obtain ⟨c, hc, rfl⟩ := List.mem_map.1 he
    exact mem_tableEntries.2 ⟨(h.present c).2 hc, rfl⟩
  obtain ⟨v, hv, hd⟩ := decodeFile_ok (s := u) (ms := s.mem.src.map (entryOf t)) (payload := payload) (trail := [])
    h.table hentry (by rw [flatMap_entryOf, ← h.codeLen]; exact t.codeLen.isLt) (by rwa [flatMap_entryOf])
    (by rw [flatMap_entryOf, hlen, hsrc, hmem, List.append_nil]) (by rw [hsrc]; exact Nat.lt_of_le_pred (by decide) h.short)
    (by rw [flatMap_entryOf, ← h.codeLen, ← h.tableSize, List.length_map]; exact hs)
  exact ⟨v, payload, hv, hd⟩

/-- Settles O54: the file that `encodeFile_done` describes is one that `decodeFile_ok` reads; the report registers are equal
as the lengths behind them are. -/
theorem roundTrip : Obligations.RoundTrip := by
  unfold Obligations.RoundTrip
  intro s t u hf hr hw hwf ht hdone huf hur huw hsrc hs
  obtain ⟨t, hok, rfl⟩ := command_ended ht hdone
  have he := encodeFile_done hwf hok
  obtain ⟨v, payload, hv, hd⟩ := decodeFile_of_encoded he hsrc hs
  have hcl : v.codeLen = t.codeLen := BitVec.eq_of_toNat_eq (by rw [hd.codeLen, flatMap_entryOf, he.codeLen])
  have hts : v.tableSize = t.tableSize := BitVec.eq_of_toNat_eq (by rw [hd.tableSize, he.tableSize])
  refine ⟨_, command_done huf rfl (bothClosed_of_closed hur huw) hv, rfl,
    ⟨hd.err.trans (faulted_eq_false.1 huf), hd.ropen, hd.wopen⟩, ?_, ?_, ?_, ?_⟩
  · show v.mem.snk = s.mem.src
    rw [hd.mem, List.map_map]
    exact List.map_id _
  · exact BitVec.eq_of_toNat_eq (hd.origBytes.trans ((List.length_map _).trans he.origBytes.symm))
  · show v.payloadBytes = t.payloadBytes
    rw [hd.payloadBytes, he.payloadBytes, hcl]
  · show v.hdrBytes = t.hdrBytes
    rw [hd.hdrBytes, he.hdrBytes, hts]

end Sys2Proof.Machine
end

section
/-! PROOFS. The family 44_archiver.md, single steps and single files: the faults of DEC_HEADER, one DEC_STEP, and the empty
and the one-symbol input. -/

namespace Sys2Proof.Machine

/-! ### DEC_HEADER cut short -/

/-- The state in which DEC_HEADER reads its first length field (44_archiver.md R203): the tree cleared, no bit consumed. -/
def headerStart (s : State) : State :=
  { s with nodes := [Node.emptyInner], root := 0, cur := 0, bitsDone := 0, outcnt := 0 }

/-- SRC ends inside the first length field (R203, R126). -/
theorem decHeader_short_codeLen {s : State} {vs : List Byte} (hd : s.mem.src.drop s.ipos.toNat = vs)
    (hlen : vs.length < 4) (hwf : s.mem.src.length < 2 ^ 32) (hs : Served (vs.length + 1) s) :
    decHeader s = raise .shortRead (metEnd (headerStart s) vs.length) := by
  have hread : readExact 4 (headerStart s) = raise .shortRead (metEnd (headerStart s) vs.length) :=
    readBytes_short vs hd hlen hwf hs
  show (readExact 4 (headerStart s)).bind _ = _
  rw [hread, Res.bind_raise]

/-- SRC ends inside the second length field: the first is kept (R203, R126). -/
theorem decHeader_short_tableSize {s : State} {a : BitVec 32} {vs : List Byte}
    (hd : s.mem.src.drop s.ipos.toNat = word32 a ++ vs) (hlen : vs.length < 4) (hwf : s.mem.src.length < 2 ^ 32)
    (hs : Served (vs.length + 5) s) :
    decHeader s = raise .shortRead { metEnd (headerStart s) (vs.length + 4) with codeLen := a } := by
  have hfirst : readExact 4 (headerStart s) = .ok a (fetched (headerStart s) 4) := by
    rw [← littleEndian_word32 a]
    exact readExact_ok (s := headerStart s) (word32 a) (word32_length a).le hd hwf
      (hs.mono (by rw [word32_length]; omega))
  have hrest : (fetched (headerStart s) 4).mem.src.drop (fetched (headerStart s) 4).ipos.toNat = vs :=
    fetched_drop (s := headerStart s) (vs := word32 a) hwf hd
  have hsecond : readExact 4 { fetched (headerStart s) 4 with codeLen := a } =
      raise .shortRead (metEnd { fetched (headerStart s) 4 with codeLen := a } vs.length) :=
    readBytes_short vs hrest hlen hwf (Served.rest (j := 4) (s := s) (hs.mono (by omega)) rfl)
  show (readExact 4 (headerStart s)).bind _ = _
  rw [hfirst, Res.bind_ok, hsecond, Res.bind_raise, Nat.add_comm vs.length 4, ← metEnd_fetched]
  rfl

/-! ### DEC_HEADER stopped by an entry -/

/-- A length outside 1 to 32 is refused before the tree is looked at (42_code_tree.md R168). -/
theorem treeInsert_badLength {c : Symbol} {code : BitVec 32} {n : Nat} (h : n < 1 ∨ 32 < n) (s : State) :
    treeInsert c code n s = raise .badLength s := if_pos h

/-- The good entries of a table are the LEAFs of the tree made so far, so a code is free of the tree exactly when in the
table with it no code is the beginning of another (R168). -/
theorem pathFree_iff_prefixFree {u : State} {es : List Entry} {e : Entry} (hpf : PrefixFree (es.map Entry.bits))
    (hleaf : ∀ p c, leafSymbol u p = some c ↔ ∃ d ∈ es, d.bits = p ∧ d.sym = c) :
    PathFree u e.bits ↔ PrefixFree ((es ++ [e]).map Entry.bits) := by
  have hsplit : PrefixFree ((es ++ [e]).map Entry.bits) ↔ ∀ d ∈ es, ¬ d.bits <+: e.bits ∧ ¬ e.bits <+: d.bits := by
    simp only [PrefixFree, List.map_append, List.map_cons, List.map_nil, List.pairwise_append, List.pairwise_singleton,
      List.mem_map, List.mem_singleton, forall_eq, forall_exists_index, and_imp, forall_apply_eq_imp_iff₂, true_and]
    exact and_iff_right hpf
  rw [hsplit]
  constructor
  · exact fun h d hd => h d.bits d.sym ((hleaf _ _).2 ⟨d, hd, rfl, rfl⟩)
  · intro h p c hp
    obtain ⟨d, hd, rfl, -⟩ := (hleaf p c).1 hp
    exact h d hd

/-- DEC_HEADER up to the entries behind the good ones: the table loop goes on from a state that `HeaderRead` describes. -/
theorem decHeader_headerRead {s : State} {a b : BitVec 32} {es : List Entry} {ws : List Byte} (hg : GoodTable es)
    (hlt : es.length < b.toNat) (hb : b.toNat ≤ 256)
    (hd : s.mem.src.drop s.ipos.toNat = word32 a ++ word32 b ++ es.flatMap Entry.bytes ++ ws)
    (hwf : s.mem.src.length < 2 ^ 32) (hs : Served (8 + 6 * es.length) s) :
    ∃ k u, decHeader s = readEntries (k + 1) u ∧ u.mem.src.drop u.ipos.toNat = ws ∧
      u.nodes.length + 32 ≤ Config.nodeCap ∧ HeaderRead s a b es (8 + 6 * es.length) u := by
  obtain ⟨k, hk⟩ := Nat.exists_eq_add_of_lt hlt
  rw [List.append_assoc _ _ ws] at hd
  obtain ⟨u, hrun, hsrc, hT, hcap, hleaf, hu⟩ := decHeader_good a b es (k + 1) hg (by omega) hb hd hwf hs
  have hroot : u.root = 0 := by rw [hu]
  refine ⟨k, u, hrun, hsrc, by omega, hT, fun p c => ?_, ?_⟩
  · rw [leafSymbol_eq_some, hroot]
    constructor
    · rintro ⟨g, hg⟩
      obtain ⟨e, he, rfl, rfl, -⟩ := (hleaf p c g).1 hg
      exact ⟨e, he, rfl, rfl⟩
    · rintro ⟨e, he, rfl, rfl⟩
      exact ⟨0, (hleaf _ _ 0).2 ⟨e, he, rfl, rfl, rfl⟩⟩
  · have hne : 8 + 6 * es.length ≠ 0 := by omega
    conv_lhs => rw [hu]
    simp only [fetched, if_neg hne]

/-- `k` more bytes have been read and nothing inserted (R203). -/
theorem HeaderRead.read_on {s u : State} {a b : BitVec 32} {es : List Entry} {n : Nat} (h : HeaderRead s a b es n u)
    (k : Nat) : HeaderRead s a b es (n + k) (fetched u k) := by
  obtain ⟨hT, hleaf, hu⟩ := h
  refine ⟨hT, hleaf, ?_⟩
  conv_lhs => rw [hu]
  simp only [fetched, List.drop_drop, ofNat_add32, ite_self]

/-- DEC_HEADER where the table loop stops at an entry whose six bytes are there. -/
theorem decHeader_stops_at_entry {s : State} {a b : BitVec 32} {es : List Entry} {e : Entry} {ws : List Byte}
    (hg : GoodTable es) (hlt : es.length < b.toNat) (hb : b.toNat ≤ 256)
    (hd : s.mem.src.drop s.ipos.toNat = word32 a ++ word32 b ++ es.flatMap Entry.bytes ++ e.bytes ++ ws)
    (hwf : s.mem.src.length < 2 ^ 32) (hs : Served (8 + 6 * (es.length + 1)) s) :
    ∃ u, HeaderRead s a b es (8 + 6 * (es.length + 1)) u ∧ u.nodes.length + 32 ≤ Config.nodeCap ∧
      ∀ c, treeInsert e.sym e.code e.len.toNat u = raise c u → decHeader s = raise c u := by
  rw [List.append_assoc _ e.bytes] at hd
  obtain ⟨k, u, hrun, hsrc, hcap, hread⟩ := decHeader_headerRead hg hlt hb hd hwf (hs.mono (by omega))
  obtain ⟨-, -, hu⟩ := id hread
  have hmem : u.mem = s.mem := by rw [hu]
  have hserved : Served 6 u := Served.rest (j := 8 + 6 * es.length) (hs.mono (by omega)) (by rw [hu])
  obtain ⟨hentry, -⟩ := readEntries_entry e k hsrc (by rwa [hmem]) hserved
  refine ⟨fetched u 6, hread.read_on 6, hcap, fun c hc => ?_⟩
  rw [hrun, hentry, hc, Res.bind_raise]

/-- DEC_HEADER where SRC ends inside an entry behind the good ones. -/
theorem decHeader_stops_short {s : State} {a b : BitVec 32} {es : List Entry} {vs : List Byte}
    (hg : GoodTable es) (hlt : es.length < b.toNat) (hb : b.toNat ≤ 256)
    (hd : s.mem.src.drop s.ipos.toNat = word32 a ++ word32 b ++ es.flatMap Entry.bytes ++ vs) (hlen : vs.length < 6)
    (hwf : s.mem.src.length < 2 ^ 32) (hs : Served (8 + 6 * es.length + vs.length + 1) s) :
    ∃ u, HeaderRead s a b es (8 + 6 * es.length + vs.length) u ∧
      decHeader s = raise .shortRead { u with eos := true, draws := u.draws.drop 1 } := by
  obtain ⟨k, u, hrun, hsrc, -, hread⟩ := decHeader_headerRead hg hlt hb hd hwf (hs.mono (by omega))
  obtain ⟨-, -, hu⟩ := id hread
  have hmem : u.mem = s.mem := by rw [hu]
  have hserved : Served (vs.length + 1) u := Served.rest (j := 8 + 6 * es.length) hs (by rw [hu])
  refine ⟨fetched u vs.length, hread.read_on vs.length, ?_⟩
  rw [hrun, readEntries_short vs k hsrc hlen (by rwa [hmem]) hserved]
  simp only [metEnd, fetched, List.drop_drop]

/-- Settles O45: the two length fields by `decHeader_short_codeLen`, `decHeader_short_tableSize` and `decHeader_size`; an
entry behind good ones by `decHeader_stops_at_entry`, with what `treeInsert_spec` says of a code that is not free, and
`decHeader_stops_short`. -/
theorem decodeHeaderFaults : Obligations.DecodeHeaderFaults := by
  unfold Obligations.DecodeHeaderFaults
  intro s vs ws hf hr hwf
  have raises {c : Cause} {t : State} (h : decHeader s = raise c t) :
      exec .decHeader s = .next (faultEntry 0x58 c t) := command_raises hf rfl hr h
  refine ⟨fun a b hb hd hs => ?_, fun hd hlen hs => raises (decHeader_short_codeLen hd hlen hwf hs),
    fun a hd hlen hs => raises (decHeader_short_tableSize hd hlen hwf hs),
    fun a b es hg hlt hb => ⟨fun e hd hs => ?_, fun hd hlen hs => ?_⟩⟩
  · obtain ⟨hrun, -⟩ := decHeader_size a b hd hwf hs
    rw [if_pos (by exact hb)] at hrun
    exact raises hrun
  · obtain ⟨u, hread, hcap, hstop⟩ := decHeader_stops_at_entry hg hlt hb hd hwf hs
    refine ⟨fun hbad => ⟨u, hread, raises (hstop _ (treeInsert_badLength hbad u))⟩, fun h1 h32 hnot => ?_⟩
    obtain ⟨hT, hleaf, -⟩ := id hread
    have hconflict : ¬ PathFree u e.bits := mt (pathFree_iff_prefixFree hg.prefixFree hleaf).1 hnot
    rcases treeInsert_spec e.sym e.code e.len.toNat hT hcap h1 h32 with ⟨hfree, -⟩ | ⟨-, hraise⟩
    · exact absurd hfree hconflict
    · exact ⟨u, hread, raises (hstop _ hraise)⟩
  · obtain ⟨u, hread, hraise⟩ := decHeader_stops_short hg hlt hb hd hlen hwf hs
    exact ⟨u, hread, raises hraise⟩

/-! ### DEC_STEP -/

/-- With a bit to consume and none in SRC the payload is truncated (44_archiver.md R205). -/
theorem decStep_truncated {s : State} (hlt : s.bitsDone.toNat < s.codeLen.toNat) (hc : s.rcnt = 0)
    (hend : s.mem.src.length ≤ s.ipos.toNat) (hs : Served 1 s) :
    decStep s = raise .truncatedPayload { s with draws := s.draws.drop 1, eos := true } := by
  rw [decStep, if_neg hlt.not_ge, readBit_end hc hs hend, Res.bind_ok]

/-- A LEAF whose symbol finds SNK full (R204). -/
theorem walkBit_full {s : State} {b : Bool} {q : NodeIdx} {c : Symbol} {f : BitVec 40}
    (hl : Link s.nodes s.cur.toNat b q) (hq : s.nodes[q.toNat]? = some (.leaf c f)) (ho : s.opos = lastPos) :
    walkBit b s = raise .posOverflow s := by
  obtain ⟨n, hn, hc⟩ := hl
  simp only [walkBit, hn, hc, hq, snkByte_full ho, Res.bind_raise]

/-- Settles O46: without a bit by `decStep_idle` and `decStep_truncated`; with one, `decStep_bit` leaves the walk along one
edge, which is split on what the edge leads to (the `walkBit_` lemmas). -/
theorem decodeStepWalksOneEdge : Obligations.DecodeStepWalksOneEdge := by
  unfold Obligations.DecodeStepWalksOneEdge
  intro s hf hr hw
  have hopen := bothOpen_of_open hr hw
  rw [exec_decStep]
  refine ⟨fun hidle => command_done hf rfl hopen (decStep_idle hidle), fun hlt => ⟨fun hc hend hs =>
    command_raises hf rfl hopen (decStep_truncated hlt hc hend hs), fun b t hread => ?_⟩⟩
  have hstep := decStep_bit hread hlt
  have hframe := hread.frame
  obtain ⟨hnodes, hcur, hopos, hbits⟩ :
      t.nodes = s.nodes ∧ t.cur = s.cur ∧ t.opos = s.opos ∧ t.bitsDone = s.bitsDone := by
    rw [hframe]; exact ⟨rfl, rfl, rfl, rfl⟩
  rw [hbits] at hstep
  refine ⟨fun n hn hc => ?_, fun q hl => ⟨fun hq => ?_, fun c f hq => ⟨fun ho hs => ?_, fun ho => ?_⟩⟩⟩
  · exact command_raises hf rfl hopen (hstep.trans (walkBit_missing (by rwa [hnodes, hcur]) hc))
  · exact command_done hf rfl hopen (hstep.trans (walkBit_inner (by rwa [hnodes, hcur]) (by rwa [hnodes])))
  · have hwalk := walkBit_leaf (s := { t with bitsDone := s.bitsDone + 1 }) (by rwa [hnodes, hcur]) (by rwa [hnodes]) hs
      (hopos.trans_ne (mt lastPos_iff.1 ho))
    have hemitted : t.root = s.root ∧ t.outcnt = s.outcnt ∧ t.mem = s.mem := by
      rw [hframe]; exact ⟨rfl, rfl, rfl⟩
    obtain ⟨hroot, houtcnt, hmem⟩ := hemitted
    rw [command_done hf rfl hopen (hstep.trans hwalk), hroot, houtcnt, hmem, hopos]
    rfl
  · exact command_raises hf rfl hopen
      (hstep.trans (walkBit_full (by rwa [hnodes, hcur]) (by rwa [hnodes]) (hopos.trans (lastPos_iff.2 ho))))

/-! ### The empty input -/

/-- A payload of no bits is empty (30_encoding.md R103). -/
theorem Packs.eq_nil {vs : List Byte} (h : Packs vs []) : vs = [] := List.eq_nil_of_length_eq_zero h.length_eq

theorem packs_nil : Packs [] [] := ⟨0, by decide, rfl⟩

/-- The empty table is good. -/
theorem goodTable_nil : GoodTable [] := ⟨Nat.zero_le _, nofun, List.Pairwise.nil⟩

/-- The file of the empty input is eight zero bytes (44_archiver.md R210). -/
theorem fileHeader_empty : fileHeader 0 [] = List.replicate 8 0 := by decide

/-- A completed ENCODE of the empty SRC (R210). -/
theorem Encoded.of_empty {s t : State} (h : Encoded s t) (hsrc : s.mem.src = []) :
    t.mem.snk = List.replicate 8 0 ∧ t.codeLen = 0 ∧ t.tableSize = 0 ∧ t.origBytes = 0 ∧ t.payloadBytes = 0 ∧
      t.hdrBytes = 8 := by
  have habsent : ∀ c, t.getLen c = 0 := fun c => by
    by_contra hc
    have hmem := (h.present c).1 hc
    rw [hsrc] at hmem
    cases hmem
  have htable : tableEntries t = [] := by simp [tableEntries, habsent]
  have hcl : t.codeLen = 0 := BitVec.eq_of_toNat_eq (by rw [h.codeLen, hsrc]; rfl)
  have hts : t.tableSize = 0 := BitVec.eq_of_toNat_eq (by rw [h.tableSize, htable]; rfl)
  obtain ⟨payload, hpk, hmem⟩ := h.file
  rw [hsrc] at hpk
  refine ⟨?_, hcl, hts, BitVec.eq_of_toNat_eq (by rw [h.origBytes, hsrc]; rfl), ?_, ?_⟩
  · rw [hmem, hcl, htable, hpk.eq_nil, fileHeader_empty, List.append_nil]
  · rw [h.payloadBytes, hcl]; rfl
  · rw [h.hdrBytes, hts]; rfl

/-- Settles O55: `encodeFile_ok` ends ENCODE, and `Encoded.of_empty` says how; eight zero bytes are the file of the empty
table and the empty message, which `decodeFile_ok` reads. -/
theorem emptyInputGivesEightZeroBytes : Obligations.EmptyInputGivesEightZeroBytes := by
  unfold Obligations.EmptyInputGivesEightZeroBytes
  intro s hf hr hw
  have hclosed := bothClosed_of_closed hr hw
  refine ⟨fun hsrc hs => ?_, fun hsrc hs => ?_⟩
  · have hlen : s.mem.src.length = 0 := by rw [hsrc]; rfl
    have hdist : distinct s.mem.src = 0 := by rw [hsrc]; simp [distinct]
    obtain ⟨t, hok⟩ := encodeFile_ok (D := 1) (by omega) (by omega) (by omega) (by omega) (hs.mono (by omega))
    exact ⟨_, command_done hf rfl hclosed hok, rfl, (encodeFile_done (by omega) hok).of_empty hsrc⟩
  · obtain ⟨t, hok, hd⟩ := decodeFile_ok (s := s) (es := []) (ms := []) (payload := []) (trail := []) goodTable_nil
      nofun (by decide) packs_nil hsrc (by rw [hsrc]; decide) hs
    have hcl : t.codeLen = 0 := BitVec.eq_of_toNat_eq hd.codeLen
    have hts : t.tableSize = 0 := BitVec.eq_of_toNat_eq hd.tableSize
    refine ⟨_, command_done hf rfl hclosed hok, rfl, ?_, hcl, hts, BitVec.eq_of_toNat_eq hd.origBytes, ?_, ?_⟩
    · exact congrArg Memory.snk hd.mem
    · exact hd.payloadBytes.trans (by rw [hcl]; rfl)
    · exact hd.hdrBytes.trans (by rw [hts]; rfl)

/-! ### Copies of one byte -/

/-- A choice that only one symbol meets, in the order of the alphabet. -/
theorem filter_symbols_eq_singleton {p : Symbol → Bool} {x : Symbol} (h : ∀ c, p c = true ↔ c = x) :
    symbols.filter p = [x] := by
  have hp : p = (· == x) := funext fun c => Bool.eq_iff_iff.2 ((h c).trans beq_iff_eq.symm)
  rw [hp, List.filter_beq, List.count_eq_one_of_mem symbols_nodup (mem_symbols x), List.replicate_one]

theorem distinct_replicate {f : Nat} (hf : f ≠ 0) (x : Byte) : distinct (List.replicate f x) = 1 := by
  rw [distinct, filter_symbols_eq_singleton (x := x) fun c => by simp [hf], List.length_singleton]

/-- In the tree over one LEAF the only path to it is one step to the left (42_code_tree.md R165). -/
theorem path_of_oneLeaf {t : State} {c d : Symbol} {f g : BitVec 40} {bits : List Bool}
    (hn : t.nodes = [.leaf c f, .inner (some 0) none g]) (hr : t.root = 1) (h : leafSymbol t bits = some d) :
    bits = [false] := by
  rw [leafSymbol, hn, hr] at h
  rcases bits with _ | ⟨_ | _, _ | ⟨b, bits⟩⟩
  · cases h
  · rfl
  · cases h
  · cases h
  · cases h

/-- A symbol whose code is the one bit 0 has code 0 and length 1 (30_encoding.md R104). -/
theorem entry_of_zeroBit {t : State} {c : Symbol} (hbits : symbolBits t c = [false])
    (hrange : (t.getCode c).toNat < 2 ^ (t.getLen c).toNat) : t.getCode c = 0 ∧ t.getLen c = 1 := by
  have hlen : (t.getLen c).toNat = 1 := by
    have := congrArg List.length hbits
    rwa [symbolBits, List.length_map, List.length_range] at this
  have hbit : (t.getCode c).toNat.testBit 0 = false := by
    rw [symbolBits, hlen] at hbits
    exact List.head_eq_of_cons_eq hbits
  rw [Nat.testBit_zero, decide_eq_false_iff_not] at hbit
  rw [hlen] at hrange
  exact ⟨BitVec.eq_of_toNat_eq (by show _ = 0; omega), BitVec.eq_of_toNat_eq hlen⟩

/-- A completed ENCODE of copies of one byte has given it the code 0 of length 1, and no other symbol a code (44_archiver.md
R212, 43_table_builder.md R194). -/
theorem Encoded.of_replicate {s t : State} {x : Byte} {f : Nat} (h : Encoded s t) (hf : f ≠ 0)
    (hsrc : s.mem.src = List.replicate f x) : symbolBits t x = [false] ∧ tableEntries t = [⟨x, 0, 1⟩] := by
  have hpresent : ∀ c, t.getLen c ≠ 0 ↔ c = x := fun c => by rw [h.present c, hsrc, List.mem_replicate, and_iff_right hf]
  have hcounted : ∀ c, t.getFreq c ≠ 0 ↔ c = x := fun c => by
    rw [Ne, BitVec.toNat_eq, h.freq c, hsrc]
    simp [List.count_eq_zero, hf]
  have hleaves : freqLeaves t = [.leaf x ((t.getFreq x).setWidth 40)] := by
    rw [freqLeaves, filter_symbols_eq_singleton (x := x) fun c => bne_iff_ne.trans (hcounted c), List.map_singleton]
  obtain ⟨hnodes, hroot⟩ := h.tree
  rw [hleaves] at hnodes hroot
  obtain ⟨hleaf, hrange⟩ := h.leaf x ((hpresent x).2 rfl)
  have hbits := path_of_oneLeaf hnodes hroot hleaf
  obtain ⟨hcode, hlen⟩ := entry_of_zeroBit hbits hrange
  refine ⟨hbits, ?_⟩
  rw [tableEntries, filter_symbols_eq_singleton (x := x) fun c => bne_iff_ne.trans (hpresent c), List.map_singleton,
    hcode, hlen]

/-- The bits of zero bytes. -/
theorem streamBits_zeros (n : Nat) : streamBits (List.replicate n 0) = List.replicate (8 * n) false := by
  induction n with
  | zero => rfl
  | succ n ih =>
    rw [List.replicate_succ, streamBits_cons, ih, Nat.mul_succ, Nat.add_comm, List.replicate_add]
    rfl

/-- Bits all zero take zero bytes (R103). -/
theorem Packs.eq_zeros {vs : List Byte} {n : Nat} (h : Packs vs (List.replicate n false)) :
    vs = List.replicate ((n + 7) / 8) 0 := by
  have hlen := h.length_eq
  obtain ⟨pad, -, h⟩ := h
  rw [← List.replicate_add] at h
  have hbits := congrArg List.length h
  rw [streamBits_length, List.length_replicate] at hbits
  rw [List.length_replicate] at hlen
  refine streamBits_inj ?_
  rw [h, streamBits_zeros, ← hlen, hbits]

/-- Settles O56: `encodeFile_ok` ends ENCODE, and by `Encoded.of_replicate` every byte is coded as the one bit 0. -/
theorem singleSymbolInput : Obligations.SingleSymbolInput := by
  unfold Obligations.SingleSymbolInput
  intro s x f hf hr hw h1 hlt hsrc hs
  have hne : f ≠ 0 := by omega
  have hlen : s.mem.src.length = f := by rw [hsrc, List.length_replicate]
  have hdist : distinct s.mem.src = 1 := by rw [hsrc, distinct_replicate hne]
  obtain ⟨t, hok⟩ := encodeFile_ok (D := 1) (by omega) (by omega) (by omega) (by omega) (hs.mono (by omega))
  have he := encodeFile_done (by omega) hok
  obtain ⟨hbits, htable⟩ := he.of_replicate hne hsrc
  have hcoded : s.mem.src.flatMap (symbolBits t) = List.replicate f false := by
    rw [hsrc, List.flatMap_replicate, hbits, List.flatten_replicate_singleton]
  have hcl : t.codeLen.toNat = f := by rw [he.codeLen, hcoded, List.length_replicate]
  obtain ⟨payload, hpk, hmem⟩ := he.file
  rw [hcoded] at hpk
  refine ⟨_, command_done hf rfl (bothClosed_of_closed hr hw) hok, rfl, hcl, ?_, htable, ?_⟩
  · exact BitVec.eq_of_toNat_eq (he.tableSize.trans (by rw [htable]; rfl))
  · show t.mem.snk = _
    rw [hmem, htable, hpk.eq_zeros]
    rfl

end Sys2Proof.Machine
end

section
/-! PROOFS. The family 45_system.md: the two commands that are one word each, NOP and SRESET, and the malformed words with
their opcodes. -/

namespace Sys2Proof.Machine

/-! ### Malformed words of a row -/

/-- The checks of a row have two verdicts: its command, or BAD_FIELD (30_encoding.md R93 (2)). -/
theorem checkFields_cases (f : Fields) (a b c : Bool) (i : Instr) :
    checkFields f a b c i = .command i ∨ checkFields f a b c i = .badField := by
  unfold checkFields
  split
  · exact .inl rfl
  · exact .inr rfl

/-- Where a row of the opcode map belongs to one command, that command's word is the only one the row accepts (R93). -/
theorem decodeWord_badField_of_row {w : Word} {a b c : Bool} {i : Instr} (hop : opField w = opcode i)
    (hrow : decodeFields { fieldsOf w with op := opcode i } = checkFields (fieldsOf w) a b c i)
    (hw : w ≠ encodeWord i) : decodeWord w = .badField := by
  rw [← hop] at hrow
  have hdec : decodeWord w = checkFields (fieldsOf w) a b c i := hrow
  rcases checkFields_cases (fieldsOf w) a b c i with h | h
  · exact absurd (encodeWord_of_decodeWord (hdec.trans h)).2.symm hw
  · exact hdec.trans h

/-- The `op` field is the word's top byte, as the statements write it (R90). -/
theorem opField_of_shift {w : Word} {op : BitVec 8} (h : w >>> 56 = op.setWidth 64) : opField w = op := by
  have hop : (opField w).toNat = (w >>> 56).toNat := opField_shift w
  refine BitVec.eq_of_toNat_eq ?_
  rw [hop, h, BitVec.toNat_setWidth_of_le (by decide)]

/-- Any other word with such a command's opcode takes fault entry with that opcode (R94, 10_state.md R26). -/
theorem issue_malformed {s : State} {w : Word} {a b c : Bool} {i : Instr} (hf : s.faulted = false)
    (hop : w >>> 56 = (opcode i).setWidth 64)
    (hrow : decodeFields { fieldsOf w with op := opcode i } = checkFields (fieldsOf w) a b c i)
    (hw : w ≠ encodeWord i) : issue w s = .next (faultEntry (opcode i) .badField s) := by
  have hfield := opField_of_shift hop
  rw [issue_of_badField (decodeWord_badField_of_row hfield hrow hw), illegalWord_of_not_faulted hf, hfield]

/-- The word of a well-formed command is that command (R93). -/
theorem issue_encodeWord {i : Instr} (hw : i.wellFormed = true) (s : State) : issue (encodeWord i) s = exec i s :=
  issue_of_command (decodeWord_encodeWord hw) s

/-! ### NOP -/

/-- NOP's word is all zero (30_encoding.md R92). -/
theorem encodeWord_nop : encodeWord .nop = 0x0000000000000000 := by decide

/-- Settles O13: NOP's pseudocode is empty, so the common frame answers and nothing else. -/
theorem nopChangesNothing : Obligations.NopChangesNothing := by
  unfold Obligations.NopChangesNothing
  intro s
  have hissue : issue 0x0000000000000000 s = exec .nop s := encodeWord_nop ▸ issue_encodeWord rfl s
  rw [hissue, exec_nop]
  refine ⟨fun hf => ?_, fun hf w hop hw => ?_, command_rejected⟩
  · exact and_self_iff.2 (command_done hf rfl rfl rfl)
  · exact issue_malformed (i := .nop) hf hop rfl (encodeWord_nop ▸ hw)

/-! ### SRESET -/

/-- An access takes the first of the answers supplied with the command (20_memory.md R78). -/
theorem draw_of_cons {s : State} {a : EnvAnswer} {ds : List EnvAnswer} (h : s.draws = a :: ds) :
    s.draw = (a, { s with draws := ds }) := by
  rw [State.draw, h]

/-- With no answer supplied an access is a free draw: served or failed (R78, log entry 4). -/
theorem draw_of_nil {s : State} (h : s.draws = []) :
    s.draw = (.served, { s with draws := [], freeDraws := s.freeDraws + 1 }) ∨
      s.draw = (.ioErr, { s with draws := [], freeDraws := s.freeDraws + 1 }) := by
  rw [State.draw, h]
  cases Config.ioFail s.freeDraws with
  | false => exact .inl rfl
  | true => exact .inr rfl

/-- SRESET with nothing to flush makes no access (45_system.md R231). -/
theorem exec_sreset_notDue {s : State} (h : ¬ FlushDue true s) :
    exec .sreset s = .next (resetWith s s.mem.snk s.draws s.freeDraws (some .done)) := by
  rw [exec_sreset, finalFlush_notDue h]
  rfl

/-- SRESET with pending bits makes one access: served, it appends the byte; failed, it changes nothing; and at the reset
input there is no answer (R231, 70_reset_and_hazards.md R272). -/
theorem exec_sreset_due {s u : State} {a : EnvAnswer} (h : FlushDue true s) (hd : s.draw = (a, u)) :
    exec .sreset s = .next (resetWith s (if a = .served then s.mem.snk ++ [s.wacc] else s.mem.snk) u.draws u.freeDraws
      (if a = .hwReset then none else some .done)) := by
  have hu : u = s.draw.2 := (congrArg Prod.snd hd).symm
  have hmem : u.mem = s.mem := by rw [hu, draw_state]
  rw [exec_sreset, finalFlush_due h, memWrite, hd]
  cases a <;> simp [hmem, Memory.append]

/-- SRESET's word (30_encoding.md R93). -/
theorem encodeWord_sreset : encodeWord .sreset = 0x0100000000000000 := by decide

/-- Settles O14: SRESET is split on whether the final flush is due and on the answer to its one access
(`exec_sreset_due`); other words with its opcode are malformed, and a faulted block rejects (`issue_rejected`). -/
theorem sresetResetsEveryRegister : Obligations.SresetResetsEveryRegister := by
  unfold Obligations.SresetResetsEveryRegister
  intro s
  refine ⟨encodeWord_sreset ▸ issue_encodeWord rfl s, fun hnone => ?_, fun hw hc hp => ?_,
    fun w hne => ⟨fun hf hop => ?_, fun hf => issue_rejected hf hne⟩⟩
  · refine exec_sreset_notDue ?_
    rintro ⟨-, hw, hc, hp⟩
    rcases hnone with h | h | h
    · exact absurd (h.symm.trans hw) nofun
    · exact hc h
    · exact hp (lastPos_iff.2 h)
  · have hdue : FlushDue true s := ⟨rfl, hw, hc, mt lastPos_iff.1 hp⟩
    exact ⟨fun ds hd => exec_sreset_due hdue (draw_of_cons hd), fun ds hd => exec_sreset_due hdue (draw_of_cons hd),
      fun ds hd => exec_sreset_due hdue (draw_of_cons hd),
      fun hd => (draw_of_nil hd).imp (exec_sreset_due hdue) (exec_sreset_due hdue)⟩
  · exact issue_malformed (i := .sreset) hf hop rfl (encodeWord_sreset ▸ hne)

end Sys2Proof.Machine
end

