-- ==== Sys2Proof/Proofs/Exceptions.lean ====
section
/-! PROOFS. The family 60_exceptions.md: the sequence of fault entry, what it records, and the faulted block. -/

namespace Sys2Proof.Machine

/-! ### Fault entry is the final flush, then the latched state -/

/-- The final flush neither reads nor writes the fault registers (R246), so it may be made before they are latched. -/
theorem finalFlush_latch (b : Bool) (op : BitVec 8) (c : Cause) (s : State) :
    finalFlush b (latch op c s) = ((finalFlush b s).1, latch op c (finalFlush b s).2) := by
  have hdraw : (latch op c s).draw = (s.draw.1, latch op c s.draw.2) := by
    have hds : (latch op c s).draws = s.draws := rfl
    unfold State.draw
    rw [hds]
    cases s.draws <;> rfl
  by_cases hdue : FlushDue b s
  · have hdue' : FlushDue b (latch op c s) := hdue
    rw [finalFlush_due hdue, finalFlush_due hdue']
    unfold memWrite
    rw [hdraw]
    rcases s.draw with ⟨a, u⟩
    cases a <;> rfl
  · have hdue' : ¬ FlushDue b (latch op c s) := hdue
    rw [finalFlush_notDue hdue, finalFlush_notDue hdue']

/-- Fault entry ends latched and released, or in the reset that was asserted at its flush (R246,
70_reset_and_hazards.md R270). -/
theorem faultEntry_eq (op : BitVec 8) (c : Cause) (s : State) :
    faultEntry op c s =
      if (finalFlush (c ≠ .ioSnk) s).1 = .hwReset then hardwareReset (finalFlush (c ≠ .ioSnk) s).2
      else faultLatched op c (finalFlush (c ≠ .ioSnk) s).2 := by
  unfold faultEntry
  rw [finalFlush_latch]
  rcases finalFlush _ s with ⟨a, u⟩
  cases a with
  | served => exact latched_eq op c u
  | ioErr => exact latched_eq op c u
  | hwReset => rfl

/-- Fault entry makes its flush under four conditions (R246). -/
theorem flushDue_fault_iff {c : Cause} {s : State} :
    FlushDue (c ≠ .ioSnk) s ↔ c ≠ .ioSnk ∧ s.wopen = true ∧ s.wcnt ≠ 0 ∧ s.opos.toNat ≠ 2 ^ 32 - 1 := by
  rw [FlushDue, decide_eq_true_iff, Ne, Ne, Ne, lastPos_iff]

/-- Fault entry with no flush due makes no access (R246). -/
theorem faultEntry_notDue {op : BitVec 8} {c : Cause} {s : State} (h : ¬ FlushDue (c ≠ .ioSnk) s) :
    faultEntry op c s = faultLatched op c s := by
  rw [faultEntry_eq, finalFlush_notDue h]
  rfl

section Due

variable {op : BitVec 8} {c : Cause} {s u : State} (h : FlushDue (c ≠ .ioSnk) s)
include h

/-- A served flush appends the pending byte and raises OPOS (R246). -/
theorem faultEntry_flush_served (hd : s.draw = (.served, u)) :
    faultEntry op c s = faultLatched op c { u with mem := u.mem.append s.wacc, opos := u.opos + 1 } := by
  rw [faultEntry_eq, finalFlush_due h, memWrite, hd]
  rfl

/-- A flush that the medium fails is ignored (R246). -/
theorem faultEntry_flush_ioErr (hd : s.draw = (.ioErr, u)) : faultEntry op c s = faultLatched op c u := by
  rw [faultEntry_eq, finalFlush_due h, memWrite, hd]
  rfl

/-- The reset input at the flush takes the place of fault entry (70_reset_and_hazards.md R270). -/
theorem faultEntry_flush_hwReset (hd : s.draw = (.hwReset, u)) : faultEntry op c s = hardwareReset u := by
  rw [faultEntry_eq, finalFlush_due h, memWrite, hd]
  rfl

end Due

/-- An access with no answer supplied leaves the state but for the count of free draws (20_memory.md R78). -/
theorem draw_free {s : State} (h : s.draws = []) :
    s.draw = (.served, { s with freeDraws := s.freeDraws + 1 }) ∨
      s.draw = (.ioErr, { s with freeDraws := s.freeDraws + 1 }) := by
  have hds : { s with draws := [], freeDraws := s.freeDraws + 1 } = { s with freeDraws := s.freeDraws + 1 } := by rw [← h]
  exact hds ▸ draw_of_nil h

/-- Settles O7: fault entry is split on whether its flush is due and on the answer to its one access. -/
theorem faultEntrySequence : Obligations.FaultEntrySequence := by
  unfold Obligations.FaultEntrySequence
  intro op c s
  refine ⟨fun hnone => faultEntry_notDue fun hdue => ?_, fun hw hc hsnk hp => ?_⟩
  · obtain ⟨hsnk, hw, hc, hp⟩ := flushDue_fault_iff.1 hdue
    rcases hnone with h | h | h | h
    · exact absurd (h.symm.trans hw) nofun
    · exact hc h
    · exact hsnk h
    · exact hp h
  · have hdue : FlushDue (c ≠ .ioSnk) s := flushDue_fault_iff.2 ⟨hsnk, hw, hc, hp⟩
    exact ⟨fun ds hd => faultEntry_flush_served hdue (draw_of_cons hd),
      fun ds hd => faultEntry_flush_ioErr hdue (draw_of_cons hd),
      fun ds hd => faultEntry_flush_hwReset hdue (draw_of_cons hd),
      fun hd => (draw_free hd).imp (faultEntry_flush_served hdue) (faultEntry_flush_ioErr hdue)⟩

/-! ### What a fault records -/

/-- Every cause has its row in the table of R242, with the numbers that fault entry latches. -/
theorem mem_causeTable (c : Cause) : (c, c.err.toNat, c.info.toNat) ∈ causeTable := by
  cases c <;> decide

/-- No class of R241 is numbered 0, so a latched cause leaves the block faulted (10_state.md R24). -/
theorem Cause.err_ne_zero (c : Cause) : c.err ≠ 0 := by
  cases c <;> decide

/-- Settles O8: fault entry is latched and released or a reset (`faultEntry_cases`), and a reset does not answer. -/
theorem faultRecordsItsCause : Obligations.FaultRecordsItsCause := by
  unfold Obligations.FaultRecordsItsCause
  intro op c s hans
  rcases faultEntry_cases op c s with ⟨t, ht, herr, hinfo, hcmd⟩ | ⟨t, ht⟩ <;> rw [ht] at hans ⊢
  · refine ⟨⟨_, _, mem_causeTable c, ?_, ?_⟩, ?_, ?_, ?_, ?_⟩
    · simp [herr]
    · simp [hinfo]
    · simp [hcmd]
    · simpa [State.faulted, herr] using Cause.err_ne_zero c
    · simp
    · simp
  · cases hans

/-! ### The faulted block -/

/-- The answer of the command port is no register (log entry 3), so no read shows it (10_state.md R49). -/
theorem readPort_answered (s : State) (a : Answer) (ra : BitVec 32) : readPort (s.answered a) ra = readPort s ra := rfl

/-- Settles O11: SRESET's word is the one word that `issue_rejected` leaves out, and SRESET always completes
(`exec_sreset`). -/
theorem faultedBlockRejectsEveryOtherWord : Obligations.FaultedBlockRejectsEveryOtherWord := by
  unfold Obligations.FaultedBlockRejectsEveryOtherWord
  intro s w herr
  have hf : s.faulted = true := by simpa [State.faulted] using herr
  refine ⟨issue_rejected hf, ?_, readPort_answered s .rejected⟩
  rintro rfl
  have hissue : issue 0x0100000000000000 s = exec .sreset s := encodeWord_sreset ▸ issue_encodeWord rfl s
  exact ⟨_, hissue.trans (exec_sreset s), exec_sreset s⟩

end Sys2Proof.Machine
end
